-- ==== Sys2Proof/Word.lean ====
section
/-! DEFINITION. The word types of Treny (R3, R143, R222): 64-bit scalars, 32-bit lanes, bytes, and vector values. -/

namespace Sys2Proof

/-- A 64-bit scalar word (R143). -/
abbrev Word := BitVec 64

/-- One byte of memory (R3). -/
abbrev Byte := BitVec 8

/-- One 32-bit lane of a vector register (R222). -/
abbrev Lane := BitVec 32

/-- The value of a vector register: lane `i` is element `i` (R222). -/
abbrev VVal := Vector Lane 32

end Sys2Proof
end

