-- ==== Sys2Proof/Syntax.lean ====
section
/-! DEFINITION. The syntax of the machine: operand forms of Treny instructions (R63 to R71) and `Instr`, one constructor
for every row of spec/opcode_table.json. The constructors up to `tlbinvAll` are the instructions a strand issues; those from
`tlbinvComplete` on are the steps of the device and of the world outside it, which have no encoding. -/

namespace Sys2Proof

/-- Scalar register number `s0` to `s31` (R65). -/
abbrev SReg := Fin 32
/-- Vector register number `v0` to `v31` (R65). -/
abbrev VReg := Fin 32
/-- Predicate number `p0` to `p7` (R65). -/
abbrev PReg := Fin 8
/-- Tile number `t0` to `t11` (R65). -/
abbrev Tile := Fin 12
/-- Accumulator number `a0` to `a3` (R65). -/
abbrev Acc := Fin 4

/-- A guard (R67): the predicate it names and whether it is complemented. `p0` uncomplemented is "always". -/
structure Guard where
  p   : PReg
  neg : Bool
  deriving DecidableEq, Repr

/-- Operand b of the scalar mould (R64, R145): a register (64-bit form), IMM32 (96-bit), IMM64 (128-bit). -/
inductive Src where
  | reg   (r : SReg)
  | imm32 (i : BitVec 32)
  | imm64 (i : BitVec 64)
  deriving DecidableEq, Repr

/-- An operand that is a scalar register (64-bit form) or IMM32 (96-bit form). -/
inductive Src96 where
  | reg (r : SReg)
  | imm (i : BitVec 32)
  deriving DecidableEq, Repr

/-- An operand that is a scalar register (64-bit form) or IMM64 (128-bit form). -/
inductive Src128 where
  | reg (r : SReg)
  | imm (i : BitVec 64)
  deriving DecidableEq, Repr

/-- A register of either class (R191 CLS): scalar or vector. -/
inductive SV where
  | s (r : SReg)
  | v (r : VReg)
  deriving DecidableEq, Repr

/-- The data of a `SEND` (R196): a register of either class, or IMM32 in the 96-bit form. -/
inductive SendVal where
  | s   (r : SReg)
  | v   (r : VReg)
  | imm (i : BitVec 32)
  deriving DecidableEq, Repr

/-- An item of a port, or a value sent to a register (R252). -/
inductive Item where
  | scalar (w : Word)
  | vector (v : VVal)
  deriving DecidableEq, Repr

/-- MULH variants (R145): signed, `.u`, `.su`. -/
inductive MulhKind where
  | ss | uu | su
  deriving DecidableEq, Repr

/-- The position and length of EXT and INS (R148): a register, or the fields of IMM32. -/
inductive FieldSpec where
  | reg (b : SReg)
  | imm (pos : BitVec 6) (len : BitVec 7)
  deriving DecidableEq, Repr

/-- CMP conditions (R150). -/
inductive Cond where
  | eq | ne | lt | ge | ltu | geu | tst | ntst
  deriving DecidableEq, Repr

/-- BR conditions: CMP FN 0 to 5 (R158). -/
inductive BrCond where
  | eq | ne | lt | ge | ltu | geu
  deriving DecidableEq, Repr

/-- FCMP conditions (R154). -/
inductive FCond where
  | eq | ne | lt | le | un
  deriving DecidableEq, Repr

/-- VCMP conditions (R231). -/
inductive VCond where
  | eq | ne | lt | le | gt | ge | un
  deriving DecidableEq, Repr

/-- PLOG operations of two predicates (R151). -/
inductive PlogOp where
  | and | or | xor | andn
  deriving DecidableEq, Repr

/-- PLOG operands (R151). -/
inductive PlogArg where
  | two   (op : PlogOp) (a b : PReg)
  | twoImm (op : PlogOp) (a : PReg) (i : BitVec 32)
  | not   (a : PReg)
  deriving DecidableEq, Repr

/-- Rounding codes (R70, R91). -/
inductive Rm where
  | rne | rz | rup | rdn | sr
  deriving DecidableEq, Repr

/-- Number formats by their codes (R90). -/
inductive Fmt where
  | i8 | ui8 | i16 | i32 | i64 | f32 | f16 | bf16 | e4m3 | e5m2 | e2m1 | e8m0 | mxe4m3 | mxe5m2 | mxe2m1
  deriving DecidableEq, Repr

/-- FAFLD variants (R157). -/
inductive FaField where
  | x | y | xu | yu | sp | off | dev
  deriving DecidableEq, Repr

/-- Addressing modes (R25). -/
inductive Mode where
  | abs | self | gang | loc
  deriving DecidableEq, Repr

/-- Order codes (R70). -/
inductive Order where
  | plain | acq | rel | ar
  deriving DecidableEq, Repr

/-- LD widths (R174). -/
inductive LdW where
  | b | h | w | d | bs | hs | ws
  deriving DecidableEq, Repr

/-- ST widths (R174). -/
inductive StW where
  | b | h | w | d
  deriving DecidableEq, Repr

/-- The offset of LD, ST, LDV, STV (R173): none (64-bit form), IMM32, IMM64; `post` is post-increment. -/
inductive Off where
  | none
  | imm32 (i : BitVec 32) (post : Bool)
  | imm64 (i : BitVec 64) (post : Bool)
  deriving DecidableEq, Repr

/-- The offset of AMO and CAS (R178). -/
inductive Off96 where
  | none
  | imm (i : BitVec 32)
  deriving DecidableEq, Repr

/-- AMO operations (R178). -/
inductive AmoOp where
  | add | and | or | xor | min | max | minu | maxu | swap
  deriving DecidableEq, Repr

/-- PHASE scopes (R189, R212). -/
inductive Scope where
  | quad | gang | device | domain | system
  deriving DecidableEq, Repr

/-- Access paths (R190, R216). -/
inductive Path where
  | core | copy | matrix | reduce
  deriving DecidableEq, Repr

/-- SENDN directions (R200). -/
inductive Dir where
  | n | e | s | w | q
  deriving DecidableEq, Repr

/-- SENDN operands (R200): both of one class. -/
inductive SendnRegs where
  | s (d a : SReg)
  | v (d a : VReg)
  deriving DecidableEq, Repr

/-- EXPECT operands (R194). -/
inductive ExpectArg where
  | s     (r : SReg)
  | v     (r : VReg)
  | sMask (m : BitVec 32)
  | vMask (m : BitVec 32)
  deriving DecidableEq, Repr

/-- CAPMK forms (R192). -/
inductive CapForm where
  | idx    (a : SReg)
  | idxImm (i : BitVec 8)
  | other  (a b : SReg)
  deriving DecidableEq, Repr

/-- The mask of GETANY (R274). -/
inductive MaskSrc where
  | reg (b : SReg)
  | imm (m : BitVec 8)
  deriving DecidableEq, Repr

/-- Lane patterns (R69, R224). -/
inductive Pat where
  | none
  | rot (k : BitVec 5)
  | rev
  | xor (k : BitVec 3)
  | bcast (k : BitVec 5)
  | gbcast (k : BitVec 3)
  deriving DecidableEq, Repr

/-- A vector register read under a lane pattern (R224). -/
structure VOp where
  r   : VReg
  pat : Pat
  deriving DecidableEq, Repr

/-- The last vector source (R226): a register under a pattern, or IMM32 in every lane. -/
inductive VSrc where
  | reg (o : VOp)
  | imm (i : BitVec 32)
  deriving DecidableEq, Repr

/-- VFMA width variants (R229): none, `.wlo`, `.whi`. -/
inductive Wide where
  | no | lo | hi
  deriving DecidableEq, Repr

/-- VMOV sources (R233). -/
inductive VMovSrc where
  | v   (o : VOp)
  | imm (i : BitVec 32)
  | s   (r : SReg)
  deriving DecidableEq, Repr

/-- Lane selection of VEXT and VINS (R234). -/
inductive LaneSel where
  | imm (k : Fin 32)
  | reg (b : SReg)
  deriving DecidableEq, Repr

/-- Operations of VRED, VSCAN and RED (R239, R319). -/
inductive RedOp where
  | add | max | min
  deriving DecidableEq, Repr

/-- What RNGSKIP adds (R247). -/
inductive SkipSrc where
  | regs (a b : SReg)
  | imm  (i : BitVec 64) (hi : Bool)
  deriving DecidableEq, Repr

/-- A vector register of a plan context (R303). -/
inductive PlanReg where
  | f | g | a | b
  deriving DecidableEq, Repr

/-- What PLANRD reads (R303). -/
inductive PlanRd where
  | vec (r : PlanReg) (d : VReg)
  | st  (d : SReg)
  | res (d : SReg)
  | dot (d : SReg)
  deriving DecidableEq, Repr

/-- A reduction group (R315). -/
inductive Grp where
  | gang (k : Fin 8)
  | domain (n : Fin 32)
  deriving DecidableEq, Repr

/-! ### Payloads of the device's steps -/

/-- What an invalidation covers (R352): one page of an address space, an address space, everything. -/
inductive Cover where
  | page (asid : Nat) (va : Nat)
  | asid (asid : Nat)
  | all
  deriving DecidableEq, Repr

/-- Who waits for an invalidation: a strand's sD, a host command, the lightship (R352, R376, R379). -/
inductive InvalFor where
  | strand (key : Nat) (d : SReg)
  | host (tag : BitVec 32)
  | lightship
  deriving DecidableEq, Repr

/-- Where a launch record comes from (R119, R120): a strand and its sD, with the cycle sD is written, or a host tag. -/
inductive LaunchFrom where
  | strand (key : Nat) (d : SReg) (ready : Nat)
  | host (tag : BitVec 32)
  deriving DecidableEq, Repr

/-- A register send on its way (R196, R197, R201): capability, value, sender, sD of `SEND.c`, whether an outcome is to be reported,
cycle at which a status is returned; the cycle up to which its sender's accesses happen before the read of its value (0 for none,
R199, R215), whether it goes by the tree of a multicast (R371), and whether it is a release itself. -/
structure SendMsg where
  cap    : Word
  val    : Item
  sender : Nat
  status : Option SReg
  report : Bool
  back   : Nat
  rel    : Nat := 0
  tree   : Bool := false
  release : Bool := false
  deriving DecidableEq, Repr

/-- One access that a core makes to another quad, or to its own, after resolution (R26, R173): quad and offset in a space. -/
structure Loc where
  quad  : Nat
  space : Nat
  off   : Nat
  deriving DecidableEq, Repr

/-- A remote store or atomic on its way to its bank (R175, R178). -/
inductive RemoteWrite where
  | st  (loc : Loc) (n : Nat) (val : Word) (key : Nat)
  | stv (loc : Loc) (mask : BitVec 32) (val : VVal) (key : Nat)
  | amo (loc : Loc) (n : Nat) (op : AmoOp) (val : Word) (key : Nat) (d : SReg) (ready : Nat)
  | cas (loc : Loc) (n : Nat) (old new : Word) (key : Nat) (d : SReg) (ready : Nat)
  | join (loc : Loc) (key : Nat) (d : SReg) (queue : Word) (permit : Bool) (rec : VVal) (ready : Nat)
  deriving DecidableEq, Repr

/-- A remote load on its way (R175): what it reads, the strand and register it returns to, and the cycle of delivery. -/
inductive RemoteRead where
  | ld  (loc : Loc) (w : LdW) (key : Nat) (d : SReg) (ready : Nat)
  | ldv (loc : Loc) (mask : BitVec 32) (key : Nat) (d : VReg) (ready : Nat)
  deriving DecidableEq, Repr

/-- An operation at a timeline (R134, R135): by a strand with its sD, by the host, or a grid's completion. -/
inductive TlOp where
  | sig  (n : Nat) (inc : Word) (key : Nat) (d : SReg) (cap : Word) (back : Nat)
  | wait (n : Nat) (th : Word) (key : Nat) (d : SReg)
  | rd   (n : Nat) (key : Nat) (d : SReg) (back : Nat)
  | set  (n : Nat) (val : Word) (key : Nat) (d : SReg) (back : Nat)
  deriving DecidableEq, Repr

/-- An operation at a task queue (R141). -/
inductive TqOp where
  | push  (cap : Word) (rec : VVal) (permit : Bool) (key : Nat) (d : SReg) (back : Nat)
  | joinPush (cap : Word) (rec : VVal) (permit : Bool) (key : Nat) (d : SReg) (back : Nat)
  | rsv   (cap : Word) (n : Word) (key : Nat) (d : SReg) (back : Nat)
  | rel   (cap : Word) (n : Word) (key : Nat) (d : SReg) (back : Nat)
  | pop   (cap : Word) (key : Nat) (d : SReg) (v : VReg)
  | popTry (cap : Word) (key : Nat) (d : SReg) (v : VReg) (back : Nat)
  deriving DecidableEq, Repr

/-- A host connection and whether its delivery is ordered: ROD, else RUD (R374, R377). -/
structure Conn where
  id  : Nat
  rod : Bool
  deriving DecidableEq, Repr

/-- What names an RMA: the connection it came on and its tag (R374, R375). -/
structure RmaTag where
  conn : Conn
  tag  : BitVec 32
  deriving DecidableEq, Repr

/-- A packet promoted at a router (R369): the router, the packet, its lost cycles there, its input port, the output it is for. -/
structure Promo where
  router : Nat
  id     : Nat
  lost   : Nat
  port   : Nat
  out    : Nat
  deriving DecidableEq, Repr

/-- A host command (R376): its connection and its 128 bytes, byte 0 in bits 7 to 0. -/
structure HostCmd where
  conn  : Conn
  bytes : BitVec 1024
  deriving DecidableEq, Repr

/-- A window put on its way (R204): window capability, offset, the local bytes read, the putting strand and its counter, and where its copy slot lies. -/
structure PutMsg where
  cap    : Word
  off    : Word
  bytes  : List Byte
  key    : Nat
  k      : Fin 4
  quad   : Nat
  ticket : Nat
  deriving DecidableEq, Repr

/-- A fault on its way to the dispatch engine (R346, R391): grid, fault code, sub-code, gang index, strand, TPC, TVAL, MACHINE record. -/
structure FaultMsg where
  grid : Nat
  code : BitVec 8
  sub  : BitVec 8
  gang : Nat
  sidx : Nat
  tpc  : Word
  tval : Word
  err  : BitVec 192
  deriving DecidableEq, Repr

/-- NVMe administration by the lightship (R357, R379). -/
inductive NvmeOp where
  | init (port : Nat) (ok : Bool)
  | createQueues (port : Nat)
  | deleteQueues (port : Nat)
  deriving DecidableEq, Repr

/-- Every row of spec/opcode_table.json, in the table's order but for the acts of the outside world that no step of the
device posts, which stand last. -/
inductive Instr where
  -- scalar integer (R145 to R150)
  | nop  (g : Guard)
  | add  (g : Guard) (d a : SReg) (b : Src)
  | sub  (g : Guard) (d a : SReg) (b : Src)
  | mul  (g : Guard) (d a : SReg) (b : Src)
  | mulh (g : Guard) (k : MulhKind) (d a : SReg) (b : Src)
  | div  (g : Guard) (u : Bool) (d a : SReg) (b : Src)
  | rem  (g : Guard) (u : Bool) (d a : SReg) (b : Src)
  | and  (g : Guard) (d a : SReg) (b : Src)
  | or   (g : Guard) (d a : SReg) (b : Src)
  | xor  (g : Guard) (d a : SReg) (b : Src)
  | andn (g : Guard) (d a : SReg) (b : Src)
  | shl  (g : Guard) (d a : SReg) (b : Src)
  | shr  (g : Guard) (d a : SReg) (b : Src)
  | sar  (g : Guard) (d a : SReg) (b : Src)
  | rotl (g : Guard) (d a : SReg) (b : Src)
  | min  (g : Guard) (u : Bool) (d a : SReg) (b : Src)
  | max  (g : Guard) (u : Bool) (d a : SReg) (b : Src)
  | clz  (g : Guard) (d a : SReg)
  | ctz  (g : Guard) (d a : SReg)
  | popc (g : Guard) (d a : SReg)
  | ext  (g : Guard) (signed : Bool) (d a : SReg) (f : FieldSpec)
  | ins  (g : Guard) (d a : SReg) (f : FieldSpec)
  | sel  (g : Guard) (d : SReg) (p : PReg) (a : SReg) (b : Src)
  | mov  (g : Guard) (d : SReg) (b : Src)
  | cmp  (g : Guard) (c : Cond) (d : PReg) (a : SReg) (b : Src)
  -- predicates (R151, R152)
  | plog  (g : Guard) (d : PReg) (x : PlogArg)
  | pmov  (g : Guard) (d : PReg) (a : Src96)
  | pmovS (g : Guard) (d : SReg) (a : PReg)
  | pmovB (g : Guard) (d : PReg) (a : SReg)
  -- scalar FP32 (R153 to R155)
  | fadd (g : Guard) (sub : Bool) (rm : Rm) (d a : SReg) (b : Src96)
  | fmul (g : Guard) (rm : Rm) (d a : SReg) (b : Src96)
  | ffma (g : Guard) (rm : Rm) (d a : SReg) (b : Src96) (c : SReg)
  | fminmax (g : Guard) (max : Bool) (d a : SReg) (b : Src96)
  | fcmp (g : Guard) (c : FCond) (d : PReg) (a : SReg) (b : Src96)
  | fcvt (g : Guard) (u sat : Bool) (rm : Rm) (dst src : Fmt) (d a : SReg)
  -- fabric addresses (R156, R157)
  | mkfa (g : Guard) (d a : SReg) (off : Src96) (k : BitVec 3)
  | fafld (g : Guard) (f : FaField) (d a : SReg)
  -- control transfer (R158 to R162)
  | br   (g : Guard) (c : BrCond) (a b : SReg) (disp : BitVec 32)
  | jmp  (g : Guard) (disp : BitVec 32)
  | call (g : Guard) (d : SReg) (disp : BitVec 32)
  | callr (g : Guard) (d a : SReg)
  | ret  (g : Guard) (a : SReg)
  | loop (g : Guard) (d : SReg) (disp : BitVec 32)
  | exit (g : Guard)
  | yield (g : Guard)
  -- control registers and system (R163 to R171)
  | mfc  (g : Guard) (d : SReg) (n : BitVec 12)
  | mtc  (g : Guard) (n : BitVec 12) (a : SReg)
  | trap (g : Guard) (a : Src96)
  | trapSys (g : Guard) (i : BitVec 32)
  | rte  (g : Guard)
  | flare (g : Guard)
  | park (g : Guard)
  | halt (g : Guard)
  -- memory (R173 to R181)
  | ld  (g : Guard) (w : LdW) (m : Mode) (acq : Bool) (d a : SReg) (off : Off)
  | st  (g : Guard) (w : StW) (m : Mode) (rel : Bool) (a : SReg) (off : Off) (c : SReg)
  | ldv (g : Guard) (m : Mode) (d : VReg) (a : SReg) (off : Off)
  | stv (g : Guard) (m : Mode) (a : SReg) (off : Off) (c : VReg)
  | amo (g : Guard) (op : AmoOp) (dw : Bool) (m : Mode) (o : Order) (d a : SReg) (off : Off96) (b : SReg)
  | cas (g : Guard) (dw : Bool) (m : Mode) (o : Order) (d a : SReg) (off : Off96) (b c : SReg)
  | taglk  (g : Guard) (d a : SReg)
  | tagset (g : Guard) (d a b : SReg)
  | tagclr (g : Guard) (d a : SReg)
  -- copy engine and fences (R182 to R190)
  | copyIn  (g : Guard) (m : Mode) (d a b c : SReg) (rowb : BitVec 32) (rows : BitVec 20)
  | copyOut (g : Guard) (m : Mode) (d a b c : SReg) (rowb : BitVec 32) (rows : BitVec 20)
  | copyst (g : Guard) (d a : SReg)
  | waitt  (g : Guard) (a : SReg)
  | testc  (g : Guard) (d a : SReg)
  | phase  (g : Guard) (sc : Scope)
  | xfence (g : Guard) (src dst : Path)
  -- sends and windows (R192 to R206)
  | send  (g : Guard) (rel : Bool) (a : SReg) (v : SendVal)
  | sendC (g : Guard) (rel : Bool) (d a : SReg) (v : SendVal)
  | sendn (g : Guard) (dir : Dir) (r : SendnRegs)
  | sendm (g : Guard) (k : Fin 8) (a : SV)
  | expect (g : Guard) (x : ExpectArg)
  | capmk (g : Guard) (d : SReg) (f : CapForm) (vec : Bool) (reg : Fin 32)
  | wput  (g : Guard) (m : Mode) (k : Fin 4) (a b c : SReg) (len : BitVec 32)
  | wwait (g : Guard) (d : SReg) (k : Fin 4) (b : Src96)
  | wwaitR (g : Guard) (d a : SReg) (b : Src96)
  | wcnt  (g : Guard) (d : SReg) (k : Fin 4)
  | wcntR (g : Guard) (d a : SReg)
  | wcntClr (g : Guard) (d : SReg) (k : Fin 4)
  -- ports (R273 to R279)
  | put  (g : Guard) (d a : SReg) (b : SV)
  | get  (g : Guard) (d : SV) (a c : SReg)
  | putd (g : Guard) (d a : SReg) (b : SV) (c : SReg)
  | getd (g : Guard) (d : SV) (a b c : SReg)
  | getany (g : Guard) (d : SV) (a : SReg) (m : MaskSrc) (c : SReg)
  | close (g : Guard) (d a : SReg)
  | bar   (g : Guard)
  | conld (g : Guard) (d a : SReg)
  | conul (g : Guard) (d a : SReg)
  -- task queues, timelines, launch (R120, R135, R141)
  | tqpush    (g : Guard) (d a : SReg) (b : VReg)
  | tqpushP   (g : Guard) (d a : SReg) (b : VReg)
  | tqpushRsv (g : Guard) (d a c : SReg)
  | tqpushRel (g : Guard) (d a c : SReg)
  | tqpop     (g : Guard) (d : SReg) (v : VReg) (a : SReg)
  | tqpopTry  (g : Guard) (d : SReg) (v : VReg) (a : SReg)
  | join  (g : Guard) (m : Mode) (d a b : SReg) (c : VReg)
  | joinP (g : Guard) (m : Mode) (d a b : SReg) (c : VReg)
  | tlsig  (g : Guard) (d a : SReg) (b : Src96)
  | tlwait (g : Guard) (d a : SReg) (b : Src128)
  | tlrd   (g : Guard) (d a : SReg)
  | tlrdSet (g : Guard) (d a b : SReg)
  | launch (g : Guard) (m : Mode) (d a : SReg)
  -- vector (R229 to R248)
  | vadd (g : Guard) (t : Fmt) (rm : Rm) (sati : Bool) (d : VReg) (a : VOp) (b : VSrc)
  | vsub (g : Guard) (t : Fmt) (rm : Rm) (sati : Bool) (d : VReg) (a : VOp) (b : VSrc)
  | vmul (g : Guard) (t : Fmt) (rm : Rm) (sati : Bool) (d : VReg) (a : VOp) (b : VSrc)
  | vfma (g : Guard) (t : Fmt) (w : Wide) (rm : Rm) (sati : Bool) (d : VReg) (a : VOp) (b : VSrc) (c : VReg)
  | vmin (g : Guard) (t : Fmt) (u : Bool) (d : VReg) (a : VOp) (b : VSrc)
  | vmax (g : Guard) (t : Fmt) (u : Bool) (d : VReg) (a : VOp) (b : VSrc)
  | vabs (g : Guard) (t : Fmt) (sati : Bool) (d : VReg) (a : VOp)
  | vneg (g : Guard) (t : Fmt) (sati : Bool) (d : VReg) (a : VOp)
  | vand (g : Guard) (d : VReg) (a : VOp) (b : VSrc)
  | vor  (g : Guard) (d : VReg) (a : VOp) (b : VSrc)
  | vxor (g : Guard) (d : VReg) (a : VOp) (b : VSrc)
  | vshl (g : Guard) (t : Fmt) (d : VReg) (a : VOp) (b : VSrc)
  | vshr (g : Guard) (t : Fmt) (u : Bool) (d : VReg) (a : VOp) (b : VSrc)
  | vcmp (g : Guard) (t : Fmt) (u : Bool) (c : VCond) (d : PReg) (a : VOp) (b : VSrc)
  | vsel (g : Guard) (d : VReg) (p : PReg) (a b : VOp)
  | vmov (g : Guard) (d : VReg) (x : VMovSrc)
  | vext (g : Guard) (signed : Bool) (d : SReg) (a : VOp) (k : LaneSel)
  | vins (g : Guard) (d : VReg) (a : SReg) (k : LaneSel)
  | vperm (g : Guard) (d : VReg) (a b : VOp) (c : Option VReg)
  | vcvt (g : Guard) (u : Bool) (part : BitVec 2) (sat : Bool) (rm : Rm) (dst src : Fmt) (d : VReg) (a : VOp)
  | vpack (g : Guard) (t : Fmt) (sat : Bool) (rm : Rm) (d : VReg) (a : VOp) (k : Fin 8) (c : SReg)
  | vunpk (g : Guard) (t : Fmt) (d : VReg) (a : VOp) (k : Fin 8) (c : SReg)
  | vdot (g : Guard) (t : Fmt) (rm : Rm) (sati : Bool) (d : VReg) (a b : VOp)
  | vred (g : Guard) (op : RedOp) (t : Fmt) (rm : Rm) (sati : Bool) (d : SReg) (a : VOp)
  | vscan (g : Guard) (op : RedOp) (t : Fmt) (rm : Rm) (sati : Bool) (d : VReg) (a : VOp)
  | vscana (g : Guard) (rm : Rm) (d : VReg) (a b : VOp)
  | vrcp  (g : Guard) (d : VReg) (a : VOp)
  | vrsq  (g : Guard) (d : VReg) (a : VOp)
  | vsqrt (g : Guard) (rm : Rm) (d : VReg) (a : VOp)
  | vexp2 (g : Guard) (d : VReg) (a : VOp)
  | vlog2 (g : Guard) (d : VReg) (a : VOp)
  | vsin  (g : Guard) (d : VReg) (a : VOp)
  | vcos  (g : Guard) (d : VReg) (a : VOp)
  | vtanh (g : Guard) (d : VReg) (a : VOp)
  | vrng  (g : Guard) (f32 : Bool) (d : VReg)
  | rngskip (g : Guard) (x : SkipSrc)
  | vsort (g : Guard) (t : Fmt) (dn : Bool) (d : VReg) (a : VOp) (b : Option VOp)
  -- matrix (R287 to R298)
  | tld   (g : Guard) (d : Tile) (a b : SReg) (j : Option SReg)
  | tst   (g : Guard) (d : Tile) (a b : SReg) (j : Option SReg)
  | tzero (g : Guard) (d : Tile) (j : Option SReg)
  | accz  (g : Guard) (d : Acc) (j : Option SReg)
  | accld (g : Guard) (d : Acc) (a b c : SReg) (j : Option SReg)
  | accst (g : Guard) (d : Acc) (a b c : SReg) (j : Option SReg)
  | mma   (g : Guard) (z : Bool) (d : Acc) (a b : Tile) (j : Option SReg)
  | mmas  (g : Guard) (z : Bool) (d : Acc) (a b : Tile) (c : VReg) (x : Option (SReg × SReg))
  | accvRd (g : Guard) (d : VReg) (a : Acc) (b : SReg)
  | accvWr (g : Guard) (d : Acc) (a : VReg) (b : SReg)
  | accvCvt (g : Guard) (rm : Rm) (sat : Bool) (d : Tile) (a : Acc) (j : Option SReg)
  | accvCvti (g : Guard) (sat : Bool) (d : Tile) (a : Acc) (j : Option SReg)
  | mxwait (g : Guard) (d a : SReg)
  | mxtest (g : Guard) (d a : SReg)
  -- plan tiles (R303 to R310)
  | plank (g : Guard) (d a : Tile) (b : SReg) (j : Option SReg)
  | planm (g : Guard) (r : PlanReg) (c : Bool) (a : VReg) (j : Option SReg)
  | balance (g : Guard) (c : Bool) (a : Tile) (j : Option SReg)
  | planx (g : Guard) (c : Bool) (d a : Tile) (j : Option SReg)
  | plandot (g : Guard) (c : Bool) (a b : Tile) (j : Option SReg)
  | planlse (g : Guard) (col : Bool) (c : Bool) (d : Acc) (a : Tile) (j : Option SReg)
  | planrd (g : Guard) (c : Bool) (x : PlanRd)
  -- collectives and translation (R316 to R327, R352, R353)
  | red  (g : Guard) (op : RedOp) (t : Fmt) (m : Mode) (d a : SReg) (len : Src96) (grp : Grp)
  | redw (g : Guard) (d a : SReg)
  | topk (g : Guard) (thr : Bool) (d a : VReg) (k : Src96) (grp : Grp)
  | mcast (g : Guard) (k : Fin 8) (vec : Bool) (m : Mode) (d a b : SReg)
  | pfetch (g : Guard) (pin : Bool) (d a : SReg) (b : Src96)
  | tlbinvPage (g : Guard) (d a : SReg)
  | tlbinvAs   (g : Guard) (d : SReg)
  | tlbinvAsid (g : Guard) (d a : SReg)
  | tlbinvAll  (g : Guard) (d : SReg)
  -- steps of the device: traps and conditions taken at a boundary (R195, R335, R345, R352)
  | tlbinvComplete (w : InvalFor) (c : Cover)
  | overwrite (key : Nat)
  | preempt (key : Nat)
  | machine (gid : Nat) (src : BitVec 8) (quad : Nat) (which : BitVec 8) (addr : Word)
  -- dispatch (R119 to R132, R272)
  | launchAccept (w : LaunchFrom) (asid : BitVec 8) (rec : BitVec 512)
  | dispatchStep
  | priorityAging (grid : Nat)
  | quantumExpiry (grid : Nat) (start : Nat)
  | connectorImageLoad (grid : Nat) (va : Nat)
  | gangStart (gid : Nat)
  | gridWedged (grid : Nat)
  | gangEnd (gid : Nat)
  | doneSignal (grid : Nat) (cap inc : Word)
  | quadClearDone (quad : Nat)
  -- pre-emption (R338)
  | saveRoutineStart (gid quad core : Nat)
  | saveAcknowledgement (gid quad core : Nat)
  | drainComplete (gid : Nat)
  | contextDmaDone (gid : Nat) (ok : Bool)
  | parkedReady (gid : Nat)
  | restoreDmaDone (gid : Nat)
  | restoreRoutineEnd (gid : Nat)
  -- lanterns (R258 to R265)
  | suspend (gid lantern : Nat)
  | offerArrival (offer : Nat)
  | lanternDecision (lantern : Nat)
  | completionDelivery (offer key : Nat) (st : BitVec 64) (item : Option Item)
  | deadlineWithdrawal (offer : Nat)
  | closeArrival (asid va fifo : Nat) (ovf : Bool) (key : Nat) (d : SReg) (back : Nat)
  | closedEmptyCompletion (offer port : Nat)
  | fifoItemArrival (asid va fifo : Nat) (ovf : Bool) (item : Option Item)
  | permitReturn (asid va fifo : Nat) (ovf : Bool)
  -- messages to strands (R175, R197 to R200)
  | sendArrival (m : SendMsg)
  | sendStatusReturn (key : Nat) (d : Option SReg) (report : Bool) (st : BitVec 8)
  | sendnArrival (key : Nat) (reg : Fin 32) (val : Item) (sender : Nat)
  | remoteStorePublish (w : RemoteWrite)
  | remoteAcknowledgement (key : Nat)
  | remoteLoadResponse (r : RemoteRead)
  -- controllers (R134, R141)
  | timelineOperation (op : TlOp)
  | taskQueueOperation (op : TqOp)
  -- copy engine and storage (R185 to R187, R204, R355 to R357)
  | copyAccept (quad ticket : Nat)
  | lineMove (quad ticket : Nat)
  | copyComplete (quad ticket : Nat) (ok : Bool)
  | waittWake (key : Nat)
  | storageReadSend (pte : Nat)
  | storageReadComplete (pte : Nat)
  | storageReadFail (pte : Nat)
  | sweepStep
  | writebackComplete (pte : Nat)
  | writebackFail (pte : Nat)
  | nvmeFlush
  | wputRemoteWrite (m : PutMsg)
  | wputAcknowledgement (key : Nat) (k : Fin 4) (quad ticket : Nat) (err : BitVec 8)
  -- matrix jobs and reductions (R286, R317, R321)
  | jobStart (quad id : Nat)
  | jobComplete (quad id : Nat)
  | episodeDecision (ep : Nat)
  | reductionComplete (ep rank : Nat)
  -- host (R375)
  | rmaRead (tag : RmaTag) (die : Fin 4) (asid : BitVec 8) (va n : Nat)
  | rmaWrite (tag : RmaTag) (die : Fin 4) (asid : BitVec 8) (va : Nat) (bytes : List Byte)
  -- lightship (R379)
  | storageEvict (root lo hi : Nat)
  -- registers, power, network (R24, R354, R369, R373, R378, R382, R384)
  | sppush (pa : Word)
  | spcmdFlush (val : Word)
  | registerWrite (quad space off : Nat) (val : Word)
  | linkStop (quad : Nat) (dir : Dir)
  | fault (f : FaultMsg)
  | flushResponse (key : Nat) (endpoint : Nat)
  -- commands of the host (R376)
  | hostLaunch (c : HostCmd)
  | hostTlsig (c : HostCmd)
  | hostTlrd (c : HostCmd)
  | cfgwr (c : HostCmd)
  | cfgrd (c : HostCmd)
  | hostHalt (c : HostCmd)
  | hostRelease (c : HostCmd)
  | hostEnd (c : HostCmd)
  | flush (c : HostCmd)
  | inval (c : HostCmd)
  -- operations of the lightship, and other acts of the outside world (R369, R373 to R384)
  | lightshipCfgrd (addr : Word)
  | lightshipCfgwr (addr val : Word)
  | lightshipHalt (grid : Nat)
  | lightshipRelease (grid : Nat)
  | lightshipEnd (grid : Nat)
  | snapshotRead (quad : Nat)
  | firmwareUpdate (image : List Byte)
  | attest (nonce : BitVec 256)
  | nvmeAdmin (op : NvmeOp)
  | flitCrcRetry (quad : Nat) (dir : Dir)
  | packetPromotion (p : Promo)
  | peerUnreachable (dev : Nat)
  | lightshipInval (c : Cover)
  | unsupportedPacket
  | sncycMatch
  | thermalGateRaise
  | thermalReset
  | reset
  | boot
  | lightshipFlare
  deriving DecidableEq, Repr

end Sys2Proof
end

