-- ==== Sys2Proof/WellFormed.lean ====
section
/-! DEFINITION. The checks on an instruction that its operand types do not already carry (R65 to R71 and the entries): a term
that fails one has no admitted encoding, and its encoding raises ILLEGAL (R74). -/

namespace Sys2Proof

/-- G = 0b1000 is ILLEGAL (R67). -/
def Guard.wf (g : Guard) : Bool := !(g.p == 0 && g.neg)

/-- The width in bits of a scalar format (R84, R86); MX block codes stand for their element width. -/
def Fmt.width : Fmt → Nat
  | .i8 | .ui8 | .e4m3 | .e5m2 | .e8m0 | .mxe4m3 | .mxe5m2 => 8
  | .i16 | .f16 | .bf16 => 16
  | .i32 | .f32 => 32
  | .i64 => 64
  | .e2m1 | .mxe2m1 => 4

/-- Integer formats (R84). -/
def Fmt.isInt : Fmt → Bool
  | .i8 | .ui8 | .i16 | .i32 | .i64 => true
  | _ => false

/-- Stand-alone floating-point formats that conversions and vectors take (R86). -/
def Fmt.isFloat : Fmt → Bool
  | .f32 | .f16 | .bf16 | .e4m3 | .e5m2 => true
  | _ => false

/-- EXT and INS immediates: len in 1 to 64 and pos + len at most 64 (R148). -/
def FieldSpec.wf : FieldSpec → Bool
  | .reg _ => true
  | .imm pos len => decide (1 ≤ len.toNat) && decide (pos.toNat + len.toNat ≤ 64)

/-- Displacements have bits [1:0] zero (R64). -/
def dispWf (d : BitVec 32) : Bool := d.toNat % 4 == 0

/-- The control-register numbers that R164, R282, R301 and R333 assign. -/
def crAssigned (n : BitVec 12) : Bool :=
  let k := n.toNat
  decide (k ≤ 4) || k == 0x10 || k == 0x11 || (decide (0x18 ≤ k) && decide (k ≤ 0x1A)) ||
  (decide (0x20 ≤ k) && decide (k ≤ 0x23)) || (decide (0x40 ≤ k) && decide (k ≤ 0x4B)) || k == 0x50 ||
  (decide (0x100 ≤ k) && decide (k ≤ 0x106))

/-- FCVT formats, `.u` and SAT (R155). -/
def fcvtWf (u sat : Bool) (dst src : Fmt) : Bool :=
  let adm (f : Fmt) := f.isFloat || f == .i32 || f == .i64
  adm dst && adm src && !(dst.isInt && src.isInt) && dst != src &&
  (!u || dst.isInt || src.isInt) && (!sat || (dst.isFloat && decide (dst.width < src.width)))

/-- Post-increment LD with D = A is ILLEGAL (R174). -/
def Off.isPost : Off → Bool
  | .none => false
  | .imm32 _ p => p
  | .imm64 _ p => p

/-- COPY row bytes and rows (R182). -/
def copyWf (rowb : BitVec 32) (rows : BitVec 20) : Bool :=
  decide (4 ≤ rowb.toNat) && decide (rowb.toNat ≤ 2^20) && rowb.toNat % 4 == 0 && decide (1 ≤ rows.toNat)

/-- WPUT length (R204). -/
def wputWf (len : BitVec 32) : Bool :=
  decide (4 ≤ len.toNat) && decide (len.toNat ≤ 65536) && len.toNat % 4 == 0

/-- Types of VADD, VSUB, VMUL, VFMA, VMIN, VMAX (R229). -/
def arithTy : Fmt → Bool
  | .i8 | .ui8 | .i16 | .i32 | .f32 | .f16 | .bf16 => true
  | _ => false

/-- Types of VABS and VNEG (R229). -/
def absTy : Fmt → Bool
  | .i8 | .i16 | .i32 | .f32 | .f16 | .bf16 => true
  | _ => false

/-- Types of VSHL and VSHR (R229). -/
def shiftTy : Fmt → Bool
  | .i8 | .ui8 | .i16 | .i32 => true
  | _ => false

/-- Types of VDOT (R238). -/
def dotTy : Fmt → Bool
  | .i8 | .ui8 | .i16 | .f16 | .bf16 | .e4m3 | .e5m2 => true
  | _ => false

/-- `.u` is admitted with i16 and i32 only (R229). -/
def unsignedTy : Fmt → Bool
  | .i16 | .i32 => true
  | _ => false

/-- The rounding code is admitted on floating types, SATI on integer types (R229). -/
def modWf (t : Fmt) (rm : Rm) (sati : Bool) : Bool :=
  if t.isFloat then !sati else rm == .rne

/-- VCVT codes, part, `.u` and SAT (R236). -/
def vcvtWf (u : Bool) (part : BitVec 2) (sat : Bool) (dst src : Fmt) : Bool :=
  let adm (f : Fmt) := f.isFloat || f == .i8 || f == .ui8 || f == .i16 || f == .i32
  adm dst && adm src && dst != src && (!u || unsignedTy dst || unsignedTy src) &&
  (!sat || (decide (dst.width < src.width) && !(dst.isInt && src.isFloat))) &&
  decide (part.toNat < Nat.max src.width dst.width / Nat.min src.width dst.width)

/-- VPACK and VUNPK parts (R237). -/
def packWf (t : Fmt) (k : Fin 8) : Bool :=
  match t with
  | .mxe4m3 | .mxe5m2 => decide (k.val < 4)
  | .mxe2m1 => true
  | _ => false

/-- VRED and VSCAN types, operations and MOD (R239, R240). -/
def redWf (op : RedOp) (t : Fmt) (rm : Rm) (sati : Bool) : Bool :=
  match t, op with
  | .f32, .add => rm != .sr && !sati
  | .i32, .add => rm == .rne
  | .f32, _ | .i32, _ => rm == .rne && !sati
  | _, _ => false

/-- RED formats (R319). -/
def redFmt : Fmt → Bool
  | .i32 | .f32 | .bf16 | .mxe4m3 => true
  | _ => false

/-- RED immediate length: 64 to 4,096 and a multiple of 64 (R319). -/
def redLenWf : Src96 → Bool
  | .reg _ => true
  | .imm i => decide (64 ≤ i.toNat) && decide (i.toNat ≤ 4096) && i.toNat % 64 == 0

/-- TOPK immediate: only without `.thr`, and in 1 to 8 (R326). -/
def topkWf (thr : Bool) : Src96 → Bool
  | .reg _ => true
  | .imm i => !thr && decide (1 ≤ i.toNat) && decide (i.toNat ≤ 8)

/-- EXPECT cannot name `s0` (R194). -/
def ExpectArg.wf : ExpectArg → Bool
  | .s r => r != 0
  | .v _ => true
  | .sMask m => m.toNat % 2 == 0
  | .vMask _ => true

/-- SENDN cannot name `s0` of the neighbour (R200). -/
def SendnRegs.wf : SendnRegs → Bool
  | .s d _ => d != 0
  | .v _ _ => true

/-- A vector field whose successor is written or read too stops at 30 (R241, R248, R303). -/
def pairWf (d : VReg) : Bool := decide (d.val ≤ 30)

/-- The checks beyond the guard, for every instruction. The steps of the device have none: they have no encoding. -/
def Instr.bodyWf : Instr → Bool
  | .ext _ _ _ _ f => f.wf
  | .ins _ _ _ f => f.wf
  | .fcvt _ u sat _ dst src _ _ => fcvtWf u sat dst src
  | .br _ _ _ _ d => dispWf d
  | .jmp _ d => dispWf d
  | .call _ _ d => dispWf d
  | .loop _ _ d => dispWf d
  | .mfc _ _ n => crAssigned n
  | .mtc _ n _ => crAssigned n
  | .ld _ _ _ _ d a off => !(off.isPost && d == a)
  | .copyIn _ _ _ _ _ _ rb r => copyWf rb r
  | .copyOut _ _ _ _ _ _ rb r => copyWf rb r
  | .xfence _ s d => s != d
  | .sendn _ _ r => r.wf
  | .expect _ x => x.wf
  | .wput _ _ _ _ _ _ len => wputWf len
  | .vadd _ t rm sati _ _ _ => arithTy t && modWf t rm sati
  | .vsub _ t rm sati _ _ _ => arithTy t && modWf t rm sati
  | .vmul _ t rm sati _ _ _ => arithTy t && modWf t rm sati
  | .vfma _ t w rm sati _ _ _ _ => arithTy t && modWf t rm sati && (w == .no || t == .f16 || t == .bf16)
  | .vmin _ t u _ _ _ => arithTy t && (!u || unsignedTy t)
  | .vmax _ t u _ _ _ => arithTy t && (!u || unsignedTy t)
  | .vabs _ t sati _ _ => absTy t && modWf t .rne sati
  | .vneg _ t sati _ _ => absTy t && modWf t .rne sati
  | .vshl _ t _ _ _ => shiftTy t
  | .vshr _ t u _ _ _ => shiftTy t && (!u || unsignedTy t)
  | .vcmp _ t u c _ _ _ => (t == .i32 || t == .f32) && (!u || t == .i32) && (c != .un || t == .f32)
  | .vcvt _ u part sat _ dst src _ _ => vcvtWf u part sat dst src
  | .vpack _ t _ _ _ _ k _ => packWf t k
  | .vunpk _ t _ _ k _ => packWf t k
  | .vdot _ t rm sati _ _ _ => dotTy t && modWf t rm sati
  | .vred _ op t rm sati _ _ => redWf op t rm sati
  | .vscan _ op t rm sati _ _ => redWf op t rm sati
  | .vscana _ rm d _ _ => rm != .sr && pairWf d
  | .vsqrt _ rm _ _ => rm != .sr
  | .vsort _ t _ d _ b => (t == .i32 || t == .f32) && (b.isNone || pairWf d)
  | .mmas _ _ _ _ _ c _ => decide (c.val ≤ 28)
  | .planm _ _ _ a _ => pairWf a
  | .planrd _ _ (.vec _ d) => pairWf d
  | .red _ _ t _ _ _ len _ => redFmt t && redLenWf len
  | .topk _ thr _ _ k _ => topkWf thr k
  | _ => true

end Sys2Proof
end

