-- ==== Sys2Proof/Machine/Flags.lean ====
section
/-! DEFINITION. Number formats, rounding, the flags of VSTAT, exact sums, conversions and MX blocks (R83 to R108), and the
Philox generator (R245). A value is exact until one rounding: a NaN, an infinity, or a signed dyadic number. -/

namespace Sys2Proof.Machine

/-- Flags in the bit order of VSTAT (R97): INV 0, DZ 1, OF 2, UF 3, NX 4, IS 5. -/
abbrev Flags := BitVec 6

def fINV : Flags := 1
def fDZ : Flags := 2
def fOF : Flags := 4
def fUF : Flags := 8
def fNX : Flags := 16
def fIS : Flags := 32

/-- An exact value: a NaN (signalling or quiet), an infinity, or `(-1)^neg * m * 2^e`; zeros carry a sign (R87, R89). -/
inductive XVal where
  | nan (sig : Bool)
  | inf (neg : Bool)
  | fin (neg : Bool) (m : Nat) (e : Int)
  deriving DecidableEq, Repr

/-! ### Formats (R86) -/

def Fmt.expBits : Fmt → Nat
  | .f32 | .bf16 => 8
  | .f16 | .e5m2 | .mxe5m2 => 5
  | .e4m3 | .mxe4m3 => 4
  | .e2m1 | .mxe2m1 => 2
  | _ => 0

def Fmt.fracBits : Fmt → Nat
  | .f32 => 23
  | .f16 => 10
  | .bf16 => 7
  | .e4m3 | .mxe4m3 => 3
  | .e5m2 | .mxe5m2 => 2
  | .e2m1 | .mxe2m1 => 1
  | _ => 0

def Fmt.bias (f : Fmt) : Nat := 2 ^ (Fmt.expBits f - 1) - 1

/-- Formats with infinities (R86). -/
def Fmt.hasInf : Fmt → Bool
  | .f32 | .f16 | .bf16 | .e5m2 | .mxe5m2 => true
  | _ => false

/-- The largest finite value as a code without its sign (R86). -/
def Fmt.maxCode : Fmt → Nat
  | .f32 => 0x7F7FFFFF
  | .f16 => 0x7BFF
  | .bf16 => 0x7F7F
  | .e4m3 | .mxe4m3 => 0x7E
  | .e5m2 | .mxe5m2 => 0x7B
  | .e2m1 | .mxe2m1 => 0x7
  | _ => 0

/-- The canonical NaN (R86, R89). -/
def Fmt.nanCode : Fmt → Nat
  | .f32 => 0x7FC00000
  | .f16 => 0x7E00
  | .bf16 => 0x7FC0
  | .e4m3 | .mxe4m3 => 0x7F
  | .e5m2 | .mxe5m2 => 0x7E
  | .e8m0 => 0xFF
  | _ => 0

def Fmt.infCode : Fmt → Nat
  | .f32 => 0x7F800000
  | .f16 => 0x7C00
  | .bf16 => 0x7F80
  | .e5m2 | .mxe5m2 => 0x7C
  | _ => 0

/-- The value of an integer of `w` bits, signed or not (R84). -/
def intOf (signed : Bool) (w : Nat) (n : Nat) : Int :=
  let k := n % 2 ^ w
  if signed && decide (2 ^ (w - 1) ≤ k) then (k : Int) - 2 ^ w else k

/-- An integer as an exact value. -/
def xOfInt (i : Int) : XVal := .fin (decide (i < 0)) i.natAbs 0

/-- The exact value of a floating-point code (R86 to R89). -/
def fpDecode (f : Fmt) (n : Nat) : XVal :=
  let F := Fmt.fracBits f
  let E := Fmt.expBits f
  let frac := n % 2 ^ F
  let ex := n / 2 ^ F % 2 ^ E
  let neg := n / 2 ^ (E + F) % 2 == 1
  if f == .e8m0 then (if n % 256 = 255 then .nan false else .fin false 1 ((n % 256 : Nat) - 127))
  else if Fmt.hasInf f && ex == 2 ^ E - 1 then
    if frac = 0 then .inf neg else .nan (decide (frac < 2 ^ (F - 1)))
  else if (f == .e4m3 || f == .mxe4m3) && ex == 15 && frac == 7 then .nan false
  else if ex = 0 then .fin neg frac (1 - (Fmt.bias f : Int) - F)
  else .fin neg (2 ^ F + frac) ((ex : Int) - Fmt.bias f - F)

/-- Signedness of an integer format: INT8 is always signed and UINT8 never; `uns` makes the wider ones unsigned (R155, R236). -/
def Fmt.signed (f : Fmt) (uns : Bool) : Bool := f == .i8 || (f != .ui8 && !uns)

/-- The exact value of a code of any scalar format; integers by their signedness. -/
def fmtDecode (f : Fmt) (uns : Bool) (n : Nat) : XVal :=
  if Fmt.isInt f then xOfInt (intOf (Fmt.signed f uns) (Fmt.width f) n) else fpDecode f n

/-! ### Rounding (R91 to R95) -/

/-- A rounded result: its code, its flags, and whether it overflowed to an infinity or NaN (the NaN outcome of R94). -/
structure Rnd where
  code  : Nat
  flags : Flags
  past  : Bool
  deriving DecidableEq, Repr

/-- Whether a magnitude with `rem` of `2^k` left over moves up (R91, R92); `u` is the chunk of SR. -/
def roundsUp (rm : Rm) (neg : Bool) (lo rem k u : Nat) : Bool :=
  match rm with
  | .rne => decide (2 ^ k < 2 * rem) || (2 * rem == 2 ^ k && lo % 2 == 1)
  | .rz => false
  | .rup => !neg && rem != 0
  | .rdn => neg && rem != 0
  | .sr => decide (u < rem * 65536 / 2 ^ k)

/-- A magnitude `m * 2^e` on the grid of step `2^q`: the multiple chosen and whether it is exact. -/
def roundAt (rm : Rm) (neg : Bool) (u : Nat) (m : Nat) (e q : Int) : Nat × Bool :=
  let k := (q - e).toNat
  if q ≤ e then (m * 2 ^ (e - q).toNat, true)
  else
    let lo := m / 2 ^ k
    let rem := m % 2 ^ k
    (if roundsUp rm neg lo rem k u then lo + 1 else lo, rem == 0)

/-- The sign bit of a format. -/
def signCode (f : Fmt) (neg : Bool) : Nat := if neg then 2 ^ (Fmt.width f - 1) else 0

/-- Overflow of a finite value (R94). -/
def overflow (f : Fmt) (rm : Rm) (sat neg : Bool) : Rnd :=
  let big := sat || rm == .rz || (rm == .rup && neg) || (rm == .rdn && !neg)
  if big then ⟨signCode f neg + Fmt.maxCode f, fOF ||| fNX, false⟩
  else if Fmt.hasInf f then ⟨signCode f neg + Fmt.infCode f, fOF ||| fNX, true⟩
  else ⟨Fmt.nanCode f, fOF ||| fNX, true⟩

/-- `rnd(x, fmt, rm, sat)` of R91 to R95, with the rules of R94 for an infinite operand and of R89 for a NaN. SR of a tiny value takes
its two neighbours in the subnormal range (R92, R95). (DEDUCED, log entry 123.) -/
def rnd (f : Fmt) (rm : Rm) (sat : Bool) (u : Nat) (x : XVal) : Rnd :=
  match x with
  | .nan sig => ⟨Fmt.nanCode f, if sig then fINV else 0, false⟩
  | .inf neg =>
      if sat then ⟨signCode f neg + Fmt.maxCode f, fOF ||| fNX, false⟩
      else if Fmt.hasInf f then ⟨signCode f neg + Fmt.infCode f, 0, false⟩
      else ⟨Fmt.nanCode f, fOF ||| fNX, true⟩
  | .fin neg m e =>
      if m = 0 then ⟨signCode f neg, 0, false⟩
      else
        let F : Int := Fmt.fracBits f
        let emin : Int := 1 - Fmt.bias f
        let top : Int := m.log2 + e
        let q := max top emin - F
        let (sig, exact) := roundAt rm neg u m e q
        -- the code of sig * 2^q: the formula covers subnormals, normals and a carry out of the fraction
        let code := ((q + F + Fmt.bias f - 1) * 2 ^ Fmt.fracBits f + sig).toNat
        if code > Fmt.maxCode f then overflow f rm sat neg
        else ⟨signCode f neg + code, if exact then 0 else fNX ||| (if top < emin then fUF else 0), false⟩

/-- Conversion of a floating-point value to an integer of `w` bits (R100). -/
def rndInt (signed : Bool) (w : Nat) (rm : Rm) (u : Nat) (x : XVal) : Int × Flags :=
  let lo : Int := if signed then -(2 ^ (w - 1)) else 0
  let hi : Int := if signed then 2 ^ (w - 1) - 1 else 2 ^ w - 1
  match x with
  | .nan _ => (0, fINV)
  | .inf neg => (if neg then lo else hi, fINV)
  | .fin neg m e =>
      let (k, exact) := roundAt rm neg u m e 0
      let v : Int := if neg then -(k : Int) else k
      if v < lo then (lo, fINV) else if hi < v then (hi, fINV) else (v, if exact then 0 else fNX)

/-- Clamping of an integer result to `w` bits (R85, R101): the low bits, or the nearest end with IS. -/
def clampInt (signed : Bool) (w : Nat) (sat : Bool) (v : Int) : Nat × Flags :=
  let lo : Int := if signed then -(2 ^ (w - 1)) else 0
  let hi : Int := if signed then 2 ^ (w - 1) - 1 else 2 ^ w - 1
  let c : Int := if sat then (if v < lo then lo else if hi < v then hi else v) else v
  ((c % 2 ^ w).toNat, if c = v then 0 else fIS)

/-! ### Exact sums (R95, R105) -/

/-- The exact product of two values; 0 times an infinity is a NaN that sets INV (R105). -/
def xmul (a b : XVal) : XVal :=
  match a, b with
  | .nan s, .nan t => .nan (s || t)
  | .nan s, _ => .nan s
  | _, .nan t => .nan t
  | .inf n, .inf k => .inf (n != k)
  | .inf n, .fin k m _ => if m = 0 then .nan true else .inf (n != k)
  | .fin n m _, .inf k => if m = 0 then .nan true else .inf (n != k)
  | .fin n m e, .fin k m' e' => .fin (n != k) (m * m') (e + e')

def xneg : XVal → XVal
  | .nan s => .nan s
  | .inf n => .inf (!n)
  | .fin n m e => .fin (!n) m e

def XVal.isNan : XVal → Bool
  | .nan _ => true
  | _ => false
def XVal.isSig : XVal → Bool
  | .nan s => s
  | _ => false
def XVal.isInf (neg : Bool) : XVal → Bool
  | .inf n => n == neg
  | _ => false
def XVal.isZero (neg : Bool) : XVal → Bool
  | .fin n m _ => n == neg && m == 0
  | _ => false
def XVal.exp : XVal → Int
  | .fin _ _ e => e
  | _ => 0
/-- The signed significand on the grid `2^q`, for `q` at most the exponent. -/
def XVal.at (q : Int) : XVal → Int
  | .fin n m e => (if n then -1 else 1) * (m * 2 ^ (e - q).toNat : Nat)
  | _ => 0

/-- The exact sum of terms (R105), with the sign of an exact zero by R95 and INV for opposite infinities. A signalling NaN
stands for INV: it covers signalling operands and 0 times an infinity. (DESIGN CHOICE, log entry 131.) -/
def xsum (rm : Rm) (ts : List XVal) : XVal :=
  if ts.any XVal.isNan then .nan (ts.any XVal.isSig)
  else if ts.any (XVal.isInf false) && ts.any (XVal.isInf true) then .nan true
  else if ts.any (XVal.isInf false) then .inf false
  else if ts.any (XVal.isInf true) then .inf true
  else
    let q := ts.foldl (fun a t => min a t.exp) 0
    let s := ts.foldl (fun a t => a + t.at q) (0 : Int)
    if s = 0 then
      .fin (if ts.all (XVal.isZero false) then false else if ts.all (XVal.isZero true) then true else rm == .rdn) 0 0
    else .fin (decide (s < 0)) s.natAbs q

/-- `xsum(T, fmt, rm)` rounded once (R105). An infinite sum is that infinity and sets no flag. -/
def xsumRnd (f : Fmt) (rm : Rm) (u : Nat) (ts : List XVal) : Rnd := rnd f rm false u (xsum rm ts)

/-! ### Order, minimum, maximum (R102, R154) -/

/-- The order of two values that are not NaN; -0 equals +0. -/
def xcmp (a b : XVal) : Ordering :=
  match a, b with
  | .inf n, .inf k => if n == k then .eq else if n then .lt else .gt
  | .inf n, _ => if n then .lt else .gt
  | _, .inf k => if k then .gt else .lt
  | a, b =>
      let q := min a.exp b.exp
      compare (a.at q) (b.at q)

def XVal.sign : XVal → Bool
  | .fin n _ _ => n
  | .inf n => n
  | .nan _ => false

/-- minimumNumber and maximumNumber on codes of one format (R102): -0 is less than +0. -/
def minMaxNum (f : Fmt) (max : Bool) (a b : Nat) : Nat × Flags :=
  let x := fpDecode f a
  let y := fpDecode f b
  let fl : Flags := if x.isSig || y.isSig then fINV else 0
  if x.isNan && y.isNan then (Fmt.nanCode f, fl)
  else if x.isNan then (b, fl)
  else if y.isNan then (a, fl)
  else
    let less := match xcmp x y with
      | .lt => true
      | .gt => false
      | .eq => x.sign && !y.sign
    (if less != max then a else b, fl)

/-- FCMP and the FP32 conditions of VCMP: the result and INV (R154). -/
def fcompare (c : VCond) (x y : XVal) : Bool × Flags :=
  let nan := x.isNan || y.isNan
  let sig := x.isSig || y.isSig
  let inv (b : Bool) : Flags := if b then fINV else 0
  let o := xcmp x y
  match c with
  | .eq => (!nan && o == .eq, inv sig)
  | .ne => (nan || o != .eq, inv sig)
  | .lt => (!nan && o == .lt, inv nan)
  | .le => (!nan && o != .gt, inv nan)
  | .gt => (!nan && o == .gt, inv nan)
  | .ge => (!nan && o != .lt, inv nan)
  | .un => (nan, inv sig)

/-! ### Conversions (R99 to R101) -/

/-- One conversion between any two scalar formats; `uns` makes i16, i32 and i64 unsigned. Integer narrowing
wraps, or clamps under SAT. (DESIGN CHOICE, log entry 138.) -/
def convert (dst src : Fmt) (uns sat : Bool) (rm : Rm) (u n : Nat) : Nat × Flags :=
  if Fmt.isInt dst then
    let sg := Fmt.signed dst uns
    if Fmt.isInt src then clampInt sg (Fmt.width dst) sat (intOf (Fmt.signed src uns) (Fmt.width src) n)
    else
      let (v, fl) := rndInt sg (Fmt.width dst) rm u (fpDecode src n)
      ((v % 2 ^ Fmt.width dst).toNat, fl)
  else
    let r := rnd dst rm sat u (fmtDecode src uns n)
    (r.code, r.flags)

/-- A conversion can set a flag: a clamp that SAT asks for, or a floating-point value that may signal, not fit or lose bits (R96,
R99 to R101). -/
def convertFlags (dst src : Fmt) (uns sat : Bool) : Bool :=
  let d := Fmt.width dst
  let w := Fmt.width src
  if Fmt.isInt dst then
    !Fmt.isInt src || (sat && (match Fmt.signed src uns, Fmt.signed dst uns with
      | true, false => true
      | false, true => decide (d ≤ w)
      | _, _ => decide (d < w)))
  else if Fmt.isInt src then decide (Fmt.fracBits dst + 1 < if Fmt.signed src uns then w - 1 else w)
  else !(src == .e4m3 && (dst == .f32 || dst == .f16 || dst == .bf16))

/-! ### MX blocks (R103, R104) -/

/-- Element format of an MX block code. -/
def Fmt.elem : Fmt → Fmt
  | .mxe4m3 => .e4m3
  | .mxe5m2 => .e5m2
  | .mxe2m1 => .e2m1
  | f => f

/-- An element under a scale, exact (R103). -/
def mxValue (elem : Fmt) (scale code : Nat) : XVal := xmul (fpDecode .e8m0 scale) (fpDecode elem code)

/-- One element decoded to FP32 (R103). -/
def mxDecode (elem : Fmt) (scale code : Nat) : Rnd := rnd .f32 .rne false 0 (mxValue elem scale code)

/-- floor(log2 |x|) for a finite non-zero value. -/
def XVal.ilog2 : XVal → Int
  | .fin _ m e => m.log2 + e
  | _ => 0

def XVal.isFinite : XVal → Bool
  | .fin _ _ _ => true
  | _ => false
def XVal.nonZero : XVal → Bool
  | .fin _ m _ => m != 0
  | _ => false
def XVal.scale (k : Int) : XVal → XVal
  | .fin n m e => .fin n m (e + k)
  | x => x

/-- emax of R104. -/
def Fmt.emax : Fmt → Int
  | .e4m3 => 8
  | .e5m2 => 15
  | _ => 2

/-- `mx_encode` of R104 on 32 FP32 codes: scale, element codes, flags. `us` are the chunks of SR. An infinity in
E5M2 stays that infinity whatever SAT is. An infinity in E2M1 sets no flag.
(DEDUCED, log entry 106; DESIGN CHOICE, log entry 121.) -/
def mxEncode (elem : Fmt) (rm : Rm) (sat : Bool) (xs : List Nat) (us : List Nat) : Nat × List Nat × Flags :=
  let vs := xs.map (fpDecode .f32)
  let blockNan := (0xFF, xs.map (fun _ => 0))
  let sig : Flags := if vs.any XVal.isSig then fINV else 0
  if elem == .e2m1 && vs.any (fun v => !v.isFinite) then (blockNan.1, blockNan.2, sig)
  else
    let tops := (vs.filter XVal.nonZero).map XVal.ilog2
    let e0 : Int := match tops with
      | [] => 0
      | t :: ts => ts.foldl max t - Fmt.emax elem
    let e := min (max e0 (-127)) 127
    let rs := List.zipWith (fun v u => rnd elem rm (sat && (elem != .e5m2 || v.isFinite)) u (v.scale (-e))) vs us
    let fl := rs.foldl (fun a r => a ||| r.flags) (0 : Flags)
    if elem == .e2m1 && rs.any Rnd.past then (blockNan.1, blockNan.2, fl)
    else ((e + 127).toNat, rs.map Rnd.code, fl)

/-! ### Integer operations of the scalar pipeline (R145 to R148) -/

/-- DIV (R146). -/
def divide (uns : Bool) (a b : Word) : Word :=
  if b = 0 then BitVec.allOnes 64 else if uns then a / b else BitVec.ofInt 64 (a.toInt.tdiv b.toInt)
/-- REM (R146). -/
def remainder (uns : Bool) (a b : Word) : Word :=
  if b = 0 then a else if uns then a % b else BitVec.ofInt 64 (a.toInt.tmod b.toInt)

/-- MULH (R145): bits [127:64] of the product. -/
def mulHigh (k : MulhKind) (a b : Word) : Word :=
  match k with
  | .ss => (BitVec.ofInt 128 (a.toInt * b.toInt)).extractLsb' 64 64
  | .uu => (BitVec.ofNat 128 (a.toNat * b.toNat)).extractLsb' 64 64
  | .su => (BitVec.ofInt 128 (a.toInt * b.toNat)).extractLsb' 64 64

/-- ROTL (R145). -/
def rotl64 (a : Word) (n : Nat) : Word := if n = 0 then a else (a <<< n) ||| (a >>> (64 - n))

/-- Number of one bits below bit `n`. -/
def popCount (a : Word) : Nat → Nat
  | 0 => 0
  | n + 1 => popCount a n + (if a.getLsbD n then 1 else 0)
/-- CTZ (R147): position of the lowest one, counting `n` bits; 64 for none. -/
def trailing (a : Word) : Nat → Nat
  | 0 => 64
  | n + 1 => if a.getLsbD (63 - n) then 63 - n else trailing a n
/-- CLZ (R147). -/
def leading (a : Word) : Nat := if a = 0 then 64 else 63 - a.toNat.log2

/-- EXT (R148). -/
def extField (signed : Bool) (a : Word) (pos len : Nat) : Word :=
  let n := min len (64 - pos)
  if n = 0 then 0
  else
    let f := a.toNat / 2 ^ pos % 2 ^ n
    BitVec.ofInt 64 (intOf signed n f)

/-- INS (R148): bits [pos + n - 1 : pos] of `d` from the low bits of `a`. -/
def insField (d a : Word) (pos len : Nat) : Word :=
  let n := min len (64 - pos)
  let m : Word := BitVec.ofNat 64 ((2 ^ n - 1) * 2 ^ pos)
  (d &&& ~~~m) ||| ((a <<< pos) &&& m)

/-- CMP conditions (R150). -/
def cmpHolds (c : Cond) (a b : Word) : Bool :=
  match c with
  | .eq => a == b
  | .ne => a != b
  | .lt => a.slt b
  | .ge => !a.slt b
  | .ltu => a.ult b
  | .geu => !a.ult b
  | .tst => a &&& b != 0
  | .ntst => a &&& b == 0

/-- BR conditions (R158): CMP FN 0 to 5. -/
def BrCond.toCond : BrCond → Cond
  | .eq => .eq | .ne => .ne | .lt => .lt | .ge => .ge | .ltu => .ltu | .geu => .geu

/-! ### Philox4x32-10 (R93, R245) -/

/-- Ten rounds over (X0, X1, X2, X3) and the keys. -/
def philoxRounds : Nat → Nat × Nat × Nat × Nat → Nat → Nat → Nat × Nat × Nat × Nat
  | 0, x, _, _ => x
  | r + 1, (x0, x1, x2, x3), k0, k1 =>
      let p := 0xD2511F53 * x0
      let q := 0xCD9E8D57 * x2
      let hi (n : Nat) := n / 2 ^ 32 % 2 ^ 32
      philoxRounds r ((hi q ^^^ x1) ^^^ k0, q % 2 ^ 32, (hi p ^^^ x3) ^^^ k1, p % 2 ^ 32)
        ((k0 + 0x9E3779B9) % 2 ^ 32) ((k1 + 0xBB67AE85) % 2 ^ 32)

/-- The four words of a counter value (R245). -/
def philox (key : Word) (c : Nat) : List Nat :=
  let w (i : Nat) := c / 2 ^ (32 * i) % 2 ^ 32
  let (a, b, d, e) := philoxRounds 10 (w 0, w 1, w 2, w 3) (key.toNat % 2 ^ 32) (key.toNat / 2 ^ 32)
  [a, b, d, e]

/-- The 16-bit chunks of `n` blocks from a counter, in the order of R93. -/
def chunks (key : Word) (c : Nat) : Nat → List Nat
  | 0 => []
  | n + 1 => ((philox key (c % 2 ^ 128)).flatMap fun w => [w % 65536, w / 65536]) ++ chunks key (c + 1) n

end Sys2Proof.Machine
end

