-- ==== Sys2Proof/Decode.lean ====
section
/-! DEFINITION. Instruction formats (R60 to R74): the fields of an instruction word, the encoder written from the entries of the
instruction chapters, and the decoder. The decoder reads the fields of an opcode's form and accepts a word exactly when the
instruction it read is well formed and encodes to that word: an unused or reserved field that is not zero, a register number
outside its class, an undefined FN or MOD code therefore all decode to nothing, which is ILLEGAL (R65 to R71, R74). -/

namespace Sys2Proof

/-! ### Fields (R63) -/

/-- The fields of an instruction: bits [63:0] by R63 and the bits above 63, zero where the length has none. -/
structure Fields where
  l   : BitVec 2
  op  : BitVec 8
  g   : BitVec 4
  d   : BitVec 6
  a   : BitVec 6
  b   : BitVec 6
  c   : BitVec 6
  fn  : BitVec 6
  lpa : BitVec 8
  lpb : BitVec 8
  mod : BitVec 4
  ext : BitVec 64
  deriving DecidableEq, Repr

/-- The 128-bit image of the fields, bit 0 first (R63). -/
def Fields.toBits (f : Fields) : BitVec 128 :=
  f.ext ++ (f.mod ++ (f.lpb ++ (f.lpa ++ (f.fn ++ (f.c ++ (f.b ++ (f.a ++ (f.d ++ (f.g ++ (f.op ++ f.l))))))))))

/-- The bits above 63 that a length code keeps (R60, R64). -/
def extMask (l : BitVec 2) (e : BitVec 64) : BitVec 64 :=
  if l = 0 then 0 else if l = 1 then (e.setWidth 32).setWidth 64 else e

/-- The fields of a 128-bit window whose first bytes are the instruction (R63). -/
def Fields.ofBits (w : BitVec 128) : Fields where
  l   := w.extractLsb' 0 2
  op  := w.extractLsb' 2 8
  g   := w.extractLsb' 10 4
  d   := w.extractLsb' 14 6
  a   := w.extractLsb' 20 6
  b   := w.extractLsb' 26 6
  c   := w.extractLsb' 32 6
  fn  := w.extractLsb' 38 6
  lpa := w.extractLsb' 44 8
  lpb := w.extractLsb' 52 8
  mod := w.extractLsb' 60 4
  ext := extMask (w.extractLsb' 0 2) (w.extractLsb' 64 64)

/-- Length in bytes of a length code (R60); code 3 is no instruction. -/
def lenOf (l : BitVec 2) : Nat := if l = 0 then 8 else if l = 1 then 12 else 16

/-! ### Codes of the operand fields -/

def Guard.code (g : Guard) : BitVec 4 := BitVec.ofNat 4 (g.p.val + if g.neg then 8 else 0)
def Guard.ofCode (x : BitVec 4) : Guard := ⟨Fin.ofNat 8 x.toNat, x.getLsbD 3⟩

/-- A register number in a 6-bit field (R63, R65). -/
def r6 {n : Nat} (r : Fin n) : BitVec 6 := BitVec.ofNat 6 r.val
def sOf (x : BitVec 6) : Fin 32 := Fin.ofNat 32 x.toNat
def pOf (x : BitVec 6) : Fin 8 := Fin.ofNat 8 x.toNat
def tOf (x : BitVec 6) : Fin 12 := Fin.ofNat 12 x.toNat
def aOf (x : BitVec 6) : Fin 4 := Fin.ofNat 4 x.toNat

def b2n (b : Bool) : Nat := if b then 1 else 0

def Rm.code : Rm → Nat
  | .rne => 0 | .rz => 1 | .rup => 2 | .rdn => 3 | .sr => 4
def Rm.ofCode (n : Nat) : Rm :=
  if n = 1 then .rz else if n = 2 then .rup else if n = 3 then .rdn else if n = 4 then .sr else .rne

/-- MOD of a rounding instruction: SAT or SATI in bit 3, rounding code below (R70). -/
def modRm (sat : Bool) (rm : Rm) : BitVec 4 := BitVec.ofNat 4 (8 * b2n sat + rm.code)
def rmOf (m : BitVec 4) : Rm := Rm.ofCode (m.toNat % 8)
def satOf (m : BitVec 4) : Bool := m.getLsbD 3

def Fmt.code : Fmt → Nat
  | .i8 => 0 | .ui8 => 1 | .i16 => 2 | .i32 => 3 | .i64 => 4 | .f32 => 5 | .f16 => 6 | .bf16 => 7
  | .e4m3 => 8 | .e5m2 => 9 | .e2m1 => 10 | .e8m0 => 11 | .mxe4m3 => 12 | .mxe5m2 => 13 | .mxe2m1 => 14
/-- The format of a code (R90). Code 0xF is reserved; it is read as i8, which does not encode to 0xF. -/
def Fmt.ofCode (n : Nat) : Fmt :=
  match n with
  | 0 => .i8 | 1 => .ui8 | 2 => .i16 | 3 => .i32 | 4 => .i64 | 5 => .f32 | 6 => .f16 | 7 => .bf16
  | 8 => .e4m3 | 9 => .e5m2 | 10 => .e2m1 | 11 => .e8m0 | 12 => .mxe4m3 | 13 => .mxe5m2 | 14 => .mxe2m1
  | _ => .i8

def Mode.code : Mode → Nat
  | .abs => 0 | .self => 1 | .gang => 2 | .loc => 3
def Mode.ofCode (n : Nat) : Mode :=
  if n = 0 then .abs else if n = 1 then .self else if n = 2 then .gang else .loc

def Order.code : Order → Nat
  | .plain => 0 | .acq => 1 | .rel => 2 | .ar => 3
def Order.ofCode (n : Nat) : Order :=
  if n = 0 then .plain else if n = 1 then .acq else if n = 2 then .rel else .ar

/-- MOD of a memory instruction: order above the addressing mode (R70). -/
def modMem (o : Order) (m : Mode) : BitVec 4 := BitVec.ofNat 4 (4 * o.code + m.code)
def modeOf (x : BitVec 4) : Mode := Mode.ofCode (x.toNat % 4)
def orderOf (x : BitVec 4) : Order := Order.ofCode (x.toNat / 4)

def MulhKind.code : MulhKind → Nat
  | .ss => 0 | .uu => 1 | .su => 2
def MulhKind.ofCode (n : Nat) : MulhKind := if n = 1 then .uu else if n = 2 then .su else .ss

def Cond.code : Cond → Nat
  | .eq => 0 | .ne => 1 | .lt => 2 | .ge => 3 | .ltu => 4 | .geu => 5 | .tst => 6 | .ntst => 7
def Cond.ofCode (n : Nat) : Cond :=
  match n with
  | 0 => .eq | 1 => .ne | 2 => .lt | 3 => .ge | 4 => .ltu | 5 => .geu | 6 => .tst | _ => .ntst

def BrCond.code : BrCond → Nat
  | .eq => 0 | .ne => 1 | .lt => 2 | .ge => 3 | .ltu => 4 | .geu => 5
def BrCond.ofCode (n : Nat) : BrCond :=
  match n with
  | 0 => .eq | 1 => .ne | 2 => .lt | 3 => .ge | 4 => .ltu | _ => .geu

def FCond.code : FCond → Nat
  | .eq => 0 | .ne => 1 | .lt => 2 | .le => 3 | .un => 4
def FCond.ofCode (n : Nat) : FCond :=
  match n with
  | 0 => .eq | 1 => .ne | 2 => .lt | 3 => .le | _ => .un

def VCond.code : VCond → Nat
  | .eq => 0 | .ne => 1 | .lt => 2 | .le => 3 | .gt => 4 | .ge => 5 | .un => 6
def VCond.ofCode (n : Nat) : VCond :=
  match n with
  | 0 => .eq | 1 => .ne | 2 => .lt | 3 => .le | 4 => .gt | 5 => .ge | _ => .un

def PlogOp.code : PlogOp → Nat
  | .and => 0 | .or => 1 | .xor => 2 | .andn => 3
def PlogOp.ofCode (n : Nat) : PlogOp :=
  match n with
  | 0 => .and | 1 => .or | 2 => .xor | _ => .andn

def FaField.code : FaField → Nat
  | .x => 0 | .y => 1 | .xu => 2 | .yu => 3 | .sp => 4 | .off => 5 | .dev => 6
def FaField.ofCode (n : Nat) : FaField :=
  match n with
  | 0 => .x | 1 => .y | 2 => .xu | 3 => .yu | 4 => .sp | 5 => .off | _ => .dev

def LdW.code : LdW → Nat
  | .b => 0 | .h => 1 | .w => 2 | .d => 3 | .bs => 4 | .hs => 5 | .ws => 6
def LdW.ofCode (n : Nat) : LdW :=
  match n with
  | 0 => .b | 1 => .h | 2 => .w | 3 => .d | 4 => .bs | 5 => .hs | _ => .ws

def StW.code : StW → Nat
  | .b => 0 | .h => 1 | .w => 2 | .d => 3
def StW.ofCode (n : Nat) : StW :=
  match n with
  | 0 => .b | 1 => .h | 2 => .w | _ => .d

def AmoOp.code : AmoOp → Nat
  | .add => 0 | .and => 1 | .or => 2 | .xor => 3 | .min => 4 | .max => 5 | .minu => 6 | .maxu => 7 | .swap => 8
def AmoOp.ofCode (n : Nat) : AmoOp :=
  match n with
  | 0 => .add | 1 => .and | 2 => .or | 3 => .xor | 4 => .min | 5 => .max | 6 => .minu | 7 => .maxu | _ => .swap

def Scope.code : Scope → Nat
  | .quad => 0 | .gang => 1 | .device => 2 | .domain => 3 | .system => 4
def Scope.ofCode (n : Nat) : Scope :=
  match n with
  | 0 => .quad | 1 => .gang | 2 => .device | 3 => .domain | _ => .system

def Path.code : Path → Nat
  | .core => 0 | .copy => 1 | .matrix => 2 | .reduce => 3
def Path.ofCode (n : Nat) : Path :=
  match n with
  | 0 => .core | 1 => .copy | 2 => .matrix | _ => .reduce

def Dir.code : Dir → Nat
  | .n => 0 | .e => 1 | .s => 2 | .w => 3 | .q => 4
def Dir.ofCode (n : Nat) : Dir :=
  match n with
  | 0 => .n | 1 => .e | 2 => .s | 3 => .w | _ => .q

def Wide.code : Wide → Nat
  | .no => 0 | .lo => 1 | .hi => 2
def Wide.ofCode (n : Nat) : Wide :=
  match n with
  | 0 => .no | 1 => .lo | _ => .hi

def RedOp.code : RedOp → Nat
  | .add => 0 | .max => 1 | .min => 2
def RedOp.ofCode (n : Nat) : RedOp :=
  match n with
  | 0 => .add | 1 => .max | _ => .min

def PlanReg.code : PlanReg → Nat
  | .f => 0 | .g => 1 | .a => 2 | .b => 3
def PlanReg.ofCode (n : Nat) : PlanReg :=
  match n with
  | 0 => .f | 1 => .g | 2 => .a | _ => .b

/-- LPA and LPB: kind in bits [2:0], parameter in [7:3] (R63, R69). -/
def Pat.code : Pat → BitVec 8
  | .none => 0
  | .rot k => BitVec.ofNat 8 (1 + 8 * k.toNat)
  | .rev => 2
  | .xor k => BitVec.ofNat 8 (3 + 8 * k.toNat)
  | .bcast k => BitVec.ofNat 8 (4 + 8 * k.toNat)
  | .gbcast k => BitVec.ofNat 8 (5 + 8 * k.toNat)
def Pat.ofCode (x : BitVec 8) : Pat :=
  let p := x.toNat / 8
  match x.toNat % 8 with
  | 1 => .rot (BitVec.ofNat 5 p)
  | 2 => .rev
  | 3 => .xor (BitVec.ofNat 3 p)
  | 4 => .bcast (BitVec.ofNat 5 p)
  | 5 => .gbcast (BitVec.ofNat 3 p)
  | _ => .none

/-- The group field C of a reduction (R315). -/
def Grp.code : Grp → BitVec 6
  | .gang k => BitVec.ofNat 6 k.val
  | .domain n => BitVec.ofNat 6 (32 + n.val)
def Grp.ofCode (x : BitVec 6) : Grp :=
  if x.toNat < 32 then .gang (Fin.ofNat 8 x.toNat) else .domain (Fin.ofNat 32 x.toNat)

/-! ### Operand positions -/

/-- An instruction with only OP, G and FN set, in its 64-bit form. -/
def Fields.base (op : Nat) (g : Guard) (fn : Nat) : Fields :=
  { l := 0, op := BitVec.ofNat 8 op, g := g.code, d := 0, a := 0, b := 0, c := 0, fn := BitVec.ofNat 6 fn,
    lpa := 0, lpb := 0, mod := 0, ext := 0 }

/-- Operand b of the ALU mould (R145). -/
def Fields.withSrc (f : Fields) : Src → Fields
  | .reg r => { f with b := r6 r }
  | .imm32 i => { f with l := 1, ext := i.setWidth 64 }
  | .imm64 i => { f with l := 2, ext := i }
def Fields.src (f : Fields) : Src :=
  if f.l = 0 then .reg (sOf f.b) else if f.l = 1 then .imm32 (f.ext.setWidth 32) else .imm64 f.ext

def Fields.withSrc96 (f : Fields) : Src96 → Fields
  | .reg r => { f with b := r6 r }
  | .imm i => { f with l := 1, ext := i.setWidth 64 }
def Fields.src96 (f : Fields) : Src96 :=
  if f.l = 0 then .reg (sOf f.b) else .imm (f.ext.setWidth 32)

def Fields.withSrc128 (f : Fields) : Src128 → Fields
  | .reg r => { f with b := r6 r }
  | .imm i => { f with l := 2, ext := i }
def Fields.src128 (f : Fields) : Src128 :=
  if f.l = 0 then .reg (sOf f.b) else .imm f.ext

/-- The 96-bit form with a displacement or number in IMM32. -/
def Fields.withImm (f : Fields) (i : BitVec 32) : Fields := { f with l := 1, ext := i.setWidth 64 }
def Fields.imm (f : Fields) : BitVec 32 := f.ext.setWidth 32

/-- The 96-bit form of MMAS: J in [5:0], SB in [11:6] (R64). -/
def Fields.withExt (f : Fields) (e : Nat) : Fields := { f with l := 1, ext := BitVec.ofNat 64 e }

def Fields.withField (f : Fields) : FieldSpec → Fields
  | .reg r => { f with b := r6 r }
  | .imm pos len => { f with l := 1, ext := BitVec.ofNat 64 (pos.toNat + 256 * len.toNat) }
def Fields.fieldSpec (f : Fields) : FieldSpec :=
  if f.l = 0 then .reg (sOf f.b) else .imm (f.ext.setWidth 6) (f.ext.extractLsb' 8 7)

/-- Offset and post-increment of LD, ST, LDV, STV (R173, R174): FN[3] is post-increment. -/
def Fields.withOff (f : Fields) (fn : Nat) : Off → Fields
  | .none => { f with fn := BitVec.ofNat 6 fn }
  | .imm32 i p => { f with l := 1, ext := i.setWidth 64, fn := BitVec.ofNat 6 (fn + 8 * b2n p) }
  | .imm64 i p => { f with l := 2, ext := i, fn := BitVec.ofNat 6 (fn + 8 * b2n p) }
def Fields.off (f : Fields) : Off :=
  if f.l = 0 then .none
  else if f.l = 1 then .imm32 (f.ext.setWidth 32) (f.fn.getLsbD 3)
  else .imm64 f.ext (f.fn.getLsbD 3)

def Fields.withOff96 (f : Fields) : Off96 → Fields
  | .none => f
  | .imm i => { f with l := 1, ext := i.setWidth 64 }
def Fields.off96 (f : Fields) : Off96 := if f.l = 0 then .none else .imm (f.ext.setWidth 32)

/-- The J field of the matrix 96-bit form (R64). -/
def Fields.withJ (f : Fields) : Option SReg → Fields
  | none => f
  | some j => { f with l := 1, ext := BitVec.ofNat 64 j.val }
def Fields.j (f : Fields) : Option SReg := if f.l = 0 then none else some (Fin.ofNat 32 f.ext.toNat)

def Fields.withA (f : Fields) (o : VOp) : Fields := { f with a := r6 o.r, lpa := o.pat.code }
def Fields.va (f : Fields) : VOp := ⟨sOf f.a, Pat.ofCode f.lpa⟩
def Fields.withB (f : Fields) (o : VOp) : Fields := { f with b := r6 o.r, lpb := o.pat.code }
def Fields.vb (f : Fields) : VOp := ⟨sOf f.b, Pat.ofCode f.lpb⟩
def Fields.withVSrc (f : Fields) : VSrc → Fields
  | .reg o => f.withB o
  | .imm i => { f with l := 1, ext := i.setWidth 64 }
def Fields.vsrc (f : Fields) : VSrc := if f.l = 0 then .reg f.vb else .imm (f.ext.setWidth 32)

def SV.num : SV → Fin 32
  | .s r => r
  | .v r => r
def SV.cls : SV → Nat
  | .s _ => 0
  | .v _ => 1
def svOf (cls : Bool) (x : BitVec 6) : SV := if cls then .v (sOf x) else .s (sOf x)

/-- The registers of the ALU mould in the 64-bit layout. -/
def alu (op : Nat) (g : Guard) (fn : Nat) (d a : SReg) (b : Src) : Fields :=
  { Fields.base op g fn with d := r6 d, a := r6 a }.withSrc b
def falu (op : Nat) (g : Guard) (fn : Nat) (rm : Rm) (d a : SReg) (b : Src96) : Fields :=
  { Fields.base op g fn with d := r6 d, a := r6 a, mod := modRm false rm }.withSrc96 b
def da (op : Nat) (g : Guard) (fn : Nat) (d a : SReg) : Fields :=
  { Fields.base op g fn with d := r6 d, a := r6 a }
def dab (op : Nat) (g : Guard) (fn : Nat) (d a b : SReg) : Fields :=
  { Fields.base op g fn with d := r6 d, a := r6 a, b := r6 b }
def dac (op : Nat) (g : Guard) (fn : Nat) (d a c : SReg) : Fields :=
  { Fields.base op g fn with d := r6 d, a := r6 a, c := r6 c }
def v2 (op : Nat) (g : Guard) (fn : Nat) (mod : BitVec 4) (d : VReg) (a : VOp) (b : VSrc) : Fields :=
  ({ Fields.base op g fn with d := r6 d, mod := mod }.withA a).withVSrc b
def v1 (op : Nat) (g : Guard) (fn : Nat) (mod : BitVec 4) (d : VReg) (a : VOp) : Fields :=
  { Fields.base op g fn with d := r6 d, mod := mod }.withA a

/-! ### The encoder -/

/-- The fields of a scalar, control or system instruction (R143 to R172). -/
def encScalar : Instr → Option Fields
  | .nop g => some (.base 0x00 g 0)
  | .add g d a b => some (alu 0x01 g 0 d a b)
  | .sub g d a b => some (alu 0x02 g 0 d a b)
  | .mul g d a b => some (alu 0x03 g 0 d a b)
  | .mulh g k d a b => some (alu 0x04 g k.code d a b)
  | .div g u d a b => some (alu 0x05 g (b2n u) d a b)
  | .rem g u d a b => some (alu 0x06 g (b2n u) d a b)
  | .and g d a b => some (alu 0x07 g 0 d a b)
  | .or g d a b => some (alu 0x08 g 0 d a b)
  | .xor g d a b => some (alu 0x09 g 0 d a b)
  | .andn g d a b => some (alu 0x0A g 0 d a b)
  | .shl g d a b => some (alu 0x0B g 0 d a b)
  | .shr g d a b => some (alu 0x0C g 0 d a b)
  | .sar g d a b => some (alu 0x0D g 0 d a b)
  | .rotl g d a b => some (alu 0x0E g 0 d a b)
  | .min g u d a b => some (alu 0x0F g (b2n u) d a b)
  | .max g u d a b => some (alu 0x10 g (b2n u) d a b)
  | .clz g d a => some (da 0x11 g 0 d a)
  | .ctz g d a => some (da 0x12 g 0 d a)
  | .popc g d a => some (da 0x13 g 0 d a)
  | .ext g s d a f => some ((da 0x14 g (b2n s) d a).withField f)
  | .ins g d a f => some ((da 0x15 g 0 d a).withField f)
  | .sel g d p a b => some ({ alu 0x16 g 0 d a b with c := r6 p })
  | .mov g d b => some (alu 0x17 g 0 d 0 b)
  | .cmp g c d a b => some ({ alu 0x18 g c.code 0 a b with d := r6 d })
  | .plog g d (.two op a b) => some { Fields.base 0x19 g op.code with d := r6 d, a := r6 a, b := r6 b }
  | .plog g d (.twoImm op a i) => some ({ Fields.base 0x19 g op.code with d := r6 d, a := r6 a }.withImm i)
  | .plog g d (.not a) => some { Fields.base 0x19 g 4 with d := r6 d, a := r6 a }
  | .pmov g d (.reg a) => some { Fields.base 0x1A g 0 with d := r6 d, a := r6 a }
  | .pmov g d (.imm i) => some ({ Fields.base 0x1A g 0 with d := r6 d }.withImm i)
  | .pmovS g d a => some { Fields.base 0x1A g 1 with d := r6 d, a := r6 a }
  | .pmovB g d a => some { Fields.base 0x1A g 2 with d := r6 d, a := r6 a }
  | .fadd g s rm d a b => some (falu 0x1B g (b2n s) rm d a b)
  | .fmul g rm d a b => some (falu 0x1C g 0 rm d a b)
  | .ffma g rm d a b c => some { falu 0x1D g 0 rm d a b with c := r6 c }
  | .fminmax g m d a b => some (falu 0x1E g (b2n m) .rne d a b)
  | .fcmp g c d a b => some { falu 0x1F g c.code .rne 0 a b with d := r6 d }
  | .fcvt g u sat rm dst src d a =>
      some { da 0x20 g (b2n u) d a with b := BitVec.ofNat 6 src.code, c := BitVec.ofNat 6 dst.code, mod := modRm sat rm }
  | .mkfa g d a off k => some { (da 0x21 g 0 d a).withSrc96 off with c := k.setWidth 6 }
  | .fafld g f d a => some (da 0x22 g f.code d a)
  | .br g c a b disp => some ((dab 0x23 g c.code 0 a b).withImm disp)
  | .jmp g disp => some ((Fields.base 0x24 g 0).withImm disp)
  | .call g d disp => some ((da 0x25 g 0 d 0).withImm disp)
  | .callr g d a => some (da 0x26 g 0 d a)
  | .ret g a => some (da 0x27 g 0 0 a)
  | .loop g d disp => some ((da 0x28 g 0 d 0).withImm disp)
  | .exit g => some (.base 0x29 g 0)
  | .yield g => some (.base 0x2A g 0)
  | .mfc g d n => some ((da 0x2B g 0 d 0).withImm (n.setWidth 32))
  | .mtc g n a => some ((da 0x2C g 0 0 a).withImm (n.setWidth 32))
  | .trap g (.reg a) => some (da 0x2D g 0 0 a)
  | .trap g (.imm i) => some ((Fields.base 0x2D g 0).withImm i)
  | .trapSys g i => some ((Fields.base 0x2D g 1).withImm i)
  | .rte g => some (.base 0x2E g 0)
  | .flare g => some (.base 0x2F g 0)
  | .park g => some (.base 0x30 g 0)
  | .halt g => some (.base 0x31 g 0)
  | _ => none

/-- The fields of a memory, copy, fence, send or window instruction (R173 to R206). -/
def encMemory : Instr → Option Fields
  | .ld g w m acq d a off =>
      some ({ da 0x40 g 0 d a with mod := modMem (if acq then .acq else .plain) m }.withOff w.code off)
  | .st g w m rel a off c =>
      some ({ dac 0x41 g 0 0 a c with mod := modMem (if rel then .rel else .plain) m }.withOff w.code off)
  | .ldv g m d a off => some ({ da 0x42 g 0 d a with mod := modMem .plain m }.withOff 0 off)
  | .stv g m a off c => some ({ dac 0x43 g 0 0 a c with mod := modMem .plain m }.withOff 0 off)
  | .amo g op dw m o d a off b =>
      some ({ dab 0x44 g (op.code + 16 * b2n dw) d a b with mod := modMem o m }.withOff96 off)
  | .cas g dw m o d a off b c =>
      some ({ dab 0x45 g (b2n dw) d a b with c := r6 c, mod := modMem o m }.withOff96 off)
  | .taglk g d a => some (da 0x46 g 0 d a)
  | .tagset g d a b => some (dab 0x47 g 0 d a b)
  | .tagclr g d a => some (da 0x48 g 0 d a)
  | .copyIn g m d a b c rowb rows =>
      some { dab 0x49 g 0 d a b with c := r6 c, mod := modMem .plain m, l := 2, ext := (rows.setWidth 32) ++ rowb }
  | .copyOut g m d a b c rowb rows =>
      some { dab 0x49 g 1 d a b with c := r6 c, mod := modMem .plain m, l := 2, ext := (rows.setWidth 32) ++ rowb }
  | .copyst g d a => some (da 0x4A g 0 d a)
  | .waitt g a => some (da 0x4B g 0 0 a)
  | .testc g d a => some (da 0x4C g 0 d a)
  | .phase g sc => some (.base 0x4D g sc.code)
  | .xfence g s d => some (.base 0x4E g (4 * s.code + d.code))
  | .send g rel a (.s b) => some { dab 0x4F g 0 0 a b with mod := modMem (if rel then .rel else .plain) .abs }
  | .send g rel a (.v b) => some { dab 0x4F g 1 0 a b with mod := modMem (if rel then .rel else .plain) .abs }
  | .send g rel a (.imm i) => some ({ dab 0x4F g 0 0 a 0 with mod := modMem (if rel then .rel else .plain) .abs }.withImm i)
  | .sendC g rel d a (.s b) => some { dab 0x4F g 2 d a b with mod := modMem (if rel then .rel else .plain) .abs }
  | .sendC g rel d a (.v b) => some { dab 0x4F g 3 d a b with mod := modMem (if rel then .rel else .plain) .abs }
  | .sendC g rel d a (.imm i) => some ({ dab 0x4F g 2 d a 0 with mod := modMem (if rel then .rel else .plain) .abs }.withImm i)
  | .sendn g dir (.s d a) => some (da 0x50 g dir.code d a)
  | .sendn g dir (.v d a) => some (da 0x50 g (dir.code + 8) d a)
  | .sendm g k a => some (da 0x51 g (k.val + 8 * a.cls) 0 a.num)
  | .expect g (.s r) => some (da 0x52 g 0 r 0)
  | .expect g (.v r) => some (da 0x52 g 1 r 0)
  | .expect g (.sMask m) => some ((Fields.base 0x52 g 2).withImm m)
  | .expect g (.vMask m) => some ((Fields.base 0x52 g 3).withImm m)
  | .capmk g d (.idx a) vec reg => some (dac 0x53 g (b2n vec) d a reg)
  | .capmk g d (.idxImm i) vec reg => some { dac 0x53 g (b2n vec) d 0 reg with l := 2, ext := i.setWidth 64 }
  | .capmk g d (.other a b) vec reg => some { dab 0x53 g (2 + b2n vec) d a b with c := r6 reg }
  | .wput g m k a b c len =>
      some { dab 0x54 g k.val 0 a b with c := r6 c, mod := modMem .plain m, l := 2, ext := len.setWidth 64 }
  | .wwait g d k b => some ({ dac 0x55 g 0 d 0 0 with c := r6 k }.withSrc96 b)
  | .wwaitR g d a b => some ((da 0x55 g 1 d a).withSrc96 b)
  | .wcnt g d k => some { da 0x56 g 0 d 0 with c := r6 k }
  | .wcntR g d a => some (da 0x56 g 1 d a)
  | .wcntClr g d k => some { da 0x56 g 2 d 0 with c := r6 k }
  | _ => none

/-- The fields of a port, task-queue, timeline or launch instruction (R120, R135, R141, R273, R274). -/
def encPorts : Instr → Option Fields
  | .put g d a b => some (dab 0x60 g b.cls d a b.num)
  | .get g d a c => some (dac 0x61 g d.cls d.num a c)
  | .putd g d a b c => some { dab 0x62 g b.cls d a b.num with c := r6 c }
  | .getd g d a b c => some { dab 0x63 g d.cls d.num a b with c := r6 c }
  | .getany g d a (.reg b) c => some { dab 0x64 g d.cls d.num a b with c := r6 c }
  | .getany g d a (.imm m) c => some ((dac 0x64 g d.cls d.num a c).withImm (m.setWidth 32))
  | .close g d a => some (da 0x65 g 0 d a)
  | .bar g => some (.base 0x66 g 0)
  | .conld g d a => some (da 0x67 g 0 d a)
  | .conul g d a => some (da 0x68 g 0 d a)
  | .tqpush g d a b => some (dab 0x69 g 0 d a b)
  | .tqpushP g d a b => some (dab 0x69 g 1 d a b)
  | .tqpushRsv g d a c => some (dac 0x69 g 2 d a c)
  | .tqpushRel g d a c => some (dac 0x69 g 3 d a c)
  | .tqpop g d v a => some (dac 0x6A g 0 d a v)
  | .tqpopTry g d v a => some (dac 0x6A g 1 d a v)
  | .join g m d a b c => some { dab 0x6B g 0 d a b with c := r6 c, mod := modMem .plain m }
  | .joinP g m d a b c => some { dab 0x6B g 1 d a b with c := r6 c, mod := modMem .plain m }
  | .tlsig g d a b => some ((da 0x6C g 0 d a).withSrc96 b)
  | .tlwait g d a b => some ((da 0x6D g 0 d a).withSrc128 b)
  | .tlrd g d a => some (da 0x6E g 0 d a)
  | .tlrdSet g d a b => some (dab 0x6E g 1 d a b)
  | .launch g m d a => some { da 0x6F g 0 d a with mod := modMem .plain m }
  | _ => none

/-- The fields of a vector instruction (R229 to R248). -/
def encVector : Instr → Option Fields
  | .vadd g t rm sati d a b => some (v2 0x80 g t.code (modRm sati rm) d a b)
  | .vsub g t rm sati d a b => some (v2 0x81 g t.code (modRm sati rm) d a b)
  | .vmul g t rm sati d a b => some (v2 0x82 g t.code (modRm sati rm) d a b)
  | .vfma g t w rm sati d a b c => some { v2 0x83 g (t.code + 16 * w.code) (modRm sati rm) d a b with c := r6 c }
  | .vmin g t u d a b => some (v2 0x84 g (t.code + 16 * b2n u) 0 d a b)
  | .vmax g t u d a b => some (v2 0x85 g (t.code + 16 * b2n u) 0 d a b)
  | .vabs g t sati d a => some (v1 0x86 g t.code (modRm sati .rne) d a)
  | .vneg g t sati d a => some (v1 0x87 g t.code (modRm sati .rne) d a)
  | .vand g d a b => some (v2 0x88 g 0 0 d a b)
  | .vor g d a b => some (v2 0x89 g 0 0 d a b)
  | .vxor g d a b => some (v2 0x8A g 0 0 d a b)
  | .vshl g t d a b => some (v2 0x8B g t.code 0 d a b)
  | .vshr g t u d a b => some (v2 0x8C g (t.code + 16 * b2n u) 0 d a b)
  | .vcmp g t u c d a b =>
      some { v2 0x8D g (t.code + 16 * b2n u) 0 0 a b with d := r6 d, c := BitVec.ofNat 6 c.code }
  | .vsel g d p a b => some ({ v1 0x8E g 0 0 d a with c := r6 p }.withB b)
  | .vmov g d (.v o) => some (v1 0x8F g 0 0 d o)
  | .vmov g d (.imm i) => some ({ Fields.base 0x8F g 0 with d := r6 d }.withImm i)
  | .vmov g d (.s r) => some { Fields.base 0x8F g 1 with d := r6 d, a := r6 r }
  | .vext g s d a (.imm k) => some { v1 0x90 g (b2n s) 0 d a with c := r6 k }
  | .vext g s d a (.reg b) => some { v1 0x90 g (b2n s + 2) 0 d a with b := r6 b }
  | .vins g d a (.imm k) => some { Fields.base 0x91 g 0 with d := r6 d, a := r6 a, c := r6 k }
  | .vins g d a (.reg b) => some { Fields.base 0x91 g 1 with d := r6 d, a := r6 a, b := r6 b }
  | .vperm g d a b none => some ((v1 0x92 g 0 0 d a).withB b)
  | .vperm g d a b (some c) => some ({ v1 0x92 g 1 0 d a with c := r6 c }.withB b)
  | .vcvt g u part sat rm dst src d a =>
      some { v1 0x93 g (part.toNat + 4 * b2n u) (modRm sat rm) d a with b := .ofNat 6 src.code, c := .ofNat 6 dst.code }
  | .vpack g t sat rm d a k c => some { v1 0x94 g t.code (modRm sat rm) d a with b := r6 k, c := r6 c }
  | .vunpk g t d a k c => some { v1 0x95 g t.code 0 d a with b := r6 k, c := r6 c }
  | .vdot g t rm sati d a b => some ((v1 0x96 g t.code (modRm sati rm) d a).withB b)
  | .vred g op t rm sati d a => some (v1 0x97 g (t.code + 16 * op.code) (modRm sati rm) d a)
  | .vscan g op t rm sati d a => some (v1 0x98 g (t.code + 16 * op.code) (modRm sati rm) d a)
  | .vscana g rm d a b => some ((v1 0x99 g 5 (modRm false rm) d a).withB b)
  | .vrcp g d a => some (v1 0x9A g 0 0 d a)
  | .vrsq g d a => some (v1 0x9B g 0 0 d a)
  | .vsqrt g rm d a => some (v1 0x9C g 0 (modRm false rm) d a)
  | .vexp2 g d a => some (v1 0x9D g 0 0 d a)
  | .vlog2 g d a => some (v1 0x9E g 0 0 d a)
  | .vsin g d a => some (v1 0x9F g 0 0 d a)
  | .vcos g d a => some (v1 0xA0 g 0 0 d a)
  | .vtanh g d a => some (v1 0xA1 g 0 0 d a)
  | .vrng g f d => some { Fields.base 0xA2 g (b2n f) with d := r6 d }
  | .rngskip g (.regs a b) => some { Fields.base 0xA3 g 0 with a := r6 a, b := r6 b }
  | .rngskip g (.imm i hi) => some { Fields.base 0xA3 g (b2n hi) with l := 2, ext := i }
  | .vsort g t dn d a none => some (v1 0xA4 g (t.code + 16 * b2n dn) 0 d a)
  | .vsort g t dn d a (some b) => some ((v1 0xA4 g (t.code + 16 * b2n dn + 32) 0 d a).withB b)
  | _ => none

/-- The fields of a matrix, plan, collective or translation instruction (R289 to R327, R352, R353). -/
def encMatrix : Instr → Option Fields
  | .tld g d a b j => some ({ Fields.base 0xC0 g 0 with d := r6 d, a := r6 a, b := r6 b }.withJ j)
  | .tst g d a b j => some ({ Fields.base 0xC1 g 0 with d := r6 d, a := r6 a, b := r6 b }.withJ j)
  | .tzero g d j => some ({ Fields.base 0xC2 g 0 with d := r6 d }.withJ j)
  | .mma g z d a b j => some ({ Fields.base 0xC3 g (b2n z) with d := r6 d, a := r6 a, b := r6 b }.withJ j)
  | .mmas g z d a b c none =>
      some { Fields.base 0xC4 g (b2n z) with d := r6 d, a := r6 a, b := r6 b, c := r6 c }
  | .mmas g z d a b c (some (sb, j)) =>
      some ({ Fields.base 0xC4 g (b2n z) with d := r6 d, a := r6 a, b := r6 b, c := r6 c }.withExt (j.val + 64 * sb.val))
  | .accz g d j => some ({ Fields.base 0xC5 g 0 with d := r6 d }.withJ j)
  | .accld g d a b c j => some ({ Fields.base 0xC6 g 0 with d := r6 d, a := r6 a, b := r6 b, c := r6 c }.withJ j)
  | .accst g d a b c j => some ({ Fields.base 0xC7 g 0 with d := r6 d, a := r6 a, b := r6 b, c := r6 c }.withJ j)
  | .accvRd g d a b => some { Fields.base 0xC8 g 0 with d := r6 d, a := r6 a, b := r6 b }
  | .accvWr g d a b => some { Fields.base 0xC8 g 1 with d := r6 d, a := r6 a, b := r6 b }
  | .accvCvt g rm sat d a j => some ({ Fields.base 0xC8 g 2 with d := r6 d, a := r6 a, mod := modRm sat rm }.withJ j)
  | .accvCvti g sat d a j => some ({ Fields.base 0xC8 g 3 with d := r6 d, a := r6 a, mod := modRm sat .rne }.withJ j)
  | .mxwait g d a => some (da 0xC9 g 0 d a)
  | .mxtest g d a => some (da 0xCA g 0 d a)
  | .plank g d a b j => some ({ Fields.base 0xCB g 0 with d := r6 d, a := r6 a, b := r6 b }.withJ j)
  | .planm g r c a j => some ({ Fields.base 0xCC g (r.code + 4 * b2n c) with a := r6 a }.withJ j)
  | .balance g c a j => some ({ Fields.base 0xCD g (b2n c) with a := r6 a }.withJ j)
  | .planx g c d a j => some ({ Fields.base 0xCE g (b2n c) with d := r6 d, a := r6 a }.withJ j)
  | .plandot g c a b j => some ({ Fields.base 0xCF g (b2n c) with a := r6 a, b := r6 b }.withJ j)
  | .planlse g col c d a j => some ({ Fields.base 0xD0 g (b2n c + 2 * b2n col) with d := r6 d, a := r6 a }.withJ j)
  | .planrd g c (.vec r d) => some { Fields.base 0xD1 g (r.code + 4 * b2n c) with d := r6 d }
  | .planrd g c (.st d) => some { Fields.base 0xD1 g (8 + 4 * b2n c) with d := r6 d }
  | .planrd g c (.res d) => some { Fields.base 0xD1 g (9 + 4 * b2n c) with d := r6 d }
  | .planrd g c (.dot d) => some { Fields.base 0xD1 g (10 + 4 * b2n c) with d := r6 d }
  | .red g op t m d a len grp =>
      some { (da 0xE0 g (t.code + 16 * op.code) d a).withSrc96 len with c := grp.code, mod := modMem .plain m }
  | .redw g d a => some (da 0xE1 g 0 d a)
  | .topk g thr d a k grp => some { (da 0xE2 g (b2n thr) d a).withSrc96 k with c := grp.code }
  | .mcast g k vec m d a b => some { dab 0xE3 g (k.val + 8 * b2n vec) d a b with mod := modMem .plain m }
  | .pfetch g pin d a b => some ((da 0xE4 g (b2n pin) d a).withSrc96 b)
  | .tlbinvPage g d a => some (da 0xE5 g 0 d a)
  | .tlbinvAs g d => some (da 0xE5 g 1 d 0)
  | .tlbinvAsid g d a => some (da 0xE5 g 2 d a)
  | .tlbinvAll g d => some (da 0xE5 g 3 d 0)
  | _ => none

/-- The fields of an instruction; none for a step of the device, which has no encoding. -/
def encodeFields (i : Instr) : Option Fields :=
  (encScalar i).orElse fun _ => (encMemory i).orElse fun _ => (encPorts i).orElse fun _ =>
  (encVector i).orElse fun _ => encMatrix i

/-- The bits of an instruction, bit 0 first, zero above its length (R63, R64). -/
def encode (i : Instr) : Option (BitVec 128) := (encodeFields i).map Fields.toBits

/-- Bits [63:0] of an instruction: TVAL of ILLEGAL and PRIV (R75). -/
def Instr.bits64 (i : Instr) : BitVec 64 := ((encode i).getD 0).setWidth 64

/-! ### The decoder -/

/-- Reads opcodes 0x00 to 0x31. -/
def rawScalar (f : Fields) : Option Instr :=
  let g := Guard.ofCode f.g
  let d := sOf f.d
  let a := sOf f.a
  let fn := f.fn.toNat
  match f.op.toNat with
  | 0x00 => some (.nop g)
  | 0x01 => some (.add g d a f.src)
  | 0x02 => some (.sub g d a f.src)
  | 0x03 => some (.mul g d a f.src)
  | 0x04 => some (.mulh g (.ofCode fn) d a f.src)
  | 0x05 => some (.div g (fn == 1) d a f.src)
  | 0x06 => some (.rem g (fn == 1) d a f.src)
  | 0x07 => some (.and g d a f.src)
  | 0x08 => some (.or g d a f.src)
  | 0x09 => some (.xor g d a f.src)
  | 0x0A => some (.andn g d a f.src)
  | 0x0B => some (.shl g d a f.src)
  | 0x0C => some (.shr g d a f.src)
  | 0x0D => some (.sar g d a f.src)
  | 0x0E => some (.rotl g d a f.src)
  | 0x0F => some (.min g (fn == 1) d a f.src)
  | 0x10 => some (.max g (fn == 1) d a f.src)
  | 0x11 => some (.clz g d a)
  | 0x12 => some (.ctz g d a)
  | 0x13 => some (.popc g d a)
  | 0x14 => some (.ext g (fn == 1) d a f.fieldSpec)
  | 0x15 => some (.ins g d a f.fieldSpec)
  | 0x16 => some (.sel g d (pOf f.c) a f.src)
  | 0x17 => some (.mov g d f.src)
  | 0x18 => some (.cmp g (.ofCode fn) (pOf f.d) a f.src)
  | 0x19 =>
      if fn = 4 then some (.plog g (pOf f.d) (.not (pOf f.a)))
      else if f.l = 0 then some (.plog g (pOf f.d) (.two (.ofCode fn) (pOf f.a) (pOf f.b)))
      else some (.plog g (pOf f.d) (.twoImm (.ofCode fn) (pOf f.a) f.imm))
  | 0x1A =>
      if fn = 0 then some (.pmov g (pOf f.d) (if f.l = 0 then .reg a else .imm f.imm))
      else if fn = 1 then some (.pmovS g d (pOf f.a))
      else some (.pmovB g (pOf f.d) a)
  | 0x1B => some (.fadd g (fn == 1) (rmOf f.mod) d a f.src96)
  | 0x1C => some (.fmul g (rmOf f.mod) d a f.src96)
  | 0x1D => some (.ffma g (rmOf f.mod) d a f.src96 (sOf f.c))
  | 0x1E => some (.fminmax g (fn == 1) d a f.src96)
  | 0x1F => some (.fcmp g (.ofCode fn) (pOf f.d) a f.src96)
  | 0x20 => some (.fcvt g (fn == 1) (satOf f.mod) (rmOf f.mod) (.ofCode f.c.toNat) (.ofCode f.b.toNat) d a)
  | 0x21 => some (.mkfa g d a f.src96 (f.c.setWidth 3))
  | 0x22 => some (.fafld g (.ofCode fn) d a)
  | 0x23 => some (.br g (.ofCode fn) a (sOf f.b) f.imm)
  | 0x24 => some (.jmp g f.imm)
  | 0x25 => some (.call g d f.imm)
  | 0x26 => some (.callr g d a)
  | 0x27 => some (.ret g a)
  | 0x28 => some (.loop g d f.imm)
  | 0x29 => some (.exit g)
  | 0x2A => some (.yield g)
  | 0x2B => some (.mfc g d (f.ext.setWidth 12))
  | 0x2C => some (.mtc g (f.ext.setWidth 12) a)
  | 0x2D => if fn = 0 then some (.trap g (if f.l = 0 then .reg a else .imm f.imm)) else some (.trapSys g f.imm)
  | 0x2E => some (.rte g)
  | 0x2F => some (.flare g)
  | 0x30 => some (.park g)
  | 0x31 => some (.halt g)
  | _ => none

/-- Reads opcodes 0x40 to 0x56. -/
def rawMemory (f : Fields) : Option Instr :=
  let g := Guard.ofCode f.g
  let d := sOf f.d
  let a := sOf f.a
  let b := sOf f.b
  let c := sOf f.c
  let fn := f.fn.toNat
  let m := modeOf f.mod
  match f.op.toNat with
  | 0x40 => some (.ld g (.ofCode (fn % 8)) m (orderOf f.mod == .acq) d a f.off)
  | 0x41 => some (.st g (.ofCode (fn % 8)) m (orderOf f.mod == .rel) a f.off c)
  | 0x42 => some (.ldv g m d a f.off)
  | 0x43 => some (.stv g m a f.off c)
  | 0x44 => some (.amo g (.ofCode (fn % 16)) (f.fn.getLsbD 4) m (orderOf f.mod) d a f.off96 b)
  | 0x45 => some (.cas g (fn == 1) m (orderOf f.mod) d a f.off96 b c)
  | 0x46 => some (.taglk g d a)
  | 0x47 => some (.tagset g d a b)
  | 0x48 => some (.tagclr g d a)
  | 0x49 =>
      if fn = 0 then some (.copyIn g m d a b c (f.ext.setWidth 32) (f.ext.extractLsb' 32 20))
      else some (.copyOut g m d a b c (f.ext.setWidth 32) (f.ext.extractLsb' 32 20))
  | 0x4A => some (.copyst g d a)
  | 0x4B => some (.waitt g a)
  | 0x4C => some (.testc g d a)
  | 0x4D => some (.phase g (.ofCode fn))
  | 0x4E => some (.xfence g (.ofCode (fn / 4)) (.ofCode (fn % 4)))
  | 0x4F =>
      let v : SendVal := if f.l = 1 then .imm f.imm else if f.fn.getLsbD 0 then .v b else .s b
      if f.fn.getLsbD 1 then some (.sendC g (orderOf f.mod == .rel) d a v)
      else some (.send g (orderOf f.mod == .rel) a v)
  | 0x50 => some (.sendn g (.ofCode (fn % 8)) (if f.fn.getLsbD 3 then .v d a else .s d a))
  | 0x51 => some (.sendm g (Fin.ofNat 8 fn) (svOf (f.fn.getLsbD 3) f.a))
  | 0x52 =>
      some (.expect g (if fn = 0 then .s d else if fn = 1 then .v d else if fn = 2 then .sMask f.imm else .vMask f.imm))
  | 0x53 =>
      some (.capmk g d (if f.l = 2 then .idxImm (f.ext.setWidth 8) else if f.fn.getLsbD 1 then .other a b else .idx a)
        (f.fn.getLsbD 0) c)
  | 0x54 => some (.wput g m (aOf f.fn) a b c (f.ext.setWidth 32))
  | 0x55 => if fn = 0 then some (.wwait g d (aOf f.c) f.src96) else some (.wwaitR g d a f.src96)
  | 0x56 =>
      if fn = 0 then some (.wcnt g d (aOf f.c)) else if fn = 1 then some (.wcntR g d a) else some (.wcntClr g d (aOf f.c))
  | _ => none

/-- Reads opcodes 0x60 to 0x6F. -/
def rawPorts (f : Fields) : Option Instr :=
  let g := Guard.ofCode f.g
  let d := sOf f.d
  let a := sOf f.a
  let b := sOf f.b
  let c := sOf f.c
  let fn := f.fn.toNat
  let cls := f.fn.getLsbD 0
  match f.op.toNat with
  | 0x60 => some (.put g d a (svOf cls f.b))
  | 0x61 => some (.get g (svOf cls f.d) a c)
  | 0x62 => some (.putd g d a (svOf cls f.b) c)
  | 0x63 => some (.getd g (svOf cls f.d) a b c)
  | 0x64 => some (.getany g (svOf cls f.d) a (if f.l = 0 then .reg b else .imm (f.ext.setWidth 8)) c)
  | 0x65 => some (.close g d a)
  | 0x66 => some (.bar g)
  | 0x67 => some (.conld g d a)
  | 0x68 => some (.conul g d a)
  | 0x69 =>
      if fn = 0 then some (.tqpush g d a b) else if fn = 1 then some (.tqpushP g d a b)
      else if fn = 2 then some (.tqpushRsv g d a c) else some (.tqpushRel g d a c)
  | 0x6A => if fn = 0 then some (.tqpop g d c a) else some (.tqpopTry g d c a)
  | 0x6B => if fn = 0 then some (.join g (modeOf f.mod) d a b c) else some (.joinP g (modeOf f.mod) d a b c)
  | 0x6C => some (.tlsig g d a f.src96)
  | 0x6D => some (.tlwait g d a f.src128)
  | 0x6E => if fn = 0 then some (.tlrd g d a) else some (.tlrdSet g d a b)
  | 0x6F => some (.launch g (modeOf f.mod) d a)
  | _ => none

/-- Reads opcodes 0x80 to 0xA4. -/
def rawVector (f : Fields) : Option Instr :=
  let g := Guard.ofCode f.g
  let d := sOf f.d
  let fn := f.fn.toNat
  let t := Fmt.ofCode (fn % 16)
  let rm := rmOf f.mod
  let sat := satOf f.mod
  let b4 := f.fn.getLsbD 4
  match f.op.toNat with
  | 0x80 => some (.vadd g t rm sat d f.va f.vsrc)
  | 0x81 => some (.vsub g t rm sat d f.va f.vsrc)
  | 0x82 => some (.vmul g t rm sat d f.va f.vsrc)
  | 0x83 => some (.vfma g t (.ofCode (fn / 16)) rm sat d f.va f.vsrc (sOf f.c))
  | 0x84 => some (.vmin g t b4 d f.va f.vsrc)
  | 0x85 => some (.vmax g t b4 d f.va f.vsrc)
  | 0x86 => some (.vabs g t sat d f.va)
  | 0x87 => some (.vneg g t sat d f.va)
  | 0x88 => some (.vand g d f.va f.vsrc)
  | 0x89 => some (.vor g d f.va f.vsrc)
  | 0x8A => some (.vxor g d f.va f.vsrc)
  | 0x8B => some (.vshl g t d f.va f.vsrc)
  | 0x8C => some (.vshr g t b4 d f.va f.vsrc)
  | 0x8D => some (.vcmp g t b4 (.ofCode f.c.toNat) (pOf f.d) f.va f.vsrc)
  | 0x8E => some (.vsel g d (pOf f.c) f.va f.vb)
  | 0x8F =>
      if f.l = 1 then some (.vmov g d (.imm f.imm)) else if fn = 0 then some (.vmov g d (.v f.va))
      else some (.vmov g d (.s (sOf f.a)))
  | 0x90 => some (.vext g (f.fn.getLsbD 0) d f.va (if f.fn.getLsbD 1 then .reg (sOf f.b) else .imm (sOf f.c)))
  | 0x91 => some (.vins g d (sOf f.a) (if f.fn.getLsbD 0 then .reg (sOf f.b) else .imm (sOf f.c)))
  | 0x92 => some (.vperm g d f.va f.vb (if fn = 1 then some (sOf f.c) else none))
  | 0x93 =>
      some (.vcvt g (f.fn.getLsbD 2) (f.fn.setWidth 2) sat rm (.ofCode f.c.toNat) (.ofCode f.b.toNat) d f.va)
  | 0x94 => some (.vpack g t sat rm d f.va (pOf f.b) (sOf f.c))
  | 0x95 => some (.vunpk g t d f.va (pOf f.b) (sOf f.c))
  | 0x96 => some (.vdot g t rm sat d f.va f.vb)
  | 0x97 => some (.vred g (.ofCode (fn / 16)) t rm sat d f.va)
  | 0x98 => some (.vscan g (.ofCode (fn / 16)) t rm sat d f.va)
  | 0x99 => some (.vscana g rm d f.va f.vb)
  | 0x9A => some (.vrcp g d f.va)
  | 0x9B => some (.vrsq g d f.va)
  | 0x9C => some (.vsqrt g rm d f.va)
  | 0x9D => some (.vexp2 g d f.va)
  | 0x9E => some (.vlog2 g d f.va)
  | 0x9F => some (.vsin g d f.va)
  | 0xA0 => some (.vcos g d f.va)
  | 0xA1 => some (.vtanh g d f.va)
  | 0xA2 => some (.vrng g (fn == 1) d)
  | 0xA3 =>
      if f.l = 2 then some (.rngskip g (.imm f.ext (fn == 1))) else some (.rngskip g (.regs (sOf f.a) (sOf f.b)))
  | 0xA4 => some (.vsort g t b4 d f.va (if f.fn.getLsbD 5 then some f.vb else none))
  | _ => none

/-- Reads opcodes 0xC0 to 0xE5. -/
def rawMatrix (f : Fields) : Option Instr :=
  let g := Guard.ofCode f.g
  let d := sOf f.d
  let a := sOf f.a
  let b := sOf f.b
  let fn := f.fn.toNat
  let c0 := f.fn.getLsbD 0
  match f.op.toNat with
  | 0xC0 => some (.tld g (tOf f.d) a b f.j)
  | 0xC1 => some (.tst g (tOf f.d) a b f.j)
  | 0xC2 => some (.tzero g (tOf f.d) f.j)
  | 0xC3 => some (.mma g (fn == 1) (aOf f.d) (tOf f.a) (tOf f.b) f.j)
  | 0xC4 =>
      some (.mmas g (fn == 1) (aOf f.d) (tOf f.a) (tOf f.b) (sOf f.c)
        (if f.l = 0 then none else some (Fin.ofNat 32 (f.ext.toNat / 64), Fin.ofNat 32 f.ext.toNat)))
  | 0xC5 => some (.accz g (aOf f.d) f.j)
  | 0xC6 => some (.accld g (aOf f.d) a b (sOf f.c) f.j)
  | 0xC7 => some (.accst g (aOf f.d) a b (sOf f.c) f.j)
  | 0xC8 =>
      if fn = 0 then some (.accvRd g d (aOf f.a) b) else if fn = 1 then some (.accvWr g (aOf f.d) a b)
      else if fn = 2 then some (.accvCvt g (rmOf f.mod) (satOf f.mod) (tOf f.d) (aOf f.a) f.j)
      else some (.accvCvti g (satOf f.mod) (tOf f.d) (aOf f.a) f.j)
  | 0xC9 => some (.mxwait g d a)
  | 0xCA => some (.mxtest g d a)
  | 0xCB => some (.plank g (tOf f.d) (tOf f.a) b f.j)
  | 0xCC => some (.planm g (.ofCode (fn % 4)) (f.fn.getLsbD 2) a f.j)
  | 0xCD => some (.balance g c0 (tOf f.a) f.j)
  | 0xCE => some (.planx g c0 (tOf f.d) (tOf f.a) f.j)
  | 0xCF => some (.plandot g c0 (tOf f.a) (tOf f.b) f.j)
  | 0xD0 => some (.planlse g (f.fn.getLsbD 1) c0 (aOf f.d) (tOf f.a) f.j)
  | 0xD1 =>
      some (.planrd g (f.fn.getLsbD 2)
        (if f.fn.getLsbD 3 then (if fn % 4 = 0 then .st d else if fn % 4 = 1 then .res d else .dot d)
         else .vec (.ofCode (fn % 4)) d))
  | 0xE0 => some (.red g (.ofCode (fn / 16)) (.ofCode (fn % 16)) (modeOf f.mod) d a f.src96 (.ofCode f.c))
  | 0xE1 => some (.redw g d a)
  | 0xE2 => some (.topk g (fn == 1) d a f.src96 (.ofCode f.c))
  | 0xE3 => some (.mcast g (Fin.ofNat 8 fn) (f.fn.getLsbD 3) (modeOf f.mod) d a b)
  | 0xE4 => some (.pfetch g (fn == 1) d a f.src96)
  | 0xE5 =>
      if fn = 0 then some (.tlbinvPage g d a) else if fn = 1 then some (.tlbinvAs g d)
      else if fn = 2 then some (.tlbinvAsid g d a) else some (.tlbinvAll g d)
  | _ => none

/-- The instruction an opcode's form reads, before its fields are checked (R72). -/
def rawDecode (f : Fields) : Option Instr :=
  let op := f.op.toNat
  if op < 0x40 then rawScalar f else if op < 0x60 then rawMemory f else if op < 0x70 then rawPorts f
  else if op < 0xC0 then rawVector f else rawMatrix f

/-- The guard of an instruction; none for a step of the device. -/
def Instr.guardOf (i : Instr) : Option Guard := (encodeFields i).map fun f => Guard.ofCode f.g

/-- An instruction is well formed when it passes the checks of its entry (R65 to R71) and its guard is admitted (R67). -/
def Instr.wf (i : Instr) : Bool := i.bodyWf && ((i.guardOf.map Guard.wf).getD true)

/-- The decoder on fields: the instruction read, if it is well formed and encodes to exactly these fields (R65 to R71). -/
def decodeFields (f : Fields) : Option Instr :=
  match rawDecode f with
  | some i => if i.wf && decide (encodeFields i = some f) then some i else none
  | none => none

/-- The decoder on the 16 bytes at an instruction's address, least significant byte first. None is ILLEGAL (R74). -/
def decode (w : BitVec 128) : Option Instr :=
  if w.extractLsb' 0 2 = 3 then none else decodeFields (.ofBits w)

/-- Length in bytes of an instruction (R60); 0 for a step of the device. -/
def Instr.len (i : Instr) : Nat := ((encodeFields i).map fun f => lenOf f.l).getD 0

/-- The instruction read from a word whose bits are numbered as the opcode table numbers them; bits above `nbits` are zero. -/
def decodeTableWord (nbits w : Nat) : Option Instr :=
  decode (BitVec.ofNat 128 (w % 2 ^ nbits))

end Sys2Proof
end

