-- ==== Sys2Proof/Config.lean ====
section
/-! DEFINITION. What an implementation fixes and the values the manual leaves open. The constants without a body are free:
nothing can be proved of their values. -/

namespace Sys2Proof.Config

/-- HBM bytes: 640 GiB (R20). -/
def hbmSize : Nat := 0xA000000000
/-- Bytes of a quad's local store (R22). -/
def lsSize : Nat := 2 ^ 20
/-- First offset of the system region (R29). -/
def sysBase : Nat := 0xFC000
/-- Supervisor entry (R333). -/
def supEntry : Nat := 0xFC000
/-- PREEMPT entry (R335). -/
def preemptEntry : Nat := 0xFC100
/-- Where the hardware writes the MACHINE record (R345). -/
def errRecord : Nat := 0xFDF00
/-- Base of the save records (R341). -/
def saveBase : Nat := 0xFE000

/-- Free bytes: unspecified mixtures of a faulted copy (R183), of an overlay copy fault (R81), bytes of an attestation report
that depend on fused secrets (R381), bytes of frames given to two pages (R354). -/
opaque freeByte : Nat → Byte
/-- Free choices: old or new where R216, R298, R314, R351 and R355 leave it open. -/
opaque freeBool : Nat → Bool
/-- Free lengths of time and positions: when a copy's lines move (R186), in which order (R217), transfer times to peers. -/
opaque freeNat : Nat → Nat
/-- Verification of a firmware image's signature against the fused key hash (R380). -/
opaque imageVerifies : List Byte → Bool
/-- The system region that an image loads (R33, R380): byte of an image at an offset from 0xF_C000. -/
opaque systemByte : List Byte → Nat → Byte
/-- Signature of a report by the identity key (R381). -/
opaque signReport : List Byte → BitVec 512
/-- Fuse configuration word and serial number (R381). -/
opaque fuseWord : BitVec 64
opaque serialNumber : BitVec 128
/-- DEV and the other devices of the load-store domain, as the lightship assigns them at boot (R15, R378). -/
opaque bootDev : BitVec 3
opaque bootDomain : List Nat
/-- DEV given by the strap or the lightship at boot (R15, R378): the reset value is 0. (DESIGN CHOICE, log entry 3.) -/
def devReset : BitVec 3 := 0

end Sys2Proof.Config
end

