-- ==== Sys2Proof/Machine/State.lean ====
section
/-! DEFINITION. The state of the device (R9 to R33, R109 to R142 and the chapters named at each field) as plain data, the
reasons a step can stop, and the state after reset. -/

namespace Sys2Proof.Machine

/-- A sparse map of `w`-bit cells in canonical form: keys strictly rising, no cell equal to 0, what an unlisted key reads as. -/
abbrev CMap (w : Nat) := List (Nat × BitVec w)

/-- A finite map with rising keys. -/
abbrev SMap (α : Type) := List (Nat × α)

/-- Why the machine stops. -/
inductive Fault where
  /-- Raised by the walker, the copy engines, the command endpoint and the dispatch engine when a translation names HBM
  at or above 640 GiB, which R20 says does not exist. Safe: the hardware's behaviour there is not stated. -/
  | absentMemory
  deriving DecidableEq, Repr

/-- Why a step has no meaning. -/
inductive Refusal where
  /-- Raised by the dispatcher alone, for an instruction whose meaning is not written. Safe. -/
  | notModelled (mnemonic : String)
  deriving DecidableEq, Repr

/-! ### Strands (R109) -/

/-- A register as the scoreboard names it (R144, R193). -/
inductive RegRef where
  | s (r : SReg)
  | v (r : VReg)
  | p (r : PReg)
  deriving DecidableEq, Repr

/-- The value of a result on its way to its register (R144); a vector result carries its lane mask (R67). -/
inductive RegVal where
  | s (r : SReg) (w : Word)
  | v (r : VReg) (mask : Lane) (x : VVal)
  | p (r : PReg) (mask x : Lane)
  deriving DecidableEq, Repr

/-- Scoreboard states (R193). -/
inductive RegSt where
  | normal | empty | full
  deriving DecidableEq, Repr

/-- What a strand sleeps in (R127, R187, R276, R287, R322, R336). -/
inductive Sleep where
  | timeline (d : SReg)
  | queue (d : SReg) (v : VReg)
  | promise (p : Word)
  | port (offer : Nat)
  | barrier (offer : Nat)
  | job (id : Nat) (d : SReg)
  | reduction (ticket : Nat) (d : SReg)
  | putCount (k : Fin 4) (th : Word) (d : SReg)
  | window (num : Nat) (th : Word) (d : SReg)
  | reply
  | saturated (cap : Word)
  | flush (eps : List Nat)
  | late (p : Word)
  | overlay (ticket : Nat)
  | firmware
  deriving DecidableEq, Repr

/-- What a strand does: it runs, it sleeps in the instruction at its pc, it stopped at PARK, a save or restore routine has it, its port
instruction was marked complete while it was saved (only as what it goes back to, R265), it has ended (R131, R170, R339). -/
inductive Act where
  | run
  | asleep (k : Sleep) (len : Nat)
  | parked
  | saving
  | complete
  | ended
  deriving DecidableEq, Repr

/-- A pending OVERWRITE (R195, R341). -/
structure Ovw where
  vec : Bool
  reg : Fin 32
  val : Word
  deriving DecidableEq, Repr

/-- One strand (R109, R164, R333). -/
structure Strand where
  gid    : Nat
  sidx   : Nat
  pc     : BitVec 20
  sup    : Bool
  sregs  : Vector Word 32
  vregs  : Vector VVal 32
  pregs  : Vector Lane 8
  sst    : Vector RegSt 32
  vst    : Vector RegSt 32
  /-- Results with their cycles of delivery, in issue order, and registers that await a message (R144, R175). -/
  pend   : List (Nat × RegVal)
  await  : List RegRef
  flagAt : Nat
  vstat  : Word
  serr   : Word
  rngk   : Word
  rngc   : BitVec 128
  tvec   : Word
  tpc    : Word
  tcause : Word
  tval   : Word
  tstat  : Word
  ssca   : Word
  sscb   : Word
  stpc   : Word
  scause : Word
  sval   : Word
  wcnt   : Vector Word 4
  ovw    : Option Ovw
  act    : Act
  /-- What a strand being saved goes back to; `saving` in one that runs: PREEMPT waits for the instruction of its arrival cycle. -/
  resume : Act
  wake   : Nat
  issued : Nat
  /-- Remote stores and atomics without acknowledgement (R175); the cycle from which every remote store and atomic issued so far
  is published, and the one from which every remote load has performed (R208). -/
  remote : Nat
  pubAt  : Nat
  loadsAt : Nat
  sends  : Nat
  domSends : Nat
  /-- What later memory operations wait for: 1 earlier loads, 2 and earlier publications, 3 and acknowledgements, 4 and sends,
  5 and sends to other devices (R176, R178, R189). -/
  hold   : Nat
  flushes : List Nat
  seen   : List Nat
  /-- The cycle of its latest acquire (R213): stores of other strands up to it count as happening before its own (R216). -/
  acqAt  : Nat
  /-- FULL registers whose read is an acquire, with the cycle up to which their senders' accesses happen before it (R199, R215). -/
  rels   : List (RegRef × Nat)
  /-- A PHASE that is not drained, with its cycle; the cycles of those that are, the latest of each scope; the cycle of the latest
  acknowledgement or arrival of its stores and sends (R189, R215). -/
  phase  : Option (Scope × Nat)
  phases : List (Scope × Nat)
  ackAt  : Nat
  /-- Its releases at scope QUAD that left stores to other quads on their way: their cycles, and those from which the stores are published
  (R181, R215). -/
  relQ   : List (Nat × Nat)
  /-- What the reads of its SENDNs on their way acquire: their targets and the cycles, the latest last (R200, R215). -/
  linkRels : List (Nat × Nat)
  /-- The register that a sleeping WAITT reads when it goes on (R187, R193). -/
  source : Option SReg
  deriving DecidableEq, Repr

/-! ### Quads (R11, R179 to R188, R281 to R314) -/

/-- A tag-table entry (R179). -/
structure Tag where
  valid : Bool
  key   : Word
  slot  : BitVec 12
  deriving DecidableEq, Repr

/-- Where a global address leads (R349, R350): HBM, a host's memory, a storage page by the physical address of its entry. -/
inductive Target where
  | hbm (pa : Nat)
  | host (endpt addr : Nat) (tso : Bool)
  | page (pte off : Nat)
  deriving DecidableEq, Repr

/-- A cached translation (R185, R350): the page it covers, where it leads, what it permits, and whether it set D. -/
structure Trans where
  asid  : Nat
  va    : Nat
  large : Bool
  tgt   : Target
  rd    : Bool
  wr    : Bool
  dset  : Bool
  deriving DecidableEq, Repr

/-- One global line of a copy and the local bytes it exchanges: (offset in the line, local offset, bytes); a line that rides moves in the
cycle of the one before it (R218). -/
structure Line where
  tgt    : Target
  pieces : List (Nat × Nat × Nat)
  ride   : Bool
  deriving DecidableEq, Repr

/-- What holds a copy slot (R182, R204, R81). -/
inductive CopyKind where
  | copyIn | copyOut
  | put (cap off : Word) (k : Fin 4)
  | overlay
  deriving DecidableEq, Repr

inductive CopySt where
  | issued | flight | storage | faulted | complete
  deriving DecidableEq, Repr

/-- A copy or window put by its ticket (R183 to R187). -/
structure Copy where
  /-- Its number among all copies and puts of the device. -/
  uid     : Nat
  kind    : CopyKind
  key     : Nat
  gid     : Nat
  gen     : BitVec 16
  asid    : Nat
  quad    : Nat
  la      : Nat
  lstr    : Nat
  ga      : Word
  gstr    : Int
  rowb    : Nat
  rows    : Nat
  d       : SReg
  st      : CopySt
  promise : Nat
  l0      : Nat
  lines   : List Line
  pages   : List Nat
  pins    : List Nat
  trans   : List Trans
  waited  : Bool
  done    : Nat
  op      : Nat
  buf     : List Byte
  /-- The cycle by which its lines are to be moved (R186). -/
  bound   : Nat
  /-- Bytes of code blocks that wait for the rest of their block (R32): (local offset, byte). -/
  held    : List (Nat × Byte)
  /-- Lines of a put that are read and not yet written at its window (R186). -/
  sent    : Nat
  /-- Lines of a copy that a stopped die-to-die link cuts off from their stack (R373). -/
  cut     : List Line
  xl      : List (Nat × Option Trans)
  walking : Bool
  /-- It was complete when its gang was saved: its ticket stands for T = 0, but its completion can still be observed (R184, R221). -/
  carried : Bool
  deriving DecidableEq, Repr

/-- A PFETCH whose pages are being translated (R353): its strand and register, the pages left, whether storage pages are requested, a walk is under
way, a page has failed. -/
structure Prefetch where
  key     : Nat
  d       : SReg
  asid    : Nat
  pin     : Bool
  pages   : List Nat
  walking : Bool
  failed  : Bool
  deriving DecidableEq, Repr

/-- A job with the operands it captured at acceptance (R285, R289 to R310). -/
inductive JobOp where
  | tld (t : Tile) (cfg : Word) (a st : Nat)
  | tst (t : Tile) (cfg : Word) (a st : Nat)
  | tzero (t : Tile)
  | accz (c : Acc)
  | accld (c : Acc) (a st rows : Nat)
  | accst (c : Acc) (a st rows : Nat)
  | mma (z : Bool) (c : Acc) (a b : Tile) (ca cb : Word)
  | mmas (z : Bool) (c : Acc) (a b : Tile) (ca cb : Word) (rows : List Lane) (sb : Lane)
  | cvt (rm : Rm) (sat : Bool) (t : Tile) (c : Acc) (cfg : Word) (key : Word) (ctr : BitVec 128)
  | cvti (sat : Bool) (t : Tile) (c : Acc) (cfg : Word)
  | plank (d a : Tile) (cfg : Word) (k : Lane)
  | planm (r : PlanReg) (ctx : Bool) (vals : List Lane)
  | balance (ctx : Bool) (t : Tile) (cfg pcfg : Word)
  | planx (ctx : Bool) (d a : Tile) (cfg : Word)
  | plandot (ctx : Bool) (a b : Tile) (cfg : Word)
  | planlse (ctx col : Bool) (c : Acc) (a : Tile) (cfg : Word)
  deriving DecidableEq, Repr

/-- An accepted job that is not complete (R285, R286). -/
structure Job where
  id     : Nat
  op     : JobOp
  accept : Nat
  start  : Option Nat
  seq    : Nat
  /-- An ACCV.wr made its result unpredictable (R298). -/
  loose  : Bool
  deriving DecidableEq, Repr

/-- A completed job by its id: flag word, operation number, cycle of completion (R287). -/
structure JobRec where
  flags : BitVec 6
  op    : Nat
  done  : Nat
  deriving DecidableEq, Repr

/-- A reduction by its ticket (R321, R322). -/
structure Red where
  gid   : Nat
  key   : Nat
  done  : Bool
  code  : Word
  op    : Nat
  at'   : Nat
  deriving DecidableEq, Repr

/-- One core's shared units (R129, R144, R227). -/
structure CoreSt where
  issued  : Option Nat
  divFree : Nat
  sfuFree : Nat
  sortFree : Nat
  /-- Code bytes that this core still fetches although they were overwritten (R32). -/
  stale   : CMap 9
  /-- The latest cycle in which the core let others go first, and how often it has in it (R200, R285). -/
  yields  : Nat × Nat
  deriving DecidableEq, Repr

/-- A flare snapshot of one slot (R382): pc, TCAUSE, scoreboard words. -/
structure Snap where
  slot : Nat
  pc : BitVec 20
  tcause : Word
  ssb : Word
  vsb : Word
  deriving DecidableEq, Repr

/-- One quad. -/
structure Quad where
  xbp      : BitVec 8
  tc       : Vector Word 12
  pcfg     : Word
  tags     : SMap Tag
  /-- Cycle from which the tag table is free (R181). -/
  tagFree  : Nat
  plan     : CMap 32
  copies   : SMap Copy
  nextTicket : Nat
  /-- The PFETCHes whose translations are not done, by numbers above those of tickets (R353). -/
  fetches  : SMap Prefetch
  /-- The cycle of the copy engine's next line move, 0 for none (R186). -/
  lineAt   : Nat
  /-- One more than the cycle in which a line of a copy or put last reached its destination (R186). -/
  movedAt  : Nat
  tcache   : List Trans
  jobs     : List Job
  nextJob  : Nat
  jobRecs : SMap JobRec
  moveFree : Nat
  arrFree  : Nat
  lastCore : Nat
  lastAccept : Option Nat
  reds     : SMap Red
  nextRed  : Nat
  cores    : Vector CoreSt 4
  links    : SMap Nat
  snap     : List Snap
  /-- The latest cycle with an ACCV.wr, and what its elements held before (R297). -/
  accWr    : Option (Nat × SMap Lane)
  /-- Cycle at which clearing ends (R132). -/
  clearing : Option Nat
  deriving DecidableEq, Repr

/-- A byte written by one path and not fenced for another (R216): the reader's path, the address, the writer's path and its operation (a
core's store: its strand), the value before; the write's number and cycle, and the strands that fenced it towards the cores, with the
cycles. -/
structure Unf where
  dst  : Path
  addr : Nat
  src  : Path
  op   : Nat
  old  : Byte
  id   : Nat
  at'  : Nat
  fenced : List (Nat × Nat)
  deriving DecidableEq, Repr

/-! ### Gangs and grids (R110 to R132, R338 to R346) -/

/-- States of a gang (R338). -/
inductive Phase where
  | starting | resident | interrupt | drain | dma | saved | parked | restoring
  deriving DecidableEq, Repr

/-- One multicast group (R201, R316): class and (SIDX, REG) members. -/
structure Mcg where
  vec     : Bool
  members : List (Nat × Fin 32)
  deriving DecidableEq, Repr

structure Gang where
  gid    : Nat
  gen    : BitVec 16
  grid   : Nat
  index  : Nat
  lw     : Nat
  lh     : Nat
  ox     : Nat
  oy     : Nat
  spc    : Nat
  phase  : Phase
  halted : Bool
  /-- (quad, core) pairs that still owe an acknowledgement (R338). -/
  acks   : List (Nat × Nat)
  /-- (quad, core) pairs whose save or restore routine has not ended. -/
  routines : List (Nat × Nat)
  parkPages : List Nat
  /-- When the controller has the request of a strand at PARK, and when it sent the suspends of a pre-emption (R265, R338). -/
  askAt  : Option Nat
  suspAt : Option Nat
  mcg    : Vector Mcg 8
  lastCluster : Nat
  /-- Saved contents of its quads in gang order (R342). -/
  image  : List Quad
  imageLs : List (CMap 8)
  imageTiles : List (CMap 8)
  imageAcc : List (CMap 32)
  imageUnf : List (List Unf)
  /-- The strand records as its routines wrote them, and the quad, class and number of the first register whose scoreboard code in a saved
  record is 11 (R341). -/
  recs : SMap (List Byte)
  badSb : Option (Nat × Bool × Nat)
  deriving DecidableEq, Repr

/-- The fields of a kernel header (R115). -/
structure Header where
  entry : Nat
  codesz : Nat
  sreq : Nat
  salloc : Nat
  vreq : Nat
  valloc : Nat
  spc : Nat
  lw : Nat
  lh : Nat
  tiles : Nat
  accs : Nat
  lstore : Nat
  coop : Bool
  equota : Nat
  segs : List (Nat × Nat × Nat)
  conns : List Nat
  deriving DecidableEq, Repr

/-- The fields of a launch record (R118). -/
structure Launch where
  hdrva : Nat
  argva : Word
  count : Nat
  pri : Nat
  early : Bool
  coop : Bool
  start : Bool
  done : Bool
  startCap : Word
  startTh : Word
  doneCap : Word
  doneInc : Word
  deriving DecidableEq, Repr

structure Grid where
  seq    : Nat
  asid   : Nat
  hdr    : Header
  launch : Launch
  /-- Gangs placed at least once, and gangs ended (R119, R131). -/
  placed : Nat
  ended  : Nat
  /-- Cluster of the first placed gang (R272). -/
  home   : Nat
  /-- Age start t_w (R121), and the effective priority it has reached. -/
  waitAt : Option Nat
  prio   : Nat
  quantum : Option Nat
  expired : Option Nat
  issued : Nat
  /-- Held halted by the host, by the lightship (R171, R379). -/
  heldHost : Bool
  heldLs : Bool
  /-- References to the images of the header are held but to those whose load fails; the cycle at which all loads end (R272). -/
  refs   : Bool
  loading : List Nat
  loadEnd : Nat
  failed : Bool
  deriving DecidableEq, Repr

/-! ### Controllers and lanterns (R133 to R141, R249 to R280) -/

/-- A timeline's allocation and value, with the strands asleep on it: (strand, threshold) (R133, R134). -/
structure Timeline where
  gen   : Option (BitVec 16)
  val   : Word
  waiters : List (Nat × Word)
  deriving DecidableEq, Repr

/-- A task queue (R136 to R139): permits by gang id, strands asleep in TQPOP. -/
structure Queue where
  gen   : BitVec 16
  cap   : Nat
  recs  : List (List Lane)
  permits : SMap Nat
  sleepers : List Nat
  deriving DecidableEq, Repr

/-- A window (R203). -/
structure Window where
  gen  : BitVec 16
  asid : Nat
  base : Nat
  len  : Nat
  count : Word
  deriving DecidableEq, Repr

/-- One candidate of a region (R257, R270). -/
structure Cand where
  mask   : BitVec 64
  excl   : BitVec 32
  routes : List (Nat × Nat)
  tests  : List (Nat × Nat × Nat × Bool)
  deriving DecidableEq, Repr

structure Region where
  lantern : Nat
  ptr   : Nat
  cands : List Cand
  deriving DecidableEq, Repr

/-- A port (R251, R270): direction, region, overflow fifo, binding. -/
structure Port where
  get    : Bool
  region : Nat
  ovf    : Option Nat
  bound  : Option (Nat × BitVec 16 × Nat)
  deriving DecidableEq, Repr

/-- A buffer with the permits of its upstream region (R262), below zero while a firing's own pop makes the room for its push (R258), and
its closes as the two lanterns hold them (R263). -/
structure Buf where
  items  : List Item
  permits : Int
  closed : Bool
  closedDown : Bool
  deriving DecidableEq, Repr

structure Fifo where
  up   : Nat
  down : Nat
  endB : Nat
  ovf  : Option Nat
  buf  : Buf
  obuf : Buf
  deriving DecidableEq, Repr

/-- A loaded connector image (R269, R272). -/
structure Image where
  asid  : Nat
  va    : Nat
  refs  : Nat
  ready : Nat
  ports : List Port
  regions : List Region
  fifos : List Fifo
  consts : List Word
  nslots : List Nat
  deriving DecidableEq, Repr

/-- An offer (R250, R258, R276, R277, R279). -/
structure Offer where
  key   : Nat
  gid   : Nat
  bar   : Bool
  asid  : Nat
  va    : Nat
  put   : Bool
  vec   : Bool
  any   : Bool
  ports : List (Nat × Nat)
  item  : Item
  deadline : Option Word
  d     : Fin 32
  c     : SReg
  live  : Bool
  susp  : Bool
  fired : Bool
  /-- Its image was unloaded: the trap is due (R273). -/
  gone  : Bool
  ref   : Word
  lantern : Nat
  /-- Cycles at which its starvation count reached 1, 2, …: the count is the length (R259). -/
  hist  : List Nat
  deriving DecidableEq, Repr

/-! ### Reductions, storage, network, host (R315 to R327, R354 to R384) -/

/-- What a member contributes (R319, R326). -/
inductive Contrib where
  | red (op : RedOp) (t : Fmt) (bytes : List Byte)
  | topk (thr : Bool) (par : Word) (lanes : VVal)
  deriving DecidableEq, Repr

/-- A member's part in an episode: the rank, the strand, its quad and ticket, range or vD, the contribution. -/
structure Part where
  rank  : Nat
  key   : Nat
  quad  : Nat
  ticket : Nat
  off   : Nat
  d     : VReg
  c     : Contrib
  deriving DecidableEq, Repr

/-- An episode of a group (R317): a gang's group or a domain group. -/
structure Episode where
  id    : Nat
  grp   : Grp
  gid   : Nat
  members : List (Option Nat)
  /-- The cycle at which a member on another device ends before it has contributed (R324). -/
  goneAt : Option Nat
  parts : List Part
  decided : Bool
  status : Nat
  /-- Result bytes of a RED, result lanes of a TOPK. -/
  bytes : List Byte
  lanes : VVal
  flags : BitVec 6
  deriving DecidableEq, Repr

inductive PageSt where
  | reading | resident | writeback
  deriving DecidableEq, Repr

/-- A storage page that is not NONRES (R355), by the physical address of its entry. -/
structure Page where
  pte   : Nat
  asid  : Nat
  va    : Nat
  st    : PageSt
  frame : Option Nat
  sent  : Bool
  xdelay : Nat
  /-- The lightship's evict waits for it (R379). -/
  evict : Bool
  /-- What the frame held when its write-back began. -/
  wbOld : CMap 8
  deriving DecidableEq, Repr

/-- A command of a drive (R357): the Read or Write of a page, or a Flush of the drive of a root port. -/
inductive DriveCmd where
  | read (pte : Nat)
  | write (pte : Nat)
  | flush (port : Nat)
  deriving DecidableEq, Repr

/-- A Flush that a drive executes (R357): the cycle and the outcome of its answer, what the drive held when it was submitted. -/
structure DriveFlush where
  due  : Nat
  good : Bool
  held : CMap 8
  deriving DecidableEq, Repr

/-- A drive on a root port (R357): its initialisation has not failed, queues created, the commands in its submission queue, and those
that wait for room there. -/
structure Drive where
  ok     : Bool
  queues : Bool
  out    : Nat
  fifo   : List DriveCmd
  /-- The Flushes under way, oldest first. -/
  flushed : List DriveFlush
  deriving DecidableEq, Repr

/-- The lightship's storage evict under way (R379): its level-1 table and range, the pages it still waits for. -/
structure Evict where
  root : Nat
  lo   : Nat
  hi   : Nat
  left : List Nat
  deriving DecidableEq, Repr

/-- A grid's completion record (R132, R346): whether its completion signal saturated, the 64 bytes of a fault. -/
structure Record where
  grid : Nat
  saturated : Bool
  fault : List Byte
  deriving DecidableEq, Repr

/-- A window put that waits for storage pages of its window, or is being written, with its translations by page, whether a read has
failed, and the bytes written so far (R186, R204, R355). -/
structure AwayPut where
  msg : PutMsg
  res : List (Nat × Trans)
  failed : Bool
  next : Nat
  deriving DecidableEq, Repr

/-- An RMA that waits for storage pages: its connection, its step, the translations of its pages, whether a read has failed (R375,
R377). -/
structure RmaWait where
  conn : Conn
  ev   : Instr
  res  : List (Nat × Trans)
  failed : Bool
  deriving DecidableEq, Repr

/-- A pending TLBINV or INVAL: who waits, what it covers, when it was issued, the copies and puts it waits for. -/
structure Inval where
  who   : InvalFor
  cover : Cover
  issued : Nat
  copies : List Nat
  puts  : List PutMsg
  deriving DecidableEq, Repr

/-- A due step: its cycle, its rank within a cycle, the step. -/
structure Due where
  due  : Nat
  prio : Nat
  ev   : Instr
  deriving DecidableEq, Repr

/-- What a message brings: a step of the agenda with its rank, or the value of a strand's register. -/
inductive Carried where
  | step (prio : Nat) (ev : Instr)
  | reg (key : Nat) (r : RegRef)
  deriving DecidableEq, Repr

/-- A message on its way and the cycle in which it comes (R363). -/
structure Flight where
  what : Carried
  due  : Nat
  deriving DecidableEq, Repr

/-- A reply on its way, with the quads at its ends (R363). -/
structure Reply where
  src : Nat
  dst : Nat
  fl  : Flight
  deriving DecidableEq, Repr

/-- A stream of messages that are delivered in the order sent, and the cycle before which nothing sent later than those known comes, for
one of them is late (R199, R367, R373). -/
structure Late where
  stream : Nat × Nat × Nat
  due    : Nat
  known  : List Flight
  deriving DecidableEq, Repr

/-- The device. -/
structure State where
  now     : Nat
  cycBase : Nat
  agenda  : List Due
  cur     : Nat
  free    : Nat
  opSeq   : Nat
  -- boot and lightship (R380, R381)
  booted  : Bool
  held    : Bool
  dev     : BitVec 3
  domain  : List Nat
  lost    : List Nat
  flash   : List Byte
  measure : Vector (BitVec 256) 4
  drives  : SMap Drive
  reports : List (List Byte)
  -- memories (R20, R22, R281)
  ls      : CMap 8
  hbm     : CMap 8
  host    : CMap 8
  disk    : CMap 8
  /-- The protection information of written blocks of the drives: guard and reference tag by block (R357). -/
  diskPi  : SMap (BitVec 48)
  /-- What the latest Flush made durable (R357, R358). -/
  durable : CMap 8
  /-- 64-byte lines of HBM whose data is known to be uncorrectable (R383). -/
  hbmBad  : List Nat
  tiles   : CMap 8
  acc     : CMap 32
  unf     : List Unf
  -- strands, quads, gangs, grids
  strands : SMap Strand
  quads   : SMap Quad
  gangs   : SMap Gang
  gens    : CMap 16
  grids   : SMap Grid
  nextSeq : Nat
  -- configuration registers (R128, R268, R318, R348, R354, R370, R374, R382, R384)
  dscfg   : Word
  spcfg   : Word
  nccfg   : Word
  sncfg   : Word
  sncyc   : Word
  pwcfg   : Word
  spErr   : Nat
  badCmd  : Nat
  unsup   : Nat
  lnStarve : Vector (BitVec 4) 32
  astab   : CMap 64
  domtab  : CMap 64
  -- controllers
  timelines : SMap Timeline
  queues  : SMap Queue
  windows : SMap Window
  images  : List Image
  offers  : SMap Offer
  nextOffer : Nat
  episodes : SMap Episode
  aborted : List (Grp × Nat)
  -- translation and storage
  /-- Walker caches (R350): cluster, address space, level (0 for an address-space entry), index, entry. -/
  wcache  : List (Nat × Nat × Nat × Nat × Word)
  invals  : List Inval
  /-- Puts into windows of this device that wait for storage pages. -/
  awayPuts : List AwayPut
  pool    : List Nat
  pages   : List Page
  waiting : List Nat
  /-- Cycle of the next sweep step, 0 for none, and whether the sweep has started and not stopped (R356). -/
  sweepAt : Nat
  sweeping : Bool
  flushing : List Nat
  /-- Flushes asked for that the engine has still to issue (R354, R357). -/
  flushAsks : Nat
  evicts  : List Evict
  -- network
  /-- Flits that failed in a row on a link, and the cycle of the last failure (R373). -/
  retries : SMap (Nat × Nat)
  stopped : List Nat
  /-- Packets promoted at the routers, in the order in which they are granted (R369). -/
  packets : List Promo
  /-- Replies on their way, and the streams of which a message is late (R367, R373). -/
  replies : List Reply
  late    : List Late
  /-- Arrivals that came with an EXPECT of their register and follow it in the next cycle (R193). -/
  deferred : List Instr
  /-- RMAs that wait for storage pages (R375, R377). -/
  rmaPending : List RmaWait
  -- outputs
  records : List Record
  /-- The 16-byte completions sent to the host, byte 0 lowest (R376). -/
  completions : List (BitVec 128)
  /-- Bytes of RMA reads; none for an error completion (R375). -/
  answers : List (BitVec 32 × Option (List Byte))
  deriving DecidableEq, Repr

/-- The device right after reset (R17, R33): the registers at their stated reset values, every memory with nothing listed.
(DESIGN CHOICE, log entry 1; DESIGN CHOICE, log entry 107; DESIGN CHOICE, log entry 146.) -/
def State.reset : State where
  now := 0
  cycBase := 0
  agenda := []
  cur := 0
  free := 0
  opSeq := 0
  booted := false
  held := false
  dev := Config.devReset
  domain := []
  lost := []
  flash := []
  measure := Vector.replicate 4 0
  drives := []
  reports := []
  ls := []
  hbm := []
  host := []
  disk := []
  diskPi := []
  durable := []
  hbmBad := []
  tiles := []
  acc := []
  unf := []
  strands := []
  quads := []
  gangs := []
  gens := []
  grids := []
  nextSeq := 0
  dscfg := 0x0000000058546000
  spcfg := 0x0EA6000000000000
  nccfg := 0x0000000022444020
  sncfg := 2
  sncyc := 0
  pwcfg := 0x6900
  spErr := 0
  badCmd := 0
  unsup := 0
  lnStarve := Vector.replicate 32 4
  astab := []
  domtab := []
  timelines := []
  queues := []
  windows := []
  images := []
  offers := []
  nextOffer := 0
  episodes := []
  aborted := []
  wcache := []
  invals := []
  awayPuts := []
  pool := []
  pages := []
  waiting := []
  sweepAt := 0
  sweeping := false
  flushing := []
  flushAsks := 0
  evicts := []
  retries := []
  stopped := []
  packets := []
  replies := []
  late := []
  deferred := []
  rmaPending := []
  records := []
  completions := []
  answers := []

end Sys2Proof.Machine
end

