-- ==== Sys2Proof/Machine/Maps.lean ====
section
/-! DEFINITION. Operations on the sparse maps of the state, on byte strings and on vector values. -/

namespace Sys2Proof.Machine

def mget? {α : Type} (m : SMap α) (k : Nat) : Option α :=
  match m with
  | [] => none
  | (j, v) :: t => if j = k then some v else mget? t k

def mset {α : Type} (m : SMap α) (k : Nat) (v : α) : SMap α :=
  match m with
  | [] => [(k, v)]
  | (j, x) :: t => if k < j then (k, v) :: (j, x) :: t else if k = j then (k, v) :: t else (j, x) :: mset t k v

def merase {α : Type} (m : SMap α) (k : Nat) : SMap α := m.filter fun c => c.1 != k

/-- What a key reads as; an unlisted key reads as 0. -/
def cget {w : Nat} (m : CMap w) (k : Nat) : BitVec w :=
  match m with
  | [] => 0
  | (j, v) :: t => if j = k then v else cget t k

/-- Writes one cell and keeps the canonical form. -/
def cset {w : Nat} (m : CMap w) (k : Nat) (v : BitVec w) : CMap w := if v = 0 then merase m k else mset m k v

/-- Every key of the list lies above `lo` and no cell is 0. -/
def cwfFrom {w : Nat} (lo : Nat) : CMap w → Bool
  | [] => true
  | (j, v) :: t => decide (lo ≤ j) && v != 0 && cwfFrom (j + 1) t

/-- The canonical form: keys strictly rising, no cell equal to what an unlisted key reads as. -/
def Memory.wf {w : Nat} (m : CMap w) : Bool := cwfFrom 0 m

/-- `n` cells from `k` on. -/
def cgetN {w : Nat} (m : CMap w) (k : Nat) : Nat → List (BitVec w)
  | 0 => []
  | n + 1 => cget m k :: cgetN m (k + 1) n

/-- Writes cells from `k` on. -/
def csetN {w : Nat} (m : CMap w) (k : Nat) : List (BitVec w) → CMap w
  | [] => m
  | v :: t => csetN (cset m k v) (k + 1) t

/-- Clears the keys in `[lo, hi)`. -/
def cclear {w : Nat} (m : CMap w) (lo hi : Nat) : CMap w := m.filter fun c => c.1 < lo || hi ≤ c.1

/-- The keys in `[lo, hi)` moved to start at 0. -/
def cslice {w : Nat} (m : CMap w) (lo hi : Nat) : CMap w :=
  (m.filter fun c => lo ≤ c.1 && c.1 < hi).map fun c => (c.1 - lo, c.2)

/-- Puts a slice back at `base`. -/
def cpaste {w : Nat} (m : CMap w) (base : Nat) (sl : CMap w) : CMap w :=
  sl.foldl (fun a c => cset a (base + c.1) c.2) m

/-- The bytes of a value, least significant first (R3). -/
def bytesOf {w : Nat} (n : Nat) (v : BitVec w) : List Byte := (List.range n).map fun i => v.extractLsb' (8 * i) 8

/-- The value of bytes, least significant first (R3). -/
def natOf : List Byte → Nat
  | [] => 0
  | b :: t => b.toNat + 256 * natOf t

/-- The bits `[hi:lo]` of a natural number. -/
def bitsOf (n hi lo : Nat) : Nat := n / 2 ^ lo % 2 ^ (hi + 1 - lo)

/-- Bytes `lo` to `lo + n - 1` of a record as a number. -/
def fieldOf (bs : List Byte) (lo n : Nat) : Nat := natOf ((bs.drop lo).take n)

/-- The vector whose lane `i` is `f i`. -/
def vmk (f : Nat → Lane) : VVal := Vector.mk ((List.range 32).map f).toArray (by simp)

/-- Lane `i` of a vector; 0 beyond 31. -/
def lane (v : VVal) (i : Nat) : Lane := if h : i < 32 then v[i] else 0

/-- The lanes of a vector in order. -/
def lanes (v : VVal) : List Lane := v.toList

/-- Lanes of `x` where the mask bit is 1, of `old` elsewhere (R67). -/
def blend (mask : Lane) (x old : VVal) : VVal := vmk fun i => if mask.getLsbD i then lane x i else lane old i

def updAt {α : Type} (l : List α) (i : Nat) (f : α → α) : List α := l.modify i f

def insertBy {α : Type} (le : α → α → Bool) (x : α) : List α → List α
  | [] => [x]
  | y :: t => if le x y then x :: y :: t else y :: insertBy le x t

/-- A stable sort. -/
def sortBy {α : Type} (le : α → α → Bool) (l : List α) : List α := l.foldr (insertBy le) []

end Sys2Proof.Machine
end

