-- ==== Sys2Proof/Machine/Operands.lean ====
section
/-! DEFINITION. The registers an instruction names: in the order in which R66 checks them (D, A, B, C, extended fields,
implicit operands), with what it reads and writes (R193), and whether it is supervisor-only (R73, R74). -/

namespace Sys2Proof.Machine

/-- A register field as R66 classes it. -/
inductive OpRef where
  | s (r : SReg)
  | v (r : VReg)
  | p (r : PReg)
  | t (r : Tile)
  | a (r : Acc)
  deriving DecidableEq, Repr

/-- One named register: whether it is a source, whether it is a destination. -/
structure Use where
  ref : OpRef
  rd  : Bool
  wr  : Bool
  deriving DecidableEq, Repr

def rs (r : SReg) : Use := ⟨.s r, true, false⟩
def ws (r : SReg) : Use := ⟨.s r, false, true⟩
def rws (r : SReg) : Use := ⟨.s r, true, true⟩
def rv (r : VReg) : Use := ⟨.v r, true, false⟩
def wv (r : VReg) : Use := ⟨.v r, false, true⟩
def rwv (r : VReg) : Use := ⟨.v r, true, true⟩
def rp (r : PReg) : Use := ⟨.p r, true, false⟩
def wp (r : PReg) : Use := ⟨.p r, false, true⟩
def ut (r : Tile) : Use := ⟨.t r, false, false⟩
def ua (r : Acc) : Use := ⟨.a r, false, false⟩

def Src.uses : Src → List Use
  | .reg r => [rs r]
  | _ => []
def Src96.uses : Src96 → List Use
  | .reg r => [rs r]
  | .imm _ => []
def Src128.uses : Src128 → List Use
  | .reg r => [rs r]
  | .imm _ => []
def VSrc.uses : VSrc → List Use
  | .reg o => [rv o.r]
  | .imm _ => []
def SV.reads : SV → List Use
  | .s r => [rs r]
  | .v r => [rv r]
def SV.writes : SV → List Use
  | .s r => [ws r]
  | .v r => [wv r]
def optW (j : Option SReg) : List Use := (j.map ws).toList
def Off.base (o : Off) (a : SReg) : Use := if o.isPost then rws a else rs a
def SendVal.uses : SendVal → List Use
  | .s r => [rs r]
  | .v r => [rv r]
  | .imm _ => []
/-- A register that follows another (R66 implicit operands). -/
def succV (r : VReg) : VReg := Fin.ofNat 32 (r.val + 1)

/-- The registers named by an instruction. -/
def Instr.uses : Instr → List Use
  | .add _ d a b | .sub _ d a b | .mul _ d a b | .and _ d a b | .or _ d a b | .xor _ d a b | .andn _ d a b
  | .shl _ d a b | .shr _ d a b | .sar _ d a b | .rotl _ d a b => ws d :: rs a :: Src.uses b
  | .mulh _ _ d a b => ws d :: rs a :: Src.uses b
  | .div _ _ d a b | .rem _ _ d a b | .min _ _ d a b | .max _ _ d a b => ws d :: rs a :: Src.uses b
  | .clz _ d a | .ctz _ d a | .popc _ d a => [ws d, rs a]
  | .ext _ _ d a (.reg b) => [ws d, rs a, rs b]
  | .ext _ _ d a (.imm _ _) => [ws d, rs a]
  | .ins _ d a (.reg b) => [rws d, rs a, rs b]
  | .ins _ d a (.imm _ _) => [rws d, rs a]
  | .sel _ d p a b => ws d :: rs a :: (Src.uses b ++ [rp p])
  | .mov _ d b => ws d :: Src.uses b
  | .cmp _ _ d a b => wp d :: rs a :: Src.uses b
  | .plog _ d (.two _ a b) => [wp d, rp a, rp b]
  | .plog _ d (.twoImm _ a _) => [wp d, rp a]
  | .plog _ d (.not a) => [wp d, rp a]
  | .pmov _ d a => wp d :: Src96.uses a
  | .pmovS _ d a => [ws d, rp a]
  | .pmovB _ d a => [wp d, rs a]
  | .fadd _ _ _ d a b | .fmul _ _ d a b | .fminmax _ _ d a b => ws d :: rs a :: Src96.uses b
  | .ffma _ _ d a b c => ws d :: rs a :: (Src96.uses b ++ [rs c])
  | .fcmp _ _ d a b => wp d :: rs a :: Src96.uses b
  | .fcvt _ _ _ _ _ _ d a => [ws d, rs a]
  | .mkfa _ d a b _ => ws d :: rs a :: Src96.uses b
  | .fafld _ _ d a => [ws d, rs a]
  | .br _ _ a b _ => [rs a, rs b]
  | .call _ d _ => [ws d]
  | .callr _ d a => [ws d, rs a]
  | .ret _ a => [rs a]
  | .loop _ d _ => [rws d]
  | .mfc _ d _ => [ws d]
  | .mtc _ _ a => [rs a]
  | .trap _ a => Src96.uses a
  | .ld _ _ _ _ d a o => [ws d, Off.base o a]
  | .st _ _ _ _ a o c => [Off.base o a, rs c]
  | .ldv _ _ d a o => [wv d, Off.base o a]
  | .stv _ _ a o c => [Off.base o a, rv c]
  | .amo _ _ _ _ _ d a _ b => [ws d, rs a, rs b]
  | .cas _ _ _ _ d a _ b c => [ws d, rs a, rs b, rs c]
  | .taglk _ d a | .tagclr _ d a => [ws d, rs a]
  | .tagset _ d a b => [ws d, rs a, rs b]
  | .copyIn _ _ d a b c _ rows | .copyOut _ _ d a b c _ rows =>
      [ws d, rs a, rs b, ⟨.s c, rows != 1, false⟩]
  | .copyst _ d a | .testc _ d a => [ws d, rs a]
  | .waitt _ a => [rs a]
  | .send _ _ a v => rs a :: SendVal.uses v
  | .sendC _ _ d a v => ws d :: rs a :: SendVal.uses v
  | .sendn _ _ (.s d a) => [⟨.s d, false, false⟩, rs a]
  | .sendn _ _ (.v d a) => [⟨.v d, false, false⟩, rv a]
  | .sendm _ _ a => SV.reads a
  | .expect _ (.s r) => [⟨.s r, false, false⟩]
  | .expect _ (.v r) => [⟨.v r, false, false⟩]
  | .expect _ (.sMask m) => ((List.finRange 32).filter fun k => m.getLsbD k.val).map fun k => ⟨.s k, false, false⟩
  | .expect _ (.vMask m) => ((List.finRange 32).filter fun k => m.getLsbD k.val).map fun k => ⟨.v k, false, false⟩
  | .capmk _ d (.idx a) _ _ => [ws d, rs a]
  | .capmk _ d (.idxImm _) _ _ => [ws d]
  | .capmk _ d (.other a b) _ _ => [ws d, rs a, rs b]
  | .wput _ _ _ a b c _ => [rs a, rs b, rs c]
  | .wwait _ d _ b => ws d :: Src96.uses b
  | .wwaitR _ d a b => ws d :: rs a :: Src96.uses b
  | .wcnt _ d _ | .wcntClr _ d _ => [ws d]
  | .wcntR _ d a => [ws d, rs a]
  | .put _ d a b => ws d :: rs a :: SV.reads b
  | .get _ d a c => SV.writes d ++ [rs a, ws c]
  | .putd _ d a b c => ws d :: rs a :: (SV.reads b ++ [rs c])
  | .getd _ d a b c => SV.writes d ++ [rs a, rs b, ws c]
  | .getany _ d a (.reg b) c => SV.writes d ++ [rs a, rs b, ws c]
  | .getany _ d a (.imm _) c => SV.writes d ++ [rs a, ws c]
  | .close _ d a => [ws d, rs a]
  | .conld _ d a | .conul _ d a => [ws d, rs a]
  | .tqpush _ d a b | .tqpushP _ d a b => [ws d, rs a, rv b]
  | .tqpushRsv _ d a c | .tqpushRel _ d a c => [ws d, rs a, rs c]
  | .tqpop _ d v a | .tqpopTry _ d v a => [ws d, rs a, wv v]
  | .join _ _ d a b c | .joinP _ _ d a b c => [ws d, rs a, rs b, rv c]
  | .tlsig _ d a b => ws d :: rs a :: Src96.uses b
  | .tlwait _ d a b => ws d :: rs a :: Src128.uses b
  | .tlrd _ d a => [ws d, rs a]
  | .tlrdSet _ d a b => [ws d, rs a, rs b]
  | .launch _ _ d a => [ws d, rs a]
  | .vadd _ _ _ _ d a b | .vsub _ _ _ _ d a b | .vmul _ _ _ _ d a b => wv d :: rv a.r :: VSrc.uses b
  | .vfma _ _ _ _ _ d a b c => wv d :: rv a.r :: (VSrc.uses b ++ [rv c])
  | .vmin _ _ _ d a b | .vmax _ _ _ d a b => wv d :: rv a.r :: VSrc.uses b
  | .vabs _ _ _ d a | .vneg _ _ _ d a => [wv d, rv a.r]
  | .vand _ d a b | .vor _ d a b | .vxor _ d a b => wv d :: rv a.r :: VSrc.uses b
  | .vshl _ _ d a b => wv d :: rv a.r :: VSrc.uses b
  | .vshr _ _ _ d a b => wv d :: rv a.r :: VSrc.uses b
  | .vcmp _ _ _ _ d a b => wp d :: rv a.r :: VSrc.uses b
  | .vsel _ d p a b => [wv d, rv a.r, rv b.r, rp p]
  | .vmov _ d (.v o) => [wv d, rv o.r]
  | .vmov _ d (.imm _) => [wv d]
  | .vmov _ d (.s r) => [wv d, rs r]
  | .vext _ _ d a (.imm _) => [ws d, rv a.r]
  | .vext _ _ d a (.reg b) => [ws d, rv a.r, rs b]
  | .vins _ d a (.imm _) => [wv d, rs a]
  | .vins _ d a (.reg b) => [wv d, rs a, rs b]
  | .vperm _ d a b none => [wv d, rv a.r, rv b.r]
  | .vperm _ d a b (some c) => [wv d, rv a.r, rv b.r, rv c]
  | .vcvt _ _ _ _ _ dst src d a => [⟨.v d, decide (Fmt.width dst < Fmt.width src), true⟩, rv a.r]
  | .vpack _ _ _ _ d a _ c => [rwv d, rv a.r, rws c]
  | .vunpk _ _ d a _ c => [wv d, rv a.r, rs c]
  | .vdot _ _ _ _ d a b => [rwv d, rv a.r, rv b.r]
  | .vred _ _ _ _ _ d a => [ws d, rv a.r]
  | .vscan _ _ _ _ _ d a => [wv d, rv a.r]
  | .vscana _ _ d a b => [wv d, rv a.r, rv b.r, wv (succV d)]
  | .vrcp _ d a | .vrsq _ d a | .vexp2 _ d a | .vlog2 _ d a | .vsin _ d a | .vcos _ d a | .vtanh _ d a => [wv d, rv a.r]
  | .vsqrt _ _ d a => [wv d, rv a.r]
  | .vrng _ _ d => [wv d]
  | .rngskip _ (.regs a b) => [rs a, rs b]
  | .vsort _ _ _ d a none => [wv d, rv a.r]
  | .vsort _ _ _ d a (some b) => [wv d, rv a.r, rv b.r, wv (succV d)]
  | .tld _ d a b j | .tst _ d a b j => ut d :: rs a :: rs b :: optW j
  | .tzero _ d j => ut d :: optW j
  | .accz _ d j => ua d :: optW j
  | .accld _ d a b c j | .accst _ d a b c j => ua d :: rs a :: rs b :: rs c :: optW j
  | .mma _ _ d a b j => ua d :: ut a :: ut b :: optW j
  | .mmas _ _ d a b c none =>
      [ua d, ut a, ut b, rv c, rv (succV c), rv (succV (succV c)), rv (succV (succV (succV c)))]
  | .mmas _ _ d a b c (some (sb, j)) =>
      [ua d, ut a, ut b, rv c, ws j, rs sb, rv (succV c), rv (succV (succV c)), rv (succV (succV (succV c)))]
  | .accvRd _ d a b => [wv d, ua a, rs b]
  | .accvWr _ d a b => [ua d, rv a, rs b]
  | .accvCvt _ _ _ d a j => ut d :: ua a :: optW j
  | .accvCvti _ _ d a j => ut d :: ua a :: optW j
  | .mxwait _ d a | .mxtest _ d a => [ws d, rs a]
  | .plank _ d a b j => ut d :: ut a :: rs b :: optW j
  | .planm _ _ _ a j => rv a :: (optW j ++ [rv (succV a)])
  | .balance _ _ a j => ut a :: optW j
  | .planx _ _ d a j => ut d :: ut a :: optW j
  | .plandot _ _ a b j => ut a :: ut b :: optW j
  | .planlse _ _ _ d a j => ua d :: ut a :: optW j
  | .planrd _ _ (.vec _ d) => [wv d, wv (succV d)]
  | .planrd _ _ (.st d) | .planrd _ _ (.res d) | .planrd _ _ (.dot d) => [ws d]
  | .red _ _ _ _ d a len _ => ws d :: rs a :: Src96.uses len
  | .redw _ d a => [ws d, rs a]
  | .topk _ _ d a k _ => wv d :: rv a :: Src96.uses k
  | .mcast _ _ _ _ d a b => [ws d, rs a, rs b]
  | .pfetch _ _ d a b => ws d :: rs a :: Src96.uses b
  | .tlbinvPage _ d a | .tlbinvAsid _ d a => [ws d, rs a]
  | .tlbinvAs _ d | .tlbinvAll _ d => [ws d]
  | _ => []

/-- Instructions whose guard is a lane mask (R67): those with a per-lane vector destination, and STV, VCMP and ACCV.wr, whose
entries take the guard lane by lane. -/
def Instr.laneGuard : Instr → Bool
  | .ldv .. | .stv .. | .vadd .. | .vsub .. | .vmul .. | .vfma .. | .vmin .. | .vmax .. | .vabs .. | .vneg .. | .vand ..
  | .vor .. | .vxor .. | .vshl .. | .vshr .. | .vcmp .. | .vsel .. | .vmov .. | .vins .. | .vperm .. | .vcvt .. | .vunpk ..
  | .vdot .. | .vrcp .. | .vrsq .. | .vsqrt .. | .vexp2 .. | .vlog2 .. | .vsin .. | .vcos .. | .vtanh .. | .vrng ..
  | .accvRd .. | .accvWr .. => true
  | _ => false

/-- What an acquire and a PHASE hold back (R189, R213): loads, stores, atomics, sends and port operations, and with them what acts on
tags, copies, windows, fences, timelines, queues, launches and reductions. (DEDUCED, log entry 38.) -/
def Instr.memOp : Instr → Bool
  | .ld .. | .st .. | .ldv .. | .stv .. | .amo .. | .cas .. | .taglk .. | .tagset .. | .tagclr .. | .copyIn .. | .copyOut ..
  | .phase .. | .xfence .. | .send .. | .sendC .. | .sendn .. | .sendm .. | .wput .. | .put .. | .get .. | .putd .. | .getd ..
  | .getany .. | .close .. | .bar .. | .tqpush .. | .tqpushP .. | .tqpushRsv .. | .tqpushRel .. | .tqpop .. | .tqpopTry ..
  | .join .. | .joinP .. | .tlsig .. | .tlwait .. | .tlrd .. | .tlrdSet .. | .launch .. | .red .. | .topk .. | .mcast .. => true
  | _ => false

/-- A control register that R164, R282, R301 and R333 mark PRIV under user read. -/
def crPrivRead (n : BitVec 12) : Bool := decide (0x101 ≤ n.toNat) && decide (n.toNat ≤ 0x106)
/-- A control register marked PRIV under user write. -/
def crPrivWrite (n : BitVec 12) : Bool := decide (0x100 ≤ n.toNat) && decide (n.toNat ≤ 0x106)

/-- Supervisor-only opcodes and cases (R73, R74). -/
def Instr.supOnly : Instr → Bool
  | .park _ | .halt _ | .conld .. | .conul .. | .tlrdSet .. | .tlbinvPage .. | .tlbinvAs .. | .tlbinvAsid .. | .tlbinvAll .. => true
  | .mfc _ _ n => crPrivRead n
  | .mtc _ n _ => crPrivWrite n
  | _ => false

end Sys2Proof.Machine
end

