-- ==== Sys2Proof/Machine/Ops.lean ====
section
/-! DEFINITION. The operations every meaning shares: positions on the device, access to strands, quads, gangs and grids, the
register file with its scoreboard (R144, R193), the agenda, local store with the paths of R216, address resolution (R26, R29),
taking a trap and returning from one (R331 to R335), and the issue of an instruction (R66 to R78). -/

namespace Sys2Proof.Machine

abbrev Out := Host.Outcome State Fault Refusal

/-! ### Positions (R12 to R15) -/

def quadX (q : Nat) : Nat := q % 32
def quadY (q : Nat) : Nat := q / 32
def quadAt (x y : Nat) : Nat := 32 * y + x
def dieOf (q : Nat) : Nat := quadX q / 16 + 2 * (quadY q / 8)
/-- Cluster of a quad (R13). -/
def clusterOf (q : Nat) : Nat := 8 * dieOf q + 4 * (quadY q % 8 / 4) + quadX q % 16 / 4
/-- Quad (1, 1) of a cluster (R13, R14). -/
def hubOf (c : Nat) : Nat :=
  quadAt (16 * (c / 8 % 2) + 4 * (c % 4) + 1) (8 * (c / 16) + 4 * (c / 4 % 2) + 1)
/-- Origin quad of a cluster. -/
def clusterOrigin (c : Nat) : Nat := quadAt (16 * (c / 8 % 2) + 4 * (c % 4)) (8 * (c / 16) + 4 * (c / 4 % 2))
def absDiff (a b : Nat) : Nat := (a - b) + (b - a)
/-- Hop count between two quads. -/
def hops (p q : Nat) : Nat := absDiff (quadX p) (quadX q) + absDiff (quadY p) (quadY q)
/-- Die edges crossed between two quads (R12). -/
def edges (p q : Nat) : Nat := absDiff (quadX p / 16) (quadX q / 16) + absDiff (quadY p / 8) (quadY q / 8)
/-- Quad (1, 1) of cluster 0, where the dispatch engine sits (R121). -/
def hub0 : Nat := 33

/-- A link by its two ends: one between two dies, one of the mesh between two quads. -/
def linkBetween (p q : Nat) : Nat :=
  if dieOf p = dieOf q then 512 * min p q + max p q else 2 ^ 20 + 4 * min (dieOf p) (dieOf q) + max (dieOf p) (dieOf q)

/-! ### Access to the parts of the state -/

def CoreSt.init : CoreSt := ⟨none, 0, 0, 0, [], (0, 0)⟩

/-- Changes one core of a quad. -/
def modCore (v : Vector CoreSt 4) (c : Nat) (f : CoreSt → CoreSt) : Vector CoreSt 4 :=
  if h : c < 4 then v.set c (f v[c]) else v

/-- A quad as reset and as a gang finds it (R33, R132, R281, R301). (DESIGN CHOICE, log entry 6.) -/
def Quad.init : Quad where
  xbp := 0
  tc := Vector.replicate 12 0
  pcfg := 0x10
  tags := []
  tagFree := 0
  plan := []
  copies := []
  nextTicket := 1
  fetches := []
  lineAt := 0
  movedAt := 0
  tcache := []
  jobs := []
  nextJob := 0
  jobRecs := []
  moveFree := 0
  arrFree := 0
  lastCore := 3
  lastAccept := none
  reds := []
  nextRed := 1
  cores := Vector.replicate 4 CoreSt.init
  links := []
  snap := []
  accWr := none
  clearing := none

def State.quad (s : State) (q : Nat) : Quad := (mget? s.quads q).getD Quad.init
def State.setQuad (s : State) (q : Nat) (x : Quad) : State := { s with quads := mset s.quads q x }
def State.modQuad (s : State) (q : Nat) (f : Quad → Quad) : State := s.setQuad q (f (s.quad q))
def State.strand? (s : State) (k : Nat) : Option Strand := mget? s.strands k
def State.setStrand (s : State) (k : Nat) (x : Strand) : State := { s with strands := mset s.strands k x }
def State.modStrand (s : State) (k : Nat) (f : Strand → Strand) : State :=
  match s.strand? k with
  | some x => s.setStrand k (f x)
  | none => s
def State.gang? (s : State) (gid : Nat) : Option Gang := mget? s.gangs gid
def State.setGang (s : State) (gid : Nat) (x : Gang) : State := { s with gangs := mset s.gangs gid x }
def State.modGang (s : State) (gid : Nat) (f : Gang → Gang) : State :=
  match s.gang? gid with
  | some x => s.setGang gid (f x)
  | none => s
def State.grid? (s : State) (n : Nat) : Option Grid := mget? s.grids n
def State.setGrid (s : State) (n : Nat) (x : Grid) : State := { s with grids := mset s.grids n x }
def State.modGrid (s : State) (n : Nat) (f : Grid → Grid) : State :=
  match s.grid? n with
  | some x => s.setGrid n (f x)
  | none => s
/-- The strand being executed. -/
def State.modCur (s : State) (f : Strand → Strand) : State := s.modStrand s.cur f

/-- CYC (R17). (DESIGN CHOICE, log entry 109.) -/
def State.cyc (s : State) : Word := BitVec.ofNat 64 (s.now - s.cycBase)

/-- The key of a strand. -/
def keyOf (gid sidx : Nat) : Nat := gid * 256 + sidx
def Strand.key (st : Strand) : Nat := keyOf st.gid st.sidx

def Gang.w (g : Gang) : Nat := 2 ^ g.lw
def Gang.h (g : Gang) : Nat := 2 ^ g.lh
def Gang.count (g : Gang) : Nat := g.w * g.h * 4 * g.spc
def Gang.origin (g : Gang) : Nat := quadAt g.ox g.oy
def Gang.cluster (g : Gang) : Nat := clusterOf g.origin
/-- The quads of a gang, row-major (R111, R342). -/
def Gang.quads (g : Gang) : List Nat :=
  (List.range (g.w * g.h)).map fun i => quadAt (g.ox + i % g.w) (g.oy + i / g.w)
/-- Quad, core and slot of a strand index (R111). -/
def Gang.place (g : Gang) (sidx : Nat) : Nat × Nat × Nat :=
  let i := sidx / (4 * g.spc)
  (quadAt (g.ox + i % g.w) (g.oy + i / g.w), sidx / g.spc % 4, sidx % g.spc)
def Gang.hasQuad (g : Gang) (q : Nat) : Bool := g.quads.contains q
/-- A gang stands on its quads in these phases (R110, R338), until its sections are written. -/
def Gang.onQuads (g : Gang) : Bool :=
  match g.phase with
  | .saved | .parked => false
  | .dma => g.image.isEmpty
  | _ => true
def Gang.quadOf (g : Gang) (sidx : Nat) : Nat := (g.place sidx).1

/-- The quad of the strand with a key; quad 0 when there is none. -/
def State.quadOf (s : State) (k : Nat) : Nat := ((s.gang? (k / 256)).map fun g => g.quadOf (k % 256)).getD 0
def State.headerOf (s : State) (gid : Nat) : Option Header :=
  (s.gang? gid).bind fun g => (s.grid? g.grid).map fun x => x.hdr
def State.asidOf (s : State) (gid : Nat) : Nat :=
  (((s.gang? gid).bind fun g => s.grid? g.grid).map fun x => x.asid).getD 0
/-- The gang that holds a quad (R110). -/
def State.holder (s : State) (q : Nat) : Option Gang :=
  (s.gangs.find? fun g => g.2.onQuads && g.2.hasQuad q).map fun g => g.2
/-- The key of the strand in a physical slot of a quad (R13, R23). -/
def State.slotKey (s : State) (q slot : Nat) : Option Nat :=
  match s.holder q with
  | some g => ((List.range g.count).find? fun i => g.place i == (q, slot / 4, slot % 4)).map fun i => keyOf g.gid i
  | none => none

/-! ### The agenda -/

/-- The order in which a bank serves what acts on it in one cycle: the matrix engine, the copy engine, the router (R177). -/
def bankRank : Instr → Nat
  | .jobComplete .. => 0
  | .lineMove .. => 1
  | _ => 2

/-- A step comes before another: an earlier cycle, in a cycle a smaller rank, in a rank the banks' order.
(DESIGN CHOICE, log entry 40.) -/
def Due.before (e x : Due) : Bool :=
  e.due < x.due || (e.due == x.due && (e.prio < x.prio || (e.prio == x.prio && bankRank e.ev < bankRank x.ev)))

/-- A due step goes behind those that it does not come before. -/
def insertDue (e : Due) : List Due → List Due
  | [] => [e]
  | x :: t => if e.before x then e :: x :: t else x :: insertDue e t

/-- Posts a step for a cycle; steps of one cycle and rank run in the order posted. (DESIGN CHOICE, log entry 98.) -/
def State.post (s : State) (due prio : Nat) (ev : Instr) : State :=
  { s with agenda := insertDue ⟨due, prio, ev⟩ s.agenda }
/-- Posts a step before those of its cycle and rank. -/
def insertFirst (e : Due) : List Due → List Due
  | [] => [e]
  | x :: t => if x.due < e.due || (x.due == e.due && x.prio < e.prio) then x :: insertFirst e t else e :: x :: t
def State.postFirst (s : State) (due prio : Nat) (ev : Instr) : State := { s with agenda := insertFirst ⟨due, prio, ev⟩ s.agenda }
def State.postIn (s : State) (n : Nat) (ev : Instr) : State := s.post (s.now + n) 2 ev

/-! ### The sweep (R356) -/

/-- The sweep runs when FREE < LOW or a request waits (R356). -/
def sweepWanted (s : State) : Bool := s.pool.length < bitsOf s.spcfg.toNat 23 0 || !s.waiting.isEmpty

/-- It has started, and stops when FREE ≥ HIGH and no request waits (R356). -/
def sweepOn (s : State) : Bool := sweepWanted s || (s.sweeping && s.pool.length < bitsOf s.spcfg.toNat 47 24)

/-- Starts or stops the sweep, and posts its next step: one page per 16 cycles (R356). (DEDUCED, log entry 129.) -/
def kickSweep (s : State) : State :=
  let s := { s with sweeping := sweepOn s }
  if s.sweepAt = 0 && (s.sweeping || s.pages.any fun p => p.evict) then ({ s with sweepAt := s.now + 16 }).postIn 16 .sweepStep else s

/-! ### Answers to the host (R376) -/

/-- The 16 bytes of a completion: TAG, status, value. -/
def completionOf (tag : BitVec 32) (status : Nat) (v : Word) : BitVec 128 := v ++ (0 : BitVec 16) ++ BitVec.ofNat 16 status ++ tag

/-- A command is answered. -/
def complete (s : State) (tag : BitVec 32) (status : Nat) (v : Word) : State :=
  { s with completions := s.completions ++ [completionOf tag status v] }

/-! ### Free values -/

/-- The next free value is a new one. (DESIGN CHOICE, log entry 10.) -/
def State.tick1 (s : State) : State := { s with free := s.free + 1 }

/-! ### Registers and the scoreboard (R66, R144, R193) -/

def sreg (st : Strand) (r : SReg) : Word := if r = 0 then 0 else st.sregs[r.val]
def vreg (st : Strand) (r : VReg) : VVal := st.vregs[r.val]
def preg (st : Strand) (r : PReg) : Lane := if r = 0 then BitVec.allOnes 32 else st.pregs[r.val]

def RegVal.ref : RegVal → RegRef
  | .s r _ => .s r
  | .v r _ _ => .v r
  | .p r _ _ => .p r

/-- A local write: the value and the state NORMAL (R193); a write to s0 or p0 is discarded (R66). -/
def regWrite (st : Strand) (x : RegVal) : Strand :=
  match x with
  | .s r w => if r = 0 then st else { st with sregs := st.sregs.set r.val w, sst := st.sst.set r.val .normal }
  | .v r m x => { st with vregs := st.vregs.set r.val (blend m x (vreg st r)), vst := st.vst.set r.val .normal }
  | .p r m x => if r = 0 then st else { st with pregs := st.pregs.set r.val ((x &&& m) ||| (preg st r &&& ~~~m)) }

/-- Delivers every result due by a cycle, in issue order (R144). -/
def settle (st : Strand) (now : Nat) : Strand :=
  let due := st.pend.filter fun p => p.1 ≤ now
  let st' := due.foldl (fun a p => regWrite a p.2) st
  { st' with pend := st.pend.filter fun p => now < p.1, await := st.await.filter fun r => !(due.any fun p => p.2.ref == r) }

/-- A whole-register result replaces what is still on its way to the same register. -/
def RegVal.whole : RegVal → Bool
  | .s _ _ => true
  | .v _ m _ => m == BitVec.allOnes 32
  | .p _ m _ => m == BitVec.allOnes 32

/-- The registers that take no result: `s0` and `p0` (R66). -/
def RegRef.discards : RegRef → Bool
  | .s r => r == 0
  | .p r => r == 0
  | .v _ => false

/-- A result delivered `l` cycles after a cycle (R144); at most one cycle is no delay to any later instruction. A result to `s0` or
`p0` is discarded at once (R66). -/
def regLater (st : Strand) (now l : Nat) (x : RegVal) : Strand :=
  if x.ref.discards then st else
  let same (p : Nat × RegVal) := p.2.ref == x.ref
  let st := { st with await := st.await.filter fun r => r != x.ref }
  if x.whole then
    let st := { st with pend := st.pend.filter fun p => !same p }
    if l ≤ 1 then regWrite st x else { st with pend := st.pend ++ [(now + l, x)] }
  else if l ≤ 1 && !(st.pend.any same) then regWrite st x
  else { st with pend := st.pend ++ [((st.pend.filter same).foldl (fun a p => max a p.1) (now + l), x)] }

/-- The result of an instruction of the current strand. -/
def State.wr (s : State) (l : Nat) (x : RegVal) : State := s.modCur fun st => regLater st s.now l x
def State.wrS (s : State) (l : Nat) (d : SReg) (w : Word) : State := s.wr l (.s d w)
def State.wrV (s : State) (l : Nat) (d : VReg) (m : Lane) (x : VVal) : State := s.wr l (.v d m x)
/-- A predicate written by a scalar instruction (R143). -/
def State.wrP (s : State) (l : Nat) (d : PReg) (b : Bool) : State :=
  s.wr l (.p d (BitVec.allOnes 32) (if b then BitVec.allOnes 32 else 0))
/-- A register that a message will write. -/
def State.awaitReg (s : State) (r : RegRef) : State :=
  if r == .s 0 then s else s.modCur fun st => { st with await := r :: st.await }
/-- Delivery of a message's result to a strand, resident or saved. -/
def State.deliver (s : State) (k : Nat) (x : RegVal) : State :=
  s.modStrand k fun st => regLater (settle st s.now) s.now 0 x
/-- Delivery at a later cycle, until which the register stays awaited. -/
def State.deliverAt (s : State) (k at' : Nat) (x : RegVal) : State :=
  s.modStrand k fun st =>
    let st := settle st s.now
    let st' := regLater st s.now (at' - s.now) x
    if st'.pend.any fun p => p.2.ref == x.ref then { st' with await := st.await } else st'
def State.deliverS (s : State) (k : Nat) (d : SReg) (w : Word) : State := s.deliver k (.s d w)
/-- A reply is on its way between two quads (R363). -/
def State.reply (s : State) (src dst due : Nat) (w : Carried) : State := { s with replies := s.replies ++ [⟨src, dst, ⟨w, due⟩⟩] }
/-- A result of the current strand's that a reply brings from a quad after `l` cycles (R363). -/
def State.wrFrom (s : State) (src l : Nat) (d : SReg) (w : Word) : State :=
  (s.wrS l d w).reply src (s.quadOf s.cur) (s.now + l) (.reg s.cur (.s d))
/-- Delivery at a later cycle of a result that a reply brings from a quad. -/
def State.deliverFrom (s : State) (src k at' : Nat) (x : RegVal) : State :=
  (s.deliverAt k at' x).reply src (s.quadOf k) at' (.reg k x.ref)

def onWay (st : Strand) (r : RegRef) : Bool := st.await.contains r || st.pend.any fun p => p.2.ref == r
def OpRef.reg? : OpRef → Option RegRef
  | .s r => if r = 0 then none else some (.s r)
  | .v r => some (.v r)
  | .p r => if r = 0 then none else some (.p r)
  | _ => none
def RegRef.isV : RegRef → Bool
  | .v _ => true
  | _ => false
def regEmpty (st : Strand) : RegRef → Bool
  | .s r => st.sst[r.val] == .empty
  | .v r => st.vst[r.val] == .empty
  | .p _ => false

/-- Whether a use stalls: a source that is on its way or EMPTY, a destination that a message has still to write, and the vector
destination of an instruction that writes lane by lane (`perLane`) while an earlier result is on its way to it (R223).
(DEDUCED, log entry 39.) -/
def useBusy (perLane : Bool) (st : Strand) (u : Use) : Bool :=
  match u.ref.reg? with
  | none => false
  | some r => (u.rd && (onWay st r || regEmpty st r)) || (u.wr && st.await.contains r) || (u.wr && perLane && r.isV && onWay st r)

/-- Whether a guard's predicate is on its way: `p0` never is (R67, R144). -/
def guardBusy (st : Strand) (g : Guard) : Bool := g.p != 0 && onWay st (.p g.p)

/-- A TOPK of an undecided or unfinished episode owes a strand this register: the result comes by the reduction's own path (R329). -/
def topkOwes (s : State) (k : Nat) (r : RegRef) : Bool :=
  s.episodes.any fun e => e.2.parts.any fun p => p.key == k && r == .v p.d && (match p.c with
    | .topk .. => true
    | .red .. => false)

/-- Earlier instructions of a strand have register results to deliver, the reductions' own apart: no precise trap is taken yet (R329).
(DEDUCED, log entry 111.) -/
def owesResults (s : State) (k : Nat) : Bool :=
  match s.strand? k with
  | some st0 =>
      let st := settle st0 s.now
      !st.pend.isEmpty || st.await.any fun r => !topkOwes s k r
  | none => false

/-- The read of a FULL register is an acquire with respect to its sender's release, or to a PHASE before the send (R199, R215). -/
def readFull (st : Strand) (r : RegRef) : Strand :=
  { st with acqAt := max st.acqAt (((st.rels.find? fun p => p.1 == r).map fun p => p.2).getD 0), rels := st.rels.filter fun p => p.1 != r }

/-- A read of a FULL register makes it NORMAL (R193). -/
def consume (st : Strand) (u : Use) : Strand :=
  if !u.rd then st
  else match u.ref with
    | .s r => if st.sst[r.val] == .full then { readFull st (.s r) with sst := st.sst.set r.val .normal } else st
    | .v r => if st.vst[r.val] == .full then { readFull st (.v r) with vst := st.vst.set r.val .normal } else st
    | _ => st

/-- What later memory operations wait for behind a PHASE (R189). -/
def phaseLevel : Scope → Nat
  | .quad => 1
  | .gang => 3
  | .device => 4
  | .domain => 5
  | .system => 5

/-- The PHASE before a memory operation is drained, with the stores that it did not wait for: its place in the order of PHASEs is the cycle in which everything that it waited for
was done, and those of other strands before it are ordered before what follows it (R215). -/
def settlePhase (st : Strand) : Strand :=
  match st.phase with
  | none => st
  | some (sc, c) =>
      let l := phaseLevel sc
      let at' := max (max c st.loadsAt) (max (if 2 ≤ l then st.pubAt else 0) (if 3 ≤ l then st.ackAt else 0))
      { st with phase := none, phases := (sc, at') :: st.phases.filter fun p => p.1 != sc, acqAt := max st.acqAt at'
                relQ := if at' < st.pubAt then (at', st.pubAt) :: st.relQ else st.relQ }

/-- A memory operation issues: the waits before it are over; a PHASE takes its place (R189, R215). -/
def orderMem (i : Instr) (now : Nat) (st : Strand) : Strand :=
  let st := { settlePhase st with hold := 0 }
  match i with
  | .phase _ sc => { st with phase := some (sc, now) }
  | _ => st

/-- The strand as an instruction leaves it at issue: FULL sources read (R193), waits over. -/
def readSources (i : Instr) (now : Nat) (st : Strand) : Strand :=
  (Instr.uses i).foldl consume (if Instr.memOp i then orderMem i now st else st)

/-- The ILLREG value of a register above the kernel's counts (R66). -/
def illreg? (h : Header) (u : Use) : Option Word :=
  let bad (cls n lim : Nat) : Option Word := if lim ≤ n then some (BitVec.ofNat 64 (256 * cls + n)) else none
  match u.ref with
  | .s r => bad 0 r.val h.sreq
  | .v r => bad 1 r.val h.vreq
  | .t r => bad 2 r.val h.tiles
  | .a r => bad 3 r.val h.accs
  | .p _ => none

/-! ### Fields of a register capability (R191) -/

def capDev (c : Word) : Nat := bitsOf c.toNat 59 57
def capGid (c : Word) : Nat := bitsOf c.toNat 56 37
def capSidx (c : Word) : Nat := bitsOf c.toNat 36 29
def capVec (c : Word) : Bool := c.getLsbD 28
def capReg (c : Word) : Nat := bitsOf c.toNat 27 23
def capGen (c : Word) : Nat := bitsOf c.toNat 15 0

/-- The status of a SEND.c that a strand waits for belongs to an arrival that is held for a gang being saved: it comes when the arrival
is in the saved image, into the sender's own if that is saved too (R197, R344). (DEDUCED, log entry 144.) -/
def statusHeld (s : State) (k : Nat) (r : RegRef) : Bool :=
  s.agenda.any fun e => match e.ev with
    | .sendArrival m =>
        m.sender == k && e.prio == 0 && decide (e.due ≤ s.now + 1) && capDev m.cap == s.dev.toNat && (m.status.any fun d => r == .s d) &&
        ((s.gang? (capGid m.cap)).any fun g => g.phase == .interrupt)
    | _ => false

/-- A strand is at its boundary with every result delivered, but for those of its undecided TOPKs and of its arrivals that other saves
hold, which go into its saved image (R324, R338, R344). -/
def saveReady (s : State) (k : Nat) : Bool :=
  match s.strand? k with
  | some st0 =>
      let st := settle st0 s.now
      st.act == .saving && st.pend.isEmpty && (st.await.all fun r => topkOwes s k r || statusHeld s k r) && decide (st.loadsAt ≤ s.now) && st.remote == 0
  | none => true

/-- The key of a byte of a quad's local store. -/
def lsKey (q off : Nat) : Nat := q * 2 ^ 20 + off

/-! ### Flares (R382) -/

def sbCode : RegSt → Nat
  | .normal => 0 | .empty => 1 | .full => 2
/-- Scoreboard word: two bits a register (R341). -/
def sbWord (v : Vector RegSt 32) : Word :=
  BitVec.ofNat 64 ((v.toList.foldr (fun x a => sbCode x + 4 * a) 0))

/-- A flare latches every quad's snapshot and sets HELD; it is ignored while HELD is 1. (DEDUCED, log entry 34.) -/
def flareLatch (s : State) : State :=
  if s.sncfg.getLsbD 4 then s
  else
    let snaps := s.strands.filterMap fun (k, st0) =>
      let st := settle st0 s.now
      match s.gang? (k / 256) with
      | some g =>
          if g.onQuads && st.act != .ended then
            let (q, c, sl) := g.place (k % 256)
            some (q, Snap.mk (4 * c + sl) st.pc st.tcause (sbWord st.sst) (sbWord st.vst))
          else none
      | none => none
    let qs := s.quads.map fun (q, x) => (q, { x with snap := (snaps.filter fun p => p.1 == q).map fun p => p.2 })
    { s with sncfg := s.sncfg ||| 0x10, quads := qs }

/-! ### Traps (R329 to R337) -/

def cILLEGAL : Nat := 0x01
def cILLREG : Nat := 0x02
def cPRIV : Nat := 0x03
def cALIGN : Nat := 0x04
def cPROTECT : Nat := 0x05
def cREMOTE : Nat := 0x06
def cOVERLAY : Nat := 0x07
def cOVERWRITE : Nat := 0x08
def cPROMISE : Nat := 0x09
def cCONNECTOR : Nat := 0x0A
def cTIMELINE : Nat := 0x0B
def cCAPABILITY : Nat := 0x0C
def cSOFTWARE : Nat := 0x0D
def cMACHINE : Nat := 0x0E

/-- User-deliverable causes (R329). -/
def userCause (cause sub : Nat) : Bool :=
  cause == cOVERLAY || cause == cOVERWRITE || (cause == cPROMISE && sub == 1) || (cause == cSOFTWARE && sub == 0)

def causeWord (ih : Bool) (cause sub : Nat) : Word := BitVec.ofNat 64 ((if ih then 65536 else 0) + 256 * sub + cause)
def Strand.ih (st : Strand) : Bool := st.tcause.getLsbD 16
def setField (w : Word) (hi lo : Nat) (v : Nat) : Word :=
  let m := (2 ^ (hi + 1 - lo) - 1) * 2 ^ lo
  (w &&& ~~~BitVec.ofNat 64 m) ||| (BitVec.ofNat 64 (v * 2 ^ lo) &&& BitVec.ofNat 64 m)
/-- TSTAT.K (R333). -/
def Strand.k (st : Strand) : Bool := st.tstat.getLsbD 8

/-- `sup_entry` (R333). -/
def supEntry (st : Strand) (at' val : Word) (cause sub now : Nat) : Strand :=
  { st with
    stpc := st.tpc, scause := st.tcause, sval := st.tval
    tstat := setField (setField st.tstat 0 0 (if st.sup then 1 else 0)) 8 8 0
    tpc := at', tcause := causeWord false cause sub, tval := val
    sup := true, pc := BitVec.ofNat 20 Config.supEntry, act := .run, wake := now + 3 }

/-- The checks of R77 on a control-transfer target. -/
def badTarget (t : Word) : Option Nat :=
  if t.toNat % 4 ≠ 0 then some cALIGN else if 2 ^ 20 ≤ t.toNat then some cPROTECT else none

/-- `user_entry` (R331). A handler address that breaks R77 traps at the handler's fetch. (DEDUCED, log entry 33.) -/
def userEntry (st : Strand) (at' val : Word) (cause sub now : Nat) : Strand :=
  let u := { st with tpc := at', tcause := causeWord true cause sub, tval := val,
                     pc := st.tvec.setWidth 20, act := .run, wake := now + 3 }
  match badTarget st.tvec with
  | none => u
  | some c => supEntry u (st.tvec.setWidth 20 |>.setWidth 64) st.tvec c 0 now

/-- Sends a fault to the dispatch engine (R346, R391). (DEDUCED, log entry 32.) -/
def postFault (s : State) (k delay : Nat) (cause sub : Nat) (tpc tval : Word) (err : BitVec 192) : State :=
  match s.gang? (k / 256) with
  | some g =>
      let m : FaultMsg := { grid := g.grid, code := BitVec.ofNat 8 cause, sub := BitVec.ofNat 8 sub, gang := g.index,
                            sidx := k % 256, tpc := tpc, tval := tval, err := err }
      (s.modStrand k fun st => { st with act := .asleep .firmware 0 }).postIn
        (delay + 2 * hops (g.quadOf (k % 256)) hub0) (.fault m)
  | none => s

/-- A trap goes to the strand's user handler (R331). -/
def userTakes (st : Strand) (cause sub : Nat) : Bool := userCause cause sub && !st.sup && st.tvec != 0 && !st.ih

/-- The strand as a trap makes it: in the user handler, or in the supervisor (R331, R333). -/
def trapEntry (st : Strand) (at' : Word) (cause sub now : Nat) (val : Word) : Strand :=
  if userTakes st cause sub then userEntry st at' val cause sub now else supEntry st at' val cause sub now

/-- A core takes over earlier writes to the code region (R32). -/
def freshCode (s : State) (k : Nat) : State :=
  let (q, c, _) := ((s.gang? (k / 256)).map fun g => g.place (k % 256)).getD (0, 0, 0)
  s.modQuad q fun x => { x with cores := modCore x.cores c fun y => { y with stale := [] } }

/-- A trap of a cause fires a flare when that source is enabled for it; the snapshot holds the strand as given (R382). -/
def flareTrap (s : State) (k cause : Nat) (st : Strand) : State :=
  if s.sncfg.getLsbD 2 && s.sncfg.toNat / 256 % 256 == cause then flareLatch (s.setStrand k st) else s

/-- The flares of a trap: of its cause with the trap's TCAUSE at the trapping pc, and of the second trap where the handler's address is
bad (R331, R382). -/
def trapFlares (s : State) (k : Nat) (st st' : Strand) (cause sub : Nat) : State :=
  if st.sup && cause != cMACHINE then flareTrap s k cause st
  else
    let s := flareTrap s k cause { st with tcause := causeWord (userTakes st cause sub) cause sub }
    match (if userTakes st cause sub then badTarget st.tvec else none) with
    | some c => flareTrap s k c { st' with pc := st.tvec.setWidth 20 }
    | none => s

/-- A strand takes what is pending at its next boundary (R195, R337). -/
def postOverwrite (s : State) (k : Nat) : State :=
  match s.strand? k with
  | some st => if st.ovw.isSome then s.post s.now 1 (.overwrite k) else s
  | none => s

/-- A trap of a strand (R329 to R335): the user handler, the supervisor, or, raised in supervisor mode, the end of the grid. An OVERWRITE that
was held under IH = 1 is taken at the supervisor's first instruction (R332, R335). -/
def takeTrap (s : State) (k : Nat) (at' : Word) (cause sub : Nat) (val : Word) : State :=
  match s.strand? k with
  | none => s
  | some st0 =>
      let st := settle st0 s.now
      let ends := st.sup && cause != cMACHINE
      let st' := if ends then st else trapEntry st at' cause sub s.now val
      let s := (freshCode (trapFlares s k st st' cause sub) k).setStrand k st'
      if ends then postFault s k 20 cause sub at' val 0 else postOverwrite s k

/-! ### Fill words (R61) -/

/-- A byte as a core fetches it: what the core still holds of overwritten code, else the local store (R32). -/
def codeByte (s : State) (q core off : Nat) : Byte :=
  let st := if h : core < 4 then cget ((s.quad q).cores[core]).stale off else 0
  if st = 0 then cget s.ls (lsKey q off) else st.setWidth 8

def codeNat (s : State) (q core off n : Nat) : Nat := natOf ((List.range n).map fun i => codeByte s q core (off + i))

/-- Words in a local store: the most fill words one fetch can pass. (DESIGN CHOICE, log entry 112.) -/
def fetchFuel : Nat := 262144

/-- The pc behind the fill words that stand at a pc and that the mode may fetch; the fuel counts them. -/
def skipFrom (s : State) (sup : Bool) (q core : Nat) : Nat → Nat → Nat
  | 0, pc => pc
  | fuel + 1, pc =>
      if !sup && (Config.sysBase ≤ pc || 4096 * (s.quad q).xbp.toNat ≤ pc) then pc
      else if codeNat s q core pc 4 = 0xFFFFFFFF then skipFrom s sup q core fuel ((pc + 4) % 2 ^ 20)
      else pc

/-- The pc of a strand's next instruction: no trap and no pre-emption names a fill word (R61). (DEDUCED, log entry 127.) -/
def State.skipFill (s : State) (k : Nat) (pc : BitVec 20) : BitVec 20 :=
  match s.strand? k, s.gang? (k / 256) with
  | some st, some g =>
      let (q, c, _) := g.place (k % 256)
      BitVec.ofNat 20 (skipFrom s st.sup q c fetchFuel pc.toNat)
  | _, _ => pc

/-- Return of a supervisor-mode RTE with K = 0 (R334): trap registers and mode restored. -/
def supReturn (st : Strand) (target : Word) (wake : Nat) : Strand :=
  { st with tpc := st.stpc, tcause := st.scause, tval := st.sval, sup := st.tstat.getLsbD 0,
            pc := target.setWidth 20, act := .run, wake := wake }

/-- Return of a supervisor-mode RTE with K = 1 (R334): trap registers untouched. -/
def saveReturn (st : Strand) (wake : Nat) : Strand :=
  { st with tstat := setField st.tstat 8 8 0, sup := st.tstat.getLsbD 9, pc := st.tstat.extractLsb' 44 20, wake := wake }

/-- PREEMPT (R335). -/
def preemptEntry (st : Strand) : Strand :=
  { st with
    tstat := setField (setField (setField st.tstat 63 44 st.pc.toNat) 9 9 (if st.sup then 1 else 0)) 8 8 1
    sup := true, pc := BitVec.ofNat 20 Config.preemptEntry }

/-! ### Waking -/

/-- A sleep at a port instruction or barrier: it is marked complete when its firing completes into a saved image (R265). -/
def Sleep.isOffer : Sleep → Bool
  | .port _ | .barrier _ => true
  | _ => false

/-- A strand that slept in an instruction goes on behind it; a pending OVERWRITE is then taken (R195). -/
def wakeStrand (s : State) (k wake : Nat) : State :=
  match s.strand? k with
  | some st =>
      match st.act with
      | .asleep _ len =>
          postOverwrite (s.setStrand k { st with act := .run, pc := st.pc + BitVec.ofNat 20 len, wake := wake }) k
      | .saving =>
          match st.resume with
          | .asleep z len =>
              let pc := s.skipFill k (st.tstat.extractLsb' 44 20 + BitVec.ofNat 20 len)
              s.setStrand k { st with resume := if z.isOffer then .complete else .run, tstat := setField st.tstat 63 44 pc.toNat }
          | _ => s
      | _ => s
  | none => s

/-- A strand's acquire completes at a cycle (R213). -/
def State.acquireBy (s : State) (k at' : Nat) : State := s.modStrand k fun st => { st with acqAt := max st.acqAt at' }

/-- What a strand sleeps in, saved or not. -/
def Strand.sleep? (st : Strand) : Option Sleep :=
  match st.act, st.resume with
  | .asleep k _, _ => some k
  | .saving, .asleep k _ => some k
  | _, _ => none

/-- The current strand sleeps in its instruction. -/
def State.sleepIn (s : State) (k : Sleep) (len : Nat) : State := s.modCur fun st => { st with act := .asleep k len }

/-! ### Local store and its paths (R28 to R32, R216) -/

/-- A reader of the local store: a strand by its key, or an operation of an engine by its number. -/
inductive Reader where
  | strand (k : Nat)
  | op (n : Nat)
  deriving DecidableEq, Repr

def Reader.code : Reader → Nat
  | .strand k => k
  | .op n => 2 ^ 40 + n

/-- Whether a reader sees an unfenced write of another path by now: a free cycle for every write, aligned word and reader, so that no
reader goes back to an earlier value (R210, R216). A write fenced towards the cores is seen by the strand that fenced it and by every
strand that acquired since. (DESIGN CHOICE, log entry 11.) -/
def Unf.seen (s : State) (rd : Reader) (u : Unf) : Bool :=
  decide (u.at' + Config.freeNat (((u.id * 2 ^ 64 + u.at') * 2 ^ 64 + u.addr % 2 ^ 20 / 4) * 2 ^ 64 + rd.code) ≤ s.now) ||
  (match rd with
   | .strand k => u.fenced.any fun f => f.1 == k || decide (f.2 ≤ ((s.strand? k).map fun st => st.acqAt).getD 0)
   | .op _ => false)

/-- What a reader sees of a byte over which unfenced writes lie, newest first. -/
def unfValue (s : State) (rd : Reader) : List Unf → Byte → Byte
  | [], b => b
  | u :: rest, b => if u.seen s rd then b else unfValue s rd rest u.old

/-- A byte as a reader on a path reads it (R216). -/
def unfByte (s : State) (dst : Path) (rd : Reader) (a : Nat) (b : Byte) : Byte :=
  unfValue s rd (s.unf.filter fun u => u.dst == dst && u.addr == a) b

/-- Reads `n` bytes of a quad's local store along a path. -/
def lsRead (s : State) (dst : Path) (rd : Reader) (q off n : Nat) : List Byte :=
  if s.unf.isEmpty then cgetN s.ls (lsKey q off) n
  else (List.range n).map fun i => unfByte s dst rd (lsKey q off + i) (cget s.ls (lsKey q off + i))

def allPaths : List Path := [.core, .copy, .matrix, .reduce]

/-- Old values that readers of the other paths may still see after a write of `n` bytes into a memory `m`, before those of earlier
writes `old` (R216). The writer's own path sees the write. -/
def unfWith (s : State) (src : Path) (op : Nat) (m : CMap 8) (k n : Nat) (old : List Unf) : List Unf :=
  let new := (allPaths.filter fun d => d != src).flatMap fun d =>
    (List.range n).map fun i =>
      { dst := d, addr := k + i, src := src, op := op, old := cget m (k + i), id := s.free, at' := s.now, fenced := [] }
  new ++ old.filter fun u => !(u.dst == src && k ≤ u.addr && u.addr < k + n)

/-- The unfenced writes with those of a write of local-store bytes. (DESIGN CHOICE, log entry 11.) -/
def noteUnf (s : State) (src : Path) (op : Nat) (k : Nat) (bs : List Byte) : List Unf := unfWith s src op s.ls k bs.length s.unf

/-- Code bytes that the four cores of a quad go on fetching (R32). -/
def noteStale (s : State) (q off n : Nat) : State :=
  if off < 4096 * (s.quad q).xbp.toNat then
    let old := (List.range n).map fun i => (off + i, cget s.ls (lsKey q (off + i)))
    s.modQuad q fun x => { x with cores := x.cores.map fun c =>
      { c with stale := old.foldl (fun m p => if cget m p.1 = 0 then cset m p.1 (256 ||| p.2.setWidth 9) else m) c.stale } }
  else s

/-- Writes bytes of a quad's local store along a path; `op` names the operation for its completion wait, the strand of a core's store
(R216). -/
def lsWrite (s : State) (src : Path) (op : Nat) (q off : Nat) (bs : List Byte) : State :=
  let s := noteStale s q off bs.length
  { s with unf := noteUnf s src op (lsKey q off) bs, ls := csetN s.ls (lsKey q off) bs, free := s.free + 1 }

/-- The releases of a strand that did not wait for all its stores and that another has acquired: until when those stores are published
(R181, R189, R215). -/
def relsBefore (st o : Strand) : List Nat := ((settlePhase o).relQ.filter fun r => decide (r.1 ≤ st.acqAt)).map fun r => r.2

/-- Whether a fence of a strand covers a write: of an engine class, one whose completion it observed; of the cores, its own stores and
those of other strands before its last acquire, published by then or not (R190, R216). (DESIGN CHOICE, log entry 113.) -/
def Unf.covered (s : State) (st : Strand) (u : Unf) : Bool :=
  if u.src == .core then
    u.op == st.key || decide (u.at' ≤ st.acqAt) || (s.strand? u.op).any fun o => (relsBefore st o).any fun p => decide (u.at' ≤ p)
  else st.seen.contains u.op

/-- Stores of other strands that happen before what a strand does now are still on their way: an XFENCE of the cores waits for them
(R215, R216). (DESIGN CHOICE, log entry 113.) -/
def awaitsStores (s : State) (st : Strand) : Bool :=
  s.strands.any fun o => o.1 != st.key && (relsBefore st o.2).any fun p => decide (s.now < p)

/-- The unfenced writes without those that a fence covers and what lay below them. -/
def dropFenced (hit : Unf → Bool) (l : List Unf) : List Unf :=
  (l.foldl (fun (acc : List Unf × List (Path × Nat)) u =>
    if acc.2.contains (u.dst, u.addr) then acc
    else if hit u then (acc.1, (u.dst, u.addr) :: acc.2)
    else (acc.1 ++ [u], acc.2)) ([], [])).1

/-- XFENCE src.dst of a strand in a list of quads (R190): towards an engine class the writes are visible from now on; towards the cores
the strand sees them, and whoever acquires from it (R216). -/
def fence (s : State) (st : Strand) (src dst : Path) (qs : List Nat) : State :=
  let hit (u : Unf) : Bool := u.src == src && u.dst == dst && qs.contains (u.addr / 2 ^ 20) && u.covered s st
  if dst == .core then
    { s with unf := s.unf.map fun u => if hit u then { u with fenced := (st.key, s.now) :: u.fenced } else u }
  else { s with unf := dropFenced hit s.unf }

/-! ### Address resolution (R25, R26, R29) -/

def sext (v : Nat) (w : Nat) : Int := intOf true w v

/-- Size of an address space (R22). -/
def spaceSize (sp : Nat) : Nat :=
  match sp with
  | 0 => 2 ^ 20
  | 1 => 2 ^ 17
  | 2 => 4096
  | 3 => 65536
  | 4 => 262144
  | _ => 0

/-- The checks of R26 up to the local-store checks: a location, or a trap cause (its TVAL is the address). -/
def resolve (s : State) (st : Strand) (g : Gang) (fa : Word) (m : Mode) (write : Bool) : Except Nat Loc :=
  let f := fa.toNat
  let own := g.quadOf st.sidx
  let (dev, x, y) : Nat × Int × Int :=
    match m with
    | .abs => (bitsOf f 63 61, (bitsOf f 60 55 : Nat), (bitsOf f 54 50 : Nat))
    | .self => (s.dev.toNat, quadX own + sext (bitsOf f 60 55) 6, quadY own + sext (bitsOf f 54 50) 5)
    | .gang => (s.dev.toNat, g.ox + sext (bitsOf f 60 55) 6, g.oy + sext (bitsOf f 54 50) 5)
    | .loc => (s.dev.toNat, quadX own, quadY own)
  let sp := bitsOf f 49 47
  let off := bitsOf f 46 0
  if 5 ≤ sp || dev != s.dev.toNat then .error cREMOTE
  else if x < 0 || 31 < x || y < 0 || 15 < y then .error cREMOTE
  else if spaceSize sp ≤ off then .error cREMOTE
  else
    let q := quadAt x.toNat y.toNat
    if sp == 4 && !(quadX q % 4 == 1 && quadY q % 4 == 1) then .error cREMOTE
    else if !st.sup && (sp == 0 || sp == 2) && !g.hasQuad q then .error cREMOTE
    else if !st.sup && (sp == 1 || sp == 3 || sp == 4 || (sp == 2 && write)) then .error cPRIV
    else .ok ⟨q, sp, off⟩

/-- The local-store region check of R29 on a core's data access. -/
def regionBad (s : State) (sup : Bool) (q off : Nat) : Bool :=
  off < 4096 * (s.quad q).xbp.toNat || (!sup && Config.sysBase ≤ off)

/-- Every check on a core's access of `n` bytes (R26, R29, R173). -/
def access (s : State) (st : Strand) (g : Gang) (ea : Word) (m : Mode) (n : Nat) (write : Bool) : Except Nat Loc :=
  match resolve s st g ea m write with
  | .error c => .error c
  | .ok l =>
      if l.space == 0 && regionBad s st.sup l.quad l.off then .error cPROTECT
      else if ea.toNat % n ≠ 0 || ((l.space == 1 || l.space == 3 || l.space == 4) && n != 8) then .error cALIGN
      else .ok l

/-! ### Issue (R66 to R78, R129) -/

/-- What the body of an instruction answers. -/
inductive Res where
  /-- Its effects; the pc advances by the length. -/
  | done (s : State)
  /-- A taken control transfer to a checked target (R78). -/
  | jump (t : Word) (s : State)
  /-- A trap at the instruction, without any other effect (R7, R329). -/
  | trap (cause sub : Nat) (val : Word)
  /-- A trap with the pc of the next instruction, after the instruction's effects (R166). -/
  | trapNext (cause sub : Nat) (val : Word) (s : State)
  /-- The strand stays at the instruction: it sleeps, stops or has ended. -/
  | hold (s : State)
  /-- The instruction cannot issue in this cycle. -/
  | stall
  /-- Another core comes first: this one tries again in this cycle, behind the cores that it has not let go first. -/
  | yield
  /-- The machine stops. -/
  | fault (f : Fault)

/-- The guard's predicate value, complemented as it says (R67). -/
def guardMask (st : Strand) (g : Guard) : Lane := if g.neg then ~~~preg st g.p else preg st g.p

/-- A strand that cannot issue tries again in the next cycle (R129). -/
def stalled (s : State) : State := s.modCur fun st => { st with wake := s.now + 1 }

/-- How often a core has let others go first in a cycle. -/
def CoreSt.yielded (c : CoreSt) (now : Nat) : Nat := if c.yields.1 = now then c.yields.2 else 0

/-- The core of the current strand lets others go first. -/
def yieldCore (s : State) : State :=
  match s.gang? (s.cur / 256), s.strand? s.cur with
  | some g, some st =>
      let (q, c, _) := g.place st.sidx
      s.modQuad q fun x => { x with cores := modCore x.cores c fun y => { y with yields := (s.now, y.yielded s.now + 1) } }
  | _, _ => s

/-- The core serves this strand in this cycle (R129). -/
def markIssue (s : State) (g : Gang) (sidx : Nat) : State :=
  let (q, c, _) := g.place sidx
  let s := s.modQuad q fun x => { x with cores := modCore x.cores c fun y => { y with issued := some s.now } }
  let s := s.modGrid g.grid fun x => { x with issued := s.now }
  s.modCur fun st => { st with issued := s.now, wake := s.now + 1 }

/-- Sequential advance (R76). -/
def advance (s : State) (len : Nat) : State := s.modCur fun st => { st with pc := st.pc + BitVec.ofNat 20 len }

def trapCur (s : State) (at' : Word) (cause sub : Nat) (val : Word) : State := takeTrap s s.cur at' cause sub val

/-- A precise trap of the current strand, once every earlier result is there (R329). -/
def preciseTrap (s0 s : State) (at' : BitVec 20) (cause sub : Nat) (val : Word) : State :=
  if owesResults s0 s0.cur then stalled s0 else trapCur s (at'.setWidth 64) cause sub val

/-- What an issued instruction's answer makes of the state; a trap finds the state as the instruction found it (`served`). -/
def finish (s0 served : State) (pc : BitVec 20) (len : Nat) : Res → Out
  | .done s => .next (advance s len)
  | .jump t s => .next (s.modCur fun st => { st with pc := t.setWidth 20, wake := s.now + 3 })
  | .trap c sub v => .next (preciseTrap s0 served pc c sub v)
  | .trapNext c sub v s => .next (preciseTrap s0 s (s.skipFill s.cur (pc + BitVec.ofNat 20 len)) c sub v)
  | .hold s => .next s
  | .stall => .next (stalled s0)
  | .yield => .next (yieldCore s0)
  | .fault f => .fault f

/-- Whether the earlier accesses of a strand have come as far as a level asks at a cycle (R175, R189, R208, R213). -/
def drained (now : Nat) (st : Strand) (level : Nat) : Bool :=
  (level < 1 || decide (st.loadsAt ≤ now)) && (level < 2 || decide (st.pubAt ≤ now)) && (level < 3 || st.remote == 0) &&
  (level < 4 || st.sends == 0) && (level < 5 || st.domSends == 0)

/-- The issue of one instruction of the current strand: PRIV, ILLREG, the guard, the scoreboard, then its own effect (R66 to
R68, R74, R193). The body receives the strand with its sources ready, its gang, the guard's lane mask and the state. -/
def issue (i : Instr) (g : Guard) (body : Strand → Gang → Lane → State → Res) (s : State) : Out :=
  match s.strand? s.cur, s.gang? (s.cur / 256) with
  | some st0, some gang =>
      let now := s.now
      let st := settle st0 now
      let s := s.setStrand s.cur st
      let us := Instr.uses i
      let len := i.len
      let hdr := s.headerOf st.gid
      if Instr.supOnly i && !st.sup then .next (preciseTrap s s st.pc cPRIV 0 i.bits64)
      else match hdr.bind fun h => us.findSome? (illreg? h) with
        | some v => .next (preciseTrap s s st.pc cILLREG 0 v)
        | none =>
            if guardBusy st g then .next (stalled s)
            else
              let m := guardMask st g
              if !Instr.laneGuard i && !m.getLsbD 0 then .next (advance (markIssue s gang st.sidx) len)
              else if us.any (useBusy (Instr.laneGuard i) st) || (Instr.memOp i && !drained now st st.hold) then .next (stalled s)
              else
                let st' := readSources i s.now st
                finish s (markIssue s gang st.sidx) st.pc len (body st gang m (markIssue (s.setStrand s.cur st') gang st.sidx))
  | _, _ => .next s

/-- An instruction without effects on anything but registers: its body answers the new state at once. -/
def issueDone (i : Instr) (g : Guard) (body : Strand → Lane → State → State) (s : State) : Out :=
  issue i g (fun st _ m s => .done (body st m s)) s

/-- The taken transfer of R77: the target is checked before any other effect. -/
def transfer (t : Word) (s : State) : Res :=
  match badTarget t with
  | some c => .trap c 0 t
  | none => .jump t s

/-! ### Send errors (R140, R198, R202) -/

/-- Records an error in SERR: SE, CNT saturating, LAST. -/
def serrNote (st : Strand) (code : Nat) : Strand :=
  let cnt := min (st.serr.toNat / 65536 % 65536 + 1) 65535
  { st with serr := setField (setField (setField st.serr 31 16 cnt) 15 8 code) 0 0 1 }

/-- OVWL, saturating at 255 (R195). -/
def ovwlNote (st : Strand) : Strand :=
  { st with serr := setField st.serr 39 32 (min (bitsOf st.serr.toNat 39 32 + 1) 255) }

/-- VSTAT flags, and the cycle from which MFC and MTC of VSTAT may issue, which an instruction moves that can set a flag (R96, R98). -/
def State.flags (s : State) (can : Bool) (l : Nat) (f : Flags) : State :=
  s.modCur fun st =>
    { st with vstat := st.vstat ||| f.setWidth 64, flagAt := if can then max st.flagAt (s.now + l) else st.flagAt }

end Sys2Proof.Machine
end

