-- ==== Sys2Proof/Machine/Groups.lean ====
section
/-! DEFINITION. Reduction groups and the end of a member (R315 to R318, R324), and the withdrawal of an ended strand's offers (R131, R266). -/

namespace Sys2Proof.Machine

/-- A domain-group word (R318): own-device members by strand key when the gang lives in that generation. -/
def domMember (s : State) (w : Word) : Option (Option Nat) :=
  let n := w.toNat
  if bitsOf n 32 32 = 0 then none
  else if bitsOf n 63 61 ≠ s.dev.toNat then some none
  else
    match s.gang? (bitsOf n 60 41) with
    | some g => if g.gen.toNat = bitsOf n 15 0 then some (some (keyOf g.gid (bitsOf n 40 33))) else some none
    | none => some none

/-- The members of a group by rank (R315): a strand of this device, or none for one that is not here. -/
def groupMembers (s : State) (gid : Nat) : Grp → List (Option Nat)
  | .gang k =>
      ((s.gang? gid).map fun g => (g.mcg[k.val]).members.map fun m => some (keyOf gid m.1)).getD []
  | .domain n => (List.range 64).filterMap fun i => domMember s (cget s.domtab (64 * n.val + i))

/-- The gang part of a group's identity. -/
def grpGang (gid : Nat) : Grp → Nat
  | .gang _ => gid
  | .domain _ => 0

def rankOf (ms : List (Option Nat)) (k : Nat) : Option Nat := ms.findIdx? fun m => m == some k

def Grp.isDomain : Grp → Bool
  | .domain _ => true
  | .gang _ => false

/-- Hops from the farthest member to the root, the gang's origin quad (R325). -/
def redHops (s : State) (gid : Nat) (ms : List (Option Nat)) : Nat :=
  match s.gang? gid with
  | some g => ms.foldl (fun a m => max a ((m.map fun k => hops (s.quadOf k) g.origin).getD 0)) 0
  | none => 0

def contribLen : Contrib → Nat
  | .red _ _ bs => bs.length / 64
  | .topk _ _ _ => 1

/-- Cycles from the last contribution to the decision, and from it to the completion. (DESIGN CHOICE, log entry 60.) -/
def redTimes (s : State) (e : Episode) : Nat × Nat :=
  let n := (e.parts.head?.map fun p => contribLen p.c).getD 1
  if Grp.isDomain e.grp then
    let total := 3000 + 16 * (n - 1)
    let t := Config.freeNat s.free % total
    (t, 0)
  else
    let h := redHops s e.gid e.members
    (6 + 2 * h + n, 4 + 2 * h + n)

/-- The last cycle at which an earlier episode of a group is decided, or completes (R317). -/
def lastOfGroup (s : State) (e : Episode) (completion : Bool) : Nat :=
  s.agenda.foldl (fun m d =>
    let hit : Bool := match d.ev with
      | .episodeDecision n => (mget? s.episodes n).any fun x =>
          x.grp == e.grp && x.gid == e.gid && decide (x.id < e.id) && x.goneAt != some d.due
      | .reductionComplete n _ => completion && ((mget? s.episodes n).any fun x => x.grp == e.grp && x.gid == e.gid && decide (x.id < e.id))
      | _ => false
    let more : Nat := match d.ev with
      | .episodeDecision n => if completion then ((mget? s.episodes n).map fun x => (redTimes s x).2).getD 0 else 0
      | _ => 0
    if hit then max m (d.due + more) else m) s.now

/-- Ends an undecided episode at every member that has contributed (R324, status 1), after its group's earlier ones (R317).
(DESIGN CHOICE, log entry 65.) -/
def endEpisode (s : State) (e : Episode) (status : Nat) : State :=
  let s := { s with episodes := mset s.episodes e.id { e with decided := true, status := status } }
  let due := max (s.now + 12) (lastOfGroup s e true)
  e.parts.foldl (fun s p => s.post due 2 (.reductionComplete e.id p.rank)) s

/-- Marks a group aborted and ends, in order, its undecided episodes that meet a condition (R324). -/
def abortGroup (s : State) (grp : Grp) (gid : Nat) (lacks : Episode → Bool) : State :=
  let s := if s.aborted.contains (grp, gid) then s else { s with aborted := (grp, gid) :: s.aborted }
  (s.episodes.map fun p => p.2).foldl (fun s e =>
    if e.grp == grp && e.gid == gid && !e.decided && lacks e then endEpisode s e 1 else s) s

/-- Whether a member of this device has still to contribute to an episode. -/
def Episode.lacksSome (e : Episode) : Bool := !(e.members.all fun m => m.all fun k => e.parts.any fun p => p.key == k)

/-- A strand ends: a group with an undecided episode to which it has not contributed aborts, and with it the episodes of the group that
still lack a contribution, which from now on completes ABORTED (R324). (DEDUCED, log entry 63.) -/
def abortMember (s : State) (k : Nat) : State :=
  let gid := k / 256
  let gangs := (List.finRange 8).map fun i => Grp.gang i
  let doms := ((List.finRange 32).filter fun i => s.domtab.any fun c => c.1 / 64 == i.val).map fun i => Grp.domain i
  (gangs ++ doms).foldl (fun s grp =>
    let lacks (e : Episode) : Bool := e.grp == grp && e.gid == grpGang gid grp && !e.decided && !e.parts.any fun p => p.key == k
    if (groupMembers s gid grp).contains (some k) && s.episodes.any fun x => lacks x.2 then
      abortGroup s grp (grpGang gid grp) Episode.lacksSome
    else s) s

/-- An ended strand's offers are withdrawn and its ports unbound (R131, R251, R266). -/
def withdraw (s : State) (k : Nat) : State :=
  let gen := ((s.gang? (k / 256)).map fun g => g.gen).getD 0
  let free (p : Port) : Port := if p.bound == some (k / 256, gen, k % 256) then { p with bound := none } else p
  let imgs := s.images.map fun m => { m with ports := m.ports.map free }
  { s with offers := s.offers.filter fun o => o.2.key != k, images := imgs }

end Sys2Proof.Machine
end

