-- ==== Sys2Proof/Machine/Scalar.lean ====
section
/-! DEFINITION. Scalar integer instructions and predicates (R143 to R152), fabric addresses (R156, R157). -/

namespace Sys2Proof.Machine

/-- Operand b (R145): a register, IMM32 sign-extended, or IMM64. -/
def srcVal (st : Strand) : Src → Word
  | .reg r => sreg st r
  | .imm32 i => i.signExtend 64
  | .imm64 i => i

/-- The shift amount (R145). -/
def shiftN (b : Word) : Nat := b.toNat % 64

/-- The ALU mould (R145): one result of a and b after `l` cycles (R144). -/
def aluOp (i : Instr) (l : Nat) (g : Guard) (d a : SReg) (b : Src) (f : Word → Word → Word) (s : State) : Out :=
  issueDone i g (fun st _ s => s.wrS l d (f (sreg st a) (srcVal st b))) s

/-- NOP (R172). -/
def execNop (g : Guard) (s : State) : Out := issueDone (.nop g) g (fun _ _ s => s) s
/-- ADD (R145). -/
def execAdd (g : Guard) (d a : SReg) (b : Src) (s : State) : Out := aluOp (.add g d a b) 1 g d a b (· + ·) s
/-- SUB (R145). -/
def execSub (g : Guard) (d a : SReg) (b : Src) (s : State) : Out := aluOp (.sub g d a b) 1 g d a b (· - ·) s
/-- MUL (R145): low 64 bits. -/
def execMul (g : Guard) (d a : SReg) (b : Src) (s : State) : Out := aluOp (.mul g d a b) 3 g d a b (· * ·) s
/-- MULH (R145): bits [127:64]. -/
def execMulh (g : Guard) (k : MulhKind) (d a : SReg) (b : Src) (s : State) : Out :=
  aluOp (.mulh g k d a b) 3 g d a b (mulHigh k) s

/-- One divider a core, not pipelined (R144): the instruction stalls until it is free and occupies it for 18 cycles. -/
def divOp (i : Instr) (g : Guard) (d a : SReg) (b : Src) (f : Word → Word → Word) (s : State) : Out :=
  issue i g (fun st gang _ s =>
    let (q, c, _) := gang.place st.sidx
    let free := if h : c < 4 then ((s.quad q).cores[c]).divFree else 0
    if s.now < free then .stall
    else
      let s := s.modQuad q fun x => { x with cores := modCore x.cores c fun y => { y with divFree := s.now + 18 } }
      .done (s.wrS 18 d (f (sreg st a) (srcVal st b)))) s

/-- DIV (R146). -/
def execDiv (g : Guard) (u : Bool) (d a : SReg) (b : Src) (s : State) : Out := divOp (.div g u d a b) g d a b (divide u) s
/-- REM (R146). -/
def execRem (g : Guard) (u : Bool) (d a : SReg) (b : Src) (s : State) : Out :=
  divOp (.rem g u d a b) g d a b (remainder u) s
/-- AND (R145). -/
def execAnd (g : Guard) (d a : SReg) (b : Src) (s : State) : Out := aluOp (.and g d a b) 1 g d a b (· &&& ·) s
/-- OR (R145). -/
def execOr (g : Guard) (d a : SReg) (b : Src) (s : State) : Out := aluOp (.or g d a b) 1 g d a b (· ||| ·) s
/-- XOR (R145). -/
def execXor (g : Guard) (d a : SReg) (b : Src) (s : State) : Out := aluOp (.xor g d a b) 1 g d a b (· ^^^ ·) s
/-- ANDN (R145). -/
def execAndn (g : Guard) (d a : SReg) (b : Src) (s : State) : Out :=
  aluOp (.andn g d a b) 1 g d a b (fun x y => x &&& ~~~y) s
/-- SHL (R145). -/
def execShl (g : Guard) (d a : SReg) (b : Src) (s : State) : Out :=
  aluOp (.shl g d a b) 1 g d a b (fun x y => x <<< shiftN y) s
/-- SHR (R145). -/
def execShr (g : Guard) (d a : SReg) (b : Src) (s : State) : Out :=
  aluOp (.shr g d a b) 1 g d a b (fun x y => x >>> shiftN y) s
/-- SAR (R145). -/
def execSar (g : Guard) (d a : SReg) (b : Src) (s : State) : Out :=
  aluOp (.sar g d a b) 1 g d a b (fun x y => x.sshiftRight (shiftN y)) s
/-- ROTL (R145). -/
def execRotl (g : Guard) (d a : SReg) (b : Src) (s : State) : Out :=
  aluOp (.rotl g d a b) 1 g d a b (fun x y => rotl64 x (shiftN y)) s
/-- MIN (R145). -/
def execMin (g : Guard) (u : Bool) (d a : SReg) (b : Src) (s : State) : Out :=
  aluOp (.min g u d a b) 1 g d a b (fun x y => if (if u then y.ult x else y.slt x) then y else x) s
/-- MAX (R145). -/
def execMax (g : Guard) (u : Bool) (d a : SReg) (b : Src) (s : State) : Out :=
  aluOp (.max g u d a b) 1 g d a b (fun x y => if (if u then x.ult y else x.slt y) then y else x) s

/-- One-operand scalar instructions (R147). -/
def unOp (i : Instr) (g : Guard) (d a : SReg) (f : Word → Word) (s : State) : Out :=
  issueDone i g (fun st _ s => s.wrS 1 d (f (sreg st a))) s

/-- CLZ (R147). -/
def execClz (g : Guard) (d a : SReg) (s : State) : Out := unOp (.clz g d a) g d a (fun x => BitVec.ofNat 64 (leading x)) s
/-- CTZ (R147). -/
def execCtz (g : Guard) (d a : SReg) (s : State) : Out := unOp (.ctz g d a) g d a (fun x => BitVec.ofNat 64 (trailing x 64)) s
/-- POPC (R147). -/
def execPopc (g : Guard) (d a : SReg) (s : State) : Out :=
  unOp (.popc g d a) g d a (fun x => BitVec.ofNat 64 (popCount x 64)) s

/-- Position and length of a bit field (R148). -/
def fieldVal (st : Strand) : FieldSpec → Nat × Nat
  | .reg b => (bitsOf (sreg st b).toNat 5 0, bitsOf (sreg st b).toNat 14 8)
  | .imm pos len => (pos.toNat, len.toNat)

/-- EXT (R148). -/
def execExt (g : Guard) (signed : Bool) (d a : SReg) (f : FieldSpec) (s : State) : Out :=
  issueDone (.ext g signed d a f) g (fun st _ s =>
    s.wrS 1 d (extField signed (sreg st a) (fieldVal st f).1 (fieldVal st f).2)) s
/-- INS (R148). -/
def execIns (g : Guard) (d a : SReg) (f : FieldSpec) (s : State) : Out :=
  issueDone (.ins g d a f) g (fun st _ s =>
    s.wrS 1 d (insField (sreg st d) (sreg st a) (fieldVal st f).1 (fieldVal st f).2)) s
/-- SEL (R149). -/
def execSel (g : Guard) (d : SReg) (p : PReg) (a : SReg) (b : Src) (s : State) : Out :=
  issueDone (.sel g d p a b) g (fun st _ s =>
    s.wrS 1 d (if (preg st p).getLsbD 0 then sreg st a else srcVal st b)) s
/-- MOV (R149). -/
def execMov (g : Guard) (d : SReg) (b : Src) (s : State) : Out :=
  issueDone (.mov g d b) g (fun st _ s => s.wrS 1 d (srcVal st b)) s
/-- CMP (R150). -/
def execCmp (g : Guard) (c : Cond) (d : PReg) (a : SReg) (b : Src) (s : State) : Out :=
  issueDone (.cmp g c d a b) g (fun st _ s => s.wrP 1 d (cmpHolds c (sreg st a) (srcVal st b))) s

/-- A predicate written whole. -/
def State.wrPAll (s : State) (d : PReg) (x : Lane) : State := s.wr 1 (.p d (BitVec.allOnes 32) x)

/-- PLOG (R151). -/
def plogVal (st : Strand) : PlogArg → Lane
  | .two op a b => plogOp op (preg st a) (preg st b)
  | .twoImm op a i => plogOp op (preg st a) i
  | .not a => ~~~preg st a
where
  plogOp (op : PlogOp) (a b : Lane) : Lane :=
    match op with
    | .and => a &&& b
    | .or => a ||| b
    | .xor => a ^^^ b
    | .andn => a &&& ~~~b
def execPlog (g : Guard) (d : PReg) (x : PlogArg) (s : State) : Out :=
  issueDone (.plog g d x) g (fun st _ s => s.wrPAll d (plogVal st x)) s
/-- PMOV pD (R152). -/
def execPmov (g : Guard) (d : PReg) (a : Src96) (s : State) : Out :=
  issueDone (.pmov g d a) g (fun st _ s => s.wrPAll d (match a with
    | .reg r => (sreg st r).setWidth 32
    | .imm i => i)) s
/-- PMOV.s (R152). -/
def execPmovS (g : Guard) (d : SReg) (a : PReg) (s : State) : Out :=
  issueDone (.pmovS g d a) g (fun st _ s => s.wrS 1 d ((preg st a).setWidth 64)) s
/-- PMOV.b (R152). -/
def execPmovB (g : Guard) (d : PReg) (a : SReg) (s : State) : Out :=
  issueDone (.pmovB g d a) g (fun st _ s => s.wrP 1 d (sreg st a != 0)) s

/-! ### Scalar FP32 (R153 to R155) -/

/-- An FP32 operand: bits [31:0] of a register, or IMM32 (R42, R153). -/
def fsrc (st : Strand) : Src96 → Nat
  | .reg r => (sreg st r).toNat % 2 ^ 32
  | .imm i => i.toNat

/-- The chunk that a scalar rounding consumes under SR, with the counter moved (R93). -/
def srChunk (st : Strand) (rm : Rm) (s : State) : Nat × State :=
  if rm == .sr then ((chunks st.rngk st.rngc.toNat 1).headD 0, s.modCur fun st => { st with rngc := st.rngc + 1 })
  else (0, s)

/-- A rounded scalar FP32 result with its flags (R96, R144). -/
def fpDone (st : Strand) (rm : Rm) (d : SReg) (ts : List XVal) (s : State) : State :=
  let (u, s) := srChunk st rm s
  let r := xsumRnd .f32 rm u ts
  (s.flags true 4 r.flags).wrS 4 d (BitVec.ofNat 64 r.code)

/-- FADD, FADD.sub (R153). -/
def execFadd (g : Guard) (sub : Bool) (rm : Rm) (d a : SReg) (b : Src96) (s : State) : Out :=
  issueDone (.fadd g sub rm d a b) g (fun st _ s =>
    let y := fpDecode .f32 (fsrc st b)
    fpDone st rm d [fpDecode .f32 ((sreg st a).toNat % 2 ^ 32), if sub then xneg y else y] s) s
/-- FMUL (R153). -/
def execFmul (g : Guard) (rm : Rm) (d a : SReg) (b : Src96) (s : State) : Out :=
  issueDone (.fmul g rm d a b) g (fun st _ s =>
    fpDone st rm d [xmul (fpDecode .f32 ((sreg st a).toNat % 2 ^ 32)) (fpDecode .f32 (fsrc st b))] s) s
/-- FFMA (R153): one rounding. -/
def execFfma (g : Guard) (rm : Rm) (d a : SReg) (b : Src96) (c : SReg) (s : State) : Out :=
  issueDone (.ffma g rm d a b c) g (fun st _ s =>
    fpDone st rm d [xmul (fpDecode .f32 ((sreg st a).toNat % 2 ^ 32)) (fpDecode .f32 (fsrc st b)),
      fpDecode .f32 ((sreg st c).toNat % 2 ^ 32)] s) s
/-- FMINMAX (R153). -/
def execFminmax (g : Guard) (max : Bool) (d a : SReg) (b : Src96) (s : State) : Out :=
  issueDone (.fminmax g max d a b) g (fun st _ s =>
    let (r, f) := minMaxNum .f32 max ((sreg st a).toNat % 2 ^ 32) (fsrc st b)
    (s.flags true 2 f).wrS 2 d (BitVec.ofNat 64 r)) s
/-- FCMP conditions among those of VCMP (R154). -/
def FCond.toV : FCond → VCond
  | .eq => .eq | .ne => .ne | .lt => .lt | .le => .le | .un => .un
/-- FCMP (R154). -/
def execFcmp (g : Guard) (c : FCond) (d : PReg) (a : SReg) (b : Src96) (s : State) : Out :=
  issueDone (.fcmp g c d a b) g (fun st _ s =>
    let (r, f) := fcompare (FCond.toV c) (fpDecode .f32 ((sreg st a).toNat % 2 ^ 32)) (fpDecode .f32 (fsrc st b))
    (s.flags true 2 f).wrP 2 d r) s
/-- FCVT (R155): an INT32 result is sign-extended, or zero-extended under `.u`. -/
def execFcvt (g : Guard) (u sat : Bool) (rm : Rm) (dst src : Fmt) (d a : SReg) (s : State) : Out :=
  issueDone (.fcvt g u sat rm dst src d a) g (fun st _ s =>
    let (ch, s) := srChunk st rm s
    let (n, f) := convert dst src u sat rm ch ((sreg st a).toNat % 2 ^ Fmt.width src)
    let w : Word := if dst == .i32 && !u then (BitVec.ofNat 32 n).signExtend 64 else BitVec.ofNat 64 n
    (s.flags (convertFlags dst src u sat) 4 f).wrS 4 d w) s

/-! ### Fabric addresses (R156, R157) -/

/-- The address MKFA composes (R156). -/
def makeFa (a off : Word) (k : BitVec 3) : Word :=
  let x := (sext (bitsOf a.toNat 7 0) 8 % 64).toNat
  let y := (sext (bitsOf a.toNat 15 8) 8 % 32).toNat
  BitVec.ofNat 64 (bitsOf a.toNat 18 16 * 2 ^ 61 + x * 2 ^ 55 + y * 2 ^ 50 + k.toNat * 2 ^ 47 + bitsOf off.toNat 46 0)

/-- MKFA (R156). -/
def execMkfa (g : Guard) (d a : SReg) (off : Src96) (k : BitVec 3) (s : State) : Out :=
  issueDone (.mkfa g d a off k) g (fun st _ s =>
    s.wrS 1 d (makeFa (sreg st a) (match off with
      | .reg r => sreg st r
      | .imm i => i.setWidth 64) k)) s

/-- The field FAFLD extracts (R157). -/
def faField (f : FaField) (a : Word) : Word :=
  let n := a.toNat
  match f with
  | .x => BitVec.ofInt 64 (sext (bitsOf n 60 55) 6)
  | .y => BitVec.ofInt 64 (sext (bitsOf n 54 50) 5)
  | .xu => BitVec.ofNat 64 (bitsOf n 60 55)
  | .yu => BitVec.ofNat 64 (bitsOf n 54 50)
  | .sp => BitVec.ofNat 64 (bitsOf n 49 47)
  | .off => BitVec.ofNat 64 (bitsOf n 46 0)
  | .dev => BitVec.ofNat 64 (bitsOf n 63 61)

/-- FAFLD (R157). -/
def execFafld (g : Guard) (f : FaField) (d a : SReg) (s : State) : Out :=
  unOp (.fafld g f d a) g d a (faField f) s

end Sys2Proof.Machine
end

