-- ==== Sys2Proof/Machine/Control.lean ====
section
/-! DEFINITION. Control transfer, the end of a strand, YIELD (R76 to R78, R131, R158 to R162). -/

namespace Sys2Proof.Machine

/-- The target of a displacement (R158): pc + sext(IMM32, 32). -/
def dispTarget (st : Strand) (disp : BitVec 32) : Word := st.pc.setWidth 64 + disp.signExtend 64

/-- BR (R158): not taken, it checks no target (R77). -/
def execBr (g : Guard) (c : BrCond) (a b : SReg) (disp : BitVec 32) (s : State) : Out :=
  issue (.br g c a b disp) g (fun st _ _ s =>
    if cmpHolds (BrCond.toCond c) (sreg st a) (sreg st b) then transfer (dispTarget st disp) s else .done s) s

/-- JMP (R158). -/
def execJmp (g : Guard) (disp : BitVec 32) (s : State) : Out :=
  issue (.jmp g disp) g (fun st _ _ s => transfer (dispTarget st disp) s) s

/-- A call: the target is checked, then the link is written (R77, R159). -/
def callTo (t link : Word) (d : SReg) (s : State) : Res :=
  match badTarget t with
  | some c => .trap c 0 t
  | none => .jump t (s.wrS 1 d link)

/-- CALL (R159): link pc + 12. -/
def execCall (g : Guard) (d : SReg) (disp : BitVec 32) (s : State) : Out :=
  issue (.call g d disp) g (fun st _ _ s => callTo (dispTarget st disp) (st.pc.setWidth 64 + 12) d s) s
/-- CALLR (R159): link pc + 8; a is read before the link is written. -/
def execCallr (g : Guard) (d a : SReg) (s : State) : Out :=
  issue (.callr g d a) g (fun st _ _ s => callTo (sreg st a) (st.pc.setWidth 64 + 8) d s) s
/-- RET (R159). -/
def execRet (g : Guard) (a : SReg) (s : State) : Out :=
  issue (.ret g a) g (fun st _ _ s => transfer (sreg st a) s) s
/-- LOOP (R160): a taken transfer checks its target before the counter is written. -/
def execLoop (g : Guard) (d : SReg) (disp : BitVec 32) (s : State) : Out :=
  issue (.loop g d disp) g (fun st _ _ s =>
    let n := sreg st d - 1
    if n ≠ 0 then callTo (dispTarget st disp) n d s else .done (s.wrS 1 d n)) s

/-- Ends a strand (R131, R161): what it armed is abandoned, the groups it is a member of abort (R324). -/
def endStrand (s : State) (k : Nat) : State :=
  withdraw (abortMember (s.modStrand k fun st => { st with act := .ended, resume := .ended, pend := [], await := [] }) k) k

/-- EXIT (R161). -/
def execExit (g : Guard) (s : State) : Out :=
  issue (.exit g) g (fun _ _ _ s => .hold (endStrand s s.cur)) s

/-- YIELD (R162): the strand is not ready in the 3 cycles after. -/
def execYield (g : Guard) (s : State) : Out :=
  issue (.yield g) g (fun _ _ _ s => .done (s.modCur fun st => { st with wake := s.now + 4 })) s

end Sys2Proof.Machine
end

