-- ==== Sys2Proof/Machine/Run.lean ====
section
/-! DEFINITION. Choosing what a step executes: the due step, the ready strand of a core (R129), the fetch of its instruction
(R60 to R79), and how grids, gangs and strands start. -/

namespace Sys2Proof.Machine

/-! ### Fetch (R60 to R62, R74, R75, R79) -/

/-- What a fetch gives: a trap with its pc, cause and TVAL, or an instruction with its pc. -/
inductive Fetch where
  | trap (pc : Nat) (cause : Nat) (val : Word)
  | ins (pc : Nat) (i : Instr)
  deriving DecidableEq, Repr

/-- `fetch_and_decode` of R74 up to the PRIV check; fill words are skipped (R61), as many as the local store holds.
(DESIGN CHOICE, log entry 112.) -/
def fetchAt (s : State) (sup : Bool) (q core : Nat) : Nat → Nat → Fetch
  | 0, pc => .trap pc cILLEGAL 0xFFFFFFFF
  | fuel + 1, pc =>
      if !sup && Config.sysBase ≤ pc then .trap pc cPROTECT (BitVec.ofNat 64 pc)
      else if !sup && 4096 * (s.quad q).xbp.toNat ≤ pc then .trap pc cOVERLAY (BitVec.ofNat 64 pc)
      else
        let w := codeNat s q core pc 4
        if w % 4 = 3 then
          if w = 0xFFFFFFFF then fetchAt s sup q core fuel ((pc + 4) % 2 ^ 20)
          else .trap pc cILLEGAL (BitVec.ofNat 64 w)
        else
          let len := lenOf (BitVec.ofNat 2 w)
          if 32 < pc % 32 + len then .trap pc cILLEGAL (BitVec.ofNat 64 w)
          else
            let bits := codeNat s q core pc len
            match decode (BitVec.ofNat 128 bits) with
            | some i => .ins pc i
            | none => .trap pc cILLEGAL (BitVec.ofNat 64 (codeNat s q core pc 8))

/-! ### Readiness and selection (R129, R130) -/

/-- Issue cycles gated per 16 (R130, R384). (DESIGN CHOICE, log entry 108.) -/
def gated (s : State) : Bool := decide (s.now % 16 < s.pwcfg.toNat % 16)

/-- Whether a gang's strands may issue (R171, R338). -/
def Gang.issues (g : Gang) : Bool := !g.halted && (g.phase == .resident || g.phase == .interrupt)

/-- The order of selection of a strand that may be tried now: quad, cores that have let others go first behind those, core from
CYC mod 4 upward (R177, R181), last issue, slot. (DEDUCED, log entry 47.) -/
def tryKey (s : State) (k : Nat) (st : Strand) : Option (List Nat) :=
  match s.gang? (k / 256) with
  | some g =>
      let (q, c, sl) := g.place (k % 256)
      let y := if h : c < 4 then (s.quad q).cores[c] else { CoreSt.init with issued := some s.now }
      if st.act == .run && st.wake ≤ s.now && g.issues && y.issued != some s.now && !gated s && !s.held then
        some [q, y.yielded s.now, (c + 4 - s.cyc.toNat % 4) % 4, st.issued, sl]
      else none
  | none => none

def lexLt : List Nat → List Nat → Bool
  | a :: as, b :: bs => a < b || (a == b && lexLt as bs)
  | _, _ => false

/-- The strand whose instruction is tried next: none when no core can issue in this cycle. -/
def pick (s : State) : Option Nat :=
  (s.strands.foldl (fun best (k, st) =>
    match tryKey s k st with
    | none => best
    | some key =>
        match best with
        | none => some (key, k)
        | some (bk, b) => if lexLt key bk then some (key, k) else some (bk, b)) none).map fun p => p.2

/-- The pc at which a strand executes the park routine's PARK. (DESIGN CHOICE, log entry 28.) -/
def parkPc : Nat := 0xFC020

/-- A strand whose next act is the firmware's. -/
def atFirmware (s : State) (st : Strand) : Bool :=
  s.booted && st.sup && (st.pc.toNat == Config.supEntry || st.pc.toNat == parkPc)

/-- What a strand that takes an issue cycle does in it. -/
inductive Turn where
  /-- It executes an instruction whose guard is true. -/
  | does (i : Instr)
  /-- A trap of R74, the firmware's act, or an instruction without effect (R68). -/
  | other
  deriving DecidableEq, Repr

/-- What a strand would do in an issue cycle of its core: nothing when a scoreboard, or the wait of a precise trap for earlier results,
stalls it (R68, R74, R129, R144). -/
def readyTurn (s : State) (q c k : Nat) (st0 : Strand) : Option Turn :=
  let st := settle st0 s.now
  let trap : Option Turn := if owesResults s k then none else some .other
  if atFirmware s st then some .other
  else match fetchAt s st.sup q c fetchFuel st.pc.toNat with
    | .trap _ _ _ => trap
    | .ins _ i =>
        if (Instr.supOnly i && !st.sup) || ((s.headerOf st.gid).bind fun h => (Instr.uses i).findSome? (illreg? h)).isSome then trap
        else match Instr.guardOf i with
          | none => none
          | some gd =>
              if guardBusy st gd then none
              else if !Instr.laneGuard i && !(guardMask st gd).getLsbD 0 then some .other
              else if (Instr.uses i).any (useBusy (Instr.laneGuard i) st) || (Instr.memOp i && !drained s.now st st.hold) then none
              else some (.does i)

/-- The strand that a core serves next in this cycle and what it does: the first one in the order of selection that is ready (R129). -/
def coreNext (s : State) (q c : Nat) : Option (Nat × Turn) :=
  (s.strands.foldl (fun (b : Option (List Nat × Nat × Turn)) (k, st) =>
    match tryKey s k st, (s.gang? (k / 256)).map fun g => g.place (k % 256) with
    | some key, some (q', c', _) =>
        if q' = q && c' = c && b.all fun x => lexLt key x.1 then
          match readyTurn s q c k st with
          | some i => some (key, k, i)
          | none => b
        else b
    | _, _ => b) none).map fun p => p.2

/-- A core may still issue an instruction of a kind in this cycle. -/
def coreWants (s : State) (q c : Nat) (p : Instr → Bool) : Bool :=
  s.strands.any fun (k, st) =>
    (tryKey s k st).isSome && ((s.gang? (k / 256)).any fun g => (g.place (k % 256)).1 == q && (g.place (k % 256)).2.1 == c) &&
    (match readyTurn s q c k st with
     | some (.does i) => p i
     | _ => false)

/-- A core lets another go first that may want what it wants and whose turn is earlier; each does so at most 8 times in a cycle.
(DEDUCED, log entry 48.) -/
def yieldsTo (s : State) (q core : Nat) (turn : Nat → Nat) (p : Instr → Bool) : Bool :=
  (if h : core < 4 then ((s.quad q).cores[core]).yielded s.now < 8 else false) &&
  (List.range 4).any fun c => decide (turn c < turn core) && coreWants s q c p

/-- A strand issues in this cycle (R129, R337). -/
def issuesNow (s : State) (k : Nat) : Bool :=
  match s.gang? (k / 256) with
  | some g =>
      let (q, c, _) := g.place (k % 256)
      (coreNext s q c).any fun p => p.1 == k
  | none => false

/-! ### Due steps -/

/-- A command of the host (R376). -/
def isHostCommand : Instr → Bool
  | .hostLaunch .. | .hostTlsig .. | .hostTlrd .. | .cfgwr .. | .cfgrd .. | .hostHalt .. | .hostRelease .. | .hostEnd .. | .flush ..
  | .inval .. => true
  | _ => false

/-- A HALT of the lightship, or a reset (R379). -/
def isLightshipFirst : Instr → Bool
  | .lightshipHalt .. | .reset | .thermalReset => true
  | _ => false

/-- An act of the lightship goes before a host command of the same cycle: a HALT or a reset before any (R379), a configuration write
before another (R385). -/
def lightshipBefore (host ls : Instr) : Bool :=
  isHostCommand host && (isLightshipFirst ls || (match host, ls with
    | .cfgwr _, .lightshipCfgwr _ _ => true
    | _, _ => false))

/-- The first step due by now, taken off the agenda; of a host command and an act of the lightship that arrive in the same cycle the
lightship's may go first. (DEDUCED, log entry 105.) -/
def dueNow (s : State) : Option (Instr × State) :=
  match s.agenda with
  | e :: t =>
      if e.due ≤ s.now then
        match t.find? fun d => d.due == e.due && lightshipBefore e.ev d.ev with
        | some d => some (d.ev, { s with agenda := e :: t.erase d })
        | none => some (e.ev, { s with agenda := t })
      else none
  | [] => none

/-! ### Grids, gangs and strands as they start -/

/-- Header of a kernel that admits every register, tile and accumulator. -/
def wordHeader : Header where
  entry := 0
  codesz := 4096
  sreq := 32
  salloc := 32
  vreq := 32
  valloc := 32
  spc := 1
  lw := 0
  lh := 0
  tiles := 12
  accs := 4
  lstore := 65536
  coop := false
  equota := 1
  segs := []
  conns := []

def wordLaunch : Launch where
  hdrva := 0
  argva := 0
  count := 1
  pri := 0
  early := false
  coop := false
  start := false
  done := false
  startCap := 0
  startTh := 0
  doneCap := 0
  doneInc := 0

def Grid.init (seq asid : Nat) (h : Header) (l : Launch) : Grid where
  seq := seq
  asid := asid
  hdr := h
  launch := l
  placed := 0
  ended := 0
  home := 0
  waitAt := none
  prio := l.pri
  quantum := none
  expired := none
  issued := 0
  heldHost := false
  heldLs := false
  refs := false
  loading := []
  loadEnd := 0
  failed := false

def Mcg.init : Mcg := ⟨false, []⟩

def Gang.init (gid : Nat) (gen : BitVec 16) (grid index lw lh ox oy spc : Nat) : Gang where
  gid := gid
  gen := gen
  grid := grid
  index := index
  lw := lw
  lh := lh
  ox := ox
  oy := oy
  spc := spc
  phase := .starting
  halted := false
  acks := []
  routines := []
  parkPages := []
  recs := []
  badSb := none
  askAt := none
  suspAt := none
  mcg := Vector.replicate 8 Mcg.init
  lastCluster := clusterOf (quadAt ox oy)
  image := []
  imageLs := []
  imageTiles := []
  imageAcc := []
  imageUnf := []

/-- A strand as it starts: every register zero, NORMAL, user mode, at the kernel's entry (R109). -/
def Strand.init (gid sidx entry now : Nat) : Strand where
  gid := gid
  sidx := sidx
  pc := BitVec.ofNat 20 entry
  sup := false
  sregs := Vector.replicate 32 0
  vregs := Vector.replicate 32 (Vector.replicate 32 0)
  pregs := Vector.replicate 8 0
  sst := Vector.replicate 32 .normal
  vst := Vector.replicate 32 .normal
  pend := []
  await := []
  flagAt := 0
  vstat := 0
  serr := 0
  rngk := 0
  rngc := 0
  tvec := 0
  tpc := 0
  tcause := 0
  tval := 0
  tstat := 0
  ssca := 0
  sscb := 0
  stpc := 0
  scause := 0
  sval := 0
  wcnt := Vector.replicate 4 0
  ovw := none
  act := .run
  resume := .run
  wake := now
  issued := now
  remote := 0
  pubAt := 0
  loadsAt := 0
  sends := 0
  domSends := 0
  hold := 0
  flushes := []
  seen := []
  acqAt := now
  rels := []
  phase := none
  phases := []
  relQ := []
  linkRels := []
  ackAt := 0
  source := none

end Sys2Proof.Machine
end

