-- ==== Sys2Proof/Machine/Translate.lean ====
section
/-! DEFINITION. Address spaces, the walk, the translation caches and their invalidation (R185, R347 to R352), and storage pages
by the physical address of their entry (R355). -/

namespace Sys2Proof.Machine

/-! ### Entries (R348, R349) -/

def eTYPE (e : Word) : Nat := bitsOf e.toNat 3 0
def eRD (e : Word) : Bool := e.getLsbD 4
def eW (e : Word) : Bool := e.getLsbD 5
def eTSO (e : Word) : Bool := e.getLsbD 6
def eLG (e : Word) : Bool := e.getLsbD 7
def eA (e : Word) : Bool := e.getLsbD 8
def eD (e : Word) : Bool := e.getLsbD 9
def eRES (e : Word) : Bool := e.getLsbD 11
/-- PA of FRAME or ROOT. -/
def eFRAME (e : Word) : Nat := bitsOf e.toNat 39 16 * 65536
def eDRIVE (e : Word) : Nat := bitsOf e.toNat 63 60
/-- Non-zero reserved bits, DRIVE of another type than storage, and what a host-remote entry keeps zero. -/
def eRsv (e : Word) (hi : Word) : Bool :=
  bitsOf e.toNat 59 40 != 0 || bitsOf e.toNat 15 12 != 0 || (eTYPE e != 4 && eDRIVE e != 0) ||
  (eTYPE e == 3 && (bitsOf e.toNat 39 32 != 0 || hi.toNat % 65536 != 0))

def hbmWord (s : State) (pa : Nat) : Word := BitVec.ofNat 64 (natOf (cgetN s.hbm pa 8))
def setHbmWord (s : State) (pa : Nat) (w : Word) : State := { s with hbm := csetN s.hbm pa (bytesOf 8 w) }

/-- NSID and LBA of a storage entry. -/
def eNSID (hi : Word) : Nat := bitsOf hi.toNat 63 48
def eLBA (hi : Word) : Nat := bitsOf hi.toNat 47 0

/-! ### Storage pages -/

def pageOf? (s : State) (pte : Nat) : Option Page := s.pages.find? fun p => p.pte == pte
def modPage (s : State) (pte : Nat) (f : Page → Page) : State :=
  { s with pages := s.pages.map fun p => if p.pte == pte then f p else p }

/-- The entry of a storage page's target. -/
def Target.pte? : Target → Option Nat
  | .page pte _ => some pte
  | _ => none

/-- A resident page that no record names yet enters the ring (R356). (DESIGN CHOICE, log entry 19.) -/
def notePage (s : State) (asid va pte : Nat) (e : Word) : State :=
  if eRES e && (pageOf? s pte).isNone then
    { s with pages := s.pages ++ [{ pte := pte, asid := asid, va := va, st := .resident, frame := some (eFRAME e),
                                    sent := true, xdelay := 0, evict := false, wbOld := [] }] }
  else s

/-! ### The walk (R350) -/

inductive WalkRes where
  | ok (t : Trans) (s : State)
  | bad (s : State)
  /-- A table that lies in HBM at or above 640 GiB (R20). -/
  | absent

/-- An entry of level 0 (address space), 1 or 2 in the cache of a cluster's walker (R348, R350). -/
def cacheAt (s : State) (c asid lvl idx : Nat) : Option Word :=
  (s.wcache.find? fun x => x.1 == c && x.2.1 == asid && x.2.2.1 == lvl && x.2.2.2.1 == idx).map fun x => x.2.2.2.2

/-- An entry of level 0, 1 or 2 as a cluster's walker reads it: from its cache or from the table (R348, R351).
(DEDUCED, log entry 15.) -/
def cachedEntry (s : State) (c asid lvl idx : Nat) (cur : Word) : Word × State :=
  match cacheAt s c asid lvl idx with
  | some x => (if x != cur && Config.freeBool s.free then x else cur, s.tick1)
  | none => (cur, { s with wcache := (c, asid, lvl, idx, cur) :: s.wcache })

/-- A line of HBM holds uncorrectable data (R383). -/
def badWord (s : State) (pa : Nat) : Bool := s.hbmBad.contains (pa / 64)

/-- An entry of a table that a walk uses, none when its line is uncorrectable; of such a line the walker's cache serves what it holds. -/
def tableEntry (s : State) (c asid va lvl pte : Nat) : Option (Word × State) :=
  let idx := va / 2 ^ (52 - 12 * lvl)
  if badWord s pte then (if lvl < 3 then (cacheAt s c asid lvl idx).map fun e => (e, s) else none)
  else some (if lvl < 3 then cachedEntry s c asid lvl idx (hbmWord s pte) else (hbmWord s pte, s))

/-- What a leaf gives: permissions, the TSO rule, A and D set in HBM. (DEDUCED, log entry 91; DEDUCED, log entry 130.) -/
def leafOf (s : State) (asid va : Nat) (wr large : Bool) (pte : Nat) (e hi : Word) : WalkRes :=
  if (wr && !eW e) || (!wr && !eRD e) || (eTSO e && eTYPE e != 3) then .bad s
  else
    let cur := hbmWord s pte
    let new := cur ||| (if wr then 0x300 else 0x100)
    let s := setHbmWord s pte new
    let base := if large then va / 2 ^ 28 * 2 ^ 28 else va / 65536 * 65536
    let mk (t : Target) : Trans := ⟨asid, base, large, t, eRD e, eW e, wr || eD cur⟩
    match eTYPE e with
    | 2 => .ok (mk (.hbm (eFRAME e))) s
    | 3 => .ok (mk (.host (bitsOf e.toNat 31 16) (hi.toNat / 65536 * 65536) (eTSO e))) s
    | _ => .ok (mk (.page pte 0)) (notePage s asid base pte e)

/-- Levels of the tables from `lvl` on; the fuel counts them. Uncorrectable data is not used (R383). -/
def walkFrom (c asid va : Nat) (wr : Bool) : Nat → Nat → Nat → State → WalkRes
  | 0, _, _, s => .bad s
  | n + 1, lvl, table, s =>
      let pte := table + 16 * bitsOf va (63 - 12 * lvl) (52 - 12 * lvl)
      if Config.hbmSize ≤ pte then .absent
      else
        match tableEntry s c asid va lvl pte with
        | none => .bad s
        | some (e, s) =>
        let hi := hbmWord s (pte + 8)
        if eRsv e hi then .bad s
        else if eTYPE e = 1 && lvl < 3 then walkFrom c asid va wr n (lvl + 1) (eFRAME e) s
        else if badWord s pte then .bad s
        else if eTYPE e = 2 && eLG e && lvl = 2 && bitsOf e.toNat 27 16 = 0 then leafOf s asid va wr true pte e hi
        else if (eTYPE e = 2 || eTYPE e = 3 || eTYPE e = 4) && !eLG e && lvl = 3 then leafOf s asid va wr false pte e hi
        else .bad s

/-- `walk(va, kind)` of the walker of a cluster. -/
def walk (s : State) (c asid va : Nat) (wr : Bool) : WalkRes :=
  if 2 ^ 52 ≤ va then .bad s
  else
    let (e, s) := cachedEntry s c asid 0 0 (cget s.astab asid)
    if !e.getLsbD 0 then .bad s else walkFrom c asid va wr 3 1 (eFRAME e) s

/-- The line of uncorrectable data that a walk of the tables meets (R383). -/
def badTable (c asid va : Nat) : Nat → Nat → Nat → State → Option Nat
  | 0, _, _, _ => none
  | n + 1, lvl, table, s =>
      let pte := table + 16 * bitsOf va (63 - 12 * lvl) (52 - 12 * lvl)
      let hit := if lvl < 3 then cacheAt s c asid lvl (va / 2 ^ (52 - 12 * lvl)) else none
      let e := hit.getD (hbmWord s pte)
      if badWord s pte && (hit.isNone || eTYPE e != 1) then some (pte / 64)
      else if eTYPE e = 1 && lvl < 3 then badTable c asid va n (lvl + 1) (eFRAME e) s
      else none

/-- Uncorrectable data of HBM raises MACHINE of source 3 in a gang, with the quad of the engine that met it, once in a cycle (R345,
R383). (DESIGN CHOICE, log entry 110.) -/
def badData (s : State) (gid quad line : Nat) : State :=
  let ev := Instr.machine gid 3 quad 0 (BitVec.ofNat 64 (64 * line))
  { s with agenda := if s.agenda.any fun e => e.ev == ev && decide (e.due ≤ s.now) then s.agenda else insertDue ⟨s.now, 2, ev⟩ s.agenda }

/-- What the failed walks of pages for a gang's engine have met raises MACHINE. (DESIGN CHOICE, log entry 110.) -/
def badWalks (s : State) (gid quad asid : Nat) (pages : List Nat) : State :=
  if s.hbmBad.isEmpty then s
  else pages.foldl (fun s p =>
    match badTable (clusterOf quad) asid (65536 * p) 3 1 (eFRAME (cget s.astab asid)) s with
    | some l => badData s gid quad l
    | none => s) s

/-! ### Translation caches (R185, R351) -/

def Trans.covers (t : Trans) (asid va : Nat) : Bool :=
  t.asid == asid && (if t.large then t.va / 2 ^ 28 == va / 2 ^ 28 else t.va / 65536 == va / 65536)

/-- The most recently used translation first, at most 64. -/
def enterTrans (l : List Trans) (t : Trans) : List Trans := (t :: l.filter fun x => !x.covers t.asid t.va).take 64

/-- A hit in a quad's translation cache, none for a miss; the entry counts as used. A hit may stand for what the tables now hold, by a
free choice, where that differs (R185, R351). (DEDUCED, log entry 15.) -/
def hitTrans (s : State) (q asid va : Nat) (wr : Bool) : Option WalkRes :=
  let x := s.quad q
  match x.tcache.find? fun t => t.covers asid va with
  | some t =>
      if (wr && t.wr && t.dset) || (!wr && t.rd) then
        let s := s.setQuad q { x with tcache := enterTrans x.tcache t }
        some (match walk s (clusterOf q) asid va wr with
          | .ok t' s' =>
              if t'.tgt == t.tgt && t'.rd == t.rd && t'.wr == t.wr then .ok t s
              else if Config.freeBool s.free then .ok t' s'.tick1 else .ok t s.tick1
          | .bad s' => if Config.freeBool s.free then .bad s'.tick1 else .ok t s.tick1
          | .absent => .ok t s)
      else none
  | none => none

/-- The end of the walk of a miss: its translation is entered. -/
def missTrans (s : State) (q asid va : Nat) (wr : Bool) : WalkRes :=
  match walk s (clusterOf q) asid va wr with
  | .ok t s => .ok t (s.modQuad q fun x => { x with tcache := enterTrans x.tcache t })
  | r => r

/-- A translation of a quad's copy engine: whether it missed, and its result. -/
def translate (s : State) (q asid va : Nat) (wr : Bool) : Bool × WalkRes :=
  match hitTrans s q asid va wr with
  | some r => (false, r)
  | none => (true, missTrans s q asid va wr)

/-- Where a page's byte leads under a translation. -/
def Trans.at (t : Trans) (va : Nat) : Target :=
  let off := if t.large then va % 2 ^ 28 else va % 65536
  match t.tgt with
  | .hbm pa => .hbm (pa + off)
  | .host ep a tso => .host ep (a + off) tso
  | .page pte o => .page pte (o + off)

/-- The physical address of a target in HBM, when it is there now. -/
def State.paOf (s : State) : Target → Option Nat
  | .hbm pa => some pa
  | .page pte off =>
      match pageOf? s pte with
      | some p => if p.st == .reading then none else p.frame.map fun f => f + off
      | none => none
  | .host _ _ _ => none

/-- The key of a host's memory byte (R349). -/
def hostKey (ep addr : Nat) : Nat := ep * 2 ^ 64 + addr

/-- Whether an access of `n` bytes would reach HBM at or above 640 GiB, which does not exist (R20). -/
def State.absentAt (s : State) (t : Target) (n : Nat) : Bool := (s.paOf t).any fun pa => Config.hbmSize < pa + n

/-- Bytes behind a target; none for a page that is not in. -/
def State.readTarget (s : State) (t : Target) (n : Nat) : Option (List Byte) :=
  match t with
  | .host ep a _ => some (cgetN s.host (hostKey ep a) n)
  | t => (s.paOf t).map fun pa => cgetN s.hbm pa n

/-- A write to a storage page leaves it dirty, a write-back of it notwithstanding (R349, R355). -/
def dirtyAgain (s : State) : Target → State
  | .page pte _ => setHbmWord s pte (hbmWord s pte ||| 0x200)
  | _ => s

/-- Lines of HBM that hold uncorrectable data, without those that a write replaces whole (R383). -/
def goodLines (bad : List Nat) (pa n : Nat) : List Nat := bad.filter fun l => !decide (pa ≤ 64 * l ∧ 64 * l + 64 ≤ pa + n)

/-- A line of uncorrectable data that an access of HBM meets: any that a read touches, one that a write does not replace whole (R383). -/
def State.badAt (s : State) (t : Target) (n : Nat) (wr : Bool) : Option Nat :=
  (s.paOf t).bind fun pa => (if wr then goodLines s.hbmBad pa n else s.hbmBad).find? fun l => decide (64 * l < pa + n ∧ pa < 64 * l + 64)

def State.writeTarget (s : State) (t : Target) (bs : List Byte) : State :=
  match t with
  | .host ep a _ => { s with host := csetN s.host (hostKey ep a) bs }
  | t => match s.paOf t with
    | some pa => dirtyAgain { s with hbm := csetN s.hbm pa bs, hbmBad := goodLines s.hbmBad pa bs.length } t
    | none => s

/-! ### Ranges of virtual addresses read outside the copy engines (R115, R272, R375) -/

inductive VaRes where
  | ok (bs : List Byte) (s : State)
  | bad (s : State)

/-- Reads `n` bytes of an address space; a page that cannot be read now, or that lies in absent memory, and uncorrectable data make the
range bad. (DEDUCED, log entry 73.) -/
def readVa (asid : Nat) : Nat → Nat → Nat → State → VaRes
  | 0, _, _, s => .ok [] s
  | fuel + 1, va, n, s =>
      if n = 0 then .ok [] s
      else
        let k := min n (65536 - va % 65536)
        match walk s 0 asid va false with
        | .absent => .bad s
        | .bad s => .bad s
        | .ok t s =>
            match (if s.absentAt (t.at va) k || (s.badAt (t.at va) k false).isSome then none else s.readTarget (t.at va) k) with
            | none => .bad s
            | some bs =>
                match readVa asid fuel (va + k) (n - k) s with
                | .ok rest s => .ok (bs ++ rest) s
                | r => r

/-- The line of uncorrectable data that a reading of a range meets: one of a table, or of the bytes themselves (R383). -/
def badOfRange (s : State) (asid va n : Nat) : Option Nat :=
  if s.hbmBad.isEmpty then none
  else ((List.range ((va + n - 1) / 65536 - va / 65536 + 1)).map fun i => va / 65536 + i).findSome? fun p =>
    match badTable 0 asid (65536 * p) 3 1 (eFRAME (cget s.astab asid)) s with
    | some l => some l
    | none =>
        let lo := max va (65536 * p)
        match walk s 0 asid lo false with
        | .ok t _ => s.badAt (t.at lo) (min (va + n) (65536 * p + 65536) - lo) false
        | _ => none

/-- Pages that `n` bytes can lie in. -/
def pagesIn (n : Nat) : Nat := n / 65536 + 2

/-! ### Invalidation (R348, R352) -/

def Cover.hits (c : Cover) (asid va : Nat) (large : Bool) : Bool :=
  match c with
  | .page a v => a == asid && (if large then v / 2 ^ 28 == va / 2 ^ 28 else v / 65536 == va / 65536)
  | .asid a => a == asid
  | .all => true

/-- Walker-cache entries that an invalidation covers: of a page, its path; of an address space, its entry too. -/
def Cover.hitsWalker (c : Cover) (x : Nat × Nat × Nat × Nat × Word) : Bool :=
  match c with
  | .page a v => x.2.1 == a && ((x.2.2.1 == 1 && x.2.2.2.1 == v / 2 ^ 40) || (x.2.2.1 == 2 && x.2.2.2.1 == v / 2 ^ 28))
  | .asid a => x.2.1 == a
  | .all => true

/-- Removes what an invalidation covers from every cache. -/
def dropCovered (s : State) (c : Cover) : State :=
  { s with
    quads := s.quads.map fun (q, x) => (q, { x with tcache := x.tcache.filter fun t => !Cover.hits c t.asid t.va t.large })
    wcache := s.wcache.filter fun x => !Cover.hitsWalker c x }

def CopySt.settled : CopySt → Bool
  | .faulted | .complete => true
  | _ => false

/-- Every copy of the device, those of swapped-out gangs included. -/
def allCopies (s : State) : List Copy :=
  (s.quads.flatMap fun q => q.2.copies.map fun c => c.2) ++
  (s.gangs.flatMap fun g => g.2.image.flatMap fun q => q.copies.map fun c => c.2)

/-- Copies that hold a translation that an invalidation covers and are not yet settled, by their numbers. -/
def coveredCopies (s : State) (c : Cover) : List Nat :=
  ((allCopies s).filter fun y =>
    !y.st.settled && (y.trans ++ y.xl.filterMap fun r => r.2).any fun t => Cover.hits c t.asid t.va t.large).map fun y => y.uid

/-- Puts into windows of this device that wait with such a translation. -/
def coveredPuts (s : State) (c : Cover) : List PutMsg :=
  (s.awayPuts.filter fun a => a.res.any fun r => Cover.hits c r.2.asid r.2.va r.2.large).map fun a => a.msg

/-- Starts an invalidation: entries go at once, the answer follows 300 cycles later or with the last covered copy or put. -/
def startInval (s : State) (who : InvalFor) (c : Cover) : State :=
  let i : Inval := ⟨who, c, s.now, coveredCopies s c, coveredPuts s c⟩
  ({ dropCovered s c with invals := s.invals ++ [i] }).postIn 300 (.tlbinvComplete who c)

/-- Copies and puts of an invalidation that have not settled. -/
def Inval.waits (i : Inval) (s : State) : Bool :=
  ((allCopies s).any fun y => !y.st.settled && i.copies.contains y.uid) || s.awayPuts.any fun a => i.puts.contains a.msg

/-- Invalidations whose copies and puts have all settled complete (R352). -/
def recheckInvals (s : State) : State :=
  s.invals.foldl (fun s i => if i.waits s then s else s.post (max s.now (i.issued + 300)) 2 (.tlbinvComplete i.who i.cover)) s

end Sys2Proof.Machine
end

