-- ==== Sys2Proof/Machine/Pages.lean ====
section
/-! DEFINITION. The free-frame pool, the requests for storage pages, the drives' commands and the start of write-backs (R354 to R357). -/

namespace Sys2Proof.Machine

/-- Die edges between two dies (R10, R12): no diagonal link. -/
def dieEdges (d e : Nat) : Nat := absDiff (d % 2) (e % 2) + absDiff (d / 2) (e / 2)

def driveOf (s : State) (port : Nat) : Drive := (mget? s.drives port).getD ⟨true, false, 0, [], []⟩

/-- The drive of a root port may be used (R357). (DEDUCED, log entry 102.) -/
def driveOk (s : State) (port : Nat) : Bool := (driveOf s port).ok && (driveOf s port).queues

/-- A page's drive has failed its initialisation, or it is not in and its drive is not usable (R357). -/
def driveBars (s : State) (pte : Nat) : Bool :=
  let e := hbmWord s pte
  !(driveOf s (eDRIVE e)).ok || (!eRES e && !driveOk s (eDRIVE e))

/-- Key of the first byte of a page's blocks on its drive. -/
def diskKey (e hi : Word) : Nat := ((eDRIVE e * 65536 + eNSID hi) * 2 ^ 48 + eLBA hi) * 4096

/-- SPSTAT.RESC. -/
def resc (s : State) : Nat := (s.pages.filter fun p => p.st != .reading).length

/-- A frame may be taken now (R354, R356). -/
def frameFree (s : State) : Bool := !s.pool.isEmpty && resc s < 1048576

/-- Takes a frame for a page; its Read is sent at a cycle (R355). -/
def takeFrame (s : State) (pte due : Nat) : State :=
  match s.pool with
  | f :: rest =>
      kickSweep ((modPage { s with pool := rest } pte fun p => { p with frame := some f }).post (max s.now due) 2 (.storageReadSend pte))
  | [] => s

/-- A copy, PFETCH.in or an RMA touches a page that is not resident: the read starts, or joins, or waits for a frame (R355). -/
def requestPage (s : State) (asid va pte die tdone : Nat) : State :=
  match pageOf? s pte with
  | some _ => s
  | none =>
      let x := 4 + 16 * dieEdges die (eDRIVE (hbmWord s pte) / 4)
      let p : Page := { pte := pte, asid := asid, va := va, st := .reading, frame := none, sent := false, xdelay := x,
                        evict := false, wbOld := [] }
      let s := { s with pages := s.pages ++ [p] }
      if frameFree s then takeFrame s pte (tdone + x) else kickSweep { s with waiting := s.waiting ++ [pte] }

/-- Frames for the requests that wait, in order; the fuel counts them. -/
def giveFrames : Nat → State → State
  | 0, s => s
  | n + 1, s =>
      match s.waiting with
      | pte :: rest =>
          if frameFree s then
            giveFrames n (takeFrame { s with waiting := rest } pte (s.now + ((pageOf? s pte).map fun p => p.xdelay).getD 0))
          else s
      | [] => s

/-- A frame returns to the pool; the sweep stops where it need not go on. -/
def returnFrame (s : State) (f : Nat) : State :=
  let s := { s with pool := s.pool ++ [f] }
  let s := giveFrames s.waiting.length s
  { s with sweeping := sweepOn s }

/-- An address pushed to the pool: a 64 KiB-aligned one below 640 GiB joins it while it has room (R354). -/
def pushFrame (s : State) (pa : Nat) : State :=
  if pa % 65536 = 0 && pa < Config.hbmSize && s.pool.length < 16777215 then returnFrame s pa else s

/-- A copy pins a page's frame until it settles (R355). -/
def pinned (s : State) (pte : Nat) : Bool := (allCopies s).any fun c => !c.st.settled && c.pins.contains pte

/-- Changes every copy. -/
def mapCopies (s : State) (f : Copy → Copy) : State :=
  let fq (x : Quad) : Quad := { x with copies := x.copies.map fun (k, c) => (k, f c) }
  { s with quads := s.quads.map fun (k, x) => (k, fq x), gangs := s.gangs.map fun (k, g) => (k, { g with image := g.image.map fq }) }

/-! ### Commands of the drives, write-backs, Flush (R355, R357) -/

/-- The blocks of a page: 16 of 4,096 bytes (R355). -/
def pageBytes : Nat := 65536

/-- Commands that the submission queue of 64 entries holds: one entry stays empty. (DEDUCED, log entry 118.) -/
def queueRoom : Nat := 63

/-- The keys of the bytes of a root port's drive. -/
def driveLo (port : Nat) : Nat := port * 2 ^ 76

/-- The root port of a command's drive. -/
def DriveCmd.port (s : State) : DriveCmd → Nat
  | .read pte | .write pte => eDRIVE (hbmWord s pte)
  | .flush port => port

/-- The drive's answer to a command that it has executed, or that has failed twice. -/
def DriveCmd.answer (good : Bool) : DriveCmd → Instr
  | .read pte => if good then .storageReadComplete pte else .storageReadFail pte
  | .write pte => if good then .writebackComplete pte else .writebackFail pte
  | .flush _ => .nvmeFlush

/-- A command is submitted: the drive's answer comes at a free time, good or bad by a free choice, bad where no queue takes it.
(DESIGN CHOICE, log entry 17.) -/
def startCommand (s : State) (c : DriveCmd) : State :=
  let port := c.port s
  let d := driveOf s port
  let good := driveOk s port && Config.freeBool s.free
  let n := 1 + Config.freeNat s.free
  let more := match c with
    | .flush _ => [⟨s.now + n, good, cslice s.disk (driveLo port) (driveLo (port + 1))⟩]
    | _ => []
  ({ s.tick1 with drives := mset s.drives port { d with out := d.out + 1, flushed := d.flushed ++ more } }).postIn n (c.answer good)

/-- A command for its drive, in the order of the requests. -/
def issueCommand (s : State) (c : DriveCmd) : State :=
  let port := c.port s
  let d := driveOf s port
  if d.out < queueRoom && d.fifo.isEmpty then startCommand s c
  else { s with drives := mset s.drives port { d with fifo := d.fifo ++ [c] } }

/-- Cached translations of a page no longer stand for a set D. -/
def forgetDirty (s : State) (pte : Nat) : State :=
  let f (x : Trans) : Trans := if x.tgt.pte? == some pte then { x with dset := false } else x
  { s with quads := s.quads.map fun (q, x) => (q, { x with tcache := x.tcache.map f }) }

/-- A Write of a page's frame begins: D goes to 0, and a later write through a cached translation sets it again (R350, R355). A drive
that has failed or has no queue takes no Write, and uncorrectable data is not written: the write-back fails in the next cycle (R357, R383).
(DESIGN CHOICE, log entry 143.) -/
def startWriteback (s : State) (pte : Nat) : State :=
  let s := forgetDirty (setHbmWord s pte (setField (hbmWord s pte) 9 9 0)) pte
  let f := ((pageOf? s pte).bind fun p => p.frame).getD 0
  let ok := driveOk s (eDRIVE (hbmWord s pte)) && !s.hbmBad.any fun l => decide (f ≤ 64 * l ∧ 64 * l < f + pageBytes)
  let s := modPage s pte fun p => { p with st := .writeback, sent := ok, wbOld := cslice s.hbm f (f + pageBytes) }
  if ok then issueCommand s (.write pte) else s.postIn 1 (.writebackFail pte)

/-- The last write-back before a Flush has ended: the engine issues the Flush. -/
def askFlush (s : State) : State := { s with flushAsks := s.flushAsks + 1 }.post s.now 2 .nvmeFlush

/-- A write of 1 to FLUSH (R354, R357): a write-back of every dirty resident page, then the Flush. -/
def flushPages (s : State) : State :=
  let dirty := s.pages.filter fun p => p.st != .reading && eD (hbmWord s p.pte)
  let s := dirty.foldl (fun s p =>
    if p.st == .resident then startWriteback { s with flushing := p.pte :: s.flushing } p.pte
    else { s with flushing := p.pte :: p.pte :: s.flushing }) s
  let busy := (s.pages.filter fun p => p.st == .writeback && !s.flushing.contains p.pte).map fun p => p.pte
  let s := { s with flushing := busy ++ s.flushing }
  if s.flushing.isEmpty then askFlush s else s

end Sys2Proof.Machine
end

