-- ==== Sys2Proof/Machine/Spaces.lean ====
section
/-! DEFINITION. Control registers (R15, R31, R97, R114, R164, R282, R301, R333) and the spaces beyond local store: strand
registers, tag table, control space, lantern space (R22 to R24, R128, R179, R268, R318, R348, R354, R370, R374, R382, R384). -/

namespace Sys2Proof.Machine

def orBits (l : List (Nat × Nat)) : Word := BitVec.ofNat 64 (l.foldl (fun a p => a + p.1 * 2 ^ p.2) 0)

/-- SPOS (R15). -/
def sposVal (s : State) (g : Gang) (sidx : Nat) : Word :=
  let (q, c, sl) := g.place sidx
  orBits [(s.dev.toNat, 29), (quadX q, 24), (quadY q, 20), (clusterOf q, 15), (dieOf q, 13), (c, 11), (sl, 9)]

/-- GANG (R114). -/
def gangVal (g : Gang) (x : Grid) : Word :=
  orBits [(g.index, 44), (x.launch.count - 1, 24), (x.launch.pri, 17), (if x.launch.coop || x.hdr.coop then 1 else 0, 16)]

/-- GPOS (R114). -/
def gposVal (g : Gang) (sidx : Nat) : Word :=
  let i := sidx / (4 * g.spc)
  let (_, c, sl) := g.place sidx
  orBits [(g.gid, 44), (g.gen.toNat, 28), (sidx, 16), (i % g.w, 14), (i / g.w, 12), (g.lw, 10), (g.lh, 8), (g.spc, 5),
    (c, 3), (sl, 1)]

/-- The value of a control register of a strand (R164). -/
def crRead (s : State) (st : Strand) (g : Gang) (n : Nat) : Word :=
  let q := s.quad (g.quadOf st.sidx)
  let grid := s.grid? g.grid
  match n with
  | 0x000 => s.cyc
  | 0x001 => sposVal s g st.sidx
  | 0x002 => (grid.map fun x => gangVal g x).getD 0
  | 0x003 => gposVal g st.sidx
  | 0x004 => (grid.map fun x => x.launch.argva).getD 0
  | 0x010 => st.vstat
  | 0x011 => st.serr
  | 0x018 => st.rngk
  | 0x019 => st.rngc.setWidth 64
  | 0x01A => st.rngc.extractLsb' 64 64
  | 0x020 => st.tvec
  | 0x021 => st.tpc
  | 0x022 => st.tcause
  | 0x023 => st.tval
  | 0x050 => q.pcfg
  | 0x100 => BitVec.ofNat 64 (q.xbp.toNat * 4096)
  | 0x101 => st.tstat
  | 0x102 => st.ssca
  | 0x103 => st.sscb
  | 0x104 => st.stpc
  | 0x105 => st.scause
  | 0x106 => st.sval
  | _ => if h : 0x40 ≤ n ∧ n < 0x4C then q.tc[n - 0x40]'(by omega) else 0

/-- Fields of registers that a write keeps (R6): the others read as zero. -/
def mVSTAT : Word := 0x3F
def mSERR : Word := 0xFFFFFFFF01
def mTCAUSE : Word := 0x1FFFF
def mTSTAT : Word := 0xFFFFF00000000301
def mTC : Word := 0xC0FFFF0F
def mPCFG : Word := 0xFFFFFFFF000000FF

/-- A write to a per-strand register (R164). -/
def crWriteStrand (st : Strand) (n : Nat) (v : Word) : Strand :=
  match n with
  | 0x010 => { st with vstat := v &&& mVSTAT }
  | 0x011 => { st with serr := v &&& mSERR }
  | 0x018 => { st with rngk := v }
  | 0x019 => { st with rngc := st.rngc.extractLsb' 64 64 ++ v }
  | 0x01A => { st with rngc := v ++ st.rngc.setWidth 64 }
  | 0x020 => { st with tvec := v }
  | 0x021 => { st with tpc := v }
  | 0x022 => { st with tcause := v &&& mTCAUSE }
  | 0x023 => { st with tval := v }
  | 0x101 => { st with tstat := v &&& mTSTAT }
  | 0x102 => { st with ssca := v }
  | 0x103 => { st with sscb := v }
  | 0x104 => { st with stpc := v }
  | 0x105 => { st with scause := v &&& mTCAUSE }
  | 0x106 => { st with sval := v }
  | _ => st

/-- XBP above 0xFC is written as 0xFC (R31). -/
def xbpOf (v : Word) : BitVec 8 := BitVec.ofNat 8 (min (bitsOf v.toNat 19 12) 0xFC)
/-- PSWEEP 0 is written as 1 (R301). -/
def pcfgOf (v : Word) : Word := let w := v &&& mPCFG; if w.toNat % 256 = 0 then w + 1 else w

/-! ### Strand registers by slot (R23) -/

/-- Allocated registers of a kernel (R115): SALLOC 0 means 8. -/
def Header.sall (h : Header) : Nat := if h.salloc = 0 then 8 else h.salloc

/-- An 8-byte word of space 1. -/
def slotRead (s : State) (q off : Nat) : Word :=
  match s.slotKey q (off / 8192) with
  | none => 0
  | some k =>
      match s.strand? k, s.headerOf (k / 256) with
      | some st, some h =>
          let st := settle st s.now
          let o := off % 8192
          if o < 256 then (if h' : o / 8 < 32 then (if o / 8 < h.sall then sreg st ⟨o / 8, h'⟩ else 0) else 0)
          else if o < 288 then
            let p := (o - 256) / 4
            (preg st (Fin.ofNat 8 (p + 1)) ++ preg st (Fin.ofNat 8 p) : BitVec 64)
          else if 4096 ≤ o then
            let r := (o - 4096) / 128
            let i := (o - 4096) % 128 / 4
            if r < h.valloc then (lane (vreg st (Fin.ofNat 32 r)) (i + 1) ++ lane (vreg st (Fin.ofNat 32 r)) i : BitVec 64) else 0
          else 0
      | _, _ => 0

/-- A write of space 1: the value alone, the scoreboard state stays (R23). -/
def slotWrite (s : State) (q off : Nat) (v : Word) : State :=
  match s.slotKey q (off / 8192) with
  | none => s
  | some k =>
      match s.strand? k, s.headerOf (k / 256) with
      | some st, some h =>
          let st := settle st s.now
          let o := off % 8192
          if o < 256 then
            if h' : o / 8 < 32 then
              if o / 8 < h.sall && o / 8 != 0 then s.setStrand k { st with sregs := st.sregs.set (o / 8) v } else s
            else s
          else if o < 288 then
            let p := (o - 256) / 4
            let put (st : Strand) (i : Nat) (x : Lane) : Strand :=
              if h' : i < 8 then (if i = 0 then st else { st with pregs := st.pregs.set i x }) else st
            s.setStrand k (put (put st p (v.setWidth 32)) (p + 1) (v.extractLsb' 32 32))
          else if 4096 ≤ o then
            let r := (o - 4096) / 128
            let i := (o - 4096) % 128 / 4
            if h' : r < 32 then
              if r < h.valloc then
                let old := st.vregs[r]
                s.setStrand k { st with vregs := st.vregs.set r (vmk fun j =>
                  if j = i then v.setWidth 32 else if j = i + 1 then v.extractLsb' 32 32 else lane old j) }
              else s
            else s
          else s
      | _, _ => s

/-! ### The tag table (R179) -/

def Tag.none : Tag := ⟨false, 0, 0⟩
def tagOf (x : Quad) (i : Nat) : Tag := (mget? x.tags i).getD Tag.none
/-- The 16 bytes of an entry: KEY, then V and SLOT. -/
def tagBytes (t : Tag) : List Byte :=
  if t.valid then bytesOf 8 t.key ++ bytesOf 2 (BitVec.ofNat 16 (32768 + t.slot.toNat)) ++ List.replicate 6 0
  else bytesOf 8 t.key ++ bytesOf 2 (t.slot.setWidth 16) ++ List.replicate 6 0
def tagRead (x : Quad) (off n : Nat) : List Byte :=
  (List.range n).map fun i => ((tagBytes (tagOf x ((off + i) / 16))).getD ((off + i) % 16) 0)
def tagOfBytes (bs : List Byte) : Tag :=
  let f := fieldOf bs 8 2
  ⟨decide (32768 ≤ f), BitVec.ofNat 64 (fieldOf bs 0 8), BitVec.ofNat 12 f⟩
def tagWrite (x : Quad) (off : Nat) (bs : List Byte) : Quad :=
  (List.range bs.length).foldl (fun x i =>
    let e := (off + i) / 16
    let old := tagBytes (tagOf x e)
    { x with tags := mset x.tags e (tagOfBytes (old.set ((off + i) % 16) (bs.getD i 0))) }) x

/-! ### Device configuration registers of quad (1, 1) (R24) -/

def clampN (lo hi n : Nat) : Nat := if n < lo then lo else if hi < n then hi else n

/-- DSCFG (R128). -/
def dscfgOf (v : Word) : Word :=
  orBits [(clampN 16 40 (bitsOf v.toNat 31 26), 26), (clampN 12 32 (bitsOf v.toNat 23 18), 18),
    (clampN 12 40 (bitsOf v.toNat 15 10), 10)]
/-- NCCFG (R370). -/
def nccfgOf (v : Word) : Word :=
  let n := v.toNat
  orBits [(max 1 (bitsOf n 31 28), 28), (max 1 (bitsOf n 27 24), 24), (max 1 (bitsOf n 23 20), 20),
    (max 1 (bitsOf n 19 16), 16), (max 1 (bitsOf n 15 12), 12), (max 8 (bitsOf n 7 0), 0)]
/-- SNCFG (R382): HELD is W1C. -/
def sncfgOf (old v : Word) : Word :=
  (v &&& 0xFF0F) ||| (if v.getLsbD 4 then 0 else old &&& 0x10)

/-- SPSTAT (R354). -/
def spstatVal (s : State) : Word :=
  let resc := (s.pages.filter fun p => p.st != .reading).length
  orBits [(s.spErr, 48), (resc, 24), (s.pool.length, 0)]
/-- HSTAT (R374). -/
def hstatVal (s : State) : Word := orBits [(s.badCmd, 32), (s.unsup, 0)]

def devRead (s : State) (off : Nat) : Word :=
  match off with
  | 0x100 => s.dscfg
  | 0x200 => s.spcfg
  | 0x208 => spstatVal s
  | 0x300 => s.nccfg
  | 0x400 => s.sncfg
  | 0x408 => s.sncyc
  | 0x500 => s.pwcfg
  | 0x600 => hstatVal s
  | _ =>
      if 0x1000 ≤ off ∧ off < 0x5000 then cget s.domtab ((off - 0x1000) / 8)
      else if 0x6000 ≤ off ∧ off < 0x7000 ∧ off % 16 = 0 then cget s.astab ((off - 0x6000) / 16)
      else 0

/-- A write to the domain group table (R318): a group with an open episode has it aborted; the rewritten entry takes new
episodes (R324). (DEDUCED, log entry 100.) -/
def domWrite (s : State) (i : Nat) (v : Word) : State :=
  let grp : Grp := .domain (Fin.ofNat 32 (i / 64))
  let s := (s.episodes.map fun p => p.2).foldl (fun s e =>
    if e.grp == grp && !e.decided then endEpisode s e 1 else s) s
  { s with domtab := cset s.domtab i (v &&& 0xFFFFFFFF0000FFFF), aborted := s.aborted.filter fun a => a.1 != grp }

/-- A write of a device register; PWCFG is the lightship's alone (R384). (DESIGN CHOICE, log entry 154.) -/
def devWrite (s : State) (lightship : Bool) (off : Nat) (v : Word) : State :=
  match off with
  | 0x100 => { s with dscfg := dscfgOf v }
  | 0x200 => kickSweep { s with spcfg := v }
  | 0x210 => pushFrame s v.toNat
  | 0x218 => if v.getLsbD 0 then flushPages s else s
  | 0x300 => { s with nccfg := nccfgOf v }
  | 0x400 => { s with sncfg := sncfgOf s.sncfg v }
  | 0x408 => { s with sncyc := v }
  | 0x500 => if lightship then { s with pwcfg := v &&& 0xFF0F } else s
  | _ =>
      if 0x1000 ≤ off ∧ off < 0x5000 then domWrite s ((off - 0x1000) / 8) v
      else if 0x6000 ≤ off ∧ off < 0x7000 ∧ off % 16 = 0 then
        { s with astab := cset s.astab ((off - 0x6000) / 16) (v &&& 0xFFFFFF0001) }
      else s

/-! ### Control space and lantern space (R24, R268) -/

/-- The control register of a per-strand offset (R24). -/
def slotReg (o : Nat) : Nat := if o < 0x120 then o / 8 else if 0x188 ≤ o ∧ o < 0x1B8 then 0x100 + (o - 0x180) / 8 else 0xFFF

/-- A word of a flare snapshot (R382): four words a slot, PC, TCAUSE, scalar and vector scoreboards.
(DESIGN CHOICE, log entry 36.) -/
def snapWord (x : Quad) (off : Nat) : Word :=
  match x.snap.find? fun p => p.slot == off / 32 with
  | some p =>
      match off % 32 / 8 with
      | 0 => p.pc.setWidth 64
      | 1 => p.tcause
      | 2 => p.ssb
      | _ => p.vsb
  | none => 0

/-- A word of control space (R24). -/
def ctlRead (s : State) (q off : Nat) : Word :=
  let x := s.quad q
  if off < 0x8000 then (if q = hub0 then devRead s off else 0)
  else if off < 0x9000 then snapWord x (off - 0x8000)
  else if h : 0x9000 ≤ off ∧ off < 0x9060 then x.tc[(off - 0x9000) / 8]'(by omega)
  else if off = 0x9080 then x.pcfg
  else if off = 0x9100 then BitVec.ofNat 64 (x.xbp.toNat * 4096)
  else if 0xC000 ≤ off ∧ off < 0xE000 then
    match s.slotKey q ((off - 0xC000) / 0x200) with
    | some k =>
        match s.strand? k, s.gang? (k / 256) with
        | some st, some g => crRead s (settle st s.now) g (slotReg ((off - 0xC000) % 0x200))
        | _, _ => 0
    | none => 0
  else 0

/-- A write to control space (R24). -/
def ctlWrite (s : State) (lightship : Bool) (q off : Nat) (v : Word) : State :=
  if off < 0x8000 then (if q = hub0 then devWrite s lightship off v else s)
  else if off < 0x9000 then s
  else if h : 0x9000 ≤ off ∧ off < 0x9060 then
    s.modQuad q fun x => { x with tc := x.tc.set ((off - 0x9000) / 8) (v &&& mTC) (by omega) }
  else if off = 0x9080 then s.modQuad q fun x => { x with pcfg := pcfgOf v }
  else if off = 0x9100 then s.modQuad q fun x => { x with xbp := xbpOf v }
  else if 0xC000 ≤ off ∧ off < 0xE000 then
    match s.slotKey q ((off - 0xC000) / 0x200) with
    | some k =>
        let r := slotReg ((off - 0xC000) % 0x200)
        let s := s.modStrand k fun st => crWriteStrand (settle st s.now) r v
        if r = 0x22 then postOverwrite s k else s
    | none => s
  else s

/-- LNCFG (R268). -/
def lncfgVal (s : State) (c : Nat) : Word :=
  let regs := (s.images.map fun m => (m.regions.filter fun r => r.lantern == c).length).foldl (· + ·) 0
  let ports := (s.images.map fun m => (m.ports.filter fun p =>
    ((m.regions[p.region]?).map fun r => r.lantern) == some c).length).foldl (· + ·) 0
  orBits [(ports, 24), (regs, 16), (if h : c < 32 then (s.lnStarve[c]).toNat else 0, 0)]

/-- An 8-byte read of spaces 1, 3 and 4. -/
def wordRead (s : State) (l : Loc) : Word :=
  match l.space with
  | 1 => slotRead s l.quad l.off
  | 3 => ctlRead s l.quad l.off
  | 4 => if l.off = 0 then lncfgVal s (clusterOf l.quad) else 0
  | _ => 0

/-- An 8-byte write of spaces 1, 3 and 4. -/
def wordWrite (s : State) (lightship : Bool) (l : Loc) (v : Word) : State :=
  match l.space with
  | 1 => slotWrite s l.quad l.off v
  | 3 => ctlWrite s lightship l.quad l.off v
  | 4 =>
      let c := clusterOf l.quad
      if h : l.off = 0 ∧ c < 32 then
        { s with lnStarve := s.lnStarve.set c (BitVec.ofNat 4 (max 1 (v.toNat % 16))) h.2 }
      else s
  | _ => s

/-- A strand's read of `n` bytes (R22). -/
def spaceRead (s : State) (key : Nat) (l : Loc) (n : Nat) : List Byte :=
  match l.space with
  | 0 => lsRead s .core (.strand key) l.quad l.off n
  | 2 => tagRead (s.quad l.quad) l.off n
  | _ => bytesOf n (wordRead s l)

/-- A strand's write. -/
def spaceWrite (s : State) (key : Nat) (l : Loc) (bs : List Byte) : State :=
  match l.space with
  | 0 => lsWrite s .core key l.quad l.off bs
  | 2 => s.modQuad l.quad fun x => tagWrite x l.off bs
  | _ => wordWrite s false l (BitVec.ofNat 64 (natOf bs))

/-- REGISTER_WRITE: a write to a register of a space that takes effect now (R24, R282, R301). (DEDUCED, log entry 44.) -/
def execRegisterWrite (quad space off : Nat) (val : Word) (s : State) : Out :=
  .next (wordWrite s false ⟨quad, space, off⟩ val)

end Sys2Proof.Machine
end

