-- ==== Sys2Proof/Machine/Memory.lean ====
section
/-! DEFINITION. Loads, stores, atomics, the tag table, register arming and fences (R173 to R181, R189, R190, R193, R194). -/

namespace Sys2Proof.Machine

/-! ### Effective addresses (R173) -/

def offVal : Off → Word
  | .none => 0
  | .imm32 i _ => i.signExtend 64
  | .imm64 i _ => i

/-- The effective address: the base alone under post-increment. -/
def effAddr (st : Strand) (a : SReg) (o : Off) : Word := if o.isPost then sreg st a else sreg st a + offVal o

/-- The post-increment of the base register, L = 1 (R173, R175). -/
def postInc (st : Strand) (a : SReg) (o : Off) (s : State) : State :=
  if o.isPost then s.wrS 1 a (sreg st a + offVal o) else s

def ldBytes : LdW → Nat
  | .b | .bs => 1
  | .h | .hs => 2
  | .w | .ws => 4
  | .d => 8
def stBytes : StW → Nat
  | .b => 1
  | .h => 2
  | .w => 4
  | .d => 8

/-- The value LD writes: zero- or sign-extended (R174). -/
def ldVal (w : LdW) (bs : List Byte) : Word :=
  match w with
  | .bs | .hs | .ws => BitVec.ofInt 64 (sext (natOf bs) (8 * ldBytes w))
  | _ => BitVec.ofNat 64 (natOf bs)

/-- Lanes from 128 bytes. -/
def vecOf (bs : List Byte) : VVal := vmk fun i => BitVec.ofNat 32 (fieldOf bs (4 * i) 4)

/-- Delays of a load's result, of a remote access at its bank and of an acknowledgement (R175, R208). A core's access to its own
quad takes its bank one cycle after issue (R208), and the router is served before the cores (R177): the model performs a core's
access in its issue cycle, so a remote access that wins its bank in cycle b is a step of cycle b - 1, before any core issues.
(DESIGN CHOICE, log entry 8.) -/
def loadDelay (own q : Nat) : Nat := if own = q then 4 else 6 + 4 * hops own q + 16 * edges own q
def bankDelay (own q : Nat) : Nat := 2 + 2 * hops own q + 8 * edges own q
/-- Cycles from issue to the step of a remote access at its bank (R208). (DESIGN CHOICE, log entry 9.) -/
def bankStep (own q : Nat) : Nat := 1 + 2 * hops own q + 8 * edges own q
def ackDelay (own q : Nat) : Nat := 4 + 4 * hops own q + 16 * edges own q

/-- A remote store or atomic leaves the core: it is counted until published and until acknowledged (R175). -/
def sendRemote (s : State) (own : Nat) (l : Loc) (w : RemoteWrite) : State :=
  let s := s.modCur fun st => { st with remote := st.remote + 1, pubAt := max st.pubAt (s.now + bankDelay own l.quad) }
  ((s.postIn (bankStep own l.quad) (.remoteStorePublish w)).postIn (ackDelay own l.quad) (.remoteAcknowledgement s.cur)).reply
    l.quad own (s.now + ackDelay own l.quad) (.step 2 (.remoteAcknowledgement s.cur))

/-- The cycle at which a remote access's result is back, `n` cycles after issue on an idle network: as much later as its request came late
to its bank (R373). -/
def lateReady (s : State) (key : Nat) (l : Loc) (n ready : Nat) : Nat :=
  ready + (s.now + n - (ready + bankStep (s.quadOf key) l.quad))

/-- A trap of an access: its TVAL is the effective address (R26, R29, R173). -/
def accTrap (c : Nat) (ea : Word) : Res := .trap c 0 ea

/-- The current strand's acquire completes at a cycle (R213). -/
def State.acquired (s : State) (at' : Nat) : State := s.acquireBy s.cur at'

/-- A seventeenth remote store or atomic stalls (R175). -/
def remoteFull (st : Strand) (own q : Nat) : Bool := own != q && 16 ≤ st.remote

/-- The banks are taken in the cycle after issue, from core CYC mod 4 of that cycle upward: a core with an access to its own local store
lets those go first whose turn is earlier then (R177). (DEDUCED, log entry 48.) -/
def bankRival (s : State) (st : Strand) (gang : Gang) (l : Loc) : Bool :=
  let (q, core, _) := gang.place st.sidx
  l.quad == q && l.space == 0 && yieldsTo s q core (fun c => (c + 7 - s.cyc.toNat % 4) % 4) fun i => match i with
    | .ld .. | .ldv .. | .st .. | .stv .. | .amo .. | .cas .. => true
    | _ => false

/-- LD (R173 to R176). -/
def execLd (g : Guard) (w : LdW) (m : Mode) (acq : Bool) (d a : SReg) (off : Off) (s : State) : Out :=
  issue (.ld g w m acq d a off) g (fun st gang _ s =>
    let ea := effAddr st a off
    match access s st gang ea m (ldBytes w) false with
    | .error c => accTrap c ea
    | .ok l =>
        if bankRival s st gang l then .yield else
        let own := gang.quadOf st.sidx
        let s := postInc st a off s
        let s := if acq then s.acquired (if l.quad = own then s.now else s.now + bankDelay own l.quad) else s
        if l.quad = own then .done (s.wrS 4 d (ldVal w (spaceRead s s.cur l (ldBytes w))))
        else
          let s := (s.awaitReg (.s d)).modCur fun st =>
            { st with loadsAt := max st.loadsAt (s.now + bankDelay own l.quad), hold := if acq then max 1 st.hold else st.hold }
          .done (s.postIn (bankStep own l.quad)
            (.remoteLoadResponse (.ld l w s.cur d (s.now + loadDelay own l.quad))))) s

/-- LDV (R174): masked lanes; a mask of zero accesses no memory. -/
def execLdv (g : Guard) (m : Mode) (d : VReg) (a : SReg) (off : Off) (s : State) : Out :=
  issue (.ldv g m d a off) g (fun st gang mask s =>
    let ea := effAddr st a off
    match access s st gang ea m 128 false with
    | .error c => accTrap c ea
    | .ok l =>
        if mask != 0 && bankRival s st gang l then .yield else
        let own := gang.quadOf st.sidx
        let s := postInc st a off s
        if mask = 0 then .done s
        else if l.quad = own then .done (s.wrV 5 d mask (vecOf (spaceRead s s.cur l 128)))
        else
          let s := (s.awaitReg (.v d)).modCur fun st => { st with loadsAt := max st.loadsAt (s.now + bankDelay own l.quad) }
          .done (s.postIn (bankStep own l.quad)
            (.remoteLoadResponse (.ldv l mask s.cur d (s.now + loadDelay own l.quad + 1))))) s

/-- REMOTE_LOAD_RESPONSE: the load performs at its bank, and its result is delivered later (R175, R208). -/
def execRemoteLoadResponse (r : RemoteRead) (s : State) : Out :=
  match r with
  | .ld loc w key d ready =>
      .next (s.deliverFrom loc.quad key (lateReady s key loc (loadDelay (s.quadOf key) loc.quad) ready)
        (.s d (ldVal w (spaceRead s key loc (ldBytes w)))))
  | .ldv loc mask key d ready =>
      .next (s.deliverFrom loc.quad key (lateReady s key loc (loadDelay (s.quadOf key) loc.quad + 1) ready)
        (.v d mask (vecOf (spaceRead s key loc 128))))

/-- ST (R173 to R176): `.rel` waits for earlier loads and for the publication of earlier stores. -/
def execSt (g : Guard) (w : StW) (m : Mode) (rel : Bool) (a : SReg) (off : Off) (c : SReg) (s : State) : Out :=
  issue (.st g w m rel a off c) g (fun st gang _ s =>
    let ea := effAddr st a off
    match access s st gang ea m (stBytes w) true with
    | .error c => accTrap c ea
    | .ok l =>
        let own := gang.quadOf st.sidx
        if (rel && !drained s.now st 2) || remoteFull st own l.quad then .stall
        else if bankRival s st gang l then .yield
        else
          let v := sreg st c
          let s := postInc st a off s
          if l.quad = own then .done (spaceWrite s s.cur l (bytesOf (stBytes w) v))
          else .done (sendRemote s own l (.st l (stBytes w) v s.cur))) s

/-- Lanes with mask bit 1 written at 4-byte places (R174). -/
def storeLanes (s : State) (key : Nat) (l : Loc) (mask : Lane) (v : VVal) : State :=
  (List.range 32).foldl (fun s i =>
    if mask.getLsbD i then spaceWrite s key { l with off := l.off + 4 * i } (bytesOf 4 (lane v i)) else s) s

/-- STV (R174). -/
def execStv (g : Guard) (m : Mode) (a : SReg) (off : Off) (c : VReg) (s : State) : Out :=
  issue (.stv g m a off c) g (fun st gang mask s =>
    let ea := effAddr st a off
    match access s st gang ea m 128 true with
    | .error c => accTrap c ea
    | .ok l =>
        let own := gang.quadOf st.sidx
        if mask != 0 && remoteFull st own l.quad then .stall
        else if mask != 0 && bankRival s st gang l then .yield
        else
          let v := vreg st c
          let s := postInc st a off s
          if mask = 0 then .done s
          else if l.quad = own then .done (storeLanes s s.cur l mask v)
          else .done (sendRemote s own l (.stv l mask v s.cur))) s

/-! ### Atomics (R178) -/

def off96Val : Off96 → Word
  | .none => 0
  | .imm i => i.signExtend 64

/-- The new value of an AMO on `n` bytes. -/
def amoVal (op : AmoOp) (n : Nat) (old b : Nat) : Nat :=
  let lim := 2 ^ (8 * n)
  let sg (x : Nat) : Int := sext x (8 * n)
  match op with
  | .add => (old + b) % lim
  | .and => old &&& b
  | .or => old ||| b
  | .xor => old ^^^ b
  | .min => if sg b < sg old then b else old
  | .max => if sg old < sg b then b else old
  | .minu => if b < old then b else old
  | .maxu => if old < b then b else old
  | .swap => b

/-- An AMO of a strand at its bank: the old value and the state after. -/
def amoAt (s : State) (key : Nat) (l : Loc) (n : Nat) (op : AmoOp) (b : Word) : Nat × State :=
  let old := natOf (lsRead s .core (.strand key) l.quad l.off n)
  (old, lsWrite s .core key l.quad l.off (bytesOf n (BitVec.ofNat 64 (amoVal op n old (b.toNat % 2 ^ (8 * n))))))

/-- A CAS of a strand at its bank. -/
def casAt (s : State) (key : Nat) (l : Loc) (n : Nat) (b new : Word) : Nat × State :=
  let old := natOf (lsRead s .core (.strand key) l.quad l.off n)
  (old, if old = b.toNat % 2 ^ (8 * n) then lsWrite s .core key l.quad l.off (bytesOf n new) else s)

def Order.isAcq : Order → Bool
  | .acq | .ar => true
  | _ => false
def Order.isRel : Order → Bool
  | .rel | .ar => true
  | _ => false

/-- The checks and the order of an atomic; `at'` is what happens at the bank of the own quad, `msg` what goes to another. -/
def atomicOp (st : Strand) (gang : Gang) (ea : Word) (m : Mode) (o : Order) (n : Nat) (d : SReg)
    (bank : State → Loc → Nat × State) (msg : Loc → Nat → RemoteWrite) (s : State) : Res :=
  match resolve s st gang ea m true with
  | .error c => accTrap c ea
  | .ok l =>
      if l.space ≠ 0 then accTrap cREMOTE ea
      else match access s st gang ea m n true with
        | .error c => accTrap c ea
        | .ok l =>
            let own := gang.quadOf st.sidx
            if (Order.isRel o && !drained s.now st 2) || remoteFull st own l.quad then .stall
            else if bankRival s st gang l then .yield
            else
              let s := if Order.isAcq o then s.acquired (if l.quad = own then s.now else s.now + bankDelay own l.quad) else s
              if l.quad = own then
                let (old, s) := bank s l
                .done (s.wrS 6 d (BitVec.ofNat 64 old))
              else
                let s := (s.awaitReg (.s d)).modCur fun st => { st with hold := if Order.isAcq o then max 2 st.hold else st.hold }
                .done (sendRemote s own l (msg l (s.now + 8 + 4 * hops own l.quad)))

/-- Delivery of the old value of a remote AMO or CAS. -/
def atomicBack (s : State) (key : Nat) (l : Loc) (ready : Nat) (d : SReg) (old : Nat) : State :=
  s.deliverFrom l.quad key (lateReady s key l (8 + 4 * hops (s.quadOf key) l.quad) ready) (.s d (BitVec.ofNat 64 old))

/-- AMO (R178). -/
def execAmo (g : Guard) (op : AmoOp) (dw : Bool) (m : Mode) (o : Order) (d a : SReg) (off : Off96) (b : SReg) (s : State) : Out :=
  issue (.amo g op dw m o d a off b) g (fun st gang _ s =>
    let n := if dw then 8 else 4
    atomicOp st gang (sreg st a + off96Val off) m o n d (fun s l => amoAt s s.cur l n op (sreg st b))
      (fun l ready => .amo l n op (sreg st b) s.cur d ready) s) s

/-- CAS (R178). -/
def execCas (g : Guard) (dw : Bool) (m : Mode) (o : Order) (d a : SReg) (off : Off96) (b c : SReg) (s : State) : Out :=
  issue (.cas g dw m o d a off b c) g (fun st gang _ s =>
    let n := if dw then 8 else 4
    atomicOp st gang (sreg st a + off96Val off) m o n d (fun s l => casAt s s.cur l n (sreg st b) (sreg st c))
      (fun l ready => .cas l n (sreg st b) (sreg st c) s.cur d ready) s) s

/-- REMOTE_ACKNOWLEDGEMENT (R175). -/
def execRemoteAcknowledgement (key : Nat) (s : State) : Out :=
  .next (s.modStrand key fun st => { st with remote := st.remote - 1, ackAt := s.now })

/-! ### The tag table (R179 to R181) -/

/-- The lowest entry that satisfies a test. -/
def findTag (x : Quad) (p : Tag → Bool) : Option Nat := (List.range 256).find? fun i => p (tagOf x i)
def hasKey (k : Word) (t : Tag) : Bool := t.valid && t.key == k

/-- Writes the result of a tag operation: the table performs one per cycle, and later ones wait (R181). (DEDUCED, log entry 49.) -/
def tagDone (s : State) (q : Nat) (d : SReg) (v : Word) : State :=
  let start := max s.now (s.quad q).tagFree
  (s.modQuad q fun x => { x with tagFree := start + 1 }).wrS (2 + (start - s.now)) d v

/-- TAGLK (R180): 2^64 - 1 when no valid entry has the key. -/
def execTaglk (g : Guard) (d a : SReg) (s : State) : Out :=
  issue (.taglk g d a) g (fun st gang _ s =>
    let q := gang.quadOf st.sidx
    let x := s.quad q
    match findTag x (hasKey (sreg st a)) with
    | some i => .done (tagDone (s.acquired s.now) q d ((tagOf x i).slot.setWidth 64))
    | none => .done (tagDone s q d (BitVec.allOnes 64))) s

/-- TAGSET (R180, R181): a release at scope QUAD. -/
def execTagset (g : Guard) (d a b : SReg) (s : State) : Out :=
  issue (.tagset g d a b) g (fun st gang _ s =>
    let q := gang.quadOf st.sidx
    let x := s.quad q
    let t : Tag := ⟨true, sreg st a, (sreg st b).setWidth 12⟩
    let s := if s.now < st.pubAt then s.modCur fun o => { o with relQ := (s.now, st.pubAt) :: o.relQ } else s
    if !drained s.now st 1 then .stall
    else match findTag x (hasKey (sreg st a)) with
      | some i => .done (tagDone (s.setQuad q { x with tags := mset x.tags i t }) q d 1)
      | none =>
          match findTag x fun t => !t.valid with
          | some i => .done (tagDone (s.setQuad q { x with tags := mset x.tags i t }) q d 0)
          | none => .done (tagDone s q d 2)) s

/-- TAGCLR: the entry becomes that of reset, KEY and SLOT 0 (R180). (DESIGN CHOICE, log entry 124.) -/
def execTagclr (g : Guard) (d a : SReg) (s : State) : Out :=
  issue (.tagclr g d a) g (fun st gang _ s =>
    let q := gang.quadOf st.sidx
    let x := s.quad q
    match findTag x (hasKey (sreg st a)) with
    | some i => .done (tagDone (s.setQuad q { x with tags := merase x.tags i }) q d ((tagOf x i).slot.setWidth 64))
    | none => .done (tagDone s q d (BitVec.allOnes 64))) s

/-! ### EXPECT (R193, R194) -/

def armS (st : Strand) (r : SReg) : Strand := if r = 0 then st else { st with sst := st.sst.set r.val .empty }
def armV (st : Strand) (r : VReg) : Strand := { st with vst := st.vst.set r.val .empty }

/-- The registers an EXPECT names. -/
def ExpectArg.refs : ExpectArg → List RegRef
  | .s r => [.s r]
  | .v r => [.v r]
  | .sMask m => ((List.finRange 32).filter fun k => m.getLsbD k.val).map fun k => .s k
  | .vMask m => ((List.finRange 32).filter fun k => m.getLsbD k.val).map fun k => .v k

def armRef (st : Strand) : RegRef → Strand
  | .s r => armS st r
  | .v r => armV st r
  | .p _ => st

/-- EXPECT (R194): it waits for earlier local writes, then arms every named register. -/
def execExpect (g : Guard) (x : ExpectArg) (s : State) : Out :=
  issue (.expect g x) g (fun st _ _ s =>
    if (ExpectArg.refs x).any (onWay st) then .stall
    else .done (s.modCur fun st => (ExpectArg.refs x).foldl armRef st)) s

/-! ### Fences (R189, R190, R219) -/

/-- PHASE (R189): later memory operations wait; `.system` also flushes every host endpoint written (R219).
(DEDUCED, log entry 37.) -/
def execPhase (g : Guard) (sc : Scope) (s : State) : Out :=
  issue (.phase g sc) g (fun st _ _ s =>
    if sc != .system then .done (s.modCur fun st => { st with hold := max st.hold (phaseLevel sc) })
    else if !drained s.now st 5 then .stall
    else if st.flushes.isEmpty then .done s
    else
      let s := st.flushes.foldl (fun s ep => s.tick1.postIn (3000 + Config.freeNat s.free % 16384) (.flushResponse s.cur ep)) s
      .hold ((s.modCur fun st => { st with flushes := [] }).sleepIn (.flush st.flushes) (Instr.phase g sc).len)) s

/-- FLUSH_RESPONSE (R219): the strand goes on after the last one. -/
def execFlushResponse (key endpoint : Nat) (s : State) : Out :=
  match (s.strand? key).bind Strand.sleep? with
  | some (.flush eps) =>
      let rest := eps.filter fun e => e != endpoint
      if rest.isEmpty then .next ((wakeStrand s key (s.now + 1)).modStrand key fun st => { st with ackAt := s.now })
      else .next (s.modStrand key fun st =>
        match st.act, st.resume with
        | .asleep _ n, _ => { st with act := .asleep (.flush rest) n }
        | .saving, .asleep _ n => { st with resume := .asleep (.flush rest) n }
        | _, _ => st)
  | _ => .next s

/-- XFENCE (R190): it makes writes of class src whose completion the strand has observed, its own stores, and those of others that happen
before it, visible to class dst in the gang's quads; the strand stalls 6 cycles. These stores must be published. -/
def execXfence (g : Guard) (src dst : Path) (s : State) : Out :=
  issue (.xfence g src dst) g (fun st gang _ s =>
    let st := (s.strand? s.cur).getD st
    if src == .core && (!drained s.now st 2 || awaitsStores s st) then .stall
    else
      let s := fence s st src dst gang.quads
      .done (s.modCur fun st => { st with
        wake := s.now + 6, seen := st.seen.filter fun o => s.unf.any fun u => u.op == o })) s

end Sys2Proof.Machine
end

