-- ==== Sys2Proof/Machine/Sends.lean ====
section
/-! DEFINITION. Register capabilities and sends (R191 to R202), and the OVERWRITE condition (R195). -/

namespace Sys2Proof.Machine

/-! ### Capabilities (R191, R192) -/

/-- The capability word. -/
def regCap (dev gid sidx : Nat) (vec : Bool) (reg : Fin 32) (gen : Nat) : Word :=
  orBits [(1, 60), (dev, 57), (gid, 37), (sidx, 29), (if vec then 1 else 0, 28), (reg.val, 23), (gen, 0)]

/-- CAPMK. -/
def execCapmk (g : Guard) (d : SReg) (f : CapForm) (vec : Bool) (reg : Fin 32) (s : State) : Out :=
  issue (.capmk g d f vec reg) g (fun st gang _ s =>
    let own (sidx : Nat) := regCap s.dev.toNat gang.gid sidx vec reg gang.gen.toNat
    .done (s.wrS 1 d (match f with
      | .idx a => own ((sreg st a).toNat % 256)
      | .idxImm i => own i.toNat
      | .other a b =>
          let c := (sreg st b).toNat
          regCap (bitsOf c 59 57) (bitsOf c 56 37) ((sreg st a).toNat % 256) vec reg (bitsOf c 15 0)))) s

/-- A device that sends and puts may name: the own one or a member of the load-store domain (R196, R204). -/
def inDomain (s : State) (dev : Nat) : Bool := dev == s.dev.toNat || s.domain.contains dev

/-! ### Arrivals (R193, R195, R197) -/

/-- An OVERWRITE condition becomes pending; a second one is lost and counted. -/
def overwriteCond (st : Strand) (vec : Bool) (reg : Fin 32) (val : Word) : Strand :=
  if st.ovw.isSome then ovwlNote st else { st with ovw := some ⟨vec, reg, val⟩ }

/-- What the read of an arrival acquires, 0 for nothing (R199, R215). -/
def noteRel (l : List (RegRef × Nat)) (r : RegRef) (rel : Nat) : List (RegRef × Nat) :=
  (if rel = 0 then [] else [(r, rel)]) ++ l.filter fun p => p.1 != r

/-- "arrival" of R193 at a register: the strand after, and whether it was delivered. -/
def arriveReg (st : Strand) (vec : Bool) (reg : Fin 32) (v : Item) (rel : Nat) : Strand × Bool :=
  match v with
  | .scalar w =>
      if !vec && st.sst[reg.val] == .empty then
        ({ st with sregs := st.sregs.set reg.val w, sst := st.sst.set reg.val .full, rels := noteRel st.rels (.s reg) rel }, true)
      else (overwriteCond st false reg w, false)
  | .vector x =>
      if vec && st.vst[reg.val] == .empty then
        ({ st with vregs := st.vregs.set reg.val x, vst := st.vst.set reg.val .full, rels := noteRel st.rels (.v reg) rel }, true)
      else (overwriteCond st true reg (BitVec.ofNat 64 (2 ^ 63 + 256 + reg.val)), false)

/-- The strand that its core serves in this cycle executes an EXPECT of the register: the EXPECT comes first (R193).
(DEDUCED, log entry 46.) -/
def expectsNow (s : State) (k : Nat) (vec : Bool) (reg : Fin 32) : Bool :=
  match s.strand? k, s.gang? (k / 256) with
  | some st, some g =>
      let (q, c, _) := g.place (k % 256)
      match coreNext s q c with
      | some (j, .does (.expect _ x)) =>
          j == k && !(ExpectArg.refs x).any (onWay (settle st s.now)) && (ExpectArg.refs x).contains (if vec then .v reg else .s reg)
      | _ => false
  | _, _ => false

/-- A save of the strand's gang is in progress, and the strand is not at its boundary with its results yet: arrivals are held for the
saved image (R197, R338). -/
def beforeSave (s : State) (k : Nat) : Bool :=
  match s.strand? k, s.gang? (k / 256) with
  | some st, some g => g.phase == .interrupt && st.act != .ended && !saveReady s k
  | _, _ => false

/-- The sender and the target strand of an arrival. -/
def arrivalPair : Instr → Option (Nat × Nat)
  | .sendArrival m => some (m.sender, keyOf (capGid m.cap) (capSidx m.cap))
  | .sendnArrival k _ _ sender => some (sender, k)
  | _ => none

/-- An arrival is put off to the next cycle, and with it the later ones from the same strand at the same target that are due (R199); with
those that move with it. -/
def putOff (s : State) (ev : Instr) : State × List Instr :=
  let (later, rest) := s.agenda.partition fun e => arrivalPair e.ev == arrivalPair ev && decide (e.due ≤ s.now)
  (later.foldl (fun s e => s.post (s.now + 1) 0 e.ev) (({ s with agenda := rest }).post (s.now + 1) 0 ev), later.map fun e => e.ev)

/-- Delivers a value to a live strand's register (R193, R197): its status is 0 or 2. -/
def arrive (s : State) (k : Nat) (vec : Bool) (reg : Fin 32) (v : Item) (rel : Nat) : State × Nat :=
  match s.strand? k with
  | some st0 =>
      let (st, ok) := arriveReg (settle st0 s.now) vec reg v rel
      let s := s.setStrand k st
      if ok then (s, 0) else (postOverwrite s k, 2)
  | none => (s, 1)

/-- `deliver(cap, val)` of R197: the state and the status 0 DELIVERED, 1 STALE, 2 OVERWRITE, 3 BADREG.
(DESIGN CHOICE, log entry 149.) -/
def deliverCap (s : State) (cap : Word) (v : Item) (rel : Nat) : State × Nat :=
  let k := keyOf (capGid cap) (capSidx cap)
  match s.gang? (capGid cap), s.strand? k, s.headerOf (capGid cap) with
  | some g, some st, some h =>
      if g.gen.toNat ≠ capGen cap || g.count ≤ capSidx cap || st.act == .ended then (s, 1)
      else if (if capVec cap then h.vreq else h.sreq) ≤ capReg cap || (!capVec cap && capReg cap = 0) then (s, 3)
      else arrive s k (capVec cap) (Fin.ofNat 32 (capReg cap)) v rel
  | _, _, _ => (s, 1)

/-- The sender's count of sends in flight. -/
def sendLanded (s : State) (k : Nat) (own : Bool) : State :=
  s.modStrand k fun st =>
    let st := { st with ackAt := s.now }
    if own then { st with sends := st.sends - 1 } else { st with domSends := st.domSends - 1 }

/-- Whether a PHASE's scope covers two strands (R215). -/
def scopeCovers (s : State) (sc : Scope) (a b : Nat) : Bool :=
  match sc with
  | .quad => s.quadOf a == s.quadOf b
  | .gang => a / 256 == b / 256
  | _ => true

/-- The latest drained PHASE of a strand whose scope covers another, 0 for none: what a read of an arrival from it acquires
(R215). (DESIGN CHOICE, log entry 113.) -/
def phaseRel (s : State) (sender target : Nat) : Nat :=
  match s.strand? sender with
  | some st => st.phases.foldl (fun m p => if scopeCovers s p.1 sender target then max m p.2 else m) 0
  | none => 0

/-- The quad to which a send travels: the target's, or quad (1, 1) of the cluster where its gang was last resident
(R198); for a gang that is not live, that of the sender's own cluster. (DESIGN CHOICE, log entry 125.) -/
def targetQuad (s : State) (own gid sidx : Nat) : Nat :=
  match s.gang? gid with
  | some g => if g.onQuads then g.quadOf sidx else hubOf g.lastCluster
  | none => hubOf (clusterOf own)

/-- An arrival waits: for the EXPECT of its register that comes first in this cycle, once, or for the saved image (R193, R197). -/
def arrivalWaits (s : State) (ev : Instr) (k : Nat) (vec : Bool) (reg : Fin 32) : Bool :=
  beforeSave s k || (!s.deferred.contains ev && expectsNow s k vec reg)

/-- It comes again in the next cycle; behind an EXPECT, before whatever that cycle brings, and so do those that it puts off. -/
def arriveLater (s : State) (ev : Instr) (k : Nat) : State :=
  let (t, moved) := putOff s ev
  if beforeSave s k then t else { t with deferred := ev :: moved ++ t.deferred }

/-- An arrival is there. -/
def arrived (s : State) (ev : Instr) : State := { s with deferred := s.deferred.erase ev }

/-- The cycle at which a send's status is back, later by what the arrival was late (R198, R373). -/
def statusAt (s : State) (m : SendMsg) : Nat :=
  let own := s.quadOf m.sender
  let t := targetQuad s own (capGid m.cap) (capSidx m.cap)
  if capDev m.cap == s.dev.toNat && !m.tree then max m.back (s.now + 4 + 2 * hops own t + 8 * edges own t) else max s.now m.back

/-- SEND_ARRIVAL. A peer's answer is its own: a lost peer ends the send STALE, any other answers freely (R378).
(DESIGN CHOICE, log entry 26.) -/
def execSendArrival (m : SendMsg) (s : State) : Out :=
  let own := capDev m.cap == s.dev.toNat
  let k := keyOf (capGid m.cap) (capSidx m.cap)
  if own && arrivalWaits s (.sendArrival m) k (capVec m.cap) (Fin.ofNat 32 (capReg m.cap)) then .next (arriveLater s (.sendArrival m) k)
  else
    let back := statusAt s m
    let from' := targetQuad s (s.quadOf m.sender) (capGid m.cap) (capSidx m.cap)
    let s := arrived s (.sendArrival m)
    let (s, status) :=
      if own then deliverCap s m.cap m.val m.rel
      else if s.lost.contains (capDev m.cap) then (s, 1)
      else (s.tick1, Config.freeNat s.free % 4)
    let s := if m.sender = 2 ^ 40 then s else sendLanded s m.sender own
    if m.status.isSome || (m.report && (status == 1 || status == 3)) then
      let ev := Instr.sendStatusReturn m.sender m.status m.report (BitVec.ofNat 8 status)
      .next (if own then (s.post back 2 ev).reply from' (s.quadOf m.sender) back (.step 2 ev) else s.post back 2 ev)
    else .next s

/-- SEND_STATUS_RETURN: sD of SEND.c, or SERR of an unconfirmed send (R198, R202). -/
def execSendStatusReturn (key : Nat) (d : Option SReg) (report : Bool) (st : BitVec 8) (s : State) : Out :=
  match d with
  | some d => .next (s.deliverS key d (st.setWidth 64))
  | none =>
      if report && (st == 1 || st == 3) then .next (s.modStrand key fun x => serrNote x (if st == 1 then 1 else 2))
      else .next s

/-- What the read of a strand's oldest SENDN on its way to a target acquires: what its PHASEs had ordered when it sent (R215). -/
def linkRel (s : State) (sender key : Nat) : Nat :=
  (((s.strand? sender).bind fun st => st.linkRels.find? fun p => p.1 == key).map fun p => p.2).getD 0

/-- That SENDN has arrived. -/
def linkDone (s : State) (sender key : Nat) : State :=
  s.modStrand sender fun st => { st with linkRels := st.linkRels.eraseP fun p => p.1 == key }

/-- SENDN_ARRIVAL (R200). -/
def execSendnArrival (key : Nat) (reg : Fin 32) (val : Item) (sender : Nat) (s : State) : Out :=
  let vec := match val with
    | .scalar _ => false
    | .vector _ => true
  let ev := Instr.sendnArrival key reg val sender
  if arrivalWaits s ev key vec reg then .next (arriveLater s ev key)
  else
    let rel := linkRel s sender key
    let s := sendLanded (linkDone (arrived s ev) sender key) sender true
    match s.strand? key with
    | some st => if st.act == .ended then .next s else .next (arrive s key vec reg val rel).1
    | none => .next s

/-- OVERWRITE: a pending one is taken before the next instruction, when that would issue, outside a handler, with every earlier result
there (R195, R329, R331, R332), in supervisor mode as the end of the grid (R335); not before a PREEMPT that has come to the strand
(R337). (DEDUCED, log entry 29.) -/
def execOverwrite (key : Nat) (s : State) : Out :=
  match s.strand? key, s.gang? (key / 256) with
  | some st, some g =>
      match st.ovw with
      | some o =>
          if st.act != .run || !g.issues || (!st.sup && st.ih) then .next s
          else if s.now < st.wake then .next (s.post st.wake 1 (.overwrite key))
          else if st.resume == .saving || owesResults s key then
            .next ((s.setStrand key { st with wake := s.now + 1 }).post (s.now + 1) 1 (.overwrite key))
          else
            let at' := (s.skipFill key st.pc).setWidth 64
            .next (takeTrap (s.setStrand key { st with ovw := none }) key at' cOVERWRITE 0 o.val)
      | none => .next s
  | _, _ => .next s

/-! ### Sending (R196, R198 to R201) -/

/-- The value of a send's data. -/
def sendVal (st : Strand) : SendVal → Item
  | .s r => .scalar (sreg st r)
  | .v r => .vector (vreg st r)
  | .imm i => .scalar (i.signExtend 64)
def SendVal.isVec : SendVal → Bool
  | .v _ => true
  | _ => false

/-- The sender's check (R196). -/
def capBad (s : State) (c : Word) (vec : Bool) : Bool :=
  bitsOf c.toNat 63 60 != 1 || bitsOf c.toNat 22 16 != 0 || capVec c != vec || !inDomain s (capDev c)

/-- The last cycle at which an earlier arrival of this strand reaches a target (R199). -/
def lastArrival (s : State) (sender target : Nat) : Nat :=
  s.agenda.foldl (fun m e => if arrivalPair e.ev == some (sender, target) then max m e.due else m) 0

/-- The cycle from which every earlier store of a strand is published and every earlier load has performed (R199).
(DEDUCED, log entry 42.) -/
def releaseCycle (s : State) (k : Nat) : Nat :=
  match s.strand? k with
  | some st => max s.now (max st.pubAt st.loadsAt)
  | none => s.now

/-- Posts the arrival of a send by the current strand. -/
def postSend (s : State) (own : Nat) (rel : Bool) (cap : Word) (v : Item) (d : Option SReg) : State :=
  let local' := capDev cap == s.dev.toNat
  let t := targetQuad s own (capGid cap) (capSidx cap)
  let start := if rel then releaseCycle s s.cur else s.now
  let h := hops own t
  let e := edges own t
  let one := if local' then 4 + 2 * h + 8 * e else 1 + Config.freeNat s.free % 1200
  let due := max (start + one) (lastArrival s s.cur (keyOf (capGid cap) (capSidx cap)))
  let k := keyOf (capGid cap) (capSidx cap)
  let m : SendMsg := { cap := cap, val := v, sender := s.cur, status := d, report := d.isNone,
                       back := start + if local' then 8 + 4 * h + 16 * e else 2 * one
                       rel := max (if rel then start else 0) (phaseRel s s.cur k), release := rel }
  let s := s.tick1.modCur fun st => if local' then { st with sends := st.sends + 1 } else { st with domSends := st.domSends + 1 }
  s.post due 2 (.sendArrival m)

/-- SEND. -/
def execSend (g : Guard) (rel : Bool) (a : SReg) (v : SendVal) (s : State) : Out :=
  issue (.send g rel a v) g (fun st gang _ s =>
    let cap := sreg st a
    if capBad s cap (SendVal.isVec v) then .trap cCAPABILITY 0 cap
    else .done (postSend s (gang.quadOf st.sidx) rel cap (sendVal st v) none)) s

/-- SEND.c. -/
def execSendC (g : Guard) (rel : Bool) (d a : SReg) (v : SendVal) (s : State) : Out :=
  issue (.sendC g rel d a v) g (fun st gang _ s =>
    let cap := sreg st a
    if capBad s cap (SendVal.isVec v) then .trap cCAPABILITY 0 cap
    else .done (postSend (s.awaitReg (.s d)) (gang.quadOf st.sidx) rel cap (sendVal st v) (some d))) s

/-- The strand a SENDN reaches: same core and slot of the neighbour, or the same slot of the next core (R200). -/
def neighbour (g : Gang) (sidx : Nat) (dir : Dir) : Option Nat :=
  let (q, c, sl) := g.place sidx
  let (x, y) := (quadX q - g.ox, quadY q - g.oy)
  let idx (x y c : Nat) : Option Nat :=
    if x < g.w && y < g.h then some ((y * g.w + x) * 4 * g.spc + c * g.spc + sl) else none
  match dir with
  | .n => if y = 0 then none else idx x (y - 1) c
  | .e => idx (x + 1) y c
  | .s => idx x (y + 1) c
  | .w => if x = 0 then none else idx (x - 1) y c
  | .q => idx x y ((c + 1) % 4)

def dirCode : Dir → Nat
  | .n => 0 | .e => 1 | .s => 2 | .w => 3 | .q => 4

/-- A lower core of the quad is ready to send over the same link in this cycle (R200). -/
def linkRival (s : State) (q core : Nat) (dir : Dir) : Bool :=
  yieldsTo s q core id fun i => match i with
    | .sendn _ d _ => d == dir
    | _ => false

/-- SENDN. -/
def execSendn (g : Guard) (dir : Dir) (r : SendnRegs) (s : State) : Out :=
  issue (.sendn g dir r) g (fun st gang _ s =>
    match neighbour gang st.sidx dir with
    | none => .trap cREMOTE 0 (BitVec.ofNat 64 (dirCode dir))
    | some t =>
        let (q, core, _) := gang.place st.sidx
        let x := s.quad q
        if s.now < (mget? x.links (dirCode dir)).getD 0 then .stall
        else if linkRival s q core dir then .yield
        else
          let (reg, v, l, busy) : Fin 32 × Item × Nat × Nat := match r with
            | .s d a => (d, .scalar (sreg st a), 2, 1)
            | .v d a => (d, .vector (vreg st a), 3, 2)
          let k := keyOf gang.gid t
          let due := max (s.now + l) (lastArrival s s.cur k)
          let rel := phaseRel s s.cur k
          let s := (s.setQuad q { x with links := mset x.links (dirCode dir) (s.now + busy) }).modCur fun st =>
            { st with sends := st.sends + 1, linkRels := st.linkRels ++ [(k, rel)] }
          .done (s.post due 2 (.sendnArrival k reg v s.cur))) s

/-- SENDM: an arrival at every member of the group (R201); STALE and BADREG members count in SERR as for SEND.
(DEDUCED, log entry 126; DESIGN CHOICE, log entry 136.) -/
def execSendm (g : Guard) (k : Fin 8) (a : SV) (s : State) : Out :=
  issue (.sendm g k a) g (fun st gang _ s =>
    let grp := gang.mcg[k.val]
    let (vec, v) : Bool × Item := match a with
      | .s r => (false, .scalar (sreg st r))
      | .v r => (true, .vector (vreg st r))
    if grp.members.isEmpty then .done s
    else if grp.vec != vec then .trap cCAPABILITY 0 (BitVec.ofNat 64 k.val)
    else .done (grp.members.foldl (fun s m =>
      let cap := regCap s.dev.toNat gang.gid m.1 vec m.2 gang.gen.toNat
      let h := hops (gang.quadOf st.sidx) (gang.quadOf m.1)
      let due := max (s.now + 6 + 2 * h) (lastArrival s s.cur (keyOf gang.gid m.1))
      (s.modCur fun st => { st with sends := st.sends + 1 }).post due 2 (.sendArrival
        { cap := cap, val := v, sender := s.cur, status := none, report := true, back := due,
          rel := phaseRel s s.cur (keyOf gang.gid m.1), tree := true })) s)) s

end Sys2Proof.Machine
end

