-- ==== Sys2Proof/Machine/Controllers.lean ====
section
/-! DEFINITION. Cluster controllers: timelines (R133 to R135), task queues and JOIN (R136 to R141), remote stores and atomics at
their banks (R175, R178), and LAUNCH (R120). -/

namespace Sys2Proof.Machine

/-! ### Distances -/

/-- One-way and round-trip cycles to a router (R135, R362). (DESIGN CHOICE, log entry 8.) -/
def oneWay (q t : Nat) : Nat := 2 + 2 * hops q t + 8 * edges q t
/-- Cycles of a round trip to a controller (R135). (DEDUCED, log entry 43.) -/
def roundTrip (q t : Nat) : Nat := 5 + 4 * hops q t + 16 * edges q t

/-- When the answer of a controller is back: at the cycle of an idle network, or a way back after an operation that came late (R373). -/
def backAt (s : State) (key t back : Nat) : Nat := max back (s.now + roundTrip (s.quadOf key) t - oneWay (s.quadOf key) t)

/-- The input port at which a message arrives on an idle mesh (R366): 0 N, 1 E, 2 S, 3 W, 4 local. -/
def inPort (q t : Nat) : Nat :=
  if quadX t < quadX q then (if quadY q < quadY t then 0 else if quadY t < quadY q then 2 else 1)
  else if quadX q < quadX t then (if quadY q < quadY t then 0 else 3)
  else if quadY q < quadY t then 0 else if quadY t < quadY q then 2 else 4

/-! ### Timelines -/

def tlHub (n : Nat) : Nat := hubOf (n / 128)
def tlNum (c : Word) : Nat := bitsOf c.toNat 56 45

/-- `tl_check` (R133, R135): the timeline that a capability names, when it is allocated in that generation. -/
def tlCheck (s : State) (c : Word) : Option Nat :=
  if bitsOf c.toNat 63 60 != 4 || bitsOf c.toNat 59 57 != s.dev.toNat || bitsOf c.toNat 44 16 != 0 then none
  else (mget? s.timelines (tlNum c)).bind fun t => if t.gen == some (c.setWidth 16) then some (tlNum c) else none

def tlVal (s : State) (n : Nat) : Word := ((mget? s.timelines n).map fun t => t.val).getD 0

/-- A strand asleep in TLWAIT gets the value and goes on 2h + 3 cycles later (R135). -/
def tlRelease (s : State) (n key : Nat) (val : Word) : State :=
  match (s.strand? key).bind Strand.sleep? with
  | some (.timeline d) =>
      let at' := s.now + 1 + oneWay (s.quadOf key) (tlHub n)
      (wakeStrand (s.deliverFrom (tlHub n) key at' (.s d val)) key at').acquireBy key s.now
  | _ => s

/-- Sets a timeline's value and releases every waiter that it satisfies (R134). -/
def tlSet (s : State) (n : Nat) (v : Word) : State :=
  match mget? s.timelines n with
  | some t =>
      let (go, stay) := t.waiters.partition fun w => !v.ult w.2
      let s := { s with timelines := mset s.timelines n { t with val := v, waiters := stay } }
      go.foldl (fun s w => tlRelease s n w.1 v) s
  | none => s

/-- Adds with saturation: the new value and whether it saturated. -/
def tlAdd (s : State) (n : Nat) (inc : Word) : State × Word × Bool :=
  let sum := (tlVal s n).toNat + inc.toNat
  let v : Word := if 2 ^ 64 ≤ sum then BitVec.allOnes 64 else BitVec.ofNat 64 sum
  (tlSet s n v, v, decide (2 ^ 64 ≤ sum))

def TlOp.num : TlOp → Nat
  | .sig n _ _ _ _ _ | .wait n _ _ _ | .rd n _ _ _ | .set n _ _ _ _ => n
def TlOp.key : TlOp → Nat
  | .sig _ _ k _ _ _ | .wait _ _ k _ | .rd _ k _ _ | .set _ _ k _ _ => k
def TlOp.isSet : TlOp → Bool
  | .set .. => true
  | _ => false

/-! ### Fields of a host command (R376) -/

def cmdOpc (c : HostCmd) : Nat := (c.bytes.extractLsb' 0 8).toNat
def cmdAsid (c : HostCmd) : BitVec 8 := c.bytes.extractLsb' 8 8
def cmdTag (c : HostCmd) : BitVec 32 := c.bytes.extractLsb' 32 32
def cmdA (c : HostCmd) : Word := c.bytes.extractLsb' 64 64
def cmdB (c : HostCmd) : Word := c.bytes.extractLsb' 128 64
def cmdBody (c : HostCmd) : BitVec 512 := c.bytes.extractLsb' 256 512
/-- Bytes 2 and 3, 24 to 31 and 96 to 127 are zero. -/
def cmdRsvZero (c : HostCmd) : Bool :=
  c.bytes.extractLsb' 16 16 == 0 && c.bytes.extractLsb' 192 64 == 0 && c.bytes.extractLsb' 768 256 == 0

/-- The command that a step brings. -/
def hostCmd? : Instr → Option HostCmd
  | .hostLaunch c | .hostTlsig c | .hostTlrd c | .cfgwr c | .cfgrd c | .hostHalt c | .hostRelease c | .hostEnd c | .flush c | .inval c =>
      some c
  | _ => none

/-! ### The order of operations of one cycle (R134) -/

/-- The timeline that a step acts on, whether it is a set, and the input port at which it reaches the controller; a host's port is
free. (DESIGN CHOICE, log entry 114.) -/
def tlPlace (s : State) (ev : Instr) : Option (Nat × Bool × Nat) :=
  match ev with
  | .timelineOperation o => some (TlOp.num o, TlOp.isSet o, inPort (s.quadOf (TlOp.key o)) (tlHub (TlOp.num o)))
  | .doneSignal _ cap _ => some (tlNum cap, false, inPort hub0 (tlHub (tlNum cap)))
  | ev =>
      (hostCmd? ev).bind fun c =>
        if cmdOpc c = 2 || cmdOpc c = 3 then
          some (tlNum (cmdA c), false, Config.freeNat (s.now * 2 ^ 64 + (cmdTag c).toNat) % 5)
        else none

/-- The port order of R134 puts another operation of this cycle on the same timeline first. -/
def tlYields (s : State) (ev : Instr) : Bool :=
  match tlPlace s ev with
  | some (n, set, port) =>
      s.agenda.any fun e => decide (e.due ≤ s.now) && (match tlPlace s e.ev with
        | some (n', set', port') => n' == n && set' == set && decide (port' < port)
        | none => false)
  | none => false

/-- TIMELINE_OPERATION. -/
def execTimelineOperation (op : TlOp) (s : State) : Out :=
  if tlYields s (.timelineOperation op) then .next (s.post s.now (if TlOp.isSet op then 1 else 2) (.timelineOperation op))
  else match op with
    | .sig n inc key d cap back =>
        let back := backAt s key (tlHub n) back
        let (s, v, sat) := tlAdd s n inc
        let owes := owesResults s key
        let s := s.deliverFrom (tlHub n) key back (.s d v)
        match s.strand? key with
        | some st =>
            match st.act with
            | .asleep .reply len =>
                if !sat then .next (wakeStrand s key back)
                else if owes then
                  .next ((s.setStrand key { st with act := .asleep (.saturated cap) len }).post (s.now + 1) 4 (.waittWake key))
                else .next ((takeTrap s key (st.pc.setWidth 64) cTIMELINE 0 cap).modStrand key fun st => { st with wake := back + 3 })
            | _ => .next s
        | none => .next s
    | .wait n th key d =>
        match (s.strand? key).bind Strand.sleep?, mget? s.timelines n with
        | some (.timeline d'), some t =>
            if d' != d then .next s
            else if !t.val.ult th then .next (tlRelease s n key t.val)
            else .next { s with timelines := mset s.timelines n { t with waiters := t.waiters ++ [(key, th)] } }
        | _, _ => .next s
    | .rd n key d back => .next (s.deliverFrom (tlHub n) key (backAt s key (tlHub n) back) (.s d (tlVal s n)))
    | .set n val key d back =>
        .next (tlSet (s.deliverFrom (tlHub n) key (backAt s key (tlHub n) back) (.s d (tlVal s n))) n val)

/-- Posts a timeline operation; a release starts when earlier accesses have landed (R135, R213). -/
def postTl (s : State) (q n : Nat) (op : Nat → TlOp) (rel : Bool) : State :=
  let start := if rel then releaseCycle s s.cur else s.now
  let o := op (start + roundTrip q (tlHub n))
  s.post (start + oneWay q (tlHub n)) (if TlOp.isSet o then 1 else 2) (.timelineOperation o)

/-- The check of a timeline capability before an instruction's effect. -/
def withTl (c : Word) (f : Nat → State → Res) (s : State) : Res :=
  match tlCheck s c with
  | none => .trap cCAPABILITY 0 c
  | some n => f n s

/-- TLSIG: the strand issues nothing until sD is written. -/
def execTlsig (g : Guard) (d a : SReg) (b : Src96) (s : State) : Out :=
  issue (.tlsig g d a b) g (fun st gang _ s =>
    let c := sreg st a
    let inc := match b with
      | .reg r => sreg st r
      | .imm i => i.setWidth 64
    withTl c (fun n s =>
      .hold ((postTl s (gang.quadOf st.sidx) n (fun back => .sig n inc s.cur d c back) true).sleepIn .reply
        (Instr.tlsig g d a b).len)) s) s

/-- TLWAIT. -/
def execTlwait (g : Guard) (d a : SReg) (b : Src128) (s : State) : Out :=
  issue (.tlwait g d a b) g (fun st gang _ s =>
    let th := match b with
      | .reg r => sreg st r
      | .imm i => i
    withTl (sreg st a) (fun n s =>
      .hold ((postTl s (gang.quadOf st.sidx) n (fun _ => .wait n th s.cur d) false).sleepIn (.timeline d)
        (Instr.tlwait g d a b).len)) s) s

/-- TLRD. -/
def execTlrd (g : Guard) (d a : SReg) (s : State) : Out :=
  issue (.tlrd g d a) g (fun st gang _ s =>
    withTl (sreg st a) (fun n s =>
      .done (postTl (s.awaitReg (.s d)) (gang.quadOf st.sidx) n (fun back => .rd n s.cur d back) false)) s) s

/-- TLRD.set. -/
def execTlrdSet (g : Guard) (d a b : SReg) (s : State) : Out :=
  issue (.tlrdSet g d a b) g (fun st gang _ s =>
    withTl (sreg st a) (fun n s =>
      .done (postTl (s.awaitReg (.s d)) (gang.quadOf st.sidx) n (fun back => .set n (sreg st b) s.cur d back) false)) s) s

/-! ### Task queues -/

def tqNum (c : Word) : Nat := bitsOf c.toNat 56 47
def tqHub (c : Word) : Nat := hubOf (tqNum c % 32)
/-- TYPE 3, the own device, zero reserved bits (R136). -/
def tqWord (s : State) (c : Word) : Bool :=
  bitsOf c.toNat 63 60 == 3 && bitsOf c.toNat 59 57 == s.dev.toNat && bitsOf c.toNat 46 16 == 0

/-- The queue of a capability in its generation. (DESIGN CHOICE, log entry 133.) -/
def queueOf (s : State) (c : Word) : Option Queue :=
  (mget? s.queues (tqNum c)).bind fun q => if q.gen == c.setWidth 16 then some q else none

def TqOp.key : TqOp → Nat
  | .push _ _ _ k _ _ | .joinPush _ _ _ k _ _ | .rsv _ _ k _ _ | .rel _ _ k _ _ | .pop _ k _ _ | .popTry _ k _ _ _ => k
def TqOp.cap : TqOp → Word
  | .push c _ _ _ _ _ | .joinPush c _ _ _ _ _ | .rsv c _ _ _ _ | .rel c _ _ _ _ | .pop c _ _ _ | .popTry c _ _ _ _ => c

/-- Permits that all gangs hold (R139); a live gang's stand under its id, which names its generation (R113). -/
def permitsHeld (q : Queue) : Nat := q.permits.foldl (fun a p => a + p.2) 0
def permitsOf (q : Queue) (gid : Nat) : Nat := (mget? q.permits gid).getD 0
def setPermits (q : Queue) (gid n : Nat) : Queue :=
  { q with permits := if n = 0 then merase q.permits gid else mset q.permits gid n }

def laneNat (r : List Lane) (i : Nat) : Nat := (r.getD i 0).toNat
/-- A 64-bit field of a record from lane `i` on (R137). -/
def recWord (r : List Lane) (i : Nat) : Nat := laneNat r i + 2 ^ 32 * laneNat r (i + 1)
def setRecWord (r : List Lane) (i n : Nat) : List Lane :=
  (r.set i (BitVec.ofNat 32 n)).set (i + 1) (BitVec.ofNat 32 (n / 2 ^ 32))

/-- A pop of the head record (R138): what it returns, and what stays at the head. -/
def popRecord (r : List Lane) : List Lane × Option (List Lane) :=
  let n := (recWord r 4 + 2 ^ 64 - recWord r 2) % 2 ^ 64
  let grain := recWord r 6
  if laneNat r 1 % 256 = 1 && grain != 0 && grain < n then
    let mid := (recWord r 2 + (n + 1) / 2) % 2 ^ 64
    (setRecWord r 4 mid, some (setRecWord r 2 mid))
  else (r, none)

/-- The register value of a popped record: lanes 8 to 31 zero. -/
def recVec (r : List Lane) : VVal := vmk fun i => if i < 8 then r.getD i 0 else 0

/-- Writes a status; a non-zero one also goes to SERR when sD is s0 (R140). -/
def tqStatus (s : State) (hub key at' : Nat) (d : SReg) (word : Word) (status : Nat) : State :=
  let s := s.deliverFrom hub key at' (.s d word)
  if d = 0 && status != 0 then s.modStrand key fun st => serrNote st (0x10 + status) else s

/-- Pops the head of a queue. -/
def popHead (q : Queue) : Option (List Lane × Queue) :=
  match q.recs with
  | r :: rest =>
      let (out, stay) := popRecord r
      some (out, { q with recs := stay.toList ++ rest })
  | [] => none

/-- Serves strands asleep in TQPOP, first come first served, 2h + 3 cycles after the push; the fuel counts them. -/
def serveQueue (n : Nat) : Nat → State → State
  | 0, s => s
  | fuel + 1, s =>
      match mget? s.queues n with
      | some q =>
          match q.sleepers with
          | k :: rest =>
              let s' := { s with queues := mset s.queues n { q with sleepers := rest } }
              match (s.strand? k).bind Strand.sleep? with
              | some (.queue d v) =>
                  match popHead q with
                  | some (r, q') =>
                      let hub := hubOf (n % 32)
                      let at' := s.now + 1 + oneWay (s.quadOf k) hub
                      let s := { s with queues := mset s.queues n { q' with sleepers := rest } }
                      let s := (s.deliverFrom hub k at' (.v v (BitVec.allOnes 32) (recVec r))).deliverFrom hub k at' (.s d 0)
                      serveQueue n fuel ((wakeStrand s k at').acquireBy k s.now)
                  | none => s
              | _ => serveQueue n fuel s'
          | [] => s
      | none => s

/-- Adds a record (R139): the status and the state. -/
def pushRecord (s : State) (cap : Word) (v : VVal) (permit : Bool) (gid : Nat) : Nat × State :=
  match queueOf s cap with
  | none => (2, s)
  | some q =>
      let r := (lanes v).take 8
      let put (q : Queue) : State :=
        let q := { q with recs := q.recs ++ [r] }
        serveQueue (tqNum cap) (q.sleepers.length + 1) { s with queues := mset s.queues (tqNum cap) q }
      if permit then
        if permitsOf q gid = 0 then (3, s) else (0, put (setPermits q gid (permitsOf q gid - 1)))
      else if q.recs.length + permitsHeld q < q.cap then (0, put q) else (1, s)

/-- TASK_QUEUE_OPERATION; permits for a gang that has ended return at once (R139). (DESIGN CHOICE, log entry 147.) -/
def execTaskQueueOperation (op : TqOp) (s : State) : Out :=
  match op with
  | .push cap rec permit key d back =>
      let back := backAt s key (tqHub cap) back
      let (st, s) := pushRecord s cap rec permit (key / 256)
      .next (tqStatus s (tqHub cap) key back d (BitVec.ofNat 64 st) st)
  | .joinPush cap rec permit key d back =>
      let back := backAt s key (tqHub cap) back
      let (st, s) := pushRecord s cap rec permit (key / 256)
      .next (tqStatus s (tqHub cap) key back d (if st = 0 then 1 else BitVec.ofNat 64 (8 + st)) st)
  | .rsv cap n key d back =>
      let back := backAt s key (tqHub cap) back
      match queueOf s cap with
      | none => .next (tqStatus s (tqHub cap) key back d 2 2)
      | some q =>
          if (s.strand? key).isNone then .next s
          else if q.recs.length + permitsHeld q + n.toNat ≤ q.cap then
            let q := setPermits q (key / 256) (permitsOf q (key / 256) + n.toNat)
            .next (tqStatus { s with queues := mset s.queues (tqNum cap) q } (tqHub cap) key back d 0 0)
          else .next (tqStatus s (tqHub cap) key back d 1 1)
  | .rel cap n key d back =>
      let back := backAt s key (tqHub cap) back
      match queueOf s cap with
      | none => .next (tqStatus s (tqHub cap) key back d 2 2)
      | some q =>
          let held := permitsOf q (key / 256)
          let st := if held < n.toNat then 4 else 0
          let q := setPermits q (key / 256) (held - n.toNat)
          .next (tqStatus { s with queues := mset s.queues (tqNum cap) q } (tqHub cap) key back d (BitVec.ofNat 64 st) st)
  | .pop cap key d v =>
      match (s.strand? key).bind Strand.sleep? with
      | some (.queue _ _) =>
          match queueOf s cap with
          | none =>
              let at' := s.now + 1 + oneWay (s.quadOf key) (tqHub cap)
              .next (wakeStrand (tqStatus s (tqHub cap) key at' d 2 2) key at')
          | some q =>
              let s := { s with queues := mset s.queues (tqNum cap) { q with sleepers := q.sleepers ++ [key] } }
              .next (serveQueue (tqNum cap) (q.sleepers.length + 1) s)
      | _ => .next s
  | .popTry cap key d v back =>
      let back := backAt s key (tqHub cap) back
      match queueOf s cap with
      | none => .next ((tqStatus s (tqHub cap) key back d 2 2).modStrand key fun st => { st with await := st.await.erase (.v v) })
      | some q =>
          match popHead q with
          | some (r, q') =>
              let s := { s with queues := mset s.queues (tqNum cap) q' }
              .next ((tqStatus (s.deliverFrom (tqHub cap) key back (.v v (BitVec.allOnes 32) (recVec r)))
                (tqHub cap) key back d 0 0).acquireBy key s.now)
          | none => .next ((tqStatus s (tqHub cap) key back d 5 5).modStrand key fun st => { st with await := st.await.erase (.v v) })

/-- The check of a queue capability, then what the issue does (`f`, with the cycle of the answer) and the posting of an operation. -/
def tqOp (st : Strand) (gang : Gang) (cap : Word) (rel : Bool) (op : Nat → TqOp) (f : Nat → State → State) (s : State) : Res :=
  if !tqWord s cap then .trap cCAPABILITY 0 cap
  else
    let q := gang.quadOf st.sidx
    let start := if rel then releaseCycle s s.cur else s.now
    let back := start + roundTrip q (tqHub cap)
    .done ((f back s).post (start + oneWay q (tqHub cap)) 2 (.taskQueueOperation (op back)))

/-- TQPUSH: a release at scope DEVICE. -/
def execTqpush (g : Guard) (d a : SReg) (b : VReg) (s : State) : Out :=
  issue (.tqpush g d a b) g (fun st gang _ s =>
    tqOp st gang (sreg st a) true (fun back => .push (sreg st a) (vreg st b) false s.cur d back) (fun _ s => s.awaitReg (.s d)) s) s
/-- TQPUSH.p. -/
def execTqpushP (g : Guard) (d a : SReg) (b : VReg) (s : State) : Out :=
  issue (.tqpushP g d a b) g (fun st gang _ s =>
    tqOp st gang (sreg st a) true (fun back => .push (sreg st a) (vreg st b) true s.cur d back) (fun _ s => s.awaitReg (.s d)) s) s
/-- TQPUSH.rsv. -/
def execTqpushRsv (g : Guard) (d a c : SReg) (s : State) : Out :=
  issue (.tqpushRsv g d a c) g (fun st gang _ s =>
    tqOp st gang (sreg st a) true (fun back => .rsv (sreg st a) (sreg st c) s.cur d back) (fun _ s => s.awaitReg (.s d)) s) s
/-- TQPUSH.rel. -/
def execTqpushRel (g : Guard) (d a c : SReg) (s : State) : Out :=
  issue (.tqpushRel g d a c) g (fun st gang _ s =>
    tqOp st gang (sreg st a) true (fun back => .rel (sreg st a) (sreg st c) s.cur d back) (fun _ s => s.awaitReg (.s d)) s) s
/-- TQPOP: the strand sleeps until a record is at the head. -/
def execTqpop (g : Guard) (d : SReg) (v : VReg) (a : SReg) (s : State) : Out :=
  issue (.tqpop g d v a) g (fun st gang _ s =>
    match tqOp st gang (sreg st a) false (fun _ => .pop (sreg st a) s.cur d v) (fun _ s => s) s with
    | .done s => .hold (s.sleepIn (.queue d v) (Instr.tqpop g d v a).len)
    | r => r) s
/-- TQPOP.try: an acquire when it returns a record; later memory operations wait until its result is there (R141, R213, R214). -/
def execTqpopTry (g : Guard) (d : SReg) (v : VReg) (a : SReg) (s : State) : Out :=
  issue (.tqpopTry g d v a) g (fun st gang _ s =>
    tqOp st gang (sreg st a) false (fun back => .popTry (sreg st a) s.cur d v back) (fun back s =>
      ((s.awaitReg (.s d)).awaitReg (.v v)).modCur fun st => { st with loadsAt := max st.loadsAt back, hold := max 1 st.hold }) s) s

/-! ### JOIN -/

/-- The counter update of JOIN at its bank: the new value. -/
def joinAt (s : State) (key : Nat) (l : Loc) : Word × State :=
  let n : Word := BitVec.ofNat 64 (natOf (spaceRead s key l 8)) - 1
  (n, spaceWrite s key l (bytesOf 8 n))

/-- The push of a JOIN whose counter reached 0, sent when the strand's core has the counter's value.
(DESIGN CHOICE, log entry 132.) -/
def joinPush (s : State) (key : Nat) (d : SReg) (cap : Word) (rec : VVal) (permit : Bool) (ready : Nat) : State :=
  let q := s.quadOf key
  s.post (ready + oneWay q (tqHub cap)) 2 (.taskQueueOperation (.joinPush cap rec permit key d (ready + roundTrip q (tqHub cap))))

/-- JOIN and JOIN.p: an atomic decrement, an acquire and release at scope DEVICE, then the push when it reaches 0. A queue capability
that is malformed traps before the decrement. (DESIGN CHOICE, log entry 115; DESIGN CHOICE, log entry 132.) -/
def joinOp (i : Instr) (permit : Bool) (g : Guard) (m : Mode) (d a b : SReg) (c : VReg) (s : State) : Out :=
  issue i g (fun st gang _ s =>
    let fa := sreg st a
    let cap := sreg st b
    match access s st gang fa m 8 true with
    | .error c => accTrap c fa
    | .ok l =>
        let own := gang.quadOf st.sidx
        if !tqWord s cap then .trap cCAPABILITY 0 cap
        else if !drained s.now st 2 || remoteFull st own l.quad then .stall
        else
          let s := s.acquired (if l.quad = own then s.now else s.now + bankDelay own l.quad)
          if l.quad = own then
            let (n, s) := joinAt s s.cur l
            if n ≠ 0 then .done (s.wrS 6 d 0)
            else .done (joinPush (s.awaitReg (.s d)) s.cur d cap (vreg st c) permit (s.now + 6))
          else
            let s := (s.awaitReg (.s d)).modCur fun st => { st with hold := max 2 st.hold }
            .done (sendRemote s own l (.join l s.cur d cap permit (vreg st c)
              (s.now + 8 + 4 * hops own l.quad + 16 * edges own l.quad)))) s

/-- JOIN. -/
def execJoin (g : Guard) (m : Mode) (d a b : SReg) (c : VReg) (s : State) : Out :=
  joinOp (.join g m d a b c) false g m d a b c s
/-- JOIN.p. -/
def execJoinP (g : Guard) (m : Mode) (d a b : SReg) (c : VReg) (s : State) : Out :=
  joinOp (.joinP g m d a b c) true g m d a b c s

/-! ### Remote stores and atomics at their banks (R175, R178) -/

/-- REMOTE_STORE_PUBLISH. -/
def execRemoteStorePublish (w : RemoteWrite) (s : State) : Out :=
  match w with
  | .st loc n val key => .next (spaceWrite s key loc (bytesOf n val))
  | .stv loc mask val key => .next (storeLanes s key loc mask val)
  | .amo loc n op val key d ready =>
      let (old, s) := amoAt s key loc n op val
      .next (atomicBack s key loc ready d old)
  | .cas loc n old new key d ready =>
      let (x, s) := casAt s key loc n old new
      .next (atomicBack s key loc ready d x)
  | .join loc key d queue permit rec ready =>
      let (n, s) := joinAt s key loc
      let own := s.quadOf key
      let ready := lateReady s key loc (8 + 4 * hops own loc.quad + 16 * edges own loc.quad) ready
      if n ≠ 0 then .next (s.deliverFrom loc.quad key ready (.s d 0)) else .next (joinPush s key d queue rec permit ready)

/-! ### LAUNCH (R120) -/

/-- LAUNCH: the record is read at issue, accepted h + 80 cycles later. -/
def execLaunch (g : Guard) (m : Mode) (d a : SReg) (s : State) : Out :=
  issue (.launch g m d a) g (fun st gang _ s =>
    let fa := sreg st a
    match resolve s st gang fa m false with
    | .error c => accTrap c fa
    | .ok l =>
        if l.space ≠ 0 then accTrap cREMOTE fa
        else if regionBad s st.sup l.quad l.off then accTrap cPROTECT fa
        else if fa.toNat % 64 ≠ 0 then accTrap cALIGN fa
        else
          let h := hops (gang.quadOf st.sidx) hub0
          let start := releaseCycle s s.cur
          let bytes := lsRead s .core (.strand s.cur) l.quad l.off 64
          .done ((s.awaitReg (.s d)).post (start + h + 80) 2 (.launchAccept
            (.strand s.cur d (start + 2 * h + 160)) (BitVec.ofNat 8 (s.asidOf st.gid)) (BitVec.ofNat 512 (natOf bytes))))) s

end Sys2Proof.Machine
end

