-- ==== Sys2Proof/Machine/Copy.lean ====
section
/-! DEFINITION. Quad copy engines: COPY, promises, WAITT, TESTC, COPYST, PFETCH, TLBINV (R182 to R188, R350 to R353). -/

namespace Sys2Proof.Machine

/-! ### Lines of a copy (R183, R186) -/

/-- A row in pieces that lie in one 64-byte line each: (line, offset in it, local offset, bytes). -/
def splitRow : Nat → Nat → Nat → Nat → List (Nat × Nat × Nat × Nat)
  | 0, _, _, _ => []
  | fuel + 1, va, off, n =>
      if n = 0 then []
      else let k := min n (64 - va % 64); (va / 64, va % 64, off, k) :: splitRow fuel (va + k) (off + k) (n - k)

/-- The pieces of a copy in row order; an address outside 0 to 2^52 - 1 counts as the line at 2^52 (R347). -/
def copyPieces (y : Copy) : List (Nat × Nat × Nat × Nat) :=
  (List.range y.rows).flatMap fun (r : Nat) =>
    let v : Int := y.ga.toNat + (r : Int) * y.gstr
    splitRow (y.rowb / 64 + 2) (if v < 0 then 2 ^ 52 else min v.toNat (2 ^ 52)) (y.la + r * y.lstr) y.rowb

/-- A piece joins the line it lies in. -/
def addPiece (acc : List (Nat × List (Nat × Nat × Nat))) (p : Nat × Nat × Nat × Nat) : List (Nat × List (Nat × Nat × Nat)) :=
  match acc with
  | (k, ps) :: t =>
      if k = p.1 then (k, ps ++ [p.2]) :: t
      else if t.any fun x => x.1 == p.1 then (k, ps) :: t.map fun x => if x.1 = p.1 then (x.1, x.2 ++ [p.2]) else x
      else (p.1, [p.2]) :: (k, ps) :: t
  | [] => [(p.1, [p.2])]

/-- The distinct global lines of a copy, in order (R186). -/
def copyLines (y : Copy) : List (Nat × List (Nat × Nat × Nat)) := ((copyPieces y).foldl addPiece []).reverse

/-- Distinct pages of a list of lines. -/
def linePages (ls : List (Nat × List (Nat × Nat × Nat))) : List Nat := (ls.map fun l => l.1 / 1024).eraseDups

/-! ### Translation of a copy's pages (R185) -/

/-- Results of translating pages in order: the misses so far, and each page with its translation and the misses up to it. -/
structure Xlate where
  s : State
  miss : Nat
  res : List (Nat × Option (Trans × Nat))
  absent : Bool

def Target.add (t : Target) (o : Nat) : Target :=
  match t with
  | .hbm pa => .hbm (pa + o)
  | .host ep a tso => .host ep (a + o) tso
  | .page pte off => .page pte (off + o)
def Target.isHost : Target → Bool
  | .host _ _ _ => true
  | _ => false
def Target.isTso : Target → Bool
  | .host _ _ tso => tso
  | _ => false

/-- L0 of R186: die edges to the stacks of the lines, or 3,000 for host-remote pages; a line whose page does not translate counts as
one in HBM. (DEDUCED, log entry 13.) -/
def copyL0 (q : Nat) (ls : List (Nat × Option Target)) : Nat :=
  ls.foldl (fun m l => max m (if l.2.any Target.isHost then 3000 else 100 + 16 * dieEdges (dieOf q) (l.1 * 64 / 4096 % 8 / 2))) 0

/-- Lines that take a cycle of the engine each. -/
def lineCount (ls : List Line) : Nat := (ls.filter fun l => !l.ride).length

/-- Lines of a copy or put not yet moved: a put's, until its bytes are written at its window (R186). -/
def Copy.unmoved (c : Copy) : Nat := if c.st.settled then 0 else lineCount c.lines + lineCount c.cut + c.sent

/-- Lines of a copy or put not yet moved, one that is still being translated among them (R187). -/
def Copy.left (c : Copy) : Nat := if c.st == .issued then (copyLines c).length else c.unmoved

/-- A copy or put comes before another in its quad: accepted earlier, or issued earlier when neither is accepted (R186). -/
def Copy.earlier (c y : Copy) : Bool :=
  if y.st == .issued then c.st != .issued || decide (c.uid < y.uid) else c.st != .issued && decide (c.op < y.op)

/-- Lines of a quad's copies and puts not yet moved; of one whose translation is under way, none. (DESIGN CHOICE, log entry 134.) -/
def unmoved (x : Quad) : Nat := x.copies.foldl (fun a c => a + c.2.unmoved) 0

/-! ### Issue (R182 to R184) -/

/-- The next ticket in rotation: it skips those outstanding (R184). -/
def nextTicket (x : Quad) : Nat :=
  let busy (t : Nat) := ((mget? x.copies t).map fun c => !c.st.settled).getD false
  (((List.range 255).map fun i => (x.nextTicket - 1 + i) % 255 + 1).find? fun t => !busy t).getD 1

/-- Copies and window puts outstanding. -/
def outstanding (x : Quad) : Nat := (x.copies.filter fun c => !c.2.st.settled).length

/-- Registers a copy under its ticket and its number, and posts the start of its translation, or its acceptance, for `a`. -/
def startCopy (s : State) (eng : Nat) (y : Copy) (a : Nat) : State :=
  let x := s.quad eng
  let t := nextTicket x
  let n := s.opSeq + 1
  ({ s with opSeq := n }.setQuad eng
    { x with copies := mset x.copies t { y with uid := n }, nextTicket := t % 255 + 1 }).post a 2 (.copyAccept eng t)

/-- The region of R29 that an offset lies in. -/
def region (s : State) (q off : Nat) : Nat :=
  if off < 4096 * (s.quad q).xbp.toNat then 0 else if off < Config.sysBase then 1 else 2

/-- The first of several values that is no multiple of 4. -/
def firstOdd (l : List Word) : Option Word := l.find? fun v => v.toNat % 4 != 0

def strideG (c : Word) : Int := sext (bitsOf c.toNat 63 32) 32
def strideL (c : Word) : Nat := bitsOf c.toNat 31 0

/-- The local checks of R183: the first local byte, or a cause with its TVAL; what R26 gives comes before REMOTE of another space.
(DEDUCED, log entry 116.) -/
def copyChecks (s : State) (st : Strand) (g : Gang) (m : Mode) (wr : Bool) (fa : Word) (aligned : List Word) (extent : Nat) :
    Except (Nat × Word) Loc :=
  match resolve s st g fa m wr with
  | .error c => .error (c, fa)
  | .ok l =>
      let reg := region s l.quad l.off
      if l.space ≠ 0 then .error (cREMOTE, fa)
      else if !st.sup && reg != 1 then .error (cPROTECT, fa)
      else match firstOdd aligned with
        | some v => .error (cALIGN, v)
        | none =>
            let last := l.off + extent - 1
            if 2 ^ 20 ≤ last || region s l.quad last != reg then .error (cPROTECT, fa) else .ok l

/-- The copy that an instruction starts. -/
def newCopy (kind : CopyKind) (st : Strand) (g : Gang) (asid : Nat) (l : Loc) (lstr : Nat) (ga : Word) (gstr : Int)
    (rowb rows : Nat) (d : SReg) : Copy where
  uid := 0
  kind := kind
  key := st.key
  gid := st.gid
  gen := g.gen
  asid := asid
  quad := l.quad
  la := l.off
  lstr := lstr
  ga := ga
  gstr := gstr
  rowb := rowb
  rows := rows
  d := d
  st := .issued
  promise := 0
  l0 := 0
  lines := []
  pages := []
  pins := []
  trans := []
  waited := false
  done := 0
  op := 0
  buf := []
  bound := 0
  held := []
  sent := 0
  cut := []
  xl := []
  walking := false
  carried := false

/-- COPY (R182, R183). -/
def copyOp (i : Instr) (out : Bool) (g : Guard) (m : Mode) (d a b c : SReg) (rowb : BitVec 32) (rows : BitVec 20) (s : State) : Out :=
  issue i g (fun st gang _ s =>
    let fa := sreg st a
    let ga := sreg st b
    let n := rows.toNat
    let gs := if n = 1 then 0 else strideG (sreg st c)
    let ls := if n = 1 then 0 else strideL (sreg st c)
    match copyChecks s st gang m (!out) fa [fa, ga, BitVec.ofInt 64 gs, BitVec.ofNat 64 ls] ((n - 1) * ls + rowb.toNat) with
    | .error (c, v) => .trap c 0 v
    | .ok l =>
        let eng := gang.quadOf st.sidx
        if 16 ≤ outstanding (s.quad eng) then .stall
        else
          let y := newCopy (if out then .copyOut else .copyIn) st gang (s.asidOf st.gid) l ls ga gs rowb.toNat n d
          .done (startCopy (s.awaitReg (.s d)) eng y (s.now + 4))) s

/-- COPY.in: global to local. -/
def execCopyIn (g : Guard) (m : Mode) (d a b c : SReg) (rowb : BitVec 32) (rows : BitVec 20) (s : State) : Out :=
  copyOp (.copyIn g m d a b c rowb rows) false g m d a b c rowb rows s
/-- COPY.out: local to global. -/
def execCopyOut (g : Guard) (m : Mode) (d a b c : SReg) (rowb : BitVec 32) (rows : BitVec 20) (s : State) : Out :=
  copyOp (.copyOut g m d a b c rowb rows) true g m d a b c rowb rows s

/-! ### Settling -/

def modCopy (s : State) (q t : Nat) (f : Copy → Copy) : State :=
  s.modQuad q fun x => match mget? x.copies t with
    | some y => { x with copies := mset x.copies t (f y) }
    | none => x

/-- The firmware's return to a pc (R334), for a strand that runs or that a save has overtaken. -/
def fwReturn (st : Strand) (target : Word) (wake : Nat) : Strand :=
  match st.act with
  | .saving =>
      { st with tpc := st.stpc, tcause := st.scause, tval := st.sval, resume := .run
                tstat := setField (setField st.tstat 63 44 target.toNat) 9 9 (st.tstat.toNat % 2) }
  | _ => supReturn st target wake

/-- The ticket of the copy that a strand's firmware sleeps for: R336 LATE, R81 overlay. -/
def Strand.awaited (st : Strand) : Option Nat :=
  match st.sleep? with
  | some (.late p) => some (p.toNat % 256)
  | some (.overlay t) => some t
  | _ => none

/-- Whether the copy that a strand's firmware sleeps for is complete, none while it is outstanding. -/
def awaitedOk (s : State) (k t : Nat) : Option Bool :=
  match mget? (s.quad (s.quadOf k)).copies t with
  | some y => if y.gid == k / 256 && !y.st.settled then none else some (y.st == .complete)
  | none => some true

/-- The firmware of a strand whose copy has settled returns, with the figures of R391, or takes the OVERWRITE that is pending, in supervisor
mode (R195, R335); in a halted gang it does so when the gang is released (R171). -/
def finishWait (s : State) (k : Nat) : State :=
  match s.strand? k, (s.gang? (k / 256)).any fun g => g.halted with
  | some st, false =>
      match st.awaited.bind (awaitedOk s k) with
      | some ok =>
          if st.ovw.isSome then
            match st.act with
            | .asleep _ _ => postOverwrite (s.setStrand k { st with act := .run, wake := s.now }) k
            | _ => s
          else
          let late := match st.sleep? with
            | some (.late _) => true
            | _ => false
          let st := if late then st else regWrite (settle st s.now) (.s 1 (if ok then 0 else 2))
          postOverwrite ((freshCode s k).setStrand k (fwReturn st st.tpc (s.now + if late then 5 else 40))) k
      | none => s
  | _, _ => s

/-- Wakes the firmware of strands that wait for a copy that has settled. -/
def wakeCopyWaiters (s : State) (q t : Nat) : State :=
  let gid := (mget? (s.quad q).copies t).map fun y => y.gid
  (s.strands.filter fun p => s.quadOf p.1 == q && gid == some p.2.gid && p.2.awaited == some t).foldl (fun s p => finishWait s p.1) s

/-- Invalidations that waited for a copy are looked at again (R352); so is a gang's drain (R338). -/
def afterSettle (s : State) (q : Nat) : State :=
  let s := recheckInvals s
  match s.holder q with
  | some g => if g.phase == .drain then s.post s.now 2 (.drainComplete g.gid) else s
  | none => s

/-! ### The order of line moves (R186, R217, R218) -/

/-- A line can move now: its page is in. -/
def lineReady (s : State) (l : Line) : Bool := l.tgt.isHost || (s.paOf l.tgt).isSome

/-- Lines of a copy that can move now. -/
def readyLines (s : State) (c : Copy) : Nat := lineCount (c.lines.filter (lineReady s))

/-- Copies and puts of a quad with lines to move, by their tickets. -/
def moving (x : Quad) : SMap Copy := x.copies.filter fun c => c.2.st == .flight && !c.2.lines.isEmpty

/-- Faulted copies whose bytes wait for the lines of the copies accepted before them, and wait no longer (R218). -/
def faultedNow (x : Quad) : SMap Copy :=
  x.copies.filter fun c => c.2.st == .faulted && !c.2.lines.isEmpty && (moving x).all fun d => decide (c.2.op < d.2.op)

/-- The one accepted first. -/
def headCopy (x : Quad) : Option (Nat × Copy) :=
  (moving x).foldl (fun b c => match b with
    | some y => if c.2.op < y.2.op then some c else b
    | none => some c) none

/-- Cycles that the engine may still wait so that every copy moves its lines by its bound. (DESIGN CHOICE, log entry 12.) -/
def slack (s : State) (x : Quad) : Nat :=
  (moving x).foldl (fun m c =>
    min m (c.2.bound - (s.now + (moving x).foldl (fun a d => if d.2.op ≤ c.2.op then a + readyLines s d.2 else a) 0))) (2 ^ 64)

/-- The engine's next line move: one line per cycle in acceptance order, at a free cycle within the bounds (R186).
(DESIGN CHOICE, log entry 12.) -/
def startMoves (s : State) (q : Nat) : State :=
  let x := s.quad q
  let s := (faultedNow x).foldl (fun s c => s.post s.now 2 (.copyComplete q c.1 false)) s
  match headCopy x with
  | none => s.setQuad q { x with lineAt := 0 }
  | some (t, _) =>
      let room := slack s x
      if x.lineAt ≤ s.now || s.now + 1 + room < x.lineAt then
        let at' := s.now + 1 + Config.freeNat s.free % (room + 1)
        ((s.tick1).setQuad q { x with lineAt := at' }).post at' 2 (.lineMove q t)
      else s

/-- Dies that a packet for a die may go to from another: west first (R366). -/
def nextDies (d t : Nat) : List Nat :=
  if t % 2 < d % 2 then [d - 1]
  else (if t / 2 < d / 2 then [d - 2] else []) ++ (if d % 2 < t % 2 then [d + 1] else []) ++ (if d / 2 < t / 2 then [d + 2] else [])

/-- Some route from die to die avoids the stopped links between dies. -/
def dieReach (stopped : List Nat) (d t : Nat) : Bool :=
  let next (a : Nat) : List Nat := (nextDies a t).filter fun b => !stopped.contains (2 ^ 20 + 4 * min a b + max a b)
  d == t || (next d).any fun a => a == t || (next a).contains t

/-- The die of the stack that holds a byte of HBM, by its address in the page (R12). -/
def Target.die? : Target → Option Nat
  | .hbm pa => some (pa / 4096 % 8 / 2)
  | .page _ off => some (off / 4096 % 8 / 2)
  | .host _ _ _ => none

/-- A line is cut off from its quad: its request or its answer crosses a stopped link between dies on every route (R373). -/
def lineCut (s : State) (q : Nat) (l : Line) : Bool :=
  l.tgt.die?.any fun d => !(dieReach s.stopped (dieOf q) d && dieReach s.stopped d (dieOf q))

/-- A copy of which a line is cut off never completes: none of its lines move any more. -/
def Copy.afterStop (s : State) (q : Nat) (y : Copy) : Copy :=
  if !s.stopped.isEmpty && y.lines.any (lineCut s q) then { y with lines := [], cut := y.cut ++ y.lines } else y

/-- The copies of every quad after a link has stopped. -/
def cutCopies (s : State) : State :=
  { s with quads := s.quads.map fun (q, x) => (q, { x with copies := x.copies.map fun (t, y) =>
      (t, match y.kind with
        | .put _ _ _ => y
        | _ => if y.st.settled then y else y.afterStop s q) }) }

/-- Copies of the quads of some dies move their lines later, for a link of theirs sends a flit again (R373).
(DESIGN CHOICE, log entry 82.) -/
def lateCopies (s : State) (dies : List Nat) (n : Nat) : State :=
  { s with quads := s.quads.map fun (q, x) =>
      (q, if dies.contains (dieOf q) then { x with copies := x.copies.map fun (t, y) =>
            (t, if y.st == .flight then { y with bound := y.bound + n } else y) }
          else x) }

/-- A copy has lines that can move from now on, by a bound that counts its L0 and the lines before it. -/
def goOn (s : State) (q t : Nat) : State :=
  let n := unmoved (s.quad q)
  startMoves (modCopy s q t fun c => ({ c with st := .flight, bound := s.now + c.l0 + n } : Copy).afterStop s q) q

/-- A copy completes or faults: its slot and pins are free, and who waits goes on. -/
def settleCopy (s : State) (q t : Nat) (ok : Bool) : State :=
  let s := modCopy s q t fun y =>
    { y with st := if ok then .complete else .faulted, done := s.now, lines := [], pages := [], held := [], sent := 0, cut := [] }
  startMoves (afterSettle (wakeCopyWaiters s q t) q) q

/-! ### Moving lines (R186, R216 to R219) -/

/-- PHASE.system flushes an endpoint that a copy of the gang's quad has written (R219). -/
def noteFlush (s : State) (q : Nat) (y : Copy) (t : Target) : State :=
  match t with
  | .host ep _ _ =>
      { s with strands := s.strands.map fun (k, st) =>
          if s.quadOf k == q && st.gid == y.gid && !st.flushes.contains ep then (k, { st with flushes := ep :: st.flushes }) else (k, st) }
  | _ => s

/-- Lines still to move reach a 32-byte block of the local store. -/
def blockOpen (rest : List Line) (b : Nat) : Bool :=
  rest.any fun l => l.pieces.any fun (_, o, n) => decide (o < 32 * b + 32) && decide (32 * b < o + n)

/-- Moves one piece; bytes of a code block that lines still to move reach are held, so that the block is written whole (R32), and
uncorrectable data does not move (R383). -/
def movePiece (s : State) (q t : Nat) (y : Copy) (rest : List Line) (tgt : Target) (p : Nat × Nat × Nat) : State :=
  let (o, off, n) := p
  match s.badAt (tgt.add o) n (y.kind == .copyOut) with
  | some l => badData s y.gid y.quad l
  | none =>
  match y.kind with
  | .copyIn | .overlay =>
      match s.readTarget (tgt.add o) n with
      | some bs =>
          if off < 4096 * (s.quad y.quad).xbp.toNat && (List.range n).any fun i => blockOpen rest ((off + i) / 32) then
            modCopy s q t fun c => { c with held := c.held ++ (List.range n).map fun i => (off + i, bs.getD i 0) }
          else lsWrite s .copy y.op y.quad off bs
      | none => s
  | .copyOut => s.writeTarget (tgt.add o) (lsRead s .copy (.op y.op) y.quad off n)
  | .put _ _ _ => s

/-- Writes the held bytes of the code blocks that no line still to move reaches. -/
def flushHeld (s : State) (q t : Nat) (rest : List Line) : State :=
  match mget? (s.quad q).copies t with
  | some y =>
      let (stay, go) := y.held.partition fun p => blockOpen rest (p.1 / 32)
      go.foldl (fun s p => lsWrite s .copy y.op y.quad p.1 [p.2]) (modCopy s q t fun c => { c with held := stay })
  | none => s

/-- Moves the pieces of one line; `rest` are the lines that the copy has still to move. -/
def moveLine (s : State) (q t : Nat) (y : Copy) (rest : List Line) (l : Line) : State :=
  let s := if y.kind == .copyOut then noteFlush s q y l.tgt else s
  flushHeld (l.pieces.foldl (fun s p => movePiece s q t y rest l.tgt p) s) q t rest

/-- A line reaches into HBM that does not exist (R20). -/
def lineAbsent (s : State) (l : Line) : Bool := l.pieces.any fun (o, _, n) => s.absentAt (l.tgt.add o) n

/-- Which line moves next: the lines of host-TSO copies in order, any other by a free choice (R217, R218).
(DESIGN CHOICE, log entry 12.) -/
def nextLine (s : State) (y : Copy) : Option Nat :=
  let ready := (List.range y.lines.length).filter fun i => ((y.lines[i]?).map (lineReady s)).getD false
  if ready.length ≤ 1 || y.lines.any fun l => l.tgt.isTso then ready.head?
  else ready[Config.freeNat s.free % max 1 ready.length]?

/-- The lines at the front that ride with the one before them, and the rest. -/
def takeRiders (s : State) : List Line → List Line × List Line
  | l :: t => if l.ride && lineReady s l then ((l :: (takeRiders s t).1), (takeRiders s t).2) else ([], l :: t)
  | [] => ([], [])

/-- The cycle by which the answer to a put that was accepted at `promise` is back (R204). -/
def putBound (y : Copy) : Nat := y.promise + 2400 + (y.rowb + 127) / 128

/-- The next line of a put is read; with the last one the put leaves the device. -/
def movePut (s : State) (quad ticket : Nat) (y : Copy) (cap off : Word) (k : Fin 4) : State :=
  match y.lines with
  | l :: rest =>
      let bs := l.pieces.flatMap fun (_, o, n) => lsRead s .copy (.op y.op) y.quad o n
      let y := { y with buf := y.buf ++ bs, lines := rest, sent := y.sent + 1 }
      let s := (modCopy s quad ticket fun _ => y).tick1
      startMoves (if rest.isEmpty then
        s.postIn (1 + Config.freeNat s.free % max 1 (putBound y - s.now - y.sent - 1)) (.wputRemoteWrite
          { cap := cap, off := off, bytes := y.buf, key := y.key, k := k, quad := quad, ticket := ticket })
        else s) quad
  | [] => s

/-! ### Faulted copies (R81, R183, R210, R218) -/

/-- The aligned 4-byte words of a piece: (offset in the line, local offset). -/
def pieceWords (p : Nat × Nat × Nat) : List (Nat × Nat) := (List.range (p.2.2 / 4)).map fun i => (p.1 + 4 * i, p.2.1 + 4 * i)

/-- One word of a faulted copy's ranges is old or new by a free choice (R183, R210); code goes by blocks. -/
def faultWord (s : State) (y : Copy) (t : Target) (off : Nat) : State :=
  let s' := s.tick1
  if !Config.freeBool s.free then s'
  else match y.kind with
    | .copyOut => if (s.badAt t 4 true).isSome then s' else s'.writeTarget t (lsRead s .copy (.op y.op) y.quad off 4)
    | .put _ _ _ => s'
    | _ =>
        if off < 4096 * (s.quad y.quad).xbp.toNat then s'
        else match s.badAt t 4 false, s.readTarget t 4 with
          | none, some bs => lsWrite s' .copy y.op y.quad off bs
          | _, _ => s'

/-- The bytes of code that a faulted copy still holds or can read, by local offset. -/
def codeBytes (s : State) (y : Copy) (ls : List Line) : List (Nat × Byte) :=
  let top := 4096 * (s.quad y.quad).xbp.toNat
  y.held ++ ls.flatMap fun l => l.pieces.flatMap fun (o, off, n) =>
    if top ≤ off then []
    else match s.badAt (l.tgt.add o) n false, s.readTarget (l.tgt.add o) n with
      | none, some bs => ((List.range n).map fun i => (off + i, bs.getD i 0)).filter fun p => decide (p.1 < top)
      | _, _ => []

/-- A 32-byte block of code is wholly old or wholly new, by a free choice where the copy has all that it brings to it (R32, R81). -/
def faultCode (s : State) (y : Copy) (ls : List Line) : State :=
  let bs := codeBytes s y ls
  ((bs.map fun p => p.1 / 32).eraseDups).foldl (fun s b =>
    let s' := s.tick1
    let bs := bs.filter fun x => x.1 / 32 == b
    let all := ((copyPieces y).filter fun p => p.2.2.1 / 32 ≤ b && 32 * b < p.2.2.1 + p.2.2.2).all fun p =>
      (List.range p.2.2.2).all fun i => (p.2.2.1 + i) / 32 != b || bs.any fun x => x.1 == p.2.2.1 + i
    if all && Config.freeBool s.free then bs.foldl (fun s x => lsWrite s .copy y.op y.quad x.1 [x.2]) s' else s') s

/-- The bytes of a faulted copy's ranges: old and new by a free choice for every word, and block of code, that the copy could reach (R81,
R183, R210). -/
def faultBytes (s : State) (q : Nat) (y : Copy) (ls : List Line) : State :=
  let ls := ls.filter fun l => !lineAbsent s l
  let s := ls.foldl (fun s l =>
    let s := if y.kind == .copyOut then noteFlush s q y l.tgt else s
    l.pieces.foldl (fun s p => (pieceWords p).foldl (fun s w => faultWord s y (l.tgt.add w.1) w.2) s) s) s
  if y.kind == .copyIn || y.kind == .overlay then faultCode s y ls else s

/-- A copy faults with lines that it has not moved. Those of a copy to host-TSO pages wait for the copies accepted before it (R218). -/
def faultCopy (s : State) (q t : Nat) (y : Copy) (ls : List Line) : State :=
  if y.kind == .copyOut && ls.any fun l => l.tgt.isTso then
    startMoves (modCopy (settleCopy s q t false) q t fun c => { c with lines := ls }) q
  else settleCopy (faultBytes s q y ls) q t false

/-- A line meets uncorrectable data of HBM (R383). -/
def lineBad (s : State) (y : Copy) (l : Line) : Bool := l.pieces.any fun (o, _, n) => (s.badAt (l.tgt.add o) n (y.kind == .copyOut)).isSome

/-- The next line of a copy is moved, with those that ride with it; a copy none of whose lines can move waits on storage, and an overlay
that meets uncorrectable data faults (R81). -/
def moveCopy (s : State) (quad ticket : Nat) (y : Copy) : Out :=
  match (nextLine s y).map fun i => (y.lines.take i, y.lines.drop i) with
  | some (before, l :: after) =>
      let (riders, behind) := takeRiders s after
      let rest := before ++ behind
      if (l :: riders).any (lineAbsent s) then .fault .absentMemory
      else if y.kind == .overlay && (l :: riders).any (lineBad s y) then .next (faultCopy s quad ticket y y.lines)
      else
        let s := (l :: riders).foldl (fun s l => moveLine s quad ticket y rest l) s
        let s := (modCopy s quad ticket fun y => { y with lines := rest }).tick1
        .next (startMoves (if rest.isEmpty then s.post (if y.waited then max s.now y.promise else s.now) 2 (.copyComplete quad ticket true)
          else s) quad)
  | _ => .next (startMoves (afterSettle (modCopy s quad ticket fun y => { y with st := .storage }) quad) quad)

/-- LINE_MOVE: the engine's move of this cycle, for the copy accepted first. (DESIGN CHOICE, log entry 12.) -/
def execLineMove (quad ticket : Nat) (s : State) : Out :=
  let x := s.quad quad
  if x.lineAt ≠ s.now then .next s
  else match headCopy x with
    | some (t, y) =>
        if t ≠ ticket then .next (s.post s.now 2 (.lineMove quad t))
        else match y.kind with
          | .put cap off k => .next (movePut s quad ticket y cap off k)
          | _ => moveCopy (s.setQuad quad { x with movedAt := s.now + 1 }) quad ticket y
    | none => .next (s.setQuad quad { x with lineAt := 0 })

/-- The first bytes of lines in row order, as many as `n`, are written; what is left of `n`. -/
def writeRows (s : State) (y : Copy) (n : Nat) (ls : List Line) : State × Nat :=
  ls.foldl (fun (s, n) l => l.pieces.foldl (fun (s, n) (o, off, k) =>
    (s.writeTarget (l.tgt.add o) (lsRead s .copy (.op y.op) y.quad off (min n k)), n - min n k)) (s, n)) (s, n)

/-- A faulted copy to host-TSO pages stops at a free word: those before it in row order are written, behind the lines of the copies
accepted before it (R183, R218). (DESIGN CHOICE, log entry 12.) -/
def writeFaulted (s : State) (q t : Nat) (y : Copy) : State :=
  let n := y.lines.foldl (fun a l => l.pieces.foldl (fun a p => a + p.2.2) a) 0
  let s := y.lines.foldl (fun s l => noteFlush s q y l.tgt) s
  let ls := y.lines.filter fun l => !lineAbsent s l
  modCopy (writeRows s.tick1 y (4 * (Config.freeNat s.free % (n / 4 + 1))) ls).1 q t fun c => { c with lines := [] }

/-- COPY_COMPLETE: the copy completes, or faults; of one that has faulted, the bytes that waited are written. -/
def execCopyComplete (quad ticket : Nat) (ok : Bool) (s : State) : Out :=
  match mget? (s.quad quad).copies ticket with
  | some y =>
      if y.st == .faulted && !y.lines.isEmpty then .next (writeFaulted s quad ticket y)
      else if y.st.settled || y.st == .issued then .next s else .next (settleCopy s quad ticket ok)
  | none => .next s

/-! ### Acceptance (R185, R186, R355) -/

/-- A translated storage page that is not in is requested (R355). -/
def touchPage (s : State) (eng : Nat) (t : Trans) : State :=
  match t.tgt.pte? with
  | some pte =>
      if !eRES (hbmWord s pte) && driveOk s (eDRIVE (hbmWord s pte)) then requestPage s t.asid t.va pte (dieOf eng) s.now else s
  | none => s

/-- A copy's translations so far, whether a walk is under way, and whether an entry led above HBM. -/
structure Xlates where
  s : State
  xl : List (Nat × Option Trans)
  walking : Bool
  absent : Bool

/-- Translates pages in order from this cycle on, up to the first miss, whose walk takes 240 cycles; `w` says that the first page's
walk has just ended; with `touch` a storage page that is not in is requested (R185, R350). (DEDUCED, log entry 14.) -/
def xlatePages (eng asid : Nat) (wr touch : Bool) : List Nat → Bool → List (Nat × Option Trans) → State → Xlates
  | [], _, acc, s => ⟨s, acc, false, false⟩
  | p :: ps, w, acc, s =>
      match (if w then some (missTrans s eng asid (65536 * p) wr) else hitTrans s eng asid (65536 * p) wr) with
      | some (.ok t s) => xlatePages eng asid wr touch ps false (acc ++ [(p, some t)]) (if touch then touchPage s eng t else s)
      | some (.bad s) => xlatePages eng asid wr touch ps false (acc ++ [(p, none)]) s
      | some .absent => ⟨s, acc, false, true⟩
      | none => ⟨s, acc, true, false⟩

/-- The lines of a copy whose pages are translated, in order; in a copy that touches host-TSO pages the pieces stay in row order, and those
of a line met before ride (R218). -/
def acceptedLines (y : Copy) (ls : List (Nat × List (Nat × Nat × Nat))) (tr : Nat → Option Trans) : List Line :=
  if ls.any fun l => (tr (64 * l.1)).any fun t => t.tgt.isTso then
    ((copyPieces y).foldl (fun (acc : List Line × List Nat) p =>
      match tr (64 * p.1) with
      | some t => (acc.1 ++ [⟨t.at (64 * p.1), [p.2], acc.2.contains p.1⟩], p.1 :: acc.2)
      | none => acc) ([], [])).1
  else ls.filterMap fun l => (tr (64 * l.1)).map fun t => ⟨t.at (64 * l.1), l.2, false⟩

/-- A put is accepted: its lines are read by the engine in its turn. -/
def acceptPut (s : State) (quad ticket : Nat) (y : Copy) : State :=
  let ls := (copyLines y).map fun l => Line.mk (.hbm 0) l.2 false
  let y := { y with st := .flight, lines := ls, op := s.opSeq + 1, promise := s.now,
                    bound := s.now + 100 + unmoved (s.quad quad) + ls.length }
  startMoves ({ (modCopy s quad ticket fun _ => y) with opSeq := s.opSeq + 1 }) quad

/-- A copy whose pages are translated is accepted: the promise is made (R186), and it faults, or its lines are to move (R355). -/
def acceptCopy (s : State) (quad ticket : Nat) (y : Copy) (xl : List (Nat × Option Trans)) : State :=
  let ls := copyLines y
  let tr (va : Nat) : Option Trans := (xl.find? fun r => r.1 == va / 65536).bind fun r => r.2
  let lines := acceptedLines y ls tr
  let l0 := copyL0 quad (ls.map fun l => (l.1, (tr (64 * l.1)).map fun t => t.tgt))
  let p := s.now + l0 + unmoved (s.quad quad) + ls.length
  let ts := xl.filterMap fun r => r.2
  let ptes := (ts.filterMap fun t => t.tgt.pte?).eraseDups
  let bad := xl.any (fun r => r.2.isNone) || ptes.any (driveBars s)
  let y := { y with promise := p, bound := p, l0 := l0, op := s.opSeq + 1, st := .flight, trans := ts, xl := [], walking := false }
  let s := { s with opSeq := s.opSeq + 1 }
  let s := if y.kind == .overlay then s
           else s.deliverS y.key y.d (BitVec.ofNat 64 ((p - s.cycBase) % 2 ^ 56 * 256 + ticket))
  if bad then faultCopy (modCopy s quad ticket fun _ => y) quad ticket y lines
  else
    let s := ts.foldl (fun s t => touchPage s quad t) s
    let away := ptes.filter fun pte => ((pageOf? s pte).map fun g => g.st == .reading).getD true
    startMoves (modCopy s quad ticket fun _ =>
      ({ y with lines := lines, pages := away, pins := ptes, waited := !away.isEmpty } : Copy).afterStop s quad) quad

/-- Pages that did not translate. -/
def failedPages (xl : List (Nat × Option Trans)) : List Nat := (xl.filter fun r => r.2.isNone).map fun r => r.1

/-- The pages of a PFETCH are translated, 240 cycles for each miss; then its strand has the status (R353). -/
def fetchStep (quad n : Nat) (f : Prefetch) (s : State) : Out :=
  let x := xlatePages quad f.asid false f.pin f.pages f.walking [] s
  if x.absent then .fault .absentMemory
  else
    let s := badWalks x.s (f.key / 256) quad f.asid (failedPages x.xl)
    let f := { f with pages := f.pages.drop x.xl.length, walking := x.walking, failed := f.failed || !(failedPages x.xl).isEmpty }
    if x.walking then .next ((s.modQuad quad fun q => { q with fetches := mset q.fetches n f }).postIn 240 (.copyAccept quad n))
    else .next (afterSettle ((s.modQuad quad fun q => { q with fetches := merase q.fetches n }).deliverS f.key f.d (if f.failed then 1 else 0)) quad)

/-- COPY_ACCEPT: the pages are translated, 240 cycles for each miss; then the copy, or put, is accepted, or a PFETCH is done. -/
def execCopyAccept (quad ticket : Nat) (s : State) : Out :=
  match mget? (s.quad quad).copies ticket with
  | some y =>
      if y.st != .issued then .next s
      else
        match y.kind with
        | .put _ _ _ => .next (acceptPut s quad ticket y)
        | _ =>
            let x := xlatePages quad y.asid (y.kind == .copyOut) true ((linePages (copyLines y)).drop y.xl.length) y.walking y.xl s
            if x.absent then .fault .absentMemory
            else
              let s := if y.kind == .overlay then x.s else badWalks x.s y.gid quad y.asid (failedPages (x.xl.drop y.xl.length))
              if x.walking then
                .next ((modCopy s quad ticket fun y => { y with xl := x.xl, walking := true }).postIn 240 (.copyAccept quad ticket))
              else .next (acceptCopy s quad ticket y x.xl)
  | none =>
      match mget? (s.quad quad).fetches ticket with
      | some f => fetchStep quad ticket f s
      | none => .next s

/-! ### Promises (R187) -/

/-- The copy of the strand's gang that last received a ticket, one that was complete before a resume among them. -/
def copyOf (s : State) (st : Strand) (g : Gang) (t : Nat) : Option Copy :=
  if t = 0 then none
  else match mget? (s.quad (g.quadOf st.sidx)).copies t with
    | some y =>
        match y.kind with
        | .put _ _ _ => none
        | _ => if y.gid == st.gid && y.gen == g.gen then some y else none
    | none => none

/-- The copy that a ticket denotes for a strand: none stands for T = 0 (R184). -/
def ticketOf (s : State) (st : Strand) (g : Gang) (t : Nat) : Option Copy := (copyOf s st g t).filter fun y => !y.carried

/-- `passed(P)`. -/
def passed (s : State) (p : Nat) : Bool := decide ((s.cyc.toNat % 2 ^ 56 + 2 ^ 56 - p) % 2 ^ 56 < 2 ^ 55)

/-- What a promise gives once its cycle has passed: a sub-code of PROMISE, or none to go on. -/
def promiseOutcome (s : State) (st : Strand) (g : Gang) (w : Word) : Option Nat :=
  match ticketOf s st g (w.toNat % 256) with
  | none => none
  | some y =>
      match y.st with
      | .complete => none
      | .faulted => some 3
      | _ => if y.pages.isEmpty then some 1 else some 2

/-- A completion wait has observed a copy's writes (R188, R216). -/
def observe (s : State) (k : Nat) (y : Option Copy) : State :=
  match y with
  | some y => s.modStrand k fun st => { st with seen := y.op :: st.seen }
  | none => s

/-- A WAITT that goes on has read its register (R193). -/
def readSource (st : Strand) : Strand :=
  match st.source with
  | some r => { consume st (rs r) with source := none }
  | none => st

/-- WAITT; while it sleeps its register stays as it is, for it may yet trap (R7). -/
def execWaitt (g : Guard) (a : SReg) (s : State) : Out :=
  issue (.waitt g a) g (fun st gang _ s =>
    let w := sreg st a
    let p := w.toNat / 256
    if !passed s p then
      let due := s.now + (p + 2 ^ 56 - s.cyc.toNat % 2 ^ 56) % 2 ^ 56
      let s := s.modCur fun x => { x with sst := st.sst, rels := st.rels, acqAt := st.acqAt, source := some a }
      .hold ((s.sleepIn (.promise w) (Instr.waitt g a).len).post due 4 (.waittWake s.cur))
    else match promiseOutcome s st gang w with
      | none => .done (observe s s.cur (copyOf s st gang (w.toNat % 256)))
      | some sub => .trap cPROMISE sub w) s

/-- WAITT_WAKE: the promised cycle has passed; or the TIMELINE trap of a TLSIG waits for the results of earlier instructions (R329). -/
def execWaittWake (key : Nat) (s : State) : Out :=
  match s.strand? key, s.gang? (key / 256) with
  | some st, some g =>
      match st.act with
      | .asleep (.saturated cap) _ =>
          if owesResults s key then .next (s.post (s.now + 1) 4 (.waittWake key))
          else .next (takeTrap s key (st.pc.setWidth 64) cTIMELINE 0 cap)
      | .asleep (.promise w) _ =>
          if !passed s (w.toNat / 256) then .next s
          else match promiseOutcome s st g w with
            | none => .next (wakeStrand ((observe s key (copyOf s st g (w.toNat % 256))).modStrand key readSource) key s.now)
            | some sub =>
                if owesResults s key then .next (s.post (s.now + 1) 4 (.waittWake key))
                else .next (takeTrap s key (st.pc.setWidth 64) cPROMISE sub w)
      | _ => .next s
  | _, _ => .next s

/-- TESTC. -/
def execTestc (g : Guard) (d a : SReg) (s : State) : Out :=
  issue (.testc g d a) g (fun st gang _ s =>
    match ticketOf s st gang ((sreg st a).toNat % 256) with
    | none => .done (observe (s.wrS 2 d 0) s.cur (copyOf s st gang ((sreg st a).toNat % 256)))
    | some y =>
        match y.st with
        | .complete => .done (observe (s.wrS 2 d 0) s.cur (some y))
        | .faulted => .done (s.wrS 2 d 3)
        | _ => .done (s.wrS 2 d (if y.pages.isEmpty then 1 else 2))) s

/-- The revised promise cycle Q (R187). -/
def revised (s : State) (x : Quad) (y : Copy) : Nat :=
  match y.st with
  | .complete => y.done - s.cycBase
  | .faulted => y.promise - s.cycBase
  | _ =>
      let q' := x.copies.foldl (fun a c => if c.2.earlier y then a + c.2.left else a) 0
      let w := y.pages.length
      max (y.promise - s.cycBase)
        (s.cyc.toNat + (if w = 0 then 0 else 16 * bitsOf s.spcfg.toNat 63 48 * w + y.l0) + q' + y.left)

/-- COPYST: for T = 0, Q = P. -/
def execCopyst (g : Guard) (d a : SReg) (s : State) : Out :=
  issue (.copyst g d a) g (fun st gang _ s =>
    let w := sreg st a
    match ticketOf s st gang (w.toNat % 256) with
    | none => .done (s.wrS 4 d w)
    | some y => .done (s.wrS 4 d (BitVec.ofNat 64
        (revised s (s.quad (gang.quadOf st.sidx)) y % 2 ^ 56 * 256 + w.toNat % 256)))) s

/-! ### PFETCH and TLBINV (R352, R353) -/

/-- PFETCH: at most 64 pages, translated one after another as those of a copy. -/
def execPfetch (g : Guard) (pin : Bool) (d a : SReg) (b : Src96) (s : State) : Out :=
  issue (.pfetch g pin d a b) g (fun st gang _ s =>
    let va := (sreg st a).toNat
    let n := match b with
      | .reg r => (sreg st r).toNat
      | .imm i => i.toNat
    if n = 0 then .done (s.wrS 4 d 0)
    else
      let q := gang.quadOf st.sidx
      let pages := (List.range (min 64 ((va + n - 1) / 65536 - va / 65536 + 1))).map fun i => va / 65536 + i
      let m := 256 + s.opSeq
      let f : Prefetch := { key := st.key, d := d, asid := s.asidOf st.gid, pin := pin, pages := pages, walking := false, failed := false }
      .done ((({ s.awaitReg (.s d) with opSeq := s.opSeq + 1 }).modQuad q fun x => { x with fetches := mset x.fetches m f }).post
        (s.now + 4) 2 (.copyAccept q m))) s

/-- TLBINV: entries go at once, sD follows. -/
def tlbinvOp (i : Instr) (g : Guard) (d : SReg) (c : Strand → State → Cover) (s : State) : Out :=
  issueDone i g (fun st _ s => startInval (s.awaitReg (.s d)) (.strand s.cur d) (c st s)) s

def execTlbinvPage (g : Guard) (d a : SReg) (s : State) : Out :=
  tlbinvOp (.tlbinvPage g d a) g d (fun st s => .page (s.asidOf st.gid) (sreg st a).toNat) s
def execTlbinvAs (g : Guard) (d : SReg) (s : State) : Out :=
  tlbinvOp (.tlbinvAs g d) g d (fun st s => .asid (s.asidOf st.gid)) s
def execTlbinvAsid (g : Guard) (d a : SReg) (s : State) : Out :=
  tlbinvOp (.tlbinvAsid g d a) g d (fun st _ => .asid ((sreg st a).toNat % 256)) s
def execTlbinvAll (g : Guard) (d : SReg) (s : State) : Out :=
  tlbinvOp (.tlbinvAll g d) g d (fun _ _ => .all) s

/-- TLBINV_COMPLETE: once the last covered copy has settled, the waiter gets its answer (R352, R376). -/
def execTlbinvComplete (w : InvalFor) (c : Cover) (s : State) : Out :=
  match s.invals.find? fun i => i.who == w && i.cover == c && i.issued + 300 ≤ s.now && !i.waits s with
  | some i =>
      let s := { s with invals := s.invals.erase i }
      match w with
      | .strand key d => .next (s.deliverS key d 0)
      | .host tag => .next (complete s tag 0 0)
      | .lightship => .next { s with reports := s.reports ++ [[0]] }
  | none => .next s

end Sys2Proof.Machine
end

