-- ==== Sys2Proof/Machine/Lantern.lean ====
section
/-! DEFINITION. Connectors and lanterns (R249 to R280): images and their placement, port instructions, decisions, CLOSE, deadlines,
suspension, barriers. -/

namespace Sys2Proof.Machine

/-! ### The connector image (R269 to R271) -/

def allZero (bs : List Byte) (lo n : Nat) : Bool := ((bs.drop lo).take n).all fun b => b == 0
def byteAt (bs : List Byte) (i : Nat) : Nat := (bs.getD i 0).toNat

def parsePort (bs : List Byte) (off nreg nfifo : Nat) : Option Port :=
  let f := byteAt bs (off + 3)
  let kind := byteAt bs (off + 2)
  if 1 < byteAt bs off || nreg ≤ byteAt bs (off + 1) || 1 < kind || !allZero bs (off + 4) 4 ||
     (if kind = 1 then decide (nfifo ≤ f) else f != 0) then none
  else some { get := byteAt bs off == 1, region := byteAt bs (off + 1), ovf := if kind = 1 then some f else none, bound := none }

def parseFifo (bs : List Byte) (off nreg nport : Nat) : Option Fifo :=
  let d := byteAt bs off
  let b := byteAt bs (off + 3)
  let o := byteAt bs (off + 4)
  if d = 0 || 64 < d || nreg ≤ byteAt bs (off + 1) || nreg ≤ byteAt bs (off + 2) || (nport ≤ b && b != 255) ||
     (nport ≤ o && o != 255) || !allZero bs (off + 5) 3 then none
  else
    let buf : Buf := { items := [], permits := d, closed := false, closedDown := false }
    some { up := byteAt bs (off + 1), down := byteAt bs (off + 2), endB := b, ovf := if o = 255 then none else some o,
           buf := buf, obuf := buf }

/-- A route or test source that exists and stands where R270 allows it. -/
def sourceOk (ports : List Port) (fifos : List Fifo) (r c : Nat) : Bool :=
  if c < 0x40 then ((ports[c]?).map fun p => !p.get).getD false
  else if c < 0x80 then decide (c - 0x40 < fifos.length)
  else if c < 0xC0 then
    (((fifos[c - 0x80]?).bind fun f => f.ovf).bind fun p => ports[p]?).any fun p => p.region == r
  else false

def destOk (ports : List Port) (fifos : List Fifo) (c : Nat) : Bool :=
  if c < 0x40 then ((ports[c]?).map fun p => p.get).getD false
  else if c < 0x80 then decide (c - 0x40 < fifos.length)
  else decide (0xFE ≤ c)

def testOk (nconst : Nat) (t : Nat × Nat × Nat × Bool) : Bool :=
  decide (t.2.1 ≤ 5) && (decide (t.2.2.1 < nconst) || (t.2.2.1 == 255 && decide (t.2.1 < 2)))

/-- A candidate of region `r` at an offset, and the offset behind it. (DEDUCED, log entry 52.) -/
def parseCand (bs : List Byte) (ports : List Port) (fifos : List Fifo) (nconst r ncand off : Nat) : Option (Cand × Nat) :=
  let mask := fieldOf bs off 8
  let nr := byteAt bs (off + 8)
  let nt := byteAt bs (off + 9)
  let ex := fieldOf bs (off + 12) 4
  let routes := (List.range nr).map fun i => (byteAt bs (off + 16 + 2 * i), byteAt bs (off + 17 + 2 * i))
  let toff := off + 16 + 2 * nr
  let tests := (List.range nt).map fun i =>
    (byteAt bs (toff + 4 * i), byteAt bs (toff + 4 * i + 1), byteAt bs (toff + 4 * i + 2), byteAt bs (toff + 4 * i + 3) == 1)
  let stop := toff + 4 * nt
  let next := (stop + 7) / 8 * 8
  let inMask (p : Nat) : Bool := mask.testBit p
  let ok :=
    decide (1 ≤ nr ∧ nr ≤ 64 ∧ nt ≤ 4 ∧ next ≤ bs.length ∧ mask < 2 ^ ports.length ∧ ex < 2 ^ ncand) &&
    allZero bs (off + 10) 2 && allZero bs stop (next - stop) &&
    (routes.all fun x => sourceOk ports fifos r x.1 && destOk ports fifos x.2 && (0x40 ≤ x.1 || inMask x.1)) &&
    ((List.range nt).all fun i => decide (byteAt bs (toff + 4 * i + 3) ≤ 1)) &&
    (tests.all fun t => sourceOk ports fifos r t.1 && testOk nconst t) &&
    ((List.range ports.length).all fun p =>
      !inMask p || (if ((ports[p]?).map fun x => x.get).getD false then (routes.filter fun x => x.2 == p).length == 1
                    else routes.any fun x => x.1 == p))
  if ok then some ({ mask := BitVec.ofNat 64 mask, excl := BitVec.ofNat 32 ex, routes := routes, tests := tests }, next) else none

def parseCands (bs : List Byte) (ports : List Port) (fifos : List Fifo) (nconst r ncand : Nat) : Nat → Nat → Option (List Cand × Nat)
  | 0, off => some ([], off)
  | n + 1, off =>
      match parseCand bs ports fifos nconst r ncand off with
      | some (c, next) => (parseCands bs ports fifos nconst r ncand n next).map fun x => (c :: x.1, x.2)
      | none => none

/-- The region entries from number `r` on, one after another. -/
def parseRegions (bs : List Byte) (ports : List Port) (fifos : List Fifo) (nconst : Nat) : Nat → Nat → Nat → Option (List Region)
  | 0, _, _ => some []
  | n + 1, r, off =>
      let nc := byteAt bs off
      let size := fieldOf bs (off + 2) 2
      if nc = 0 || 32 < nc || byteAt bs (off + 1) != 0 || !allZero bs (off + 4) 4 || bs.length < off + size then none
      else
        match parseCands bs ports fifos nconst r nc nc (off + 8) with
        | some (cs, next) =>
            if next != off + size then none
            else (parseRegions bs ports fifos nconst n (r + 1) next).map fun rs => { lantern := 0, ptr := 0, cands := cs } :: rs
        | none => none

/-- The region of an overflow port holds one candidate: the port alone, with no test and one route from its buffer (R270). -/
def overflowOk (ports : List Port) (regions : List Region) : Bool :=
  (List.range ports.length).all fun p =>
    match (ports[p]?).bind fun x => x.ovf.map fun f => (x.region, f) with
    | some (r, f) => ((regions[r]?).map fun x =>
        x.cands.map fun c => (c.mask.toNat, c.routes, c.tests.isEmpty)) == some [(2 ^ p, [(0x80 + f, p)], true)]
    | none => true

/-- Magic and version. -/
def imageHead (bs : List Byte) : Bool := fieldOf bs 0 4 == 0x4E4F434B && fieldOf bs 4 2 == 1
def imageSize (bs : List Byte) : Nat := fieldOf bs 12 4

/-- A table of `n` entries of 8 bytes lies inside the image, behind the header, at a multiple of 8. -/
def tableOk (off n size : Nat) : Bool := decide (off % 8 = 0 ∧ 64 ≤ off ∧ off + 8 * n ≤ size)

/-- Reads an image of SIZE bytes; none where R271 refuses it. (DEDUCED, log entry 52.) -/
def parseImage (asid va : Nat) (bs : List Byte) : Option Image :=
  let np := byteAt bs 6
  let nr := byteAt bs 7
  let nf := byteAt bs 8
  let nc := byteAt bs 9
  let po := fieldOf bs 16 4
  let ro := fieldOf bs 20 4
  let fo := fieldOf bs 24 4
  let co := fieldOf bs 28 4
  if !imageHead bs || np = 0 || 64 < np || nr = 0 || 16 < nr || 64 < nf || 16 < nc || 32 < byteAt bs 10 || byteAt bs 11 != 0 ||
     !allZero bs 32 32 || !tableOk po np bs.length || !tableOk ro 1 bs.length || !tableOk fo nf bs.length ||
     !tableOk co nc bs.length then none
  else
    ((List.range np).mapM fun i => parsePort bs (po + 8 * i) nr nf).bind fun ports =>
    ((List.range nf).mapM fun i => parseFifo bs (fo + 8 * i) nr np).bind fun fifos =>
    ((parseRegions bs ports fifos nc nr 0 ro).filter (overflowOk ports)).map fun regions =>
      { asid := asid, va := va, refs := 0, ready := 0, ports := ports, regions := regions, fifos := fifos
        consts := (List.range nc).map fun i => BitVec.ofNat 64 (fieldOf bs (co + 8 * i) 8)
        nslots := (List.range nr).map fun r => fifos.foldl (fun n f =>
          n + (if f.down = r then f.buf.permits.toNat else 0) +
            (if (f.ovf.bind fun p => ports[p]?).any fun p => p.region == r then f.buf.permits.toNat else 0)) 0 }

/-! ### Placement and loading (R267, R272) -/

/-- Regions, ports and slots that a list of images holds in a lantern. -/
def lanternUse (l : List Image) (c : Nat) : Nat × Nat × Nat :=
  l.foldl (fun u m =>
    ((List.range m.regions.length).foldl (fun (u : Nat × Nat × Nat) r =>
      if ((m.regions[r]?).map fun x => x.lantern) == some c then
        (u.1 + 1, u.2.1 + (m.ports.filter fun p => p.region == r).length, u.2.2 + m.nslots.getD r 0)
      else u) u)) (0, 0, 0)

/-- Places the regions of an image from number `r` on, each in the first lantern with room from a cluster upward; `used` counts
what the regions placed before it take. -/
def placeRegions (l : List Image) (m : Image) (home : Nat) :
    List Region → Nat → List (Nat × Nat × Nat) → Option (List Region)
  | [], _, _ => some []
  | x :: rest, r, used =>
      let ports := (m.ports.filter fun p => p.region == r).length
      let slots := m.nslots.getD r 0
      let room (c : Nat) : Bool :=
        let u := lanternUse l c
        let mine := used.filter fun y => y.1 == c
        let mp := mine.foldl (fun a y => a + y.2.1) 0
        let ms := mine.foldl (fun a y => a + y.2.2) 0
        decide (u.1 + mine.length < 16 ∧ u.2.1 + mp + ports ≤ 64 ∧ u.2.2 + ms + slots ≤ 512)
      match ((List.range 32).map fun k => (home + k) % 32).find? room with
      | some c => (placeRegions l m home rest (r + 1) ((c, ports, slots) :: used)).map fun y => { x with lantern := c } :: y
      | none => none

inductive LoadRes where
  /-- Loaded already, or its load is in progress: a reference more. -/
  | shared (ready : Nat)
  | loaded (size : Nat) (m : Image)
  | noRoom
  | bad
  | unreadable

def imageOf? (s : State) (asid va : Nat) : Option Image := s.images.find? fun m => m.asid == asid && m.va == va
def modImage (s : State) (asid va : Nat) (f : Image → Image) : State :=
  { s with images := s.images.map fun m => if m.asid == asid && m.va == va then f m else m }

/-- Looks an image up or reads, checks and places it (R271, R272). -/
def loadImage (s : State) (asid va home : Nat) : LoadRes × State :=
  match imageOf? s asid va with
  | some m => (.shared m.ready, s)
  | none =>
      if va % 64 ≠ 0 then (.bad, s)
      else match readVa asid 2 va 64 s with
      | .bad s => (.unreadable, s)
      | .ok h s =>
          if !imageHead h then (.bad, s)
          else match readVa asid (pagesIn (imageSize h)) va (imageSize h) s with
            | .bad s => (.unreadable, s)
            | .ok bs s =>
                match parseImage asid va bs with
                | none => (.bad, s)
                | some m =>
                    match placeRegions s.images m home m.regions 0 [] with
                    | none => (.noRoom, s)
                    | some rs => (.loaded bs.length { m with regions := rs }, s)

/-- 200 + ceil(SIZE / 64) cycles. -/
def loadCycles (size : Nat) : Nat := 200 + (size + 63) / 64

/-- The offer of an unloaded image: its strand traps precisely at its instruction, once its earlier results are there (R329); a saved
strand on resume (R273). -/
def goneOffer (s : State) (id : Nat) (o : Offer) : State :=
  match s.strand? o.key with
  | some st =>
      let s' := { s with offers := mset s.offers id { o with gone := true, live := false } }
      match st.act with
      | .asleep _ _ =>
          if owesResults s o.key then s'.post (s.now + 1) 2 (.offerArrival id)
          else takeTrap { s with offers := merase s.offers id } o.key (st.pc.setWidth 64) cCONNECTOR 5 o.ref
      | _ => s'
  | none => { s with offers := merase s.offers id }

/-- Unloads an image: its buffers, its messages, its offers (R273). (DESIGN CHOICE, log entry 141.) -/
def unloadImage (s : State) (asid va : Nat) : State :=
  let mine (o : Offer) : Bool := !o.bar && o.asid == asid && o.va == va && !o.fired
  let hit := s.offers.filter fun o => mine o.2
  let s := { s with
    images := s.images.filter fun m => !(m.asid == asid && m.va == va)
    agenda := s.agenda.filter fun e => match e.ev with
      | .fifoItemArrival a v _ _ _ | .permitReturn a v _ _ => !(a == asid && v == va)
      | _ => true }
  hit.foldl (fun s (id, o) => goneOffer s id o) s

/-- Drops a reference; an image with none left is unloaded (R272). -/
def dropRef (s : State) (asid va : Nat) : State :=
  match imageOf? s asid va with
  | some m =>
      if m.refs ≤ 1 then unloadImage s asid va else modImage s asid va fun m => { m with refs := m.refs - 1 }
  | none => s

/-! ### Live offers and closed buffers (R258, R263, R264) -/

def regionLantern (m : Image) (r : Nat) : Nat := ((m.regions[r]?).map fun x => x.lantern).getD 0
def portLantern (m : Image) (p : Nat) : Nat := ((m.ports[p]?).map fun x => regionLantern m x.region).getD 0

/-- Lanterns of a buffer's upstream and downstream ends; an overflow buffer stands in its port's lantern. -/
def bufEnds (m : Image) (f : Fifo) (ovf : Bool) : Nat × Nat :=
  (regionLantern m f.up, if ovf then (f.ovf.map fun p => portLantern m p).getD 0 else regionLantern m f.down)

/-- Cycles for an item, a permit or a close between the ends (R262): 1 inside a lantern. -/
def bufDelay (m : Image) (f : Fifo) (ovf : Bool) : Nat :=
  let (a, b) := bufEnds m f ovf
  if a = b then 1 else oneWay (hubOf a) (hubOf b)

/-- The buffer whose end b is a port: the fifo, and whether it is the overflow buffer. -/
def bufOfPort (m : Image) (p : Nat) : Option (Nat × Bool) :=
  match (m.ports[p]?).bind fun x => x.ovf with
  | some f => some (f, true)
  | none => (m.fifos.findIdx? fun f => f.endB == p).map fun f => (f, false)

def Fifo.which (f : Fifo) (ovf : Bool) : Buf := if ovf then f.obuf else f.buf
def Fifo.change (f : Fifo) (ovf : Bool) (g : Buf → Buf) : Fifo :=
  if ovf then { f with obuf := g f.obuf } else { f with buf := g f.buf }
def Image.changeBuf (m : Image) (f : Nat) (ovf : Bool) (g : Buf → Buf) : Image :=
  { m with fifos := updAt m.fifos f fun x => x.change ovf g }

/-- Live in this cycle, its deadline ahead. -/
def Offer.liveNow (o : Offer) (s : State) : Bool := o.live && o.deadline.all fun d => s.cyc.ult d

/-- The live offer at a port. -/
def offerAt (s : State) (m : Image) (p : Nat) : Option (Nat × Offer) :=
  s.offers.find? fun x => x.2.liveNow s && !x.2.bar && x.2.asid == m.asid && x.2.va == m.va && x.2.ports.any fun y => y.2 == p

/-- An offer is decided: its completion reaches the strand 2h + 3 + 8e cycles later (R261). -/
def completeOffer (s : State) (id : Nat) (o : Offer) (st : Word) (item : Option Item) : State :=
  let s := { s with offers := mset s.offers id { o with fired := true, live := false, susp := false } }
  s.postIn (1 + oneWay (s.quadOf o.key) (hubOf o.lantern)) (.completionDelivery id o.key st item)

/-- The port of an offer that is closed and empty with the lowest i, with i. -/
def closedPort (s : State) (o : Offer) : Option (Nat × Nat) :=
  match imageOf? s o.asid o.va with
  | some m =>
      if o.bar || o.put || !o.liveNow s then none
      else o.ports.find? fun x =>
        (bufOfPort m x.2).any fun y => ((m.fifos[y.1]?).map fun f => (f.which y.2).closedDown && (f.which y.2).items.isEmpty).getD false
  | none => none

/-- Posts the CLOSED completions that are due in this cycle (R263). -/
def postClosed (s : State) : State :=
  s.offers.foldl (fun s x =>
    match closedPort s x.2 with
    | some y => s.post s.now 4 (.closedEmptyCompletion x.1 y.2)
    | none => s) s

/-! ### Decisions (R253, R258, R259) -/

def itemWord : Item → Word
  | .scalar w => w
  | .vector v => (lane v 1 ++ lane v 0 : BitVec 64)
def itemVec : Item → VVal
  | .vector v => v
  | .scalar w => vmk fun i => if i = 0 then w.setWidth 32 else if i = 1 then w.extractLsb' 32 32 else 0

/-- Filter predicates (R253). -/
def filterHolds (code : Nat) (v e : Word) : Bool :=
  match code with
  | 0 => !v.getLsbD 0
  | 1 => v.getLsbD 0
  | 2 => v.slt e
  | 3 => !v.slt e
  | 4 => (v &&& e) != 0
  | _ => v == e

/-- The value at a source code. -/
def sourceItem (s : State) (m : Image) (c : Nat) : Option Item :=
  if c < 0x40 then (offerAt s m c).map fun x => x.2.item
  else if c < 0x80 then (m.fifos[c - 0x40]?).bind fun f => f.buf.items.head?
  else (m.fifos[c - 0x80]?).bind fun f => f.obuf.items.head?

def Cand.ports (c : Cand) : List Nat := (List.range 64).filter fun p => c.mask.getLsbD p
/-- Buffers whose head a candidate takes. -/
def Cand.pops (c : Cand) : List (Nat × Bool) :=
  ((c.routes.filter fun x => 0x40 ≤ x.1 && x.1 < 0xC0).map fun x => (x.1 % 64, decide (0x80 ≤ x.1))).eraseDups
/-- Fifos whose tail takes an item, one for each route. -/
def Cand.pushes (c : Cand) : List Nat := (c.routes.filter fun x => 0x40 ≤ x.2 && x.2 < 0x80).map fun x => x.2 - 0x40

/-- Room for a candidate's pushes into a fifo: with its own pop of that fifo (R258), or by the close (R263).
(DEDUCED, log entry 50.) -/
def roomFor (m : Image) (c : Cand) (f : Nat) : Bool :=
  match m.fifos[f]? with
  | some x =>
      let n := (c.pushes.filter fun y => y == f).length
      if x.buf.closed then x.ovf.isNone || x.obuf.closed || decide (n ≤ x.obuf.permits)
      else decide (n ≤ x.buf.permits + if c.pops.contains (f, false) then 1 else 0)
  | none => false

/-- Ready (R258). A test of a source that holds no value comes out by a free choice. (DESIGN CHOICE, log entry 53.) -/
def candReady (s : State) (m : Image) (c : Cand) : Bool :=
  (c.ports.all fun p => (offerAt s m p).isSome) &&
  (c.pops.all fun x => ((m.fifos[x.1]?).map fun f => !(f.which x.2).items.isEmpty).getD false) &&
  (c.pushes.all fun f => roomFor m c f) &&
  (c.tests.all fun t =>
    match sourceItem s m t.1 with
    | some v => filterHolds t.2.1 (itemWord v) (m.consts.getD t.2.2.1 0) == t.2.2.2
    | none => Config.freeBool s.free)

/-- Numbers of the enabled candidates. -/
def enabledCands (s : State) (m : Image) (r : Region) : List Nat :=
  let ready := r.cands.map fun c => candReady s m c
  (List.range r.cands.length).filter fun j =>
    ready.getD j false && (List.range r.cands.length).all fun k =>
      !(((r.cands[j]?).map fun c => c.excl.getLsbD k).getD false && ready.getD k false)

/-- What a push does: taken, diverted, late (R263). -/
inductive PushRes where
  | ok | diverted | late | dropped
  deriving DecidableEq, Repr

def PushRes.rank : PushRes → Nat
  | .ok => 0 | .diverted => 3 | .late => 2 | .dropped => 1

/-- An item goes to a buffer: a permit is taken, the item arrives by R262. -/
def pushBuf (s : State) (asid va f : Nat) (ovf : Bool) (x : Item) : State :=
  match imageOf? s asid va with
  | some m =>
      match m.fifos[f]? with
      | some y =>
          (modImage s asid va fun m => m.changeBuf f ovf fun b => { b with permits := b.permits - 1 }).post
            (s.now + bufDelay m y ovf) 2 (.fifoItemArrival asid va f ovf (some x))
      | none => s
  | none => s

/-- One push of a firing (R253, R263). -/
def pushItem (s : State) (asid va f : Nat) (x : Item) : State × PushRes :=
  match (imageOf? s asid va).bind fun m => m.fifos[f]? with
  | some y =>
      if !y.buf.closed then (pushBuf s asid va f false x, .ok)
      else if y.ovf.isSome && !y.obuf.closed then (pushBuf s asid va f true x, .diverted)
      else (s, .late)
  | none => (s, .late)

/-- The head of a buffer leaves it; its permit returns by R262. -/
def popBuf (s : State) (asid va f : Nat) (ovf : Bool) : State :=
  match imageOf? s asid va with
  | some m =>
      match m.fifos[f]? with
      | some y =>
          (modImage s asid va fun m => m.changeBuf f ovf fun b => { b with items := b.items.tail }).post
            (s.now + bufDelay m y ovf) 2 (.permitReturn asid va f ovf)
      | none => s
  | none => s

/-- The results of a put's routes as its status (R276). (DESIGN CHOICE, log entry 139.) -/
def putStatus (rs : List PushRes) : Nat :=
  if rs.contains .ok then 0 else if rs.contains .diverted then 3 else if rs.contains .late then 2 else 1

/-- Commits a candidate: pops, pushes, routes, completions (R259). (DESIGN CHOICE, log entry 140.) -/
def commitCand (s : State) (m : Image) (c : Cand) : State :=
  let vals := c.routes.map fun x => sourceItem s m x.1
  let offs := c.ports.filterMap fun p => (offerAt s m p).map fun x => (p, x.1, x.2)
  let s := c.pops.foldl (fun s x => popBuf s m.asid m.va x.1 x.2) s
  let (s, res) := (c.routes.zip vals).foldl (fun (a : State × List (Nat × PushRes)) x =>
    let ((src, dst), v) := x
    if 0x40 ≤ dst && dst < 0x80 then
      let (s, r) := pushItem a.1 m.asid m.va (dst - 0x40) (v.getD (.scalar 0))
      (s, a.2 ++ [(src, r)])
    else (a.1, a.2 ++ [(src, if dst = 0xFF then .dropped else .ok)])) (s, [])
  offs.foldl (fun s (p, id, o) =>
    if o.put then
      completeOffer s id o (BitVec.ofNat 64 (putStatus ((res.filter fun x => x.1 == p).map fun x => x.2))) none
    else
      let i := ((o.ports.find? fun y => y.2 == p).map fun y => y.1).getD 0
      let item := ((c.routes.zip vals).find? fun x => x.1.2 == p).bind fun x => x.2
      completeOffer s id o (BitVec.ofNat 64 (if o.any then 256 * i else 0)) item) s

/-- One decision of region `r` of an image (R259). (DEDUCED, log entry 51.) -/
def decideRegion (s : State) (asid va r : Nat) : State :=
  match imageOf? s asid va with
  | none => s
  | some m =>
      match m.regions[r]? with
      | none => s
      | some reg =>
          let e := enabledCands s m reg
          if e.isEmpty then s
          else
            let lim := if h : reg.lantern < 32 then (s.lnStarve[reg.lantern]).toNat else 4
            let portsOf (j : Nat) : List Nat := ((reg.cands[j]?).map Cand.ports).getD []
            let offs := ((sortBy (fun a b => decide (a ≤ b)) (e.flatMap portsOf).eraseDups).filterMap (offerAt s m)).foldl
              (fun l x => if l.any fun y => y.1 == x.1 then l else l ++ [x]) []
            let starving := offs.filter fun x => lim ≤ x.2.hist.length
            let first := starving.foldl (fun (b : Option (Nat × Offer)) x =>
              match b with
              | some y => if x.2.hist.getD (lim - 1) 0 < y.2.hist.getD (lim - 1) 0 then some x else b
              | none => some x) none
            let n := reg.cands.length
            let (c, ptr) := match first with
              | some x => (((e.find? fun j => (portsOf j).any fun p => x.2.ports.any fun y => y.2 == p).getD 0), reg.ptr)
              | none =>
                  let c := (((List.range n).map fun k => (reg.ptr + k) % n).find? fun j => e.contains j).getD 0
                  (c, (c + 1) % n)
            let s1 := modImage s asid va fun m => { m with regions := updAt m.regions r fun x => { x with ptr := ptr } }
            let s2 := match reg.cands[c]? with
              | some cand => commitCand s1 m cand
              | none => s1
            offs.foldl (fun s x =>
              match mget? s.offers x.1 with
              | some o =>
                  if o.fired || 15 ≤ o.hist.length then s
                  else { s with offers := mset s.offers x.1 { o with hist := o.hist ++ [s.now] } }
              | none => s) s2

/-- The barrier region of a gang (R279): every strand that has not ended has a live offer. -/
def decideBarrier (s : State) (gid : Nat) : State :=
  let mine := s.offers.filter fun o => o.2.bar && o.2.gid == gid && o.2.live
  let all := s.strands.all fun x => x.2.gid != gid || x.2.act == .ended || mine.any fun o => o.2.key == x.1
  if mine.isEmpty || !all then s else mine.foldl (fun s x => completeOffer s x.1 x.2 0 none) s

/-- LANTERN_DECISION: every region of a lantern decides, in increasing number, then its barrier regions. -/
def execLanternDecision (lantern : Nat) (s : State) : Out :=
  let regs := s.images.flatMap fun m =>
    ((List.range m.regions.length).filter fun r => regionLantern m r == lantern).map fun r => (m.asid, m.va, r)
  let s := regs.foldl (fun s x => decideRegion s x.1 x.2.1 x.2.2) s
  let gids := ((s.offers.filter fun o => o.2.bar && o.2.lantern == lantern).map fun o => o.2.gid).eraseDups
  .next (gids.foldl decideBarrier s)

/-- CLOSED_EMPTY_COMPLETION (R263, R277). -/
def execClosedEmptyCompletion (offer port : Nat) (s : State) : Out :=
  match mget? s.offers offer with
  | some o =>
      match closedPort s o with
      | some (i, p) =>
          if p = port then .next (completeOffer s offer o (BitVec.ofNat 64 (4 + if o.any then 256 * i else 0)) none) else .next s
      | none => .next s
  | none => .next s

/-! ### Offers on their way -/

/-- Sends an offer: it arrives 2h + 2 + 8e cycles after its start (R261). -/
def sendOffer (s : State) (id : Nat) (start : Nat) : State :=
  match mget? s.offers id with
  | some o => s.post (start + oneWay (s.quadOf o.key) (hubOf o.lantern)) 2 (.offerArrival id)
  | none => s

/-- The cycle at which a gang's suspend reaches a lantern, once its controller has sent the suspends (R265). -/
def suspendAt (s : State) (gid lantern : Nat) : Option Nat :=
  (s.gang? gid).bind fun g => g.suspAt.map fun t => t + oneWay (hubOf g.lastCluster) (hubOf lantern)

/-- OFFER_ARRIVAL: live, or LATE when its deadline has passed (R258, R264); suspended where the gang's suspend has come, else by it when it
comes (R265). -/
def execOfferArrival (offer : Nat) (s : State) : Out :=
  match mget? s.offers offer with
  | some o =>
      if o.gone then .next (goneOffer s offer o)
      else if o.fired || o.live then .next s
      else if o.deadline.any fun d => !s.cyc.ult d then .next (completeOffer s offer o 2 none)
      else match suspendAt s o.gid o.lantern with
        | some t =>
            if t ≤ s.now then .next { s with offers := mset s.offers offer { o with susp := true } }
            else .next (postClosed ({ s with offers := mset s.offers offer { o with live := true } }.post t 2 (.suspend o.gid o.lantern)))
        | none => .next (postClosed { s with offers := mset s.offers offer { o with live := true } })
  | none => .next s

/-- DEADLINE_WITHDRAWAL (R264, R265). -/
def execDeadlineWithdrawal (offer : Nat) (s : State) : Out :=
  match mget? s.offers offer with
  | some o =>
      if (o.live || o.susp) && !o.gone && o.deadline.any fun d => !s.cyc.ult d then .next (completeOffer s offer o 2 none)
      else .next s
  | none => .next s

/-- COMPLETION_DELIVERY: data and status registers are written, the strand goes on (R276); into the saved image when it is not
resident (R265). With status 0 it is an acquire (R280). -/
def execCompletionDelivery (offer key : Nat) (st : BitVec 64) (item : Option Item) (s : State) : Out :=
  match mget? s.offers offer with
  | some o =>
      let s := { s with offers := merase s.offers offer }
      match (s.strand? key).bind Strand.sleep? with
      | some (.port id) =>
          if id ≠ offer then .next s
          else
            let s := if o.put then s.deliverS key o.d st
              else
                let s := match item with
                  | some x => if o.vec then s.deliver key (.v o.d (BitVec.allOnes 32) (itemVec x)) else s.deliverS key o.d (itemWord x)
                  | none => s
                s.deliverS key o.c st
            .next (let s := wakeStrand s key s.now
                   if st.toNat % 256 = 0 then s.acquireBy key s.now else s)
      | some (.barrier id) => if id ≠ offer then .next s else .next ((wakeStrand s key s.now).acquireBy key s.now)
      | _ => .next s
  | none => .next s

/-- FIFO_ITEM_ARRIVAL: an item reaches its buffer, or the close its downstream lantern (R262, R263). -/
def execFifoItemArrival (asid va fifo : Nat) (ovf : Bool) (item : Option Item) (s : State) : Out :=
  .next (postClosed (modImage s asid va fun m => m.changeBuf fifo ovf fun b =>
    match item with
    | some x => { b with items := b.items ++ [x] }
    | none => { b with closedDown := true }))

/-- PERMIT_RETURN (R262). -/
def execPermitReturn (asid va fifo : Nat) (ovf : Bool) (s : State) : Out :=
  .next (modImage s asid va fun m => m.changeBuf fifo ovf fun b => { b with permits := b.permits + 1 })

/-- CLOSE_ARRIVAL at the upstream lantern; the close travels on behind every item (R263, R278). An image unloaded meanwhile leaves
the status open. (DESIGN CHOICE, log entry 55.) -/
def execCloseArrival (asid va fifo : Nat) (ovf : Bool) (key : Nat) (d : SReg) (back : Nat) (s : State) : Out :=
  match (imageOf? s asid va).bind fun m => (m.fifos[fifo]?).map fun f => (m, f) with
  | some (m, f) =>
      let (a, b) := bufEnds m f ovf
      let back := backAt s key (hubOf a) back
      if (f.which ovf).closed then .next (s.deliverFrom (hubOf a) key back (.s d 1))
      else
        let s := (modImage s asid va fun m => m.changeBuf fifo ovf fun b => { b with closed := true }).deliverFrom
          (hubOf a) key back (.s d 0)
        if a = b then execFifoItemArrival asid va fifo ovf none s
        else .next (s.post (s.now + bufDelay m f ovf) 2 (.fifoItemArrival asid va fifo ovf none))
  | none => .next (s.tick1.deliverAt key back (.s d (if Config.freeBool s.free then 1 else 0)))

/-- SUSPEND: a gang's offers at a lantern stop being live (R265). -/
def execSuspend (gid lantern : Nat) (s : State) : Out :=
  .next { s with offers := s.offers.map fun (id, o) =>
    (id, if o.gid == gid && o.lantern == lantern && o.live then { o with live := false, susp := true, hist := [] } else o) }

/-- On resume a suspended offer is sent again from the new position; a BAR goes to the new cluster's lantern (R265, R279). -/
def resendOffer (s : State) (id cluster start : Nat) : State :=
  match mget? s.offers id with
  | some o =>
      if o.fired || o.gone then s
      else
        let o' := { o with susp := false, live := false, hist := [], lantern := if o.bar then cluster else o.lantern }
        let s := { s with
          offers := mset s.offers id o'
          agenda := s.agenda.filter fun e => e.ev != .offerArrival id }
        sendOffer s id start
  | none => s

/-! ### Port instructions (R250, R251, R273 to R279) -/

/-- Steps 1 to 3 of R275: the image and the port of a reference, or a cause with its sub-code. -/
def portRef (s : State) (gid : Nat) (c : Word) : Except (Nat × Nat) (Image × Nat) :=
  let conns := ((s.headerOf gid).map fun h => h.conns).getD []
  let n := c.toNat
  if bitsOf n 63 60 ≠ 2 || bitsOf n 59 57 ≠ 0 || bitsOf n 47 0 ≠ 0 then .error (cCAPABILITY, 0)
  else match conns[bitsOf n 56 54]? with
    | none => .error (cCAPABILITY, 0)
    | some va =>
        match imageOf? s (s.asidOf gid) va with
        | none => .error (cCONNECTOR, 5)
        | some m =>
            if s.now < m.ready then .error (cCONNECTOR, 5)
            else if m.ports.length ≤ bitsOf n 53 48 then .error (cCAPABILITY, 0)
            else .ok (m, bitsOf n 53 48)

def whoOf (g : Gang) (st : Strand) : Nat × BitVec 16 × Nat := (g.gid, g.gen, st.sidx)
def boundElse (m : Image) (p : Nat) (who : Nat × BitVec 16 × Nat) : Bool :=
  ((m.ports[p]?).bind fun x => x.bound).any fun b => b != who

/-- Steps 4 to 6 of R275: the ports an offer is made at, as (i, port), or a sub-code of CONNECTOR. -/
def offerPorts (m : Image) (get : Bool) (port : Nat) (mask : Option Nat) (who : Nat × BitVec 16 × Nat) : Except Nat (List (Nat × Nat)) :=
  let is := match mask with
    | some k => (List.range 8).filter fun i => k.testBit i
    | none => [0]
  let isGet (p : Nat) : Bool := ((m.ports[p]?).map fun x => x.get).getD false
  let ports := is.map fun i => (i, port + i)
  if ports.isEmpty || ports.any fun x => m.ports.length ≤ x.2 then .error 6
  else match ports with
    | [] => .error 6
    | p :: rest =>
        if isGet p.2 != get then .error 1
        else if boundElse m p.2 who then .error 2
        else match rest.findSome? (fun x =>
            if !isGet x.2 || portLantern m x.2 != portLantern m p.2 then some 3
            else if boundElse m x.2 who then some 2 else none) with
          | some c => .error c
          | none => .ok ports

/-- An offer of the current strand (R276): the checks, the binding, the message; the strand sleeps. -/
def makeOffer (i : Instr) (st : Strand) (g : Gang) (ref : Word) (mask : Option Nat) (put vec : Bool) (item : Item)
    (deadline : Option Word) (d : Fin 32) (c : SReg) (s : State) : Res :=
  match portRef s st.gid ref with
  | .error e => .trap e.1 e.2 ref
  | .ok (m, port) =>
      match offerPorts m (!put) port mask (whoOf g st) with
      | .error sub => .trap cCONNECTOR sub ref
      | .ok ports =>
          let o : Offer := { key := s.cur, gid := st.gid, bar := false, asid := m.asid, va := m.va, put := put, vec := vec,
                             any := mask.isSome, ports := ports, item := item, deadline := deadline, d := d, c := c, live := false,
                             susp := false, fired := false, gone := false, ref := ref
                             lantern := portLantern m ((ports.head?.map fun x => x.2).getD 0), hist := [] }
          let start := releaseCycle s s.cur
          let s := modImage s m.asid m.va fun m => { m with ports := ports.foldl (fun l x =>
            updAt l x.2 fun y => { y with bound := some (whoOf g st) }) m.ports }
          let id := s.nextOffer
          let s := { s with nextOffer := id + 1, offers := mset s.offers id o }
          .hold ((sendOffer s id start).sleepIn (.port id) i.len)

def svVec : SV → Bool
  | .s _ => false
  | .v _ => true
def svReg : SV → Fin 32
  | .s r => r
  | .v r => r
def svItem (st : Strand) : SV → Item
  | .s r => .scalar (sreg st r)
  | .v r => .vector (vreg st r)

/-- PUT. -/
def execPut (g : Guard) (d a : SReg) (b : SV) (s : State) : Out :=
  issue (.put g d a b) g (fun st gang _ s =>
    makeOffer (.put g d a b) st gang (sreg st a) none true (svVec b) (svItem st b) none d 0 s) s
/-- GET. -/
def execGet (g : Guard) (d : SV) (a c : SReg) (s : State) : Out :=
  issue (.get g d a c) g (fun st gang _ s =>
    makeOffer (.get g d a c) st gang (sreg st a) none false (svVec d) (.scalar 0) none (svReg d) c s) s
/-- PUTD. -/
def execPutd (g : Guard) (d a : SReg) (b : SV) (c : SReg) (s : State) : Out :=
  issue (.putd g d a b c) g (fun st gang _ s =>
    makeOffer (.putd g d a b c) st gang (sreg st a) none true (svVec b) (svItem st b) (some (sreg st c)) d 0 s) s
/-- GETD. -/
def execGetd (g : Guard) (d : SV) (a b c : SReg) (s : State) : Out :=
  issue (.getd g d a b c) g (fun st gang _ s =>
    makeOffer (.getd g d a b c) st gang (sreg st a) none false (svVec d) (.scalar 0) (some (sreg st b)) (svReg d) c s) s
/-- GETANY. -/
def execGetany (g : Guard) (d : SV) (a : SReg) (m : MaskSrc) (c : SReg) (s : State) : Out :=
  issue (.getany g d a m c) g (fun st gang _ s =>
    let mask := match m with
      | .reg b => (sreg st b).toNat % 256
      | .imm k => k.toNat
    makeOffer (.getany g d a m c) st gang (sreg st a) (some mask) false (svVec d) (.scalar 0) none (svReg d) c s) s

/-- CLOSE (R275, R278). -/
def execClose (g : Guard) (d a : SReg) (s : State) : Out :=
  issue (.close g d a) g (fun st gang _ s =>
    let ref := sreg st a
    match portRef s st.gid ref with
    | .error e => .trap e.1 e.2 ref
    | .ok (m, p) =>
        if !((m.ports[p]?).map fun x => x.get).getD false then .trap cCONNECTOR 1 ref
        else match bufOfPort m p with
          | none => .trap cCONNECTOR 4 ref
          | some (f, ovf) =>
              let c := regionLantern m (((m.fifos[f]?).map fun x => x.up).getD 0)
              let q := gang.quadOf st.sidx
              .done ((s.awaitReg (.s d)).post (s.now + oneWay q (hubOf c)) 2
                (.closeArrival m.asid m.va f ovf s.cur d (s.now + roundTrip q (hubOf c))))) s

/-- BAR (R279). -/
def execBar (g : Guard) (s : State) : Out :=
  issue (.bar g) g (fun st gang _ s =>
    let o : Offer := { key := s.cur, gid := st.gid, bar := true, asid := 0, va := 0, put := false, vec := false, any := false,
                       ports := [], item := .scalar 0, deadline := none, d := 0, c := 0, live := false, susp := false, fired := false,
                       gone := false, ref := 0, lantern := gang.cluster, hist := [] }
    let start := releaseCycle s s.cur
    let id := s.nextOffer
    let s := { s with nextOffer := id + 1, offers := mset s.offers id o }
    .hold ((sendOffer s id start).sleepIn (.barrier id) (Instr.bar g).len)) s

/-- The cluster of a grid's first placed gang (R272). -/
def homeCluster (s : State) (grid : Nat) : Nat := ((s.grid? grid).map fun x => x.home).getD 0

/-- CONLD (R273). (DEDUCED, log entry 54.) -/
def execConld (g : Guard) (d a : SReg) (s : State) : Out :=
  issue (.conld g d a) g (fun st gang _ s =>
    let va := sreg st a
    if va.toNat % 64 ≠ 0 then .trap cALIGN 0 va
    else
      let asid := s.asidOf st.gid
      let wr (n : Nat) (w : Word) (s : State) : Res := .done (s.wrFrom hub0 n d w)
      match loadImage s asid va.toNat (homeCluster s gang.grid) with
      | (.shared ready, s) =>
          wr (max 1 (ready - s.now)) 1 (modImage s asid va.toNat fun m => { m with refs := m.refs + 1 })
      | (.loaded size m, s) =>
          wr (loadCycles size) 0 { s with images := s.images ++ [{ m with refs := 1, ready := s.now + loadCycles size }] }
      | (.noRoom, s) => wr 200 2 s
      | (.bad, s) => wr 200 3 s
      | (.unreadable, s) => wr 200 4 s) s

/-- CONUL (R273): sD at 4h + 5 to the lantern of region 0. (DEDUCED, log entry 54.) -/
def execConul (g : Guard) (d a : SReg) (s : State) : Out :=
  issue (.conul g d a) g (fun st gang _ s =>
    let va := sreg st a
    if va.toNat % 64 ≠ 0 then .trap cALIGN 0 va
    else
      let asid := s.asidOf st.gid
      let q := gang.quadOf st.sidx
      match imageOf? s asid va.toNat with
      | none => .done (s.wrFrom (hubOf gang.cluster) (roundTrip q (hubOf gang.cluster)) d 2)
      | some m =>
          let q' := hubOf (regionLantern m 0)
          .done ((dropRef s asid va.toNat).wrFrom q' (roundTrip q q') d (if m.refs ≤ 1 then 0 else 1))) s

end Sys2Proof.Machine
end

