-- ==== Sys2Proof/Machine/Special.lean ====
section
/-! DEFINITION. The special functions as exact mappings (R242 to R244). A value that is not dyadic is computed in fixed point
to `prec` fractional bits and made inexact by an odd last digit, so that one rounding (R91) gives the nearest FP32 value; no
FP32 operand lies so close to a rounding boundary that the last digits matter (UNVERIFIED, log entry 27). -/

namespace Sys2Proof.Machine

/-- Fractional bits of the fixed-point computations. -/
def prec : Nat := 384

/-- An inexact value `m * 2^e` that lies strictly between two multiples of `2^e`. -/
def sticky (neg : Bool) (m : Nat) (e : Int) : XVal := .fin neg (2 * m + 1) (e - 1)

/-- A value `m * 2^e` less a part too small to matter to anything but exactness. -/
def justBelow (neg : Bool) (m : Nat) (e : Int) : XVal := .fin neg (m * 2 ^ 200 - 1) (e - 200)

/-- Integer square root below `2^fuel`, digit by digit. -/
def isqrt (n : Nat) : Nat → Nat → Nat
  | 0, r => r
  | b + 1, r => isqrt n b (if (r + 2 ^ b) * (r + 2 ^ b) ≤ n then r + 2 ^ b else r)

/-- `m * 2^e` in fixed point. -/
def toFixed (m : Nat) (e : Int) : Nat :=
  if 0 ≤ e + prec then m * 2 ^ (e + prec).toNat else m / 2 ^ (-(e + prec)).toNat

/-! ### Series -/

/-- `sum over k of t^k / k!` from a term on. -/
def expSeries (x : Nat) : Nat → Nat → Nat → Nat
  | 0, _, _ => 0
  | n + 1, k, t => t + expSeries x n (k + 1) (t * x / 2 ^ prec / (k + 1))
/-- e^x for x below 1. -/
def expFixed (x : Nat) : Nat := expSeries x 100 0 (2 ^ prec)

/-- `sum over k of y^(2k+1) / (2k+1)` from a power on, alternating or not. -/
def oddSeries (alt : Bool) (sq : Nat) : Nat → Nat → Nat → Int
  | 0, _, _ => 0
  | n + 1, k, p =>
      let rest := oddSeries alt sq n (k + 2) (p * sq / 2 ^ prec)
      (p / k : Nat) + (if alt then -rest else rest)
/-- atanh y for y up to 1/3. -/
def atanhFixed (y : Nat) : Nat := (oddSeries false (y * y / 2 ^ prec) 130 1 y).toNat
/-- atan y for y up to 1/5. -/
def atanFixed (y : Nat) : Nat := (oddSeries true (y * y / 2 ^ prec) 100 1 y).toNat

def ln2Fixed : Nat := 2 * atanhFixed (2 ^ prec / 3)
def piFixed : Nat := 16 * atanFixed (2 ^ prec / 5) - 4 * atanFixed (2 ^ prec / 239)

/-- Alternating `sum of x^(k+2i) / (k+2i)!` from a term on. -/
def trigSeries (sq : Nat) : Nat → Nat → Nat → Int
  | 0, _, _ => 0
  | n + 1, k, t => (t : Int) - trigSeries sq n (k + 2) (t * sq / 2 ^ prec / ((k + 1) * (k + 2)))
def sinFixed (x : Nat) : Nat := (trigSeries (x * x / 2 ^ prec) 60 1 x).toNat
def cosFixed (x : Nat) : Nat := (trigSeries (x * x / 2 ^ prec) 60 0 (2 ^ prec)).toNat

/-! ### The functions on a finite non-zero operand `(-1)^neg * m * 2^e` -/

def rcpOf (neg : Bool) (m : Nat) (e : Int) : XVal :=
  let q := 2 ^ 200 / m
  if q * m = 2 ^ 200 then .fin neg q (-200 - e) else sticky neg q (-200 - e)

/-- Significand and exponent with an even exponent. -/
def evenExp (m : Nat) (e : Int) : Nat × Int := if e % 2 = 0 then (m, e) else (2 * m, e - 1)

def sqrtOf (m : Nat) (e : Int) : XVal :=
  let (m, e) := evenExp m e
  let n := m * 2 ^ 80
  let r := isqrt n 64 0
  if r * r = n then .fin false r (e / 2 - 40) else sticky false r (e / 2 - 40)

def rsqOf (m : Nat) (e : Int) : XVal :=
  let (m, e) := evenExp m e
  let n := 2 ^ 120 / m
  let r := isqrt n 64 0
  if r * r * m = 2 ^ 120 then .fin false r (-(e / 2) - 60) else sticky false r (-(e / 2) - 60)

def exp2Of (neg : Bool) (m : Nat) (e : Int) : XVal :=
  let v : Int := (if neg then -1 else 1) * (toFixed m e : Int)
  let n := v / 2 ^ prec
  let f := (v % 2 ^ prec).toNat
  if 128 ≤ n then .fin false 1 200
  else if n < -150 then sticky false 0 (-400)
  else if f = 0 then .fin false 1 n
  else sticky false (expFixed (f * ln2Fixed / 2 ^ prec)) (n - prec)

def log2Of (m : Nat) (e : Int) : XVal :=
  let k := m.log2
  let top : Int := e + k
  if m = 2 ^ k then xOfInt top
  else
    let z := toFixed m (-(k : Int))
    let one := 2 ^ prec
    let ln := 2 * atanhFixed ((z - one) * one / (z + one))
    let y : Int := top * 2 ^ prec + (ln * one / ln2Fixed : Nat)
    sticky (decide (y < 0)) y.natAbs (-prec)

/-- sin or cos of |x|, x not tiny: reduction by multiples of pi / 2. -/
def trigOf (cos : Bool) (m : Nat) (e : Int) : XVal :=
  let x := toFixed m e
  let h := piFixed / 2
  let q := (2 * x + h) / (2 * h)
  let r : Int := (x : Int) - q * h
  let k := (q + if cos then 1 else 0) % 4
  let (mag, neg) : Nat × Bool :=
    match k with
    | 0 => (sinFixed r.natAbs, decide (r < 0))
    | 1 => (cosFixed r.natAbs, false)
    | 2 => (sinFixed r.natAbs, decide (0 ≤ r))
    | _ => (cosFixed r.natAbs, true)
  sticky neg mag (-prec)

def tanhOf (m : Nat) (e : Int) : XVal :=
  let x := 2 * toFixed m e
  let n := x / ln2Fixed
  let one := 2 ^ prec
  let ex := expFixed (x % ln2Fixed) * 2 ^ n
  sticky false ((ex - one) * one / (ex + one)) (-prec)

/-! ### Special operands and results (R244) -/

inductive Sfu where
  | rcp | rsq | sqrt | exp2 | log2 | sin | cos | tanh
  deriving DecidableEq, Repr

def one32 : Nat := 0x3F800000
def inf32 : Nat := 0x7F800000
def nan32 : Nat := 0x7FC00000
def sgn32 (neg : Bool) : Nat := if neg then 0x80000000 else 0

/-- The function of an infinity. -/
def sfuInf (f : Sfu) (neg : Bool) : Nat × Flags :=
  match f with
  | .rcp => (sgn32 neg, 0)
  | .rsq => if neg then (nan32, fINV) else (0, 0)
  | .sqrt | .log2 => if neg then (nan32, fINV) else (inf32, 0)
  | .exp2 => if neg then (0, 0) else (inf32, 0)
  | .sin | .cos => (nan32, fINV)
  | .tanh => (sgn32 neg + one32, 0)

/-- The function of a zero. -/
def sfuZero (f : Sfu) (neg : Bool) : Nat × Flags :=
  match f with
  | .rcp | .rsq => (sgn32 (neg) + inf32, fDZ)
  | .log2 => (0x80000000 + inf32, fDZ)
  | .exp2 | .cos => (one32, 0)
  | .sqrt | .sin | .tanh => (sgn32 neg, 0)

/-- A finite non-zero operand that lies in the function's range. -/
def sfuValue (f : Sfu) (neg : Bool) (m : Nat) (e : Int) : XVal :=
  let top : Int := m.log2 + e
  match f with
  | .rcp => rcpOf neg m e
  | .rsq => rsqOf m e
  | .sqrt => sqrtOf m e
  | .exp2 => if top ≥ 20 then (if neg then sticky false 0 (-400) else .fin false 1 200) else exp2Of neg m e
  | .log2 => log2Of m e
  | .sin => if top < -80 then justBelow neg m e
            else match trigOf false m e with
              | .fin k a b => .fin (k != neg) a b
              | x => x
  | .cos => if top < -80 then justBelow false 1 0 else trigOf true m e
  | .tanh => if top < -80 then justBelow neg m e
             else if top ≥ 7 then justBelow neg 1 0
             else match tanhOf m e with
              | .fin _ a b => .fin neg a b
              | x => x

/-- A special function of an FP32 code (R243, R244): result and flags. -/
def sfu (f : Sfu) (rm : Rm) (n : Nat) : Nat × Flags :=
  match fpDecode .f32 n with
  | .nan sig => (nan32, if sig then fINV else 0)
  | .inf neg => sfuInf f neg
  | .fin neg m e =>
      if m = 0 then sfuZero f neg
      else if neg && (f == .rsq || f == .sqrt || f == .log2) then (nan32, fINV)
      else if (f == .sin || f == .cos) && xcmp (.fin false 1 20) (.fin false m e) == .lt then (nan32, fINV)
      else if f == .exp2 && neg && xcmp (.fin false m e) (.fin false 150 0) != .lt then (0, fUF ||| fNX)
      else
        let r := rnd .f32 rm false 0 (sfuValue f neg m e)
        (r.code, r.flags)

end Sys2Proof.Machine
end

