-- ==== Sys2Proof/Machine/Vector.lean ====
section
/-! DEFINITION. Vector and special-function instructions (R222 to R248): lane patterns, elementwise operations under the lane
mask, moves, conversions, MX blocks, dot products, reductions, scans, special functions, random numbers, sort. -/

namespace Sys2Proof.Machine

/-! ### Operands (R222, R224, R226) -/

/-- The lane that lane `i` reads under a pattern (R224). -/
def patLane (p : Pat) (i : Nat) : Nat :=
  match p with
  | .none => i
  | .rot k => (i + 32 - k.toNat) % 32
  | .rev => 31 - i
  | .xor k => i ^^^ k.toNat
  | .bcast k => k.toNat
  | .gbcast k => 8 * (i / 8) + k.toNat

/-- `pat(v, kind, k)`. -/
def pattern (v : VVal) (p : Pat) : VVal := vmk fun i => lane v (patLane p i)
/-- A' or B'. -/
def vop (st : Strand) (o : VOp) : VVal := pattern (vreg st o.r) o.pat
/-- The last vector source: IMM32 in every lane. -/
def vsrc (st : Strand) : VSrc → VVal
  | .reg o => vop st o
  | .imm i => vmk fun _ => i

/-- Element `j` of a lane at width `w`. -/
def el (w : Nat) (u : Lane) (j : Nat) : Nat := u.toNat / 2 ^ (w * j) % 2 ^ w
/-- A lane from its elements at width `w`. -/
def packEls (w : Nat) (xs : List Nat) : Lane := BitVec.ofNat 32 (xs.foldr (fun x a => x + 2 ^ w * a) 0)
/-- Elements of width `w` in a lane. -/
def perLane (w : Nat) : Nat := 32 / w

/-- Results of `n` elements a lane, and the flags of the lanes whose mask bit is 1 (R96, R230). The function receives the lane,
the element and the chunk of SR in result order (R93). -/
def elementwise (w n : Nat) (mask : Lane) (us : Array Nat) (f : Nat → Nat → Nat → Nat × Flags) : VVal × Flags :=
  let rows := (List.range 32).map fun i =>
    if mask.getLsbD i then (List.range n).map fun j => f i j (us.getD (n * i + j) 0) else []
  (vmk fun i => packEls w ((rows.getD i []).map fun r => r.1),
   rows.foldl (fun a r => r.foldl (fun a x => a ||| x.2) a) 0)

/-- The chunks of `n` results under SR, with the counter moved (R93); none otherwise. -/
def srChunks (st : Strand) (rm : Rm) (n : Nat) (s : State) : Array Nat × State :=
  if rm == .sr then
    let blocks := (n + 7) / 8
    ((chunks st.rngk st.rngc.toNat blocks).toArray,
     s.modCur fun st => { st with rngc := st.rngc + BitVec.ofNat 128 blocks })
  else (#[], s)

/-- An elementwise instruction of type `t` that rounds under `rm`, and can set a flag or not (R98, R230). -/
def mould (i : Instr) (l : Nat) (g : Guard) (t : Fmt) (rm : Rm) (can : Bool) (d : VReg) (f : Strand → Nat → Nat → Nat → Nat × Flags)
    (s : State) : Out :=
  issueDone i g (fun st m s =>
    let n := perLane (Fmt.width t)
    let (us, s) := srChunks st rm (32 * n) s
    let (v, fl) := elementwise (Fmt.width t) n m us (f st)
    (s.flags can l fl).wrV l d m v) s

/-- Arithmetic of a type can set a flag: floating-point always, integers when they clamp (R96). -/
def arithFlags (t : Fmt) (sati : Bool) : Bool := !Fmt.isInt t || sati

/-- Latency of the arithmetic of a type (R227). -/
def arithL (t : Fmt) (int : Nat) : Nat := if Fmt.isInt t then int else 4

/-- An integer result wrapped, or clamped under SATI (R85, R230). -/
def intRes (t : Fmt) (sati : Bool) (v : Int) : Nat × Flags := clampInt (t != .ui8) (Fmt.width t) sati v
def intEl (t : Fmt) (n : Nat) : Int := intOf (t != .ui8) (Fmt.width t) n

/-- One element of VADD, VSUB, VMUL (R230). -/
def arith2 (t : Fmt) (rm : Rm) (sati : Bool) (fi : Int → Int → Int) (ff : XVal → XVal → List XVal) (u x y : Nat) : Nat × Flags :=
  if Fmt.isInt t then intRes t sati (fi (intEl t x) (intEl t y))
  else let r := xsumRnd t rm u (ff (fpDecode t x) (fpDecode t y)); (r.code, r.flags)

/-- VADD, VSUB, VMUL over their element function. -/
def arithOp (i : Instr) (li : Nat) (g : Guard) (t : Fmt) (rm : Rm) (sati : Bool) (d : VReg) (a : VOp) (b : VSrc)
    (fi : Int → Int → Int) (ff : XVal → XVal → List XVal) (s : State) : Out :=
  mould i (arithL t li) g t rm (arithFlags t sati) d (fun st =>
    let x := vop st a
    let y := vsrc st b
    fun k j u => arith2 t rm sati fi ff u (el (Fmt.width t) (lane x k) j) (el (Fmt.width t) (lane y k) j)) s

/-! ### Elementwise arithmetic and logic (R229, R230) -/

/-- VADD. -/
def execVadd (g : Guard) (t : Fmt) (rm : Rm) (sati : Bool) (d : VReg) (a : VOp) (b : VSrc) (s : State) : Out :=
  arithOp (.vadd g t rm sati d a b) 2 g t rm sati d a b (· + ·) (fun x y => [x, y]) s
/-- VSUB. -/
def execVsub (g : Guard) (t : Fmt) (rm : Rm) (sati : Bool) (d : VReg) (a : VOp) (b : VSrc) (s : State) : Out :=
  arithOp (.vsub g t rm sati d a b) 2 g t rm sati d a b (· - ·) (fun x y => [x, xneg y]) s
/-- VMUL. -/
def execVmul (g : Guard) (t : Fmt) (rm : Rm) (sati : Bool) (d : VReg) (a : VOp) (b : VSrc) (s : State) : Out :=
  arithOp (.vmul g t rm sati d a b) 4 g t rm sati d a b (· * ·) (fun x y => [xmul x y]) s

/-- One element of VFMA: one rounding; `.wlo` and `.whi` widen the factors into FP32. -/
def fmaEl (t : Fmt) (w : Wide) (rm : Rm) (sati : Bool) (x y z : Lane) (j u : Nat) : Nat × Flags :=
  let n := Fmt.width t
  match w with
  | .no =>
      if Fmt.isInt t then intRes t sati (intEl t (el n x j) * intEl t (el n y j) + intEl t (el n z j))
      else
        let r := xsumRnd t rm u [xmul (fpDecode t (el n x j)) (fpDecode t (el n y j)), fpDecode t (el n z j)]
        (r.code, r.flags)
  | _ =>
      let h := if w == .hi then 1 else 0
      let r := xsumRnd .f32 rm u [xmul (fpDecode t (el 16 x h)) (fpDecode t (el 16 y h)), fpDecode .f32 z.toNat]
      (r.code, r.flags)

/-- VFMA. -/
def execVfma (g : Guard) (t : Fmt) (w : Wide) (rm : Rm) (sati : Bool) (d : VReg) (a : VOp) (b : VSrc) (c : VReg) (s : State) : Out :=
  mould (.vfma g t w rm sati d a b c) 4 g (if w == .no then t else .f32) rm (w != .no || arithFlags t sati) d (fun st =>
    let x := vop st a
    let y := vsrc st b
    let z := vreg st c
    fun k j u => fmaEl t w rm sati (lane x k) (lane y k) (lane z k) j u) s

/-- One element of VMIN or VMAX (R102, R230). -/
def minMaxEl (t : Fmt) (uns max : Bool) (x y : Nat) : Nat × Flags :=
  if Fmt.isInt t then
    let v (n : Nat) := intOf (!uns && t != .ui8) (Fmt.width t) n
    (if decide (v x < v y) != max then x else y, 0)
  else minMaxNum t max x y

/-- VMIN and VMAX. -/
def minMaxOp (i : Instr) (max : Bool) (g : Guard) (t : Fmt) (u : Bool) (d : VReg) (a : VOp) (b : VSrc) (s : State) : Out :=
  mould i 2 g t .rne (!Fmt.isInt t) d (fun st =>
    let x := vop st a
    let y := vsrc st b
    fun k j _ => minMaxEl t u max (el (Fmt.width t) (lane x k) j) (el (Fmt.width t) (lane y k) j)) s

/-- VMIN. -/
def execVmin (g : Guard) (t : Fmt) (u : Bool) (d : VReg) (a : VOp) (b : VSrc) (s : State) : Out :=
  minMaxOp (.vmin g t u d a b) false g t u d a b s
/-- VMAX. -/
def execVmax (g : Guard) (t : Fmt) (u : Bool) (d : VReg) (a : VOp) (b : VSrc) (s : State) : Out :=
  minMaxOp (.vmax g t u d a b) true g t u d a b s

/-- The sign bit cleared or inverted; a NaN gives the canonical NaN (R89, R230). -/
def signEl (t : Fmt) (neg : Bool) (x : Nat) : Nat × Flags :=
  let top := 2 ^ (Fmt.width t - 1)
  match fpDecode t x with
  | .nan sig => (Fmt.nanCode t, if sig then fINV else 0)
  | _ => (if neg then (x + top) % (2 * top) else x % top, 0)

/-- VABS and VNEG. -/
def signOp (i : Instr) (neg : Bool) (g : Guard) (t : Fmt) (sati : Bool) (d : VReg) (a : VOp) (s : State) : Out :=
  mould i 2 g t .rne (arithFlags t (sati && (neg || t != .ui8))) d (fun st =>
    let x := vop st a
    fun k j _ =>
      let e := el (Fmt.width t) (lane x k) j
      if Fmt.isInt t then intRes t sati (if neg then -intEl t e else (intEl t e).natAbs) else signEl t neg e) s

/-- VABS. -/
def execVabs (g : Guard) (t : Fmt) (sati : Bool) (d : VReg) (a : VOp) (s : State) : Out :=
  signOp (.vabs g t sati d a) false g t sati d a s
/-- VNEG. -/
def execVneg (g : Guard) (t : Fmt) (sati : Bool) (d : VReg) (a : VOp) (s : State) : Out :=
  signOp (.vneg g t sati d a) true g t sati d a s

/-- A whole-lane operation of latency `l`. -/
def laneOp (i : Instr) (l : Nat) (g : Guard) (d : VReg) (f : Strand → Nat → Lane) (s : State) : Out :=
  issueDone i g (fun st m s => s.wrV l d m (vmk (f st))) s

/-- VAND. -/
def execVand (g : Guard) (d : VReg) (a : VOp) (b : VSrc) (s : State) : Out :=
  laneOp (.vand g d a b) 2 g d (fun st i => lane (vop st a) i &&& lane (vsrc st b) i) s
/-- VOR. -/
def execVor (g : Guard) (d : VReg) (a : VOp) (b : VSrc) (s : State) : Out :=
  laneOp (.vor g d a b) 2 g d (fun st i => lane (vop st a) i ||| lane (vsrc st b) i) s
/-- VXOR. -/
def execVxor (g : Guard) (d : VReg) (a : VOp) (b : VSrc) (s : State) : Out :=
  laneOp (.vxor g d a b) 2 g d (fun st i => lane (vop st a) i ^^^ lane (vsrc st b) i) s

/-- One element shifted left by an unsigned count. -/
def shlEl (w x c : Nat) : Nat := if w ≤ c then 0 else x * 2 ^ c % 2 ^ w
/-- One element shifted right: sign fill, or zero fill. -/
def shrEl (w : Nat) (logical : Bool) (x c : Nat) : Nat :=
  if logical then (if w ≤ c then 0 else x / 2 ^ c)
  else (intOf true w x / 2 ^ (min c w) % 2 ^ w).toNat

/-- VSHL. -/
def execVshl (g : Guard) (t : Fmt) (d : VReg) (a : VOp) (b : VSrc) (s : State) : Out :=
  mould (.vshl g t d a b) 2 g t .rne false d (fun st k j _ =>
    (shlEl (Fmt.width t) (el (Fmt.width t) (lane (vop st a) k) j) (el (Fmt.width t) (lane (vsrc st b) k) j), 0)) s
/-- VSHR: arithmetic for i8, i16, i32 without `.u`. -/
def execVshr (g : Guard) (t : Fmt) (u : Bool) (d : VReg) (a : VOp) (b : VSrc) (s : State) : Out :=
  mould (.vshr g t u d a b) 2 g t .rne false d (fun st k j _ =>
    (shrEl (Fmt.width t) (u || t == .ui8) (el (Fmt.width t) (lane (vop st a) k) j) (el (Fmt.width t) (lane (vsrc st b) k) j), 0)) s

/-! ### Compare, select, moves (R231 to R235) -/

/-- The conditions of VCMP on i32 (R231). -/
def icompare (c : VCond) (x y : Int) : Bool :=
  match c with
  | .eq => x == y
  | .ne => x != y
  | .lt => decide (x < y)
  | .le => decide (x ≤ y)
  | .gt => decide (y < x)
  | .ge => decide (y ≤ x)
  | .un => false

/-- VCMP: the bits of masked lanes are kept. -/
def execVcmp (g : Guard) (t : Fmt) (u : Bool) (c : VCond) (d : PReg) (a : VOp) (b : VSrc) (s : State) : Out :=
  issueDone (.vcmp g t u c d a b) g (fun st m s =>
    let x := vop st a
    let y := vsrc st b
    let rs := (List.range 32).map fun i =>
      if !m.getLsbD i then (false, (0 : Flags))
      else if t == .i32 then (icompare c (intOf (!u) 32 (lane x i).toNat) (intOf (!u) 32 (lane y i).toNat), 0)
      else fcompare c (fpDecode .f32 (lane x i).toNat) (fpDecode .f32 (lane y i).toNat)
    let bits := BitVec.ofNat 32 (rs.foldr (fun r a => (if r.1 then 1 else 0) + 2 * a) 0)
    (s.flags (t != .i32) 2 (rs.foldl (fun a r => a ||| r.2) 0)).wr 2 (.p d m bits)) s

/-- VSEL: the guard and pC are independent. -/
def execVsel (g : Guard) (d : VReg) (p : PReg) (a b : VOp) (s : State) : Out :=
  laneOp (.vsel g d p a b) 2 g d (fun st i => if (preg st p).getLsbD i then lane (vop st a) i else lane (vop st b) i) s

/-- VMOV. -/
def execVmov (g : Guard) (d : VReg) (x : VMovSrc) (s : State) : Out :=
  laneOp (.vmov g d x) 2 g d (fun st i =>
    match x with
    | .v o => lane (vop st o) i
    | .imm k => k
    | .s r => (sreg st r).setWidth 32) s

/-- The lane VEXT and VINS name. -/
def selLane (st : Strand) : LaneSel → Nat
  | .imm k => k.val
  | .reg b => (sreg st b).toNat % 32

/-- VEXT: a whole-instruction guard. -/
def execVext (g : Guard) (signed : Bool) (d : SReg) (a : VOp) (k : LaneSel) (s : State) : Out :=
  issueDone (.vext g signed d a k) g (fun st _ s =>
    let x := lane (vop st a) (selLane st k)
    s.wrS 2 d (if signed then x.signExtend 64 else x.setWidth 64)) s

/-- VINS: no lane but k. -/
def execVins (g : Guard) (d : VReg) (a : SReg) (k : LaneSel) (s : State) : Out :=
  issueDone (.vins g d a k) g (fun st m s =>
    s.wrV 2 d (m &&& BitVec.ofNat 32 (2 ^ selLane st k)) (vmk fun _ => (sreg st a).setWidth 32)) s

/-- VPERM: one table, or two. -/
def execVperm (g : Guard) (d : VReg) (a b : VOp) (c : Option VReg) (s : State) : Out :=
  laneOp (.vperm g d a b c) 3 g d (fun st i =>
    let x := (lane (vop st b) i).toNat
    match c with
    | none => lane (vop st a) (x % 32)
    | some r => if x % 64 < 32 then lane (vop st a) (x % 64) else lane (vreg st r) (x % 64 - 32)) s

/-! ### Conversions (R236, R237) -/

/-- A lane of VCVT: results in order, placed as R236 maps them. -/
def cvtLane (wd : Nat) (ws part : Nat) (old : Lane) (rs : List Nat) : Lane :=
  if wd < ws then
    packEls wd ((List.range (perLane wd)).map fun j =>
      let n := perLane ws
      if n * part ≤ j && j < n * part + n then rs.getD (j - n * part) 0 else el wd old j)
  else packEls wd rs

/-- VCVT: 32 × 32 / max(ws, wd) results, each with a chunk under SR. -/
def execVcvt (g : Guard) (u : Bool) (part : BitVec 2) (sat : Bool) (rm : Rm) (dst src : Fmt) (d : VReg) (a : VOp) (s : State) : Out :=
  issueDone (.vcvt g u part sat rm dst src d a) g (fun st m s =>
    let ws := Fmt.width src
    let wd := Fmt.width dst
    let n := perLane (max ws wd)
    let (us, s) := srChunks st rm (32 * n) s
    let x := vop st a
    let rows := (List.range 32).map fun i => (List.range n).map fun j =>
      convert dst src u sat rm (us.getD (n * i + j) 0) (el ws (lane x i) (if ws < wd then part.toNat * n + j else j))
    let fl := ((List.range 32).filter fun i => m.getLsbD i).foldl (fun a i =>
      (rows.getD i []).foldl (fun a r => a ||| r.2) a) (0 : Flags)
    let v := vmk fun i => cvtLane wd ws part.toNat (lane (vreg st d) i) ((rows.getD i []).map fun r => r.1)
    (s.flags (convertFlags dst src u sat) 4 fl).wrV 4 d m v) s

/-- Lane and element of element `j` of a block's part `k` (R237). -/
def mxPlace (elem : Fmt) (k j : Nat) : Nat × Nat := if Fmt.width elem = 4 then (4 * k + j / 8, j % 8) else (8 * k + j / 4, j % 4)

/-- Part `k` of a register holds a block's elements. -/
def mxPut (elem : Fmt) (v : VVal) (k : Nat) (es : List Nat) : VVal :=
  let w := Fmt.width elem
  let n := perLane w
  let first := if w = 4 then 4 * k else 8 * k
  vmk fun i =>
    if first ≤ i && i < first + 32 / n then packEls w ((es.drop ((i - first) * n)).take n) else lane v i

/-- VPACK: one MX block under a whole-instruction guard. -/
def execVpack (g : Guard) (t : Fmt) (sat : Bool) (rm : Rm) (d : VReg) (a : VOp) (k : Fin 8) (c : SReg) (s : State) : Out :=
  issueDone (.vpack g t sat rm d a k c) g (fun st _ s =>
    let (us, s) := srChunks st rm 32 s
    let elem := Fmt.elem t
    let xs := (lanes (vop st a)).map fun x => x.toNat
    let (sc, es, fl) := mxEncode elem rm sat xs ((List.range 32).map fun i => us.getD i 0)
    ((s.flags true 4 fl).wrV 4 d (BitVec.allOnes 32) (mxPut elem (vreg st d) k.val es)).wrS 4 c
      (setField (sreg st c) (8 * k.val + 7) (8 * k.val) sc)) s

/-- VUNPK. -/
def execVunpk (g : Guard) (t : Fmt) (d : VReg) (a : VOp) (k : Fin 8) (c : SReg) (s : State) : Out :=
  issueDone (.vunpk g t d a k c) g (fun st m s =>
    let elem := Fmt.elem t
    let x := vop st a
    let sc := bitsOf (sreg st c).toNat (8 * k.val + 7) (8 * k.val)
    let (v, fl) := elementwise 32 1 m #[] fun i _ _ =>
      let (l, j) := mxPlace elem k.val i
      let r := mxDecode elem sc (el (Fmt.width elem) (lane x l) j)
      (r.code, r.flags)
    (s.flags true 4 fl).wrV 4 d m v) s

/-! ### Dot products, reductions, scans (R238 to R241) -/

/-- One lane of VDOT. -/
def dotLane (t : Fmt) (rm : Rm) (sati : Bool) (x y acc : Lane) (u : Nat) : Nat × Flags :=
  let w := Fmt.width t
  let js := List.range (perLane w)
  if Fmt.isInt t then
    clampInt true 32 sati (js.foldl (fun a j => a + intEl t (el w x j) * intEl t (el w y j)) (intOf true 32 acc.toNat))
  else
    let r := xsumRnd .f32 rm u ((js.map fun j => xmul (fpDecode t (el w x j)) (fpDecode t (el w y j))) ++ [fpDecode .f32 acc.toNat])
    (r.code, r.flags)

/-- VDOT. -/
def execVdot (g : Guard) (t : Fmt) (rm : Rm) (sati : Bool) (d : VReg) (a b : VOp) (s : State) : Out :=
  mould (.vdot g t rm sati d a b) 5 g .f32 rm (arithFlags t sati) d (fun st =>
    let x := vop st a
    let y := vop st b
    fun k _ u => dotLane t rm sati (lane x k) (lane y k) (lane (vreg st d) k) u) s

/-- One combination of two values of a reduction or scan (R106, R108, R239). -/
def redStep (op : RedOp) (t : Fmt) (rm : Rm) (sati : Bool) (x y : Nat) : Nat × Flags :=
  match op, t with
  | .add, .i32 => clampInt true 32 sati (intOf true 32 x + intOf true 32 y)
  | .add, _ => let r := xsumRnd t rm 0 [fpDecode t x, fpDecode t y]; (r.code, r.flags)
  | .max, _ => minMaxEl t false true x y
  | .min, _ => minMaxEl t false false x y

/-- One level of `tree_sum`: neighbours combined in pairs. -/
def treeLevel (f : Nat → Nat → Nat × Flags) : List Nat → List Nat × Flags
  | x :: y :: rest =>
      let (r, fl) := f x y
      let (rs, fls) := treeLevel f rest
      (r :: rs, fl ||| fls)
  | l => (l, 0)

/-- `tree_sum` (R106). -/
def treeSum (f : Nat → Nat → Nat × Flags) : Nat → List Nat → Nat × Flags
  | 0, l => (l.headD 0, 0)
  | n + 1, l =>
      let (l', fl) := treeLevel f l
      let (r, fls) := treeSum f n l'
      (r, fl ||| fls)

/-- One stage of `ks_scan`: every lane from `k` on combines with the lane `k` below it; the lanes below `k`, lane 0 always, keep their
bits, those of a NaN too (R89, R108). (DEDUCED, log entry 122.) -/
def ksStage (f : Nat → Nat → Nat × Flags) (k : Nat) (l : List Nat) : List Nat × Flags :=
  let rs := (List.range l.length).map fun i => if k ≤ i then f (l.getD (i - k) 0) (l.getD i 0) else (l.getD i 0, 0)
  (rs.map fun r => r.1, rs.foldl (fun a r => a ||| r.2) 0)

/-- `ks_scan` (R108). -/
def ksScan (f : Nat → Nat → Nat × Flags) (l : List Nat) : List Nat × Flags :=
  [1, 2, 4, 8, 16].foldl (fun (l, fl) k => let (l', f') := ksStage f k l; (l', fl ||| f')) (l, 0)

def laneNats (v : VVal) : List Nat := (lanes v).map fun x => x.toNat
def ofNats (l : List Nat) : VVal := vmk fun i => BitVec.ofNat 32 (l.getD i 0)

/-- A reduction or scan can set a flag. -/
def redFlags (op : RedOp) (t : Fmt) (sati : Bool) : Bool := t != .i32 || (op == .add && sati)

/-- VRED. -/
def execVred (g : Guard) (op : RedOp) (t : Fmt) (rm : Rm) (sati : Bool) (d : SReg) (a : VOp) (s : State) : Out :=
  issueDone (.vred g op t rm sati d a) g (fun st _ s =>
    let (r, fl) := treeSum (redStep op t rm sati) 5 (laneNats (vop st a))
    (s.flags (redFlags op t sati) 8 fl).wrS 8 d (if t == .i32 then (BitVec.ofNat 32 r).signExtend 64 else BitVec.ofNat 64 r)) s

/-- VSCAN: all 32 lanes are written. -/
def execVscan (g : Guard) (op : RedOp) (t : Fmt) (rm : Rm) (sati : Bool) (d : VReg) (a : VOp) (s : State) : Out :=
  issueDone (.vscan g op t rm sati d a) g (fun st _ s =>
    let (r, fl) := ksScan (redStep op t rm sati) (laneNats (vop st a))
    (s.flags (redFlags op t sati) 10 fl).wrV 10 d (BitVec.allOnes 32) (ofNats r)) s

/-- One stage of VSCANA. (DEDUCED, log entry 122.) -/
def affineStage (rm : Rm) (k : Nat) (l : List (Nat × Nat)) : List (Nat × Nat) × Flags :=
  let rs := (List.range 32).map fun i =>
    let (a, b) := l.getD i (0, 0)
    if k ≤ i then
      let (a', b') := l.getD (i - k) (0, 0)
      let ra := xsumRnd .f32 rm 0 [xmul (fpDecode .f32 a') (fpDecode .f32 a)]
      let rb := xsumRnd .f32 rm 0 [xmul (fpDecode .f32 a) (fpDecode .f32 b'), fpDecode .f32 b]
      ((ra.code, rb.code), ra.flags ||| rb.flags)
    else ((a, b), 0)
  (rs.map fun r => r.1, rs.foldl (fun a r => a ||| r.2) 0)

/-- VSCANA: multipliers in vD, addends in vD + 1. -/
def execVscana (g : Guard) (rm : Rm) (d : VReg) (a b : VOp) (s : State) : Out :=
  issueDone (.vscana g rm d a b) g (fun st _ s =>
    let start := List.zip (laneNats (vop st a)) (laneNats (vop st b))
    let (l, fl) := [1, 2, 4, 8, 16].foldl (fun (l, fl) k => let (l', f') := affineStage rm k l; (l', fl ||| f')) (start, (0 : Flags))
    ((s.flags true 12 fl).wrV 12 d (BitVec.allOnes 32) (ofNats (l.map fun p => p.1))).wrV 12 (succV d) (BitVec.allOnes 32)
      (ofNats (l.map fun p => p.2))) s

/-! ### Special functions (R242 to R244) -/

/-- One special-function instruction of any strand of the core per 4 cycles (R227). -/
def sfuOp (i : Instr) (f : Sfu) (rm : Rm) (g : Guard) (d : VReg) (a : VOp) (s : State) : Out :=
  issue i g (fun st gang m s =>
    let (q, c, _) := gang.place st.sidx
    let free := if h : c < 4 then ((s.quad q).cores[c]).sfuFree else 0
    if s.now < free then .stall
    else
      let s := s.modQuad q fun x => { x with cores := modCore x.cores c fun y => { y with sfuFree := s.now + 4 } }
      let x := vop st a
      let (v, fl) := elementwise 32 1 m #[] fun i _ _ => sfu f rm (lane x i).toNat
      .done ((s.flags true 8 fl).wrV 8 d m v)) s

/-- VRCP. -/
def execVrcp (g : Guard) (d : VReg) (a : VOp) (s : State) : Out := sfuOp (.vrcp g d a) .rcp .rne g d a s
/-- VRSQ. -/
def execVrsq (g : Guard) (d : VReg) (a : VOp) (s : State) : Out := sfuOp (.vrsq g d a) .rsq .rne g d a s
/-- VSQRT: rounded by the rounding code. -/
def execVsqrt (g : Guard) (rm : Rm) (d : VReg) (a : VOp) (s : State) : Out := sfuOp (.vsqrt g rm d a) .sqrt rm g d a s
/-- VEXP2. -/
def execVexp2 (g : Guard) (d : VReg) (a : VOp) (s : State) : Out := sfuOp (.vexp2 g d a) .exp2 .rne g d a s
/-- VLOG2. -/
def execVlog2 (g : Guard) (d : VReg) (a : VOp) (s : State) : Out := sfuOp (.vlog2 g d a) .log2 .rne g d a s
/-- VSIN. -/
def execVsin (g : Guard) (d : VReg) (a : VOp) (s : State) : Out := sfuOp (.vsin g d a) .sin .rne g d a s
/-- VCOS. -/
def execVcos (g : Guard) (d : VReg) (a : VOp) (s : State) : Out := sfuOp (.vcos g d a) .cos .rne g d a s
/-- VTANH. -/
def execVtanh (g : Guard) (d : VReg) (a : VOp) (s : State) : Out := sfuOp (.vtanh g d a) .tanh .rne g d a s

/-! ### Random numbers (R245 to R247) -/

/-- VRNG: the counter advances by 8 whenever it issues. -/
def execVrng (g : Guard) (f32 : Bool) (d : VReg) (s : State) : Out :=
  issueDone (.vrng g f32 d) g (fun st m s =>
    let ws := ((List.range 8).flatMap fun j => philox st.rngk ((st.rngc.toNat + j) % 2 ^ 128)).toArray
    let v := vmk fun i =>
      let w := ws.getD i 0
      BitVec.ofNat 32 (if f32 then (rnd .f32 .rne false 0 (.fin false (w / 256) (-24))).code else w)
    (s.modCur fun st => { st with rngc := st.rngc + 8 }).wrV 6 d m v) s

/-- RNGSKIP. -/
def execRngskip (g : Guard) (x : SkipSrc) (s : State) : Out :=
  issueDone (.rngskip g x) g (fun st _ s =>
    let n : BitVec 128 := match x with
      | .regs a b => sreg st b ++ sreg st a
      | .imm i hi => if hi then i ++ (0 : Word) else i.setWidth 128
    s.modCur fun st => { st with rngc := st.rngc + n }) s

/-! ### Sort (R248) -/

/-- The key of a lane in sorting order: NaN after every number, in both directions. -/
def sortKey (t : Fmt) (dn : Bool) (x : Nat) : Int :=
  let num : Int :=
    if t == .i32 then intOf true 32 x
    else if 2 ^ 31 ≤ x then -(x - 2 ^ 31 : Nat) - 1 else x
  if t == .f32 && (fpDecode .f32 x).isNan then 2 ^ 33 else if dn then -num else num

/-- Inserts before the first element of a greater key, behind equal ones. -/
def sortIns (p : Int × Nat × Lane) : List (Int × Nat × Lane) → List (Int × Nat × Lane)
  | [] => [p]
  | q :: t => if p.1 < q.1 then p :: q :: t else q :: sortIns p t

/-- The stable sort of keys with their payloads; a NaN is written as the canonical NaN. -/
def sortLanes (t : Fmt) (dn : Bool) (ks : List Nat) (ps : List Lane) : List (Nat × Lane) :=
  let l := (List.zip ks ps).foldl (fun a p => sortIns (sortKey t dn p.1, p.1, p.2) a) []
  l.map fun p => (if t == .f32 && (fpDecode .f32 p.2.1).isNan then nan32 else p.2.1, p.2.2)

/-- VSORT: one of any strand of the core per 4 cycles. -/
def execVsort (g : Guard) (t : Fmt) (dn : Bool) (d : VReg) (a : VOp) (b : Option VOp) (s : State) : Out :=
  issue (.vsort g t dn d a b) g (fun st gang _ s =>
    let (q, c, _) := gang.place st.sidx
    let free := if h : c < 4 then ((s.quad q).cores[c]).sortFree else 0
    if s.now < free then .stall
    else
      let s := s.modQuad q fun x => { x with cores := modCore x.cores c fun y => { y with sortFree := s.now + 4 } }
      let ks := laneNats (vop st a)
      let l := sortLanes t dn ks (lanes (match b with
        | some o => vop st o
        | none => vop st a))
      let fl : Flags := if t == .f32 && ks.any fun x => (fpDecode .f32 x).isSig then fINV else 0
      let s := (s.flags (t == .f32) 12 fl).wrV 12 d (BitVec.allOnes 32) (ofNats (l.map fun p => p.1))
      .done (match b with
        | some _ => s.wrV 12 (succV d) (BitVec.allOnes 32) (ofNats (l.map fun p => p.2.toNat))
        | none => s)) s

end Sys2Proof.Machine
end

