-- ==== Sys2Proof/Machine/Matrix.lean ====
section
/-! DEFINITION. The matrix engine: configurations, jobs and their pipes, moves, MMA, MMAS, accumulator access (R281 to R299), and
the plan jobs (R300 to R314). -/

namespace Sys2Proof.Machine

/-! ### Configurations (R282, R283) -/

def tcKind (w : Word) : Nat := bitsOf w.toNat 31 30
def tcRowb (w : Word) : Nat := bitsOf w.toNat 23 16
def tcRows (w : Word) : Nat := bitsOf w.toNat 15 8
def tcFmt (w : Word) : Fmt := Fmt.ofCode (bitsOf w.toNat 3 0)

/-- A valid configuration (R283). -/
def cfgOk (w : Word) : Bool :=
  let b := tcRowb w
  let r := tcRows w
  if bitsOf w.toNat 3 0 = 15 then false
  else if tcKind w = 1 then tcFmt w == .f32 && decide (1 ≤ r ∧ r ≤ 64 ∧ 1 ≤ b ∧ b ≤ 64)
  else if tcKind w ≠ 0 || r = 0 || 128 < r then false
  else match tcFmt w with
    | .i8 | .ui8 | .e4m3 | .e5m2 => decide (1 ≤ b ∧ b ≤ 128)
    | .f16 | .bf16 => decide (2 ≤ b ∧ b ≤ 128 ∧ b % 2 = 0)
    | .f32 => decide (4 ≤ b ∧ b ≤ 128 ∧ b % 4 = 0)
    | .mxe2m1 => b == 68
    | _ => false

def isPlan (w : Word) : Bool := cfgOk w && tcKind w == 1
def isOrd (w : Word) : Bool := cfgOk w && tcKind w == 0

/-! ### Access to tiles, accumulators and contexts (R281, R284, R300) -/

def tileKey (q t off : Nat) : Nat := (q * 12 + t) * 16384 + off
def accKey (q a r c : Nat) : Nat := (q * 4 + a) * 8192 + r * 64 + c
/-- Key of a context register: 0 pf, 1 pg, 2 pa, 3 pb with an entry; 4 with 0 ps, 1 pr, 2 pd. -/
def planKey (ctx : Bool) (which i : Nat) : Nat := ((if ctx then 1 else 0) * 5 + which) * 64 + i

/-- Cells from a base on as an array. -/
def cellArr {w : Nat} (m : CMap w) (base n : Nat) : Array Nat :=
  (cslice m base (base + n)).foldr (fun c a => a.setIfInBounds c.1 c.2.toNat) (Array.replicate n 0)

def tileArr (s : State) (q t : Nat) : Array Nat := cellArr s.tiles (tileKey q t 0) 16384
def accArr (s : State) (q a : Nat) : Array Nat := cellArr s.acc (accKey q a 0 0) 8192

/-- Bytes of an ordinary row: its number of bytes and where it begins; a plan row is two tile rows (R284, R291). -/
def rowBytes (cfg : Word) : Nat := if tcKind cfg = 1 then 4 * tcRowb cfg else tcRowb cfg
def rowStride (cfg : Word) : Nat := if tcKind cfg = 1 then 256 else 128

/-- Element `k` of row `r` of an operand (R284, R293): `a` is its tile, `b` the second tile of a 16-bit pair. -/
def operandEl (cfg : Word) (a b : Array Nat) (r k : Nat) : XVal :=
  let f := tcFmt cfg
  let at' (t : Array Nat) (i : Nat) : Nat := t.getD (128 * r + i) 0
  match f with
  | .f16 | .bf16 =>
      let t := if k < 64 then a else b
      let k := k % 64
      if tcRowb cfg ≤ 2 * k then .fin false 0 0 else fpDecode f (at' t (2 * k) + 256 * at' t (2 * k + 1))
  | .mxe2m1 =>
      let nib := at' a (k / 2) / (if k % 2 = 0 then 1 else 16) % 16
      let sc := at' a (64 + k / 32)
      if sc = 255 then .nan true else mxValue .e2m1 sc nib
  | _ => if tcRowb cfg ≤ k then .fin false 0 0 else fmtDecode f false (at' a k)

/-- A signed element of an integer operand. -/
def operandInt (cfg : Word) (a : Array Nat) (r k : Nat) : Int :=
  if tcRowb cfg ≤ k then 0 else intOf (tcFmt cfg != .ui8) 8 (a.getD (128 * r + k) 0)

/-! ### What a job writes -/

/-- The writes of a job: tile bytes, accumulator elements, context entries, local-store bytes at offsets, flags. -/
structure JobOut where
  tiles : List (Nat × Byte)
  accs  : List (Nat × Lane)
  plans : List (Nat × Lane)
  ls    : List (Nat × List Byte)
  flags : Flags

def JobOut.none : JobOut := ⟨[], [], [], [], 0⟩

/-- A value and the flags of forming it. -/
abbrev FN := Nat × Flags

def rne32 (x : XVal) : FN := let r := rnd .f32 .rne false 0 x; (r.code, r.flags)
def fadd32 (a b : Nat) : FN := rne32 (xsum .rne [fpDecode .f32 a, fpDecode .f32 b])
def fsub32 (a b : Nat) : FN := rne32 (xsum .rne [fpDecode .f32 a, xneg (fpDecode .f32 b)])
def fmul32 (a b : Nat) : FN := rne32 (xmul (fpDecode .f32 a) (fpDecode .f32 b))

/-- `seq_sum(acc, T, FP32, RNE)` (R106). -/
def seqSum (acc : Nat) (ts : List Nat) : FN :=
  ts.foldl (fun a t => let r := fadd32 a.1 t; (r.1, a.2 ||| r.2)) (acc, 0)

/-- `grouped_sum(acc, T, 32)` (R107). -/
def groupedSum (acc : Nat) (ts : List XVal) : FN :=
  (List.range (ts.length / 32)).foldl (fun a g =>
    let x := rne32 (xsum .rne ((ts.drop (32 * g)).take 32))
    let r := fadd32 a.1 x.1
    (r.1, a.2 ||| x.2 ||| r.2)) (acc, 0)

/-- MMA and MMAS over the active elements (R293, R296): `f` gives the new element of (m, n) from the old. -/
def accCells (q : Nat) (c : Acc) (m n : Nat) (f : Nat → Nat → FN) : JobOut :=
  let cells := (List.range m).flatMap fun i => (List.range n).map fun j => (accKey q c.val i j, f i j)
  { JobOut.none with accs := cells.map fun x => (x.1, BitVec.ofNat 32 x.2.1), flags := cells.foldl (fun a x => a ||| x.2.2) 0 }

def nextTile (t : Tile) : Nat := t.val + 1

/-- Rows of an operand, each as its 128 elements. -/
def operandRows (s : State) (q : Nat) (t : Tile) (cfg : Word) : Array (List XVal) :=
  let a := tileArr s q t.val
  let b := if tcFmt cfg == .f16 || tcFmt cfg == .bf16 then tileArr s q (nextTile t) else #[]
  ((List.range (tcRows cfg)).map fun r => (List.range 128).map fun k => operandEl cfg a b r k).toArray

def mmaOut (s : State) (q : Nat) (z : Bool) (c : Acc) (a b : Tile) (ca cb : Word) : JobOut :=
  let old := accArr s q c.val
  let acc (i j : Nat) : Nat := if z then 0 else old.getD (64 * i + j) 0
  if Fmt.isInt (tcFmt ca) then
    let ra := tileArr s q a.val
    let rb := tileArr s q b.val
    accCells q c (tcRows ca) (tcRows cb) fun i j =>
      let sum := (List.range 128).foldl (fun (x : Int) k => x + operandInt ca ra i k * operandInt cb rb j k) 0
      ((((acc i j : Nat) + sum) % 2 ^ 32).toNat, 0)
  else
    let ra := operandRows s q a ca
    let rb := operandRows s q b cb
    accCells q c (tcRows ca) (tcRows cb) fun i j =>
      groupedSum (acc i j) (List.zipWith xmul (ra.getD i []) (rb.getD j []))

def mmasOut (s : State) (q : Nat) (z : Bool) (c : Acc) (a b : Tile) (ca cb : Word) (rows : List Lane) (sb : Lane) : JobOut :=
  let old := accArr s q c.val
  let ra := operandRows s q a ca
  let rb := operandRows s q b cb
  accCells q c (tcRows ca) (tcRows cb) fun i j =>
    let acc := if z then 0 else old.getD (64 * i + j) 0
    let p := rne32 (xsum .rne (List.zipWith xmul (ra.getD i []) (rb.getD j [])))
    let x := fmul32 p.1 (rows.getD i 0).toNat
    let y := fmul32 x.1 sb.toNat
    let r := fadd32 acc y.1
    (r.1, p.2 ||| x.2 ||| y.2 ||| r.2)

/-- The bytes of a number. -/
def leBytes (n v : Nat) : List Byte := bytesOf n (BitVec.ofNat 64 v)
/-- Cells from a key on. -/
def cellsAt {w : Nat} (k : Nat) (vs : List (BitVec w)) : List (Nat × BitVec w) :=
  (List.range vs.length).map fun i => (k + i, vs.getD i 0)

/-- ACCV.cvt and ACCV.cvti (R297): `f` converts the element with its number in row-major order. -/
def cvtOut (s : State) (q : Nat) (t : Tile) (c : Acc) (cfg : Word) (f : Nat → Nat → FN) : JobOut :=
  let w := Fmt.width (tcFmt cfg) / 8
  let cols := min 64 (tcRowb cfg / w)
  let old := accArr s q c.val
  let cells := (List.range (tcRows cfg)).flatMap fun r => (List.range cols).map fun k =>
    (tileKey q t.val (128 * r + w * k), f (r * cols + k) (old.getD (64 * r + k) 0))
  { JobOut.none with
    tiles := cells.flatMap fun x => cellsAt x.1 (leBytes w x.2.1)
    flags := cells.foldl (fun a x => a ||| x.2.2) 0 }

/-- Results that ACCV.cvt rounds (R297). -/
def cvtCount (cfg : Word) : Nat := tcRows cfg * min 64 (tcRowb cfg / (Fmt.width (tcFmt cfg) / 8))

/-! ### Plan arithmetic (R302, R305 to R310) -/

def negInf32 : Nat := 0xFF800000
def isNan32 (n : Nat) : Bool := (fpDecode .f32 n).isNan
def isFin32 (n : Nat) : Bool := (fpDecode .f32 n).isFinite
def e2 (n : Nat) : FN := sfu .exp2 .rne n
def l2 (n : Nat) : FN := sfu .log2 .rne n

def orFlags (l : List FN) : Flags := l.foldl (fun a x => a ||| x.2) 0

/-- M and s of plan_lse (R302, R310). -/
def lseParts (xs : List Nat) : Nat × FN :=
  if xs.any isNan32 then (nan32, (nan32, 0))
  else
    let m := match xs with
      | [] => negInf32
      | x :: t => t.foldl (fun a b => (minMaxNum .f32 true a b).1) x
    if m = negInf32 then (m, (0, 0))
    else if m = inf32 then (m, (one32, 0))
    else
      let ds := xs.map fun x => fsub32 x m
      let es := ds.map fun d => e2 d.1
      let r := seqSum 0 (es.map fun e => e.1)
      (m, (r.1, orFlags ds ||| orFlags es ||| r.2))

def planLse (xs : List Nat) : FN :=
  let (m, s) := lseParts xs
  if isNan32 m || m = negInf32 || m = inf32 then (m, 0)
  else
    let l := l2 s.1
    let r := fadd32 m l.1
    (r.1, s.2 ||| l.2 ||| r.2)

/-- Kernel, cost or plan entry (i, j). -/
def planEl (t : Array Nat) (i j : Nat) : Nat :=
  let o := 256 * i + 4 * j
  t.getD o 0 + 256 * t.getD (o + 1) 0 + 65536 * t.getD (o + 2) 0 + 16777216 * t.getD (o + 3) 0

def ctxArr (x : Quad) (ctx : Bool) (which : Nat) : Array Nat := cellArr x.plan (planKey ctx which 0) 64

/-- w_ij. -/
def wEl (k : Array Nat) (f g : Array Nat) (i j : Nat) : FN :=
  let a := fadd32 (planEl k i j) (f.getD i 0)
  let b := fadd32 a.1 (g.getD j 0)
  (b.1, a.2 ||| b.2)

/-- The vectors, the residual and the marks of a BALANCE. -/
structure Bal where
  f : Array Nat
  g : Array Nat
  res : Nat
  sweeps : Nat
  conv : Bool
  inf : Bool
  nan : Bool
  flags : Flags

/-- One entry of a half sweep from its marginal and its sums: the entry, INFEAS, flags. -/
def scaleEntry (a : Nat) (us : List FN) : Nat × Bool × Flags :=
  if a = negInf32 then (negInf32, false, 0)
  else
    let l := planLse (us.map fun u => u.1)
    if l.1 = negInf32 && isFin32 a then (0, true, orFlags us ||| l.2)
    else
      let r := fsub32 a l.1
      (r.1, false, orFlags us ||| l.2 ||| r.2)

/-- One sweep (R307). -/
def sweep (k : Array Nat) (m n : Nat) (pa pb : Array Nat) (pt : Nat) (b : Bal) : Bal :=
  let fs := (List.range m).map fun i =>
    scaleEntry (pa.getD i 0) ((List.range n).map fun j => fadd32 (planEl k i j) (b.g.getD j 0))
  let f := (fs.map fun x => x.1).toArray
  let gs := (List.range n).map fun j =>
    scaleEntry (pb.getD j 0) ((List.range m).map fun i => fadd32 (planEl k i j) (f.getD i 0))
  let g := (gs.map fun x => x.1).toArray
  let rs := ((List.range m).filter fun i => isFin32 (pa.getD i 0)).map fun i =>
    let ws := (List.range n).map fun j => wEl k f g i j
    let l := planLse (ws.map fun w => w.1)
    let d := fsub32 l.1 (pa.getD i 0)
    (d.1 % 2 ^ 31, orFlags ws ||| l.2 ||| d.2)
  let res := rs.foldl (fun a r => if isNan32 a || isNan32 r.1 then nan32 else (minMaxNum .f32 true a r.1).1) 0
  let nan := b.nan || isNan32 res || (fs.any fun x => isNan32 x.1) || gs.any fun x => isNan32 x.1
  let le := !isNan32 pt && xcmp (fpDecode .f32 res) (fpDecode .f32 pt) != .gt
  { f := f, g := g, res := res, sweeps := b.sweeps + 1, conv := !nan && le
    inf := b.inf || (fs.any fun x => x.2.1) || gs.any fun x => x.2.1
    nan := nan
    flags := b.flags ||| orFlags rs ||| (fs.foldl (fun a x => a ||| x.2.2) 0) ||| gs.foldl (fun a x => a ||| x.2.2) 0 }

/-- Sweeps until convergence, a NaN, or the limit; the fuel is what is left of PSWEEP. -/
def sweeps (k : Array Nat) (m n : Nat) (pa pb : Array Nat) (pt : Nat) : Nat → Bal → Bal
  | 0, b => b
  | fuel + 1, b =>
      let b := sweep k m n pa pb pt b
      if b.conv || b.nan then b else sweeps k m n pa pb pt fuel b

def balanceRun (s : State) (q : Nat) (ctx : Bool) (t : Tile) (cfg pcfg : Word) : Bal :=
  let x := s.quad q
  sweeps (tileArr s q t.val) (tcRows cfg) (tcRowb cfg) (ctxArr x ctx 2) (ctxArr x ctx 3) (bitsOf pcfg.toNat 63 32)
    (bitsOf pcfg.toNat 7 0) ⟨#[], ctxArr x ctx 1, 0, 0, false, false, false, 0⟩

def lanesOf (a : Array Nat) : List Lane := a.toList.map fun n => BitVec.ofNat 32 n

def balanceOut (s : State) (q : Nat) (ctx : Bool) (t : Tile) (cfg pcfg : Word) : JobOut :=
  let b := balanceRun s q ctx t cfg pcfg
  let bit (x : Bool) (k : Nat) : Nat := if x then 2 ^ k else 0
  let ps := b.sweeps + bit b.conv 16 + bit b.inf 17 + bit b.nan 18
  { JobOut.none with
    plans := cellsAt (planKey ctx 0 0) (lanesOf b.f) ++ cellsAt (planKey ctx 1 0) (lanesOf b.g) ++
      [(planKey ctx 4 0, BitVec.ofNat 32 ps), (planKey ctx 4 1, BitVec.ofNat 32 b.res)]
    flags := b.flags }

/-- A job that writes an FP32 value into every active entry of a plan tile. -/
def planTileOut (q : Nat) (d : Tile) (m n : Nat) (f : Nat → Nat → FN) : JobOut :=
  let cells := (List.range m).flatMap fun i => (List.range n).map fun j => (tileKey q d.val (256 * i + 4 * j), f i j)
  { JobOut.none with
    tiles := cells.flatMap fun x => cellsAt x.1 (leBytes 4 x.2.1)
    flags := cells.foldl (fun a x => a ||| x.2.2) 0 }

def plandotOut (s : State) (q : Nat) (ctx : Bool) (a b : Tile) (cfg : Word) : JobOut :=
  let x := s.quad q
  let k := tileArr s q a.val
  let c := tileArr s q b.val
  let f := ctxArr x ctx 0
  let g := ctxArr x ctx 1
  let rows := (List.range (tcRows cfg)).map fun i =>
    let ts := (List.range (tcRowb cfg)).map fun j =>
      let w := wEl k f g i j
      let e := e2 w.1
      if e.1 = 0 then (0, w.2 ||| e.2)
      else
        let p := fmul32 e.1 (planEl c i j)
        (p.1, w.2 ||| e.2 ||| p.2)
    let r := rne32 (xsum .rne (ts.map fun t => fpDecode .f32 t.1))
    (r.1, orFlags ts ||| r.2)
  let d := seqSum 0 (rows.map fun r => r.1)
  { JobOut.none with plans := [(planKey ctx 4 2, BitVec.ofNat 32 d.1)], flags := orFlags rows ||| d.2 }

def planlseOut (s : State) (q : Nat) (ctx col : Bool) (c : Acc) (a : Tile) (cfg : Word) : JobOut :=
  let x := s.quad q
  let k := tileArr s q a.val
  let m := tcRows cfg
  let n := tcRowb cfg
  let f := ctxArr x ctx 0
  let g := ctxArr x ctx 1
  let rs := (List.range (if col then n else m)).map fun i =>
    let us := if col then (List.range m).map fun r => fadd32 (planEl k r i) (f.getD r 0)
              else (List.range n).map fun j => fadd32 (planEl k i j) (g.getD j 0)
    let (mx, sm) := lseParts (us.map fun u => u.1)
    (mx, sm.1, orFlags us ||| sm.2)
  { JobOut.none with
    accs := cellsAt (accKey q c.val 0 0) (rs.map fun r => BitVec.ofNat 32 r.1) ++
      cellsAt (accKey q c.val 1 0) (rs.map fun r => BitVec.ofNat 32 r.2.1)
    flags := rs.foldl (fun a r => a ||| r.2.2) 0 }

/-! ### The effect of a job -/

/-- Everything that the job of a number writes, from the state that every earlier job left (R286). (DEDUCED, log entry 56.) -/
def jobOut (s : State) (q n : Nat) (op : JobOp) : JobOut :=
  match op with
  | .tld t cfg a st =>
      let row (r : Nat) : List (Nat × Byte) :=
        cellsAt (tileKey q t.val (rowStride cfg * r)) (lsRead s .matrix (.op n) q (a + r * st) (rowBytes cfg))
      { JobOut.none with tiles := (List.range (tcRows cfg)).flatMap row }
  | .tst t cfg a st =>
      let row (r : Nat) : Nat × List Byte := (a + r * st, cgetN s.tiles (tileKey q t.val (rowStride cfg * r)) (rowBytes cfg))
      { JobOut.none with ls := (List.range (tcRows cfg)).map row }
  | .tzero t => { JobOut.none with tiles := cellsAt (tileKey q t.val 0) (List.replicate 16384 0) }
  | .accz c => { JobOut.none with accs := cellsAt (accKey q c.val 0 0) (List.replicate 8192 0) }
  | .accld c a st rows =>
      let row (r : Nat) : List (Nat × Lane) :=
        let bs := lsRead s .matrix (.op n) q (a + r * st) 256
        cellsAt (accKey q c.val r 0) ((List.range 64).map fun i => BitVec.ofNat 32 (fieldOf bs (4 * i) 4))
      { JobOut.none with accs := (List.range rows).flatMap row }
  | .accst c a st rows =>
      let row (r : Nat) : Nat × List Byte := (a + r * st, (cgetN s.acc (accKey q c.val r 0) 64).flatMap fun v => bytesOf 4 v)
      { JobOut.none with ls := (List.range rows).map row }
  | .mma z c a b ca cb => mmaOut s q z c a b ca cb
  | .mmas z c a b ca cb rows sb => mmasOut s q z c a b ca cb rows sb
  | .cvt rm sat t c cfg key ctr =>
      let us := if rm == .sr then (chunks key ctr.toNat ((cvtCount cfg + 7) / 8)).toArray else #[]
      cvtOut s q t c cfg fun i v => convert (tcFmt cfg) .f32 false sat rm (us.getD i 0) v
  | .cvti sat t c cfg => cvtOut s q t c cfg fun _ v => clampInt (tcFmt cfg != .ui8) 8 sat (intOf true 32 v)
  | .plank d a cfg k =>
      let c := tileArr s q a.val
      planTileOut q d (tcRows cfg) (tcRowb cfg) fun i j =>
        rne32 (xmul (xneg (fpDecode .f32 (planEl c i j))) (fpDecode .f32 k.toNat))
  | .planm r ctx vals =>
      let w := match r with
        | .f => 0 | .g => 1 | .a => 2 | .b => 3
      { JobOut.none with plans := cellsAt (planKey ctx w 0) vals }
  | .balance ctx t cfg pcfg => balanceOut s q ctx t cfg pcfg
  | .planx ctx d a cfg =>
      let x := s.quad q
      let k := tileArr s q a.val
      let f := ctxArr x ctx 0
      let g := ctxArr x ctx 1
      planTileOut q d (tcRows cfg) (tcRowb cfg) fun i j =>
        let w := wEl k f g i j
        let e := e2 w.1
        (e.1, w.2 ||| e.2)
  | .plandot ctx a b cfg => plandotOut s q ctx a b cfg
  | .planlse ctx col c a cfg => planlseOut s q ctx col c a cfg

def setCells {w : Nat} (m : CMap w) (l : List (Nat × BitVec w)) : CMap w := l.foldl (fun m c => cset m c.1 c.2) m

/-- Applies a job's writes; `op` names the job for XFENCE. -/
def applyOut (s : State) (q op : Nat) (o : JobOut) : State :=
  let s := { s with tiles := setCells s.tiles o.tiles, acc := setCells s.acc o.accs }
  let s := if o.plans.isEmpty then s else s.modQuad q fun x => { x with plan := setCells x.plan o.plans }
  o.ls.foldl (fun s r => lsWrite s .matrix op q r.1 r.2) s

/-- A job's writes with free values in place of its results (R298). (DESIGN CHOICE, log entry 59.) -/
def looseOut (n : Nat) (o : JobOut) : JobOut :=
  let free {w : Nat} (l : List (Nat × BitVec w)) (base : Nat) : List (Nat × BitVec w) :=
    (List.range l.length).map fun i => ((l.getD i (0, 0)).1, BitVec.ofNat w (Config.freeNat (base + i)))
  let row (i : Nat) : Nat × List Byte :=
    let r := o.ls.getD i (0, [])
    (r.1, (List.range r.2.length).map fun k => Config.freeByte (n + 40000 + 256 * i + k))
  { tiles := free o.tiles n, accs := free o.accs (n + 16384), plans := free o.plans (n + 32768)
    ls := (List.range o.ls.length).map row
    flags := BitVec.ofNat 6 (Config.freeNat (n + 90000)) }

/-! ### Conflicts, pipes and times (R286, R312) -/

/-- What a job reads or writes, but for local store. -/
inductive MRes where
  | tile (n : Nat)
  | acc (n : Nat)
  | ctx (c : Bool)
  deriving DecidableEq, Repr

def pairRes (t : Tile) (cfg : Word) : List MRes :=
  if tcFmt cfg == .f16 || tcFmt cfg == .bf16 then [.tile t.val, .tile (t.val + 1)] else [.tile t.val]

def jobReads : JobOp → List MRes
  | .tst t _ _ _ => [.tile t.val]
  | .accst c _ _ _ => [.acc c.val]
  | .mma z c a b ca cb => (if z then [] else [.acc c.val]) ++ pairRes a ca ++ pairRes b cb
  | .mmas z c a b _ _ _ _ => (if z then [] else [.acc c.val]) ++ [.tile a.val, .tile b.val]
  | .cvt _ _ _ c _ _ _ | .cvti _ _ c _ => [.acc c.val]
  | .plank _ a _ _ => [.tile a.val]
  | .balance ctx t _ _ => [.tile t.val, .ctx ctx]
  | .planx ctx _ a _ => [.tile a.val, .ctx ctx]
  | .plandot ctx a b _ => [.tile a.val, .tile b.val, .ctx ctx]
  | .planlse ctx _ _ a _ => [.tile a.val, .ctx ctx]
  | _ => []

def jobWrites : JobOp → List MRes
  | .tld t _ _ _ | .tzero t | .cvt _ _ t _ _ _ _ | .cvti _ t _ _ | .plank t _ _ _ | .planx _ t _ _ => [.tile t.val]
  | .accz c | .accld c _ _ _ | .mma _ c _ _ _ _ | .mmas _ c _ _ _ _ _ _ | .planlse _ _ c _ _ => [.acc c.val]
  | .planm _ ctx _ | .balance ctx _ _ _ | .plandot ctx _ _ _ => [.ctx ctx]
  | _ => []

/-- Rows of local store: whether written, and (first byte, bytes) of each. -/
def jobLs : JobOp → Bool × List (Nat × Nat)
  | .tld _ cfg a st => (false, (List.range (tcRows cfg)).map fun r => (a + r * st, rowBytes cfg))
  | .tst _ cfg a st => (true, (List.range (tcRows cfg)).map fun r => (a + r * st, rowBytes cfg))
  | .accld _ a st rows => (false, (List.range rows).map fun r => (a + r * st, 256))
  | .accst _ a st rows => (true, (List.range rows).map fun r => (a + r * st, 256))
  | _ => (false, [])

def conflicts (a b : JobOp) : Bool :=
  let hits (l m : List MRes) : Bool := l.any fun x => m.contains x
  let la := jobLs a
  let lb := jobLs b
  hits (jobWrites a) (jobReads b ++ jobWrites b) || hits (jobWrites b) (jobReads a) ||
  ((la.1 || lb.1) && la.2.any fun x => lb.2.any fun y => x.1 < y.1 + y.2 && y.1 < x.1 + x.2)

def isMove : JobOp → Bool
  | .tld .. | .tst .. | .tzero .. | .accld .. | .accst .. => true
  | _ => false

def ceilDiv (a b : Nat) : Nat := (a + b - 1) / b

/-- Occupancy, and the cycles from the end of the occupancy to completion. -/
def jobTime (s : State) (q : Nat) (op : JobOp) : Nat × Nat :=
  let size (cfg : Word) : Nat := tcRows cfg * tcRowb cfg
  match op with
  | .tld _ cfg _ _ | .tst _ cfg _ _ => (ceilDiv (tcRows cfg * ceilDiv (rowBytes cfg) 64) 4, 6)
  | .accld _ _ _ rows | .accst _ _ _ rows => (rows, 6)
  | .tzero _ => (4, 0)
  | .accz _ => (8, 0)
  | .mma _ _ _ _ ca _ =>
      let per := match tcFmt ca with
        | .f16 | .bf16 => 16
        | .mxe2m1 => 4
        | _ => 8
      (per * ceilDiv (tcRows ca) 16, 12)
  | .mmas _ _ _ _ ca _ _ _ => (8 * ceilDiv (tcRows ca) 16, 12)
  | .cvt _ _ _ _ cfg _ _ | .cvti _ _ _ cfg => (2 * ceilDiv (tcRows cfg) 16, 8)
  | .planm _ _ _ => (2, 4)
  | .plank _ _ cfg _ | .planx _ _ _ cfg => (2 + ceilDiv (size cfg) 256, 12)
  | .plandot _ _ _ cfg | .planlse _ _ _ _ cfg => (4 + ceilDiv (size cfg) 256, 16)
  | .balance ctx t cfg pcfg => ((balanceRun s q ctx t cfg pcfg).sweeps * 3 * (4 + ceilDiv (size cfg) 512), 12)

/-- The jobs of a quad that can start in this cycle: earlier jobs of their pipe have started, its occupancy has ended, earlier jobs
in conflict have completed. -/
def startable (x : Quad) (now : Nat) : List Nat :=
  let rec go (earlier : List Job) : List Job → List Nat
    | [] => []
    | j :: rest =>
        let pipe := isMove j.op
        let ok := j.start.isNone && decide (j.accept + 2 ≤ now) && decide ((if pipe then x.moveFree else x.arrFree) ≤ now) &&
          earlier.all fun e => (isMove e.op != pipe || e.start.isSome) && !conflicts e.op j.op
        (if ok then [j.id] else []) ++ go (earlier ++ [j]) rest
  go [] x.jobs

/-- A job whose id a later one has received keeps a number of its own instead: an id denotes the latest job that received it (R285). -/
def Job.renamed (later : List Job) (j : Job) : Job := if later.any fun y => y.id == j.id then { j with id := 256 + j.seq } else j

def renameJobs : List Job → List Job
  | [] => []
  | j :: rest => j.renamed rest :: renameJobs rest

/-- Ids of a quad that two of its jobs bear are the later one's from this cycle on; the completion of the earlier one follows its number.
(DESIGN CHOICE, log entry 142.) -/
def freeIds (s : State) (q : Nat) : State :=
  let x := s.quad q
  let old := (x.jobs.zip (renameJobs x.jobs)).filter fun p => p.1.id != p.2.id
  if old.isEmpty && x.jobRecs.all fun r => r.1 < 256 then s
  else
    let number (ev : Instr) : Instr :=
      match ev with
      | .jobComplete q' n => if q' = q then .jobComplete q (((old.find? fun p => p.1.id == n).map fun p => p.2.id).getD n) else ev
      | _ => ev
    { s.setQuad q { x with jobs := renameJobs x.jobs, jobRecs := x.jobRecs.filter fun r => r.1 < 256 } with
      agenda := s.agenda.map fun e => { e with ev := number e.ev } }

/-- Posts the starts of a quad's jobs in this cycle (R286); a gated cycle starts none (R16). -/
def postStarts (s : State) (q : Nat) : State :=
  if gated s then s else (startable (s.quad q) s.now).foldl (fun s id => s.post s.now 3 (.jobStart q id)) s

/-- JOB_START; a job that leaves its pipe free at once lets the next one start in the same cycle. -/
def execJobStart (quad id : Nat) (s : State) : Out :=
  let x := s.quad quad
  match x.jobs.find? fun j => j.id == id && j.start.isNone with
  | some j =>
      if !(startable x s.now).contains id then .next s
      else
        let (o, tail) := jobTime s quad j.op
        let begun (y : Job) : Job := if y.id == id && y.start.isNone then { y with start := some s.now } else y
        let x := { x with jobs := x.jobs.map begun }
        let x := if isMove j.op then { x with moveFree := s.now + o } else { x with arrFree := s.now + o }
        .next (postStarts ((s.setQuad quad x).postIn (o + tail) (.jobComplete quad id)) quad)
  | none => .next s

/-- A strand of a quad asleep in MXWAIT on an id goes on at completion + 2 (R287). -/
def wakeJob (s : State) (q id : Nat) (r : JobRec) : State :=
  s.strands.foldl (fun s (k, st) =>
    match st.sleep? with
    | some (.job n d) =>
        if n = id && s.quadOf k = q then
          let s := s.deliverAt k (s.now + 2) (.s d (0x100 ||| r.flags.setWidth 64))
          (wakeStrand s k (s.now + 2)).modStrand k fun st => { st with seen := r.op :: st.seen }
        else s
    | _ => s) s

/-- JOB_COMPLETE: the job's writes, its flag word, the strands that wait on it. -/
def execJobComplete (quad id : Nat) (s : State) : Out :=
  let x := s.quad quad
  match x.jobs.find? fun j => j.id == id && j.start.isSome with
  | some j =>
      let out := jobOut s quad j.seq j.op
      let (out, s) := if j.loose then (looseOut s.free out, { s with free := s.free + 100000 }) else (out, s)
      let s := applyOut s quad j.seq out
      let r : JobRec := ⟨out.flags, j.seq, s.now⟩
      let latest := !(x.jobs.any fun y => y.id == id && y.seq != j.seq)
      let s := s.modQuad quad fun x => { x with
        jobs := x.jobs.filter fun y => y.seq != j.seq
        jobRecs := if latest then mset x.jobRecs id r else x.jobRecs }
      .next (postStarts (if latest then wakeJob s quad id r else s) quad)
  | none => .next s

/-! ### Submission (R285, R290, R313, R393) -/

def isJobInstr : Instr → Bool
  | .tld .. | .tst .. | .tzero .. | .accz .. | .accld .. | .accst .. | .mma .. | .mmas .. | .accvCvt .. | .accvCvti .. | .plank ..
  | .planm .. | .balance .. | .planx .. | .plandot .. | .planlse .. => true
  | _ => false

def isBalance : JobOp → Bool
  | .balance .. => true
  | _ => false
def isBalanceInstr : Instr → Bool
  | .balance .. => true
  | _ => false

/-- A quad holds as many BALANCE jobs as it can: a third stalls (R313). -/
def balancesFull (x : Quad) : Bool := 2 ≤ (x.jobs.filter fun y => isBalance y.op).length

/-- Another core of the quad that comes first in the rotation may submit a job in this cycle (R285, R313). -/
def jobRival (s : State) (q core : Nat) : Bool :=
  let x := s.quad q
  yieldsTo s q core (fun c => (c + 7 - x.lastCore) % 4) fun i => isJobInstr i && !(isBalanceInstr i && balancesFull x)

/-- Accepts a job, or stalls issue; another core's may come first (R285). (DEDUCED, log entry 57.) -/
def submit (st : Strand) (g : Gang) (j : Option SReg) (op : JobOp) (s : State) : Res :=
  let (q, core, _) := g.place st.sidx
  let x := s.quad q
  if 8 ≤ (x.jobs.filter fun y => y.start.isNone).length || x.lastAccept == some s.now ||
     (isBalance op && balancesFull x) then .stall
  else if jobRival s q core then .yield
  else
    let id := x.nextJob
    let y : Job := { id := id, op := op, accept := s.now, start := none, seq := s.opSeq + 1, loose := false }
    let s := (s.setQuad q { x with
      jobs := x.jobs ++ [y], nextJob := (id + 1) % 256, lastCore := core, lastAccept := some s.now
      jobRecs := merase x.jobRecs id })
    let s := { s with opSeq := s.opSeq + 1 }
    .done (match j with
      | some r => s.wrS 1 r (BitVec.ofNat 64 id)
      | none => s)

/-- `ls_check` (R290): a cause with its TVAL. -/
def lsCheck (s : State) (st : Strand) (q : Nat) (a str : Word) (rows rb : Nat) : Option (Nat × Word) :=
  if 2 ^ 20 ≤ a.toNat || 2 ^ 20 ≤ str.toNat then some (cPROTECT, a)
  else if a.toNat % 64 ≠ 0 then some (cALIGN, a)
  else if str.toNat % 64 ≠ 0 then some (cALIGN, str)
  else
    let last : Int := (a.toNat : Int) + ((rows : Int) - 1) * (str.toNat : Int) + (rb : Int) - 1
    let hi : Int := if st.sup then 0xFFFFF else 0xFBFFF
    if a.toNat < 4096 * (s.quad q).xbp.toNat || hi < last then some (cPROTECT, a) else none

def illegal (i : Instr) : Res := .trap cILLEGAL 0 i.bits64

def tcOf (s : State) (q : Nat) (t : Tile) : Word := (s.quad q).tc[t.val]

/-- TLD and TST. -/
def moveTile (i : Instr) (g : Guard) (d : Tile) (a b : SReg) (j : Option SReg) (mk : Word → Nat → Nat → JobOp) (s : State) : Out :=
  issue i g (fun st gang _ s =>
    let q := gang.quadOf st.sidx
    let cfg := tcOf s q d
    if !cfgOk cfg then illegal i
    else match lsCheck s st q (sreg st a) (sreg st b) (tcRows cfg) (rowBytes cfg) with
      | some (c, v) => .trap c 0 v
      | none => submit st gang j (mk cfg (sreg st a).toNat (sreg st b).toNat) s) s

/-- TLD. -/
def execTld (g : Guard) (d : Tile) (a b : SReg) (j : Option SReg) (s : State) : Out :=
  moveTile (.tld g d a b j) g d a b j (fun cfg x y => .tld d cfg x y) s
/-- TST. -/
def execTst (g : Guard) (d : Tile) (a b : SReg) (j : Option SReg) (s : State) : Out :=
  moveTile (.tst g d a b j) g d a b j (fun cfg x y => .tst d cfg x y) s
/-- TZERO: any configuration. -/
def execTzero (g : Guard) (d : Tile) (j : Option SReg) (s : State) : Out :=
  issue (.tzero g d j) g (fun st gang _ s => submit st gang j (.tzero d) s) s
/-- ACCZ. -/
def execAccz (g : Guard) (d : Acc) (j : Option SReg) (s : State) : Out :=
  issue (.accz g d j) g (fun st gang _ s => submit st gang j (.accz d) s) s

/-- ACCLD and ACCST. -/
def moveAcc (i : Instr) (g : Guard) (a b c : SReg) (j : Option SReg) (mk : Nat → Nat → Nat → JobOp) (s : State) : Out :=
  issue i g (fun st gang _ s =>
    let rows := min ((sreg st c).toNat % 256) 128
    match lsCheck s st (gang.quadOf st.sidx) (sreg st a) (sreg st b) rows 256 with
    | some (c, v) => .trap c 0 v
    | none => submit st gang j (mk (sreg st a).toNat (sreg st b).toNat rows) s) s

/-- ACCLD. -/
def execAccld (g : Guard) (d : Acc) (a b c : SReg) (j : Option SReg) (s : State) : Out :=
  moveAcc (.accld g d a b c j) g a b c j (fun x y r => .accld d x y r) s
/-- ACCST. -/
def execAccst (g : Guard) (d : Acc) (a b c : SReg) (j : Option SReg) (s : State) : Out :=
  moveAcc (.accst g d a b c j) g a b c j (fun x y r => .accst d x y r) s

/-- The format pairs of R292. -/
def pairOk (a b : Fmt) : Bool :=
  match a with
  | .i8 | .ui8 => b == .i8 || b == .ui8
  | .e4m3 | .e5m2 => b == .e4m3 || b == .e5m2
  | .f16 => b == .f16
  | .bf16 => b == .bf16
  | .mxe2m1 => b == .mxe2m1
  | _ => false

/-- The checks of R393 for MMA and MMAS: a cause with its TVAL. -/
def mmaCheck (i : Instr) (s : State) (st : Strand) (q : Nat) (a b : Tile) (fmts : Fmt → Fmt → Bool) : Option (Nat × Word) :=
  let ca := tcOf s q a
  let cb := tcOf s q b
  let ill := some (cILLEGAL, i.bits64)
  let tiles := ((s.headerOf st.gid).map fun h => h.tiles).getD 0
  if !isOrd ca || !isOrd cb then ill
  else if !fmts (tcFmt ca) (tcFmt cb) then ill
  else
    let pair : Option (Nat × Word) :=
      if tcFmt ca == .f16 || tcFmt ca == .bf16 then
        if a.val = 11 || b.val = 11 then ill
        else if tiles ≤ a.val + 1 then some (cILLREG, BitVec.ofNat 64 (512 + a.val + 1))
        else if tiles ≤ b.val + 1 then some (cILLREG, BitVec.ofNat 64 (512 + b.val + 1))
        else if tcOf s q (Fin.ofNat 12 (a.val + 1)) != ca || tcOf s q (Fin.ofNat 12 (b.val + 1)) != cb then ill
        else none
      else none
    match pair with
    | some x => some x
    | none => if 64 < tcRows cb then ill else none

/-- MMA. -/
def execMma (g : Guard) (z : Bool) (d : Acc) (a b : Tile) (j : Option SReg) (s : State) : Out :=
  let i : Instr := .mma g z d a b j
  issue i g (fun st gang _ s =>
    let q := gang.quadOf st.sidx
    match mmaCheck i s st q a b pairOk with
    | some (c, v) => .trap c 0 v
    | none => submit st gang j (.mma z d a b (tcOf s q a) (tcOf s q b)) s) s

def fp8 (f : Fmt) : Bool := f == .e4m3 || f == .e5m2

/-- MMAS: the scales are read at issue; sb is 1.0 without SB. -/
def execMmas (g : Guard) (z : Bool) (d : Acc) (a b : Tile) (c : VReg) (x : Option (SReg × SReg)) (s : State) : Out :=
  let i : Instr := .mmas g z d a b c x
  issue i g (fun st gang _ s =>
    let q := gang.quadOf st.sidx
    match mmaCheck i s st q a b (fun f h => fp8 f && fp8 h) with
    | some (k, v) => .trap k 0 v
    | none =>
        let rows := (List.range 4).flatMap fun n => lanes (vreg st (Fin.ofNat 32 (c.val + n)))
        let sb : Lane := match x with
          | some (r, _) => if r = 0 then BitVec.ofNat 32 one32 else (sreg st r).setWidth 32
          | none => BitVec.ofNat 32 one32
        submit st gang (x.map fun y => y.2) (.mmas z d a b (tcOf s q a) (tcOf s q b) rows sb) s) s

/-! ### Accumulator access (R297, R298) -/

/-- Incomplete jobs of a quad that write an accumulator. -/
def accWriters (x : Quad) (a : Acc) : List Job := x.jobs.filter fun j => (jobWrites j.op).contains (.acc a.val)

/-- What a job can have written so far: a BALANCE after each of its sweeps (R307, R314), any other job all of it. -/
def jobStages (s : State) (q : Nat) (j : Job) : List JobOut :=
  match j.op with
  | .balance ctx t cfg pcfg =>
      (List.range (balanceRun s q ctx t cfg pcfg).sweeps).map fun w => balanceOut s q ctx t cfg (setField pcfg 7 0 (w + 1))
  | op => [jobOut s q j.seq op]

/-- The states an unfinished engine can show at a place (R298, R314): now, and after each job accepted so far, in order. -/
def stages (s : State) (q : Nat) : List Job → List State
  | [] => [s]
  | j :: rest =>
      s :: ((jobStages s q j).map fun o => applyOut s q j.seq o) ++ stages (applyOut s q j.seq (jobOut s q j.seq j.op)) q rest

/-- A job forms intermediate sums at an accumulator element: those of its M rows and N columns (R293, R298). -/
def sumsAt (q key : Nat) (op : JobOp) : Bool :=
  let at' (c : Acc) (ca cb : Word) : Bool :=
    let o := key - accKey q c.val 0 0
    decide (accKey q c.val 0 0 ≤ key ∧ o < 8192 ∧ o / 64 < tcRows ca ∧ o % 64 < tcRows cb)
  match op with
  | .mma _ c _ _ ca cb | .mmas _ c _ _ ca cb _ _ => at' c ca cb
  | _ => false

/-- A free choice among the values, or, where a job forms intermediate sums, any value. (DEDUCED, log entry 58.) -/
def stagedRead (vals : List Lane) (inter : Bool) (n : Nat) : Lane :=
  let k := Config.freeNat n % (vals.length + if inter then 1 else 0)
  vals.getD k (BitVec.ofNat 32 (Config.freeNat (n + 1)))

/-- An accumulator element as a core reads it: an ACCV.wr of this cycle takes effect in the next (R297). -/
def accRead (s : State) (q key : Nat) : Lane :=
  match (s.quad q).accWr with
  | some (n, olds) => if n = s.now then (mget? olds key).getD (cget s.acc key) else cget s.acc key
  | none => cget s.acc key

/-- Keeps what elements held before this cycle's ACCV.wr. -/
def noteAcc (s : State) (q : Nat) (keys : List Nat) : State :=
  let olds := match (s.quad q).accWr with
    | some (n, l) => if n = s.now then l else []
    | none => []
  let add (l : SMap Lane) (k : Nat) : SMap Lane := if (mget? l k).isSome then l else mset l k (cget s.acc k)
  s.modQuad q fun x => { x with accWr := some (s.now, keys.foldl add olds) }

/-- ACCV.rd: each lane under its mask bit. (DESIGN CHOICE, log entry 151.) -/
def execAccvRd (g : Guard) (d : VReg) (a : Acc) (b : SReg) (s : State) : Out :=
  issue (.accvRd g d a b) g (fun st gang m s =>
    let q := gang.quadOf st.sidx
    let n := (sreg st b).toNat
    let key (i : Nat) : Nat := accKey q a.val (n % 128) (32 * bitsOf n 8 8 + i)
    let x := s.quad q
    let ws := accWriters x a
    if ws.isEmpty then .done (s.wrV 6 d m (vmk fun i => accRead s q (key i)))
    else
      let ss := stages s q x.jobs
      let v := vmk fun i => stagedRead ((ss.map fun t => accRead t q (key i)).eraseDups) (ws.any fun j => sumsAt q (key i) j.op)
        (s.free + 2 * i)
      .done ({ s with free := s.free + 64 }.wrV 6 d m v)) s

/-- ACCV.wr, effective in the next cycle. Where an incomplete job reads or writes the accumulator, its elements and that job's result become free values. -/
def execAccvWr (g : Guard) (d : Acc) (a : VReg) (b : SReg) (s : State) : Out :=
  issue (.accvWr g d a b) g (fun st gang m s =>
    let q := gang.quadOf st.sidx
    let n := (sreg st b).toNat
    let r := n % 128
    let h := 32 * bitsOf n 8 8
    let on := (List.range 32).filter fun i => m.getLsbD i
    let s := noteAcc s q (on.map fun i => accKey q d.val r (h + i))
    let s := { s with acc := on.foldl (fun mp i => cset mp (accKey q d.val r (h + i)) (lane (vreg st a) i)) s.acc }
    let hit (j : Job) : Bool := (jobReads j.op ++ jobWrites j.op).contains (.acc d.val)
    let x := s.quad q
    if !x.jobs.any hit then .done s
    else
      let cells := cellsAt (accKey q d.val 0 0) ((List.range 8192).map fun i => (BitVec.ofNat 32 (Config.freeNat (s.free + i)) : Lane))
      let s := { s with acc := setCells s.acc cells, free := s.free + 8192 }
      .done (s.setQuad q { x with jobs := x.jobs.map fun j => if hit j then { j with loose := true } else j })) s

/-- ACCV.cvt: under SR the job takes the strand's key and counter at issue. -/
def execAccvCvt (g : Guard) (rm : Rm) (sat : Bool) (d : Tile) (a : Acc) (j : Option SReg) (s : State) : Out :=
  let i : Instr := .accvCvt g rm sat d a j
  issue i g (fun st gang _ s =>
    let cfg := tcOf s (gang.quadOf st.sidx) d
    let ok := match tcFmt cfg with
      | .f32 | .f16 | .bf16 | .e4m3 | .e5m2 => true
      | _ => false
    if !isOrd cfg || !ok then illegal i
    else
      match submit st gang j (.cvt rm sat d a cfg st.rngk st.rngc) s with
      | .done s =>
          .done (if rm == .sr then s.modCur fun st =>
            { st with rngc := st.rngc + BitVec.ofNat 128 ((cvtCount cfg + 7) / 8) } else s)
      | r => r) s

/-- ACCV.cvti. -/
def execAccvCvti (g : Guard) (sat : Bool) (d : Tile) (a : Acc) (j : Option SReg) (s : State) : Out :=
  let i : Instr := .accvCvti g sat d a j
  issue i g (fun st gang _ s =>
    let cfg := tcOf s (gang.quadOf st.sidx) d
    if !isOrd cfg || !(tcFmt cfg == .i8 || tcFmt cfg == .ui8) then illegal i
    else submit st gang j (.cvti sat d a cfg) s) s

/-! ### Waiting (R287) -/

/-- The record of an id: none while its latest job is incomplete. -/
def jobDone (x : Quad) (id : Nat) : Option JobRec :=
  if x.jobs.any fun j => j.id == id then none else some ((mget? x.jobRecs id).getD ⟨0, 0, 0⟩)

/-- MXWAIT: the strand issues again at completion + 2. -/
def execMxwait (g : Guard) (d a : SReg) (s : State) : Out :=
  issue (.mxwait g d a) g (fun st gang _ s =>
    let id := (sreg st a).toNat % 256
    match jobDone (s.quad (gang.quadOf st.sidx)) id with
    | some r =>
        let n := max 1 (r.done + 2 - s.now)
        .done ((s.wrS n d (0x100 ||| r.flags.setWidth 64)).modCur fun st =>
          { st with seen := r.op :: st.seen, wake := s.now + n })
    | none => .hold (s.sleepIn (.job id d) (Instr.mxwait g d a).len)) s

/-- MXTEST. -/
def execMxtest (g : Guard) (d a : SReg) (s : State) : Out :=
  issue (.mxtest g d a) g (fun st gang _ s =>
    match jobDone (s.quad (gang.quadOf st.sidx)) ((sreg st a).toNat % 256) with
    | some r => .done ((s.wrS 2 d (0x100 ||| r.flags.setWidth 64)).modCur fun st => { st with seen := r.op :: st.seen })
    | none => .done (s.wrS 2 d 0)) s

/-! ### Plan instructions (R303 to R310, R314) -/

/-- The tiles of a plan job (R304). -/
def planTiles (s : State) (q : Nat) (ts : List Tile) : Bool :=
  (ts.all fun t => isPlan (tcOf s q t)) &&
  match ts with
  | [a, b] => tcRows (tcOf s q a) == tcRows (tcOf s q b) && tcRowb (tcOf s q a) == tcRowb (tcOf s q b)
  | _ => true

/-- A plan job: its tiles checked, its operands captured, submitted. -/
def planJob (i : Instr) (g : Guard) (ts : List Tile) (j : Option SReg) (mk : Strand → Quad → (Tile → Word) → JobOp) (s : State) : Out :=
  issue i g (fun st gang _ s =>
    let q := gang.quadOf st.sidx
    if !planTiles s q ts then illegal i else submit st gang j (mk st (s.quad q) (tcOf s q)) s) s

/-- PLANK. -/
def execPlank (g : Guard) (d a : Tile) (b : SReg) (j : Option SReg) (s : State) : Out :=
  planJob (.plank g d a b j) g [a, d] j (fun st _ tc => .plank d a (tc a) ((sreg st b).setWidth 32)) s
/-- PLANM: all 64 entries, from vA and vA+1. -/
def execPlanm (g : Guard) (r : PlanReg) (c : Bool) (a : VReg) (j : Option SReg) (s : State) : Out :=
  planJob (.planm g r c a j) g [] j (fun st _ _ => .planm r c (lanes (vreg st a) ++ lanes (vreg st (succV a)))) s
/-- BALANCE: PCFG is captured at acceptance. -/
def execBalance (g : Guard) (c : Bool) (a : Tile) (j : Option SReg) (s : State) : Out :=
  planJob (.balance g c a j) g [a] j (fun _ x tc => .balance c a (tc a) x.pcfg) s
/-- PLANX. -/
def execPlanx (g : Guard) (c : Bool) (d a : Tile) (j : Option SReg) (s : State) : Out :=
  planJob (.planx g c d a j) g [a, d] j (fun _ _ tc => .planx c d a (tc a)) s
/-- PLANDOT. -/
def execPlandot (g : Guard) (c : Bool) (a b : Tile) (j : Option SReg) (s : State) : Out :=
  planJob (.plandot g c a b j) g [a, b] j (fun _ _ tc => .plandot c a b (tc a)) s
/-- PLANLSE. -/
def execPlanlse (g : Guard) (col : Bool) (c : Bool) (d : Acc) (a : Tile) (j : Option SReg) (s : State) : Out :=
  planJob (.planlse g col c d a j) g [a] j (fun _ _ tc => .planlse c col d a (tc a)) s

/-- Context entries as PLANRD reads them: where an accepted, incomplete job writes the context, each by a free choice among its values
before, between the sweeps and after (R314). -/
def planRead (s : State) (q : Nat) (ctx : Bool) (keys : List Nat) : List Lane × State :=
  let x := s.quad q
  let ws := x.jobs.filter fun j => (jobWrites j.op).contains (.ctx ctx)
  if ws.isEmpty then (keys.map fun k => cget x.plan k, s)
  else
    let ss := stages s q x.jobs
    ((List.range keys.length).map fun i =>
      stagedRead ((ss.map fun t => cget (t.quad q).plan (keys.getD i 0)).eraseDups) false (s.free + 2 * i),
     { s with free := s.free + 2 * keys.length })

/-- PLANRD, at L = 6. -/
def execPlanrd (g : Guard) (c : Bool) (x : PlanRd) (s : State) : Out :=
  issue (.planrd g c x) g (fun st gang _ s =>
    let q := gang.quadOf st.sidx
    let scalar (d : SReg) (i : Nat) : Res :=
      let (v, s) := planRead s q c [planKey c 4 i]
      .done (s.wrS 6 d ((v.getD 0 0).setWidth 64))
    match x with
    | .vec r d =>
        let w := match r with
          | .f => 0 | .g => 1 | .a => 2 | .b => 3
        let (v, s) := planRead s q c ((List.range 64).map fun i => planKey c w i)
        .done ((s.wrV 6 d (BitVec.allOnes 32) (vmk fun i => v.getD i 0)).wrV 6 (succV d) (BitVec.allOnes 32)
          (vmk fun i => v.getD (32 + i) 0))
    | .st d => scalar d 0
    | .res d => scalar d 1
    | .dot d => scalar d 2) s

end Sys2Proof.Machine
end

