-- ==== Sys2Proof/Machine/Grids.lean ====
section
/-! DEFINITION. The end of gangs and grids: clearing, permits and ids, completion records, faults (R113, R131, R132, R139, R272,
R346); machine checks (R345). -/

namespace Sys2Proof.Machine

/-! ### Clearing (R132) -/

def tileLo (q : Nat) : Nat := q * 12 * 16384
def accLo (q : Nat) : Nat := q * 4 * 8192

/-- A quad's record without what belonged to its gang: the translation cache, the rotations of its tickets (R184, R321), the
PFETCHes under way and the flare snapshot are the quad's own. (DESIGN CHOICE, log entry 16.) -/
def Quad.emptied (x : Quad) : Quad :=
  { Quad.init with
    tcache := x.tcache, fetches := x.fetches, nextTicket := x.nextTicket, nextRed := x.nextRed, snap := x.snap, clearing := x.clearing }

/-- Local store below the system region, tiles, accumulators, tags and registers of a quad read as zero. -/
def clearQuad (s : State) (q : Nat) : State :=
  { s.modQuad q Quad.emptied with
    ls := cclear s.ls (lsKey q 0) (lsKey q Config.sysBase)
    tiles := cclear s.tiles (tileLo q) (tileLo (q + 1))
    acc := cclear s.acc (accLo q) (accLo (q + 1))
    unf := s.unf.filter fun u => u.addr / 2 ^ 20 != q }

/-- A quad is cleared in the next 2,048 cycles. (DEDUCED, log entry 87.) -/
def beginClear (s : State) (q : Nat) : State :=
  ((clearQuad s q).modQuad q fun x => { x with clearing := some (s.now + 2048) }).postIn 2048 (.quadClearDone q)

/-- QUAD_CLEAR_DONE: what reached the quad meanwhile is gone too. -/
def execQuadClearDone (quad : Nat) (s : State) : Out :=
  if (s.quad quad).clearing.any fun c => c ≤ s.now then
    .next ((clearQuad s quad).modQuad quad fun x => { x with clearing := none })
  else .next s

/-! ### Strands that will not go on -/

/-- A strand's wait at a timeline or a queue is withdrawn (R135, R141). -/
def cancelWait (s : State) (k : Nat) : State :=
  { s with
    timelines := s.timelines.map fun (n, t) => (n, { t with waiters := t.waiters.filter fun w => w.1 != k })
    queues := s.queues.map fun (n, q) => (n, { q with sleepers := q.sleepers.filter fun j => j != k })
    agenda := s.agenda.filter fun e => match e.ev with
      | .timelineOperation (.wait _ _ j _) => j != k
      | .taskQueueOperation (.pop _ j _ _) => j != k
      | _ => true }

/-- Keys of a gang's strands. -/
def gangKeys (s : State) (gid : Nat) : List Nat := (s.strands.filter fun p => p.2.gid == gid).map fun p => p.1

/-- The number under which what ended gangs have on its way goes on: no gang's key. -/
def orphanKey (k : Nat) : Nat := 2 ^ 41 + k

/-- A key of the gang that leaves is no longer one of the gang's id, which another generation may take (R113). -/
def orphanOf (gid k : Nat) : Nat := if k / 256 = gid then orphanKey k else k

/-- A domain episode after a gang has left: what the gang contributed counts, its members are strands of no live gang (R317, R324). -/
def Episode.without (e : Episode) (gid : Nat) : Episode :=
  { e with members := e.members.map fun m => m.map (orphanOf gid), parts := e.parts.map fun p => { p with key := orphanOf gid p.key } }

def TqOp.rekey (f : Nat → Nat) : TqOp → TqOp
  | .push c r p k d b => .push c r p (f k) d b
  | .joinPush c r p k d b => .joinPush c r p (f k) d b
  | .rsv c n k d b => .rsv c n (f k) d b
  | .rel c n k d b => .rel c n (f k) d b
  | .pop c k d v => .pop c (f k) d v
  | .popTry c k d v b => .popTry c (f k) d v b

def TlOp.rekey (f : Nat → Nat) : TlOp → TlOp
  | .sig n inc k d c b => .sig n inc (f k) d c b
  | .wait n th k d => .wait n th (f k) d
  | .rd n k d b => .rd n (f k) d b
  | .set n v k d b => .set n v (f k) d b

def RemoteWrite.rekey (f : Nat → Nat) : RemoteWrite → RemoteWrite
  | .st l n v k => .st l n v (f k)
  | .stv l m v k => .stv l m v (f k)
  | .amo l n op v k d r => .amo l n op v (f k) d r
  | .cas l n o w k d r => .cas l n o w (f k) d r
  | .join l k d q p r t => .join l (f k) d q p r t

def RemoteRead.rekey (f : Nat → Nat) : RemoteRead → RemoteRead
  | .ld l w k d r => .ld l w (f k) d r
  | .ldv l m k d r => .ldv l m (f k) d r

def InvalFor.rekey (f : Nat → Nat) : InvalFor → InvalFor
  | .strand k d => .strand (f k) d
  | w => w

/-- A step under the numbers that its strands have now. -/
def rekeyStep (f : Nat → Nat) (ev : Instr) : Instr :=
  match ev with
  | .taskQueueOperation o => .taskQueueOperation (TqOp.rekey f o)
  | .timelineOperation o => .timelineOperation (TlOp.rekey f o)
  | .remoteStorePublish w => .remoteStorePublish (RemoteWrite.rekey f w)
  | .remoteLoadResponse r => .remoteLoadResponse (RemoteRead.rekey f r)
  | .remoteAcknowledgement k => .remoteAcknowledgement (f k)
  | .sendArrival m => .sendArrival { m with sender := f m.sender }
  | .sendStatusReturn k d r st => .sendStatusReturn (f k) d r st
  | .launchAccept (.strand k d r) a rec => .launchAccept (.strand (f k) d r) a rec
  | .tlbinvComplete w c => .tlbinvComplete (InvalFor.rekey f w) c
  | .completionDelivery o k st item => .completionDelivery o (f k) st item
  | .closeArrival a v x o k d b => .closeArrival a v x o (f k) d b
  | .wputAcknowledgement k j q t e => .wputAcknowledgement (f k) j q t e
  | .flushResponse k e => .flushResponse (f k) e
  | .waittWake k => .waittWake (f k)
  | .overwrite k => .overwrite (f k)
  | .preempt k => .preempt (f k)
  | ev => ev

/-- Steps of one gang's life, which end with it. -/
def stepOfGang (gid : Nat) : Instr → Bool
  | .gangStart g | .gangEnd g | .saveRoutineStart g _ _ | .saveAcknowledgement g _ _ | .drainComplete g | .contextDmaDone g _
  | .parkedReady g | .restoreDmaDone g | .restoreRoutineEnd g | .suspend g _ | .machine g _ _ _ _ => g == gid
  | _ => false

def rekeyFlight (f : Nat → Nat) (x : Flight) : Flight :=
  match x.what with
  | .step p ev => { x with what := .step p (rekeyStep f ev) }
  | .reg k r => { x with what := .reg (f k) r }

/-- What is on its way from or to a gang that leaves finds no strand of a later gang of its id (R113). -/
def orphanAll (s : State) (gid : Nat) : State :=
  let f := orphanOf gid
  { s with
    agenda := (s.agenda.filter fun e => !stepOfGang gid e.ev).map fun e => { e with ev := rekeyStep f e.ev }
    deferred := s.deferred.map (rekeyStep f)
    replies := s.replies.map fun r => { r with fl := rekeyFlight f r.fl }
    late := s.late.map fun l => { l with known := l.known.map (rekeyFlight f) }
    quads := s.quads.map fun (q, x) => (q, { x with fetches := x.fetches.map fun (n, y) => (n, { y with key := f y.key }) })
    invals := s.invals.map fun i => { i with who := InvalFor.rekey f i.who } }

/-- A gang leaves the device: its generation advances, its permits return, what it took part in is forgotten (R113, R139). -/
def removeGang (s : State) (gid : Nat) : State :=
  let s := orphanAll s gid
  { s with
    gens := cset s.gens gid (cget s.gens gid + 1)
    gangs := merase s.gangs gid
    strands := s.strands.filter fun p => p.2.gid != gid
    offers := s.offers.filter fun o => o.2.gid != gid
    queues := s.queues.map fun (n, q) => (n, setPermits q gid 0)
    episodes := (s.episodes.filter fun e => match e.2.grp with
      | .gang _ => e.2.gid != gid
      | .domain _ => true).map fun (n, e) => (n, e.without gid)
    aborted := s.aborted.filter fun a => match a.1 with
      | .gang _ => a.2 != gid
      | .domain _ => true }

/-! ### Grids -/

def gridGangs (s : State) (grid : Nat) : List Gang := (s.gangs.filter fun g => g.2.grid == grid).map fun g => g.2

/-- A grid's references to its connector images are released (R272). -/
def dropRefs (s : State) (x : Grid) : State :=
  if x.refs then (x.hdr.conns.filter fun va => !x.loading.contains va).foldl (fun s va => dropRef s x.asid va) s else s

/-- A grid that a fault ended leaves once its gangs are gone. -/
def finishFailed (s : State) (grid : Nat) : State :=
  match s.grid? grid with
  | some x => if x.failed && (gridGangs s grid).isEmpty then { dropRefs s x with grids := merase (dropRefs s x).grids grid } else s
  | none => s

/-- The 64 bytes of a fault (R346). (DEDUCED, log entry 94.) -/
def faultBytes64 (s : State) (f : FaultMsg) : List Byte :=
  [f.code, f.sub, 0, 0] ++ bytesOf 4 (BitVec.ofNat 32 f.gang) ++ [BitVec.ofNat 8 f.sidx] ++ List.replicate 7 0 ++
  bytesOf 8 f.tpc ++ bytesOf 8 f.tval ++ bytesOf 8 s.cyc ++ bytesOf 24 f.err

/-- A gang of a failed grid stops; one that is not on quads is discarded (R346); an invalidation does not wait for its saved copies
(R352). (DEDUCED, log entry 104.) -/
def stopGang (s : State) (g : Gang) : State :=
  let s := (gangKeys s g.gid).foldl (fun s k => endStrand (cancelWait s k) k) s
  recheckInvals (if g.onQuads then
    s.modGang g.gid fun g => { g with phase := .resident, acks := [], routines := [], parkPages := [],
                                      image := [], imageLs := [], imageTiles := [], imageAcc := [], imageUnf := [], askAt := none
                                      suspAt := none }
  else removeGang s g.gid)

/-- A fault ends a grid (R346); the first to arrive is recorded. -/
def endGrid (s : State) (f : FaultMsg) : State :=
  match s.grid? f.grid with
  | some x =>
      if x.failed then s
      else
        let s := { s.setGrid f.grid { x with failed := true } with records := s.records ++ [⟨f.grid, false, faultBytes64 s f⟩] }
        finishFailed ((gridGangs s f.grid).foldl stopGang s) f.grid
  | none => s

/-- A fault that no strand raises: 0x10 to 0x13. -/
def endGridBy (s : State) (grid code : Nat) : State :=
  endGrid s { grid := grid, code := BitVec.ofNat 8 code, sub := 0, gang := 0, sidx := 0, tpc := 0, tval := 0, err := 0 }

/-- FAULT: a fault reaches the dispatch engine. -/
def execFault (f : FaultMsg) (s : State) : Out := .next (endGrid s f)

/-! ### The end of a gang (R131, R132) -/

/-- Every strand has ended, and the copies, jobs and sends of the gang are complete, those in its context block with them; no pre-emption
holds the gang (R131). -/
def gangDone (s : State) (g : Gang) : Bool :=
  g.phase != .starting &&
  (s.strands.all fun p => p.2.gid != g.gid || (p.2.act == .ended && p.2.sends == 0 && p.2.domSends == 0)) &&
  (if g.image.isEmpty then g.quads.map s.quad else g.image).all fun x => x.jobs.isEmpty && x.copies.all fun c => c.2.st.settled

/-- A grid ends with its last gang: its record, its references, its completion signal. (DEDUCED, log entry 67.) -/
def endGridNormal (s : State) (x : Grid) : State :=
  let s := dropRefs s x
  let s := { s with grids := merase s.grids x.seq, records := s.records ++ [⟨x.seq, false, []⟩] }
  if x.launch.done then
    s.postIn (oneWay hub0 (tlHub (tlNum x.launch.doneCap))) (.doneSignal x.seq x.launch.doneCap x.launch.doneInc)
  else s

/-- GANG_END; its quads are cleared, or were when its sections were written. -/
def execGangEnd (gid : Nat) (s : State) : Out :=
  match s.gang? gid with
  | some g =>
      if !gangDone s g then .next s
      else
        let s := if g.onQuads then g.quads.foldl beginClear (removeGang s gid) else removeGang s gid
        let s := s.modGrid g.grid fun x => { x with ended := x.ended + 1 }
        match s.grid? g.grid with
        | some x =>
            if x.failed then .next (finishFailed s g.grid)
            else if x.ended = x.launch.count then .next (endGridNormal s x)
            else .next s
        | none => .next s
  | none => .next s

/-- DONE_SIGNAL: the increment takes effect at the timeline's controller, in its port's turn (R134); saturation is recorded and raises no
trap (R132). -/
def execDoneSignal (grid : Nat) (cap inc : Word) (s : State) : Out :=
  if tlYields s (.doneSignal grid cap inc) then .next (s.post s.now 2 (.doneSignal grid cap inc))
  else match tlCheck s cap with
  | some n =>
      let (s, _, sat) := tlAdd s n inc
      if sat then .next { s with records := s.records.map fun r => if r.grid = grid then { r with saturated := true } else r }
      else .next s
  | none => .next s

/-! ### Machine checks (R345) -/

/-- The 24 bytes of an error record. -/
def machineRecord (s : State) (src : BitVec 8) (quad : Nat) (which : BitVec 8) (addr : Word) : List Byte :=
  [src, BitVec.ofNat 8 (quadX quad), BitVec.ofNat 8 (quadY quad), which, 0, 0, 0, 0] ++ bytesOf 8 addr ++ bytesOf 8 s.cyc

/-- A strand that can take a MACHINE: it runs no save or restore routine, or took PREEMPT in this cycle, before which MACHINE comes (R337). -/
def takesMachine (now : Nat) (st : Strand) : Bool := st.act != .ended && (st.act != .saving || st.wake == now)

/-- A strand as it was before the PREEMPT of this cycle. -/
def unpreempted (st : Strand) : Strand :=
  if st.act == .saving then { saveReturn st st.wake with act := if st.resume == .complete then .run else st.resume, resume := .run } else st

/-- The instruction that a machine check names: the strand's next one, behind one that it sleeps in without executing it again. -/
def machinePc (s : State) (k : Nat) (st : Strand) : BitVec 20 :=
  match st.act with
  | .run => s.skipFill k st.pc
  | .asleep .reply n | .asleep (.saturated _) n | .asleep (.flush _) n | .asleep (.port _) n | .asleep (.barrier _) n => s.skipFill k (st.pc + BitVec.ofNat 20 n)
  | _ => st.pc

/-- The record of a machine check goes into the system region of the gang's quads. -/
def putRecord (s : State) (g : Gang) (rec' : List Byte) : State :=
  g.quads.foldl (fun s q => { s with ls := csetN s.ls (lsKey q Config.errRecord) rec' }) s

/-- The fault that a machine check raises where no strand can take it: it is the lowest strand's that a routine has, at its pc. -/
def machineFault (s : State) (g : Gang) (src : BitVec 8) (rec' : List Byte) : State :=
  let st? := (s.strands.find? fun p => p.2.gid == g.gid && p.2.act == .saving).map fun p => p.2
  endGrid (if g.onQuads then putRecord s g rec' else s)
    { grid := g.grid, code := BitVec.ofNat 8 cMACHINE, sub := src, gang := g.index
      sidx := (st?.map Strand.sidx).getD 0
      tpc := ((st?.map fun (st : Strand) => st.tstat.extractLsb' 44 20).getD 0).setWidth 64
      tval := BitVec.ofNat 64 Config.errRecord, err := BitVec.ofNat 192 (natOf rec') }

/-- MACHINE: the record goes into the system region of the gang's quads and every strand traps at its boundary, before a PREEMPT that has not
come to it (R337); a gang none of whose strands can take it loses its grid at once (R338). (DEDUCED, log entry 86.) -/
def machineCheck (s : State) (gid : Nat) (src : BitVec 8) (quad : Nat) (which : BitVec 8) (addr : Word) : State :=
  match s.gang? gid with
  | some g =>
      let rec' := machineRecord s src quad which addr
      let keys := (gangKeys s gid).filter fun k => (s.strand? k).any (takesMachine s.now)
      if g.phase == .resident || (g.phase == .interrupt && !keys.isEmpty) then
        keys.foldl (fun s k =>
          match s.strand? k with
          | some st =>
              let u := unpreempted st
              let t := takeTrap (cancelWait (s.setStrand k u) k) k ((machinePc s k u).setWidth 64) cMACHINE src.toNat
                (BitVec.ofNat 64 Config.errRecord)
              if st.act == .saving then t.post s.now 0 (.preempt k) else t
          | none => s) (putRecord s g rec')
      else machineFault s g src rec'
  | none => s

end Sys2Proof.Machine
end

