-- ==== Sys2Proof/Machine/Preempt.lean ====
section
/-! DEFINITION. Pre-emption and resume (R335, R337 to R344). -/

namespace Sys2Proof.Machine

/-! ### The start of a pre-emption (R338) -/

/-- (quad, core) pairs of a gang. -/
def gangCores (g : Gang) : List (Nat × Nat) := g.quads.flatMap fun q => (List.range 4).map fun c => (q, c)

/-- PREEMPT goes to every strand, a suspend to every lantern that holds offers of the gang (R265, R340); nothing changes when the gang is
not resident. (DEDUCED, log entry 69.) -/
def startPreempt (s : State) (gid : Nat) : State :=
  match s.gang? gid with
  | some g =>
      if g.phase != .resident then s
      else
        let hub := hubOf g.cluster
        let s := s.setGang gid { g with phase := .interrupt, acks := gangCores g, routines := [], suspAt := some s.now }
        let s := (gangKeys s gid).foldl (fun s k => s.post (s.now + 2 + 2 * hops hub (s.quadOf k)) 0 (.preempt k)) s
        let ls := ((s.offers.filter fun o => o.2.gid == gid && !o.2.fired).map fun o => o.2.lantern).eraseDups
        ls.foldl (fun s l => s.post (s.now + oneWay hub (hubOf l)) 2 (.suspend gid l)) s
  | none => s

/-- A gang that stands on its quads and is not RESIDENT yet: what is asked of it waits until it is (R338). -/
def Gang.coming (g : Gang) : Bool := g.phase == .starting || g.phase == .restoring

/-- A pre-emption is chosen (R125): it starts at once, or when the gang is RESIDENT. -/
def askPreempt (s : State) (gid : Nat) : State :=
  if (s.gang? gid).any Gang.coming then s.modGang gid fun g => { g with askAt := some s.now } else startPreempt s gid

/-- The requests of strands at PARK that have come to their controllers, and those for gangs that are RESIDENT now, start their
pre-emptions. -/
def takeRequests (s : State) : State :=
  s.gangs.foldl (fun s (k, g) =>
    if !g.coming && g.askAt.any fun t => decide (t ≤ s.now) then startPreempt (s.modGang k fun g => { g with askAt := none }) k else s) s

/-- A strand enters the save routine; what it goes back to, and the cycle, is kept. The pc of resumption of one that ran names no fill word (R61). -/
def enterSave (s : State) (k : Nat) (r : Act) : State :=
  s.modStrand k fun st =>
    { preemptEntry (if st.act == .run then { st with pc := s.skipFill k st.pc } else st) with act := .saving, resume := r, wake := s.now }

/-- A pending OVERWRITE would be taken at the strand's next boundary. -/
def ovwDue (st : Strand) : Bool := st.ovw.isSome && (st.sup || !st.ih)

/-- PREEMPT: an instruction that issues in the cycle of its arrival does so first, a pending OVERWRITE is not taken before it (R337); a
strand that does not issue in it, for a scoreboard stalls it or its core serves another, is at its boundary (R339), and so is one
asleep in an instruction that executes again is at the boundary before it, one asleep at a port keeps its sleep (R339).
(DEDUCED, log entry 70.) -/
def execPreempt (key : Nat) (s : State) : Out :=
  match s.strand? key, s.gang? (key / 256) with
  | some st, some g =>
      if g.phase != .interrupt then .next s
      else if issuesNow s key && st.resume != .saving && !ovwDue st then
        .next ((s.setStrand key { st with resume := .saving }).post (s.now + 1) 0 (.preempt key))
      else match st.act with
        | .ended | .saving | .complete => .next s
        | .run => .next (enterSave s key .run)
        | .parked => .next (enterSave s key .parked)
        | .asleep k len =>
            match k with
            | .timeline _ | .queue _ _ | .promise _ | .job _ _ | .reduction _ _ | .putCount _ _ _ | .window _ _ _ =>
                .next (enterSave (cancelWait s key) key .run)
            | .reply | .saturated _ | .flush _ => .next (s.post (s.now + 1) 0 (.preempt key))
            | .port _ | .barrier _ | .late _ | .overlay _ | .firmware => .next (enterSave s key (.asleep k len))
  | _, _ => .next s

/-! ### Save routines (R338 to R340) -/

/-- Keys of the strands of one core that have not ended. -/
def coreKeys (s : State) (g : Gang) (q c : Nat) : List Nat :=
  (s.strands.filter fun p =>
    p.2.gid == g.gid && p.2.act != .ended && (g.place p.2.sidx).1 == q && (g.place p.2.sidx).2.1 == c).map fun p => p.1

/-- A core may run its save routine. -/
def coreReady (s : State) (g : Gang) (q c : Nat) : Bool :=
  g.phase == .interrupt && g.acks.contains (q, c) && !g.routines.contains (q, c) &&
  (coreKeys s g q c).all (saveReady s) && ((coreKeys s g q c).isEmpty || (s.quad q).jobs.isEmpty)

/-- SAVE_ROUTINE_START: 96 cycles per resident strand, then the acknowledgement travels to the controller. -/
def execSaveRoutineStart (gid quad core : Nat) (s : State) : Out :=
  match s.gang? gid with
  | some g =>
      if coreReady s g quad core then
        let n := (coreKeys s g quad core).length
        .next ((s.setGang gid { g with routines := (quad, core) :: g.routines }).postIn
          (96 * n + 2 * hops (hubOf g.cluster) quad + 2) (.saveAcknowledgement gid quad core))
      else .next s
  | none => .next s

/-! ### Strand records (R341) -/

/-- Whether a record's strand is asleep at a port instruction, or that instruction was marked complete.
(DESIGN CHOICE, log entry 35.) -/
def resumeKind (st : Strand) : Nat :=
  match st.resume with
  | .asleep (.port _) _ | .asleep (.barrier _) _ => 1
  | .complete => 2
  | _ => 0

/-- The deadline of a strand's suspended offer, otherwise zero. -/
def recordDeadline (s : State) (st : Strand) : Word :=
  match st.resume with
  | .asleep (.port id) _ => ((mget? s.offers id).bind fun o => o.deadline).getD 0
  | _ => 0

/-- The word of a pending OVERWRITE: pending, class and register. -/
def recordOvw (st : Strand) : Word :=
  match st.ovw with
  | some o => BitVec.ofNat 64 (2 ^ 63 + (if o.vec then 256 else 0) + o.reg.val)
  | none => 0

/-- The value of a pending scalar OVERWRITE, otherwise zero. -/
def recordOvwVal (st : Strand) : Word :=
  match st.ovw with
  | some o => if o.vec then 0 else o.val
  | none => 0

/-- The 512 bytes of a strand's record. -/
def strandRecord (s : State) (st : Strand) : List Byte :=
  ((List.finRange 32).flatMap fun r => bytesOf 8 (sreg st r)) ++ ((List.finRange 8).flatMap fun r => bytesOf 4 (preg st r)) ++
  ([sbWord st.sst, sbWord st.vst, (st.tstat.extractLsb' 44 20).setWidth 64, st.tpc, st.tcause, st.tval, st.tvec, st.vstat, st.serr,
    st.rngk, st.rngc.setWidth 64, st.rngc.extractLsb' 64 64, st.tstat, st.ssca, st.sscb, st.stpc, st.scause, st.sval]
   ++ st.wcnt.toList ++ [BitVec.ofNat 64 (resumeKind st), recordOvw st, recordOvwVal st, recordDeadline s st, 0, 0]).flatMap (bytesOf 8)

/-- Where a strand's record stands: in the system region of its quad, by physical slot. -/
def recordAt (g : Gang) (k : Nat) : Nat :=
  let (q, c, sl) := g.place (k % 256)
  lsKey q (Config.saveBase + 512 * (4 * c + sl))

/-- The records of strands of a gang are written. -/
def writeRecords (s : State) (gid : Nat) (g : Gang) (keys : List Nat) : State :=
  keys.foldl (fun s k =>
    match s.strand? k with
    | some st =>
        let r := strandRecord s (settle st s.now)
        ({ s with ls := csetN s.ls (recordAt g k) r }).modGang gid fun g => { g with recs := mset g.recs k r }
    | none => s) s

/-- Word `i` of a record. -/
def recordWord (r : List Byte) (i : Nat) : Word := BitVec.ofNat 64 (natOf ((r.drop (8 * i)).take 8))

/-- The scoreboard of a word: code 11 changes nothing. -/
def sbRead (v : Vector RegSt 32) (w : Word) : Vector RegSt 32 :=
  Vector.ofFn fun r : Fin 32 =>
    match (w >>> (2 * r.val)).toNat % 4 with
    | 0 => .normal
    | 1 => .empty
    | 2 => .full
    | _ => v[r.val]

/-- The register of the first code 11 of a scoreboard word. -/
def badCode (w : Word) : Option Nat := (List.range 32).find? fun r => (w >>> (2 * r)).toNat % 4 == 3

/-- The pending OVERWRITE of a record's two words. -/
def recordedOvw (w v : Word) : Option Ovw :=
  if w.getLsbD 63 then some ⟨w.getLsbD 8, ⟨w.toNat % 32, Nat.mod_lt _ (by decide)⟩, if w.getLsbD 8 then w else v⟩ else none

/-- A strand takes word `i` of its record `r` (R341). -/
def takeWord (r : List Byte) (st : Strand) (i : Nat) : Strand :=
  let w := recordWord r i
  if h : i < 32 then { st with sregs := st.sregs.set i w }
  else if h : i < 36 then
    { st with pregs := (st.pregs.set (2 * (i - 32)) (w.setWidth 32)).set (2 * (i - 32) + 1) (w.extractLsb' 32 32) }
  else if h : 54 ≤ i ∧ i < 58 then { st with wcnt := st.wcnt.set (i - 54) w }
  else
    match i with
    | 36 => { st with sst := sbRead st.sst w }
    | 37 => { st with vst := sbRead st.vst w }
    | 39 => { st with tpc := w }
    | 40 => { st with tcause := w }
    | 41 => { st with tval := w }
    | 42 => { st with tvec := w }
    | 43 => { st with vstat := w }
    | 44 => { st with serr := w }
    | 45 => { st with rngk := w }
    | 46 => { st with rngc := st.rngc.extractLsb' 64 64 ++ w }
    | 47 => { st with rngc := w ++ st.rngc.setWidth 64 }
    | 38 | 48 => { st with tstat := setField (recordWord r 48) 63 44 ((recordWord r 38).toNat % 2 ^ 20) }
    | 49 => { st with ssca := w }
    | 50 => { st with sscb := w }
    | 51 => { st with stpc := w }
    | 52 => { st with scause := w }
    | 53 => { st with sval := w }
    | 58 =>
        match w.toNat % 4, st.resume with
        | 0, .asleep (.port _) _ | 0, .asleep (.barrier _) _ => { st with resume := .run }
        | 2, .asleep (.port _) _ | 2, .asleep (.barrier _) _ => { st with resume := .complete }
        | _, _ => st
    | 59 | 60 => { st with ovw := recordedOvw (recordWord r 59) (recordWord r 60) }
    | _ => st

/-- The deadline of a strand's suspended offer as its record gives it. -/
def takeDeadline (r : List Byte) (st : Strand) (s : State) : State :=
  match st.resume with
  | .asleep (.port id) _ =>
      let w := recordWord r 61
      { s with offers := s.offers.map fun p => (p.1, if p.1 == id then { p.2 with deadline := if w = 0 then none else some w } else p.2) }
  | _ => s

/-- A record that has changed since a routine wrote it is what the strand holds, a word of it that has not changes nothing (R341).
(DESIGN CHOICE, log entry 35.) -/
def readRecord (g : Gang) (s : State) (k : Nat) : State :=
  match s.strand? k, mget? g.recs k with
  | some st, some old =>
      let r := cgetN s.ls (recordAt g k) 512
      if r == old then s
      else
        let ws := (List.range 64).filter fun i => recordWord r i != recordWord old i
        let s := s.setStrand k (ws.foldl (takeWord r) st)
        if ws.contains 61 then takeDeadline r st s else s
  | _, _ => s

/-- The quad, class (vector or not) and number of the first register of a gang's records whose scoreboard code is 11. -/
def badRecord (s : State) (g : Gang) : Option (Nat × Bool × Nat) :=
  g.recs.findSome? fun p =>
    let r := cgetN s.ls (recordAt g p.1) 512
    match badCode (recordWord r 36), badCode (recordWord r 37) with
    | some n, _ => some ((g.place (p.1 % 256)).1, false, n)
    | none, some n => some ((g.place (p.1 % 256)).1, true, n)
    | none, none => none

/-- SAVE_ACKNOWLEDGEMENT: the core's routine has written its records; the last acknowledgement ends INTERRUPT. -/
def execSaveAcknowledgement (gid quad core : Nat) (s : State) : Out :=
  match s.gang? gid with
  | some g =>
      if g.phase != .interrupt then .next s
      else
        let s := writeRecords s gid g (coreKeys s g quad core)
        let rest := g.acks.filter fun a => a != (quad, core)
        if rest.isEmpty then .next ((s.modGang gid fun g => { g with acks := [], phase := .drain }).post s.now 2 (.drainComplete gid))
        else .next (s.modGang gid fun g => { g with acks := rest })
  | none => .next s

/-! ### The context block (R342) -/

def roundUp (n k : Nat) : Nat := (n + k - 1) / k * k

/-- Bytes of local store that a section holds. -/
def sectionLs (h : Header) (x : Quad) : Nat := roundUp (4096 * x.xbp.toNat + h.lstore) 4096

/-- Size of a quad's section. -/
def sectionSize (h : Header) (g : Gang) (x : Quad) : Nat :=
  8192 + 4 * g.spc * h.valloc * 128 + h.tiles * 16384 + h.accs * 32768 + 8192 + sectionLs h x

/-- Cycles of the DMA of the sections, quads in parallel; the block spans stacks of every die. (DESIGN CHOICE, log entry 31.) -/
def dmaCycles (s : State) (g : Gang) (xs : List Quad) : Nat :=
  match s.headerOf g.gid with
  | some h => 132 + (xs.foldl (fun m x => max m (sectionSize h g x)) 0 + 63) / 64
  | none => 132

/-- Copies and window puts of a quad that are neither settled nor waiting on storage alone, or a PFETCH whose pages are being translated.
(DESIGN CHOICE, log entry 16.) -/
def busyCopies (x : Quad) : Bool :=
  (x.fetches.any fun f => decide (f.2.key < orphanKey 0)) || x.copies.any fun c => !c.2.st.settled && c.2.st != .storage

/-- DRAIN_COMPLETE: the copies that do not wait on storage, and the jobs, are complete; the DMA starts. -/
def execDrainComplete (gid : Nat) (s : State) : Out :=
  match s.gang? gid with
  | some g =>
      if g.phase == .drain && g.quads.all (fun q => !busyCopies (s.quad q) && (s.quad q).jobs.isEmpty) then
        .next ((s.setGang gid { g with phase := .dma }).postIn (dmaCycles s g (g.quads.map s.quad)) (.contextDmaDone gid true))
      else .next s
  | none => .next s

/-- The tickets of a quad on whose storage page a strand of a gang stopped at PARK, or for which its firmware sleeps (R170, R336). -/
def parkTickets (s : State) (gid q : Nat) : List Nat :=
  (s.strands.filter fun p => p.2.gid == gid && s.quadOf p.1 == q).filterMap fun p =>
    if p.2.resume == .parked && p.2.tcause.toNat % 65536 == 0x209 then some (p.2.tval.toNat % 256) else p.2.awaited

/-- What a section keeps of a quad: its outstanding copies by gang position (R184, R188), those that have faulted since the pre-emption
began or under a parked strand with them (R170), the complete ones for their observation alone (R221), nothing of the physical quad's
own. (DEDUCED, log entry 128.) -/
def savedQuad (g : Gang) (parked : List Nat) (x : Quad) : Quad :=
  { x with
    copies := (x.copies.filter fun (t, c) =>
      !c.st.settled || c.st == .complete ||
        (c.st == .faulted && (g.suspAt.any (fun a => decide (a ≤ c.done)) || parked.contains t))).map fun (t, c) =>
      (t, { c with quad := (g.quads.findIdx? fun q => q == c.quad).getD 0, carried := c.st == .complete })
    cores := Vector.replicate 4 CoreSt.init, tcache := [], links := [], snap := [], lastCore := 3, lastAccept := none, accWr := none
    tagFree := 0, moveFree := 0, arrFree := 0, lineAt := 0, clearing := none }

/-- What readers of the saved bytes may still miss (R216): the unfenced writes of a quad, by offset. -/
def savedUnf (s : State) (q top : Nat) : List Unf :=
  (s.unf.filter fun u => u.addr / 2 ^ 20 == q && u.addr % 2 ^ 20 < top).map fun u => { u with addr := u.addr % 2 ^ 20 }

/-- Puts a gang's contents into its context block. (DESIGN CHOICE, log entry 35.) -/
def saveImage (s : State) (g : Gang) : Gang :=
  let lsTop (q : Nat) : Nat := ((s.headerOf g.gid).map fun h => sectionLs h (s.quad q)).getD 0
  { g with
    image := g.quads.map fun q => savedQuad g (parkTickets s g.gid q) (s.quad q)
    imageLs := g.quads.map fun q => cslice s.ls (lsKey q 0) (lsKey q (lsTop q))
    imageTiles := g.quads.map fun q => cslice s.tiles (tileLo q) (tileLo (q + 1))
    imageAcc := g.quads.map fun q => cslice s.acc (accLo q) (accLo (q + 1))
    imageUnf := g.quads.map fun q => savedUnf s q (lsTop q) }

/-- CONTEXT_DMA_DONE: every section is written, and the quads are cleared; the gang is SAVED or PARKED when they are free. Or the
block had a PTE fault, then or while it is read back: SAVEFAIL. (DEDUCED, log entry 95.) -/
def execContextDmaDone (gid : Nat) (ok : Bool) (s : State) : Out :=
  match s.gang? gid with
  | some g =>
      if !ok && g.phase == .restoring && !g.image.isEmpty then .next (endGridBy s g.grid 0x12)
      else if g.phase != .dma then .next s
      else if !g.image.isEmpty then
        .next (s.setGang gid { g with phase := if g.parkPages.isEmpty then .saved else .parked })
      else if !ok then .next (endGridBy s g.grid 0x12)
      else
        let saved := { saveImage s g with lastCluster := g.cluster, badSb := badRecord s g }
        let s := ((gangKeys s gid).foldl (readRecord g) s).setGang gid saved
        .next ((g.quads.foldl beginClear s).postIn 2048 (.contextDmaDone gid true))
  | none => .next s

/-- PARKED_READY: every page that the gang parked on is in, or has failed (R170). -/
def execParkedReady (gid : Nat) (s : State) : Out :=
  match s.gang? gid with
  | some g => if g.phase == .parked && g.parkPages.isEmpty then .next (s.setGang gid { g with phase := .saved }) else .next s
  | none => .next s

/-! ### Resume (R343) -/

/-- A saved gang is placed: the DMA back into the new rectangle starts. -/
def startRestore (s : State) (g : Gang) (ox oy : Nat) : State :=
  let g := { g with phase := .restoring, ox := ox, oy := oy, lastCluster := clusterOf (quadAt ox oy) }
  (s.setGang g.gid g).postIn (dmaCycles s g g.image) (.restoreDmaDone g.gid)

/-- A section goes into a quad, which keeps its own translation cache, ticket rotations and snapshot (R184, R321).
(DEDUCED, log entry 92.) -/
def restoredQuad (g : Gang) (old x : Quad) : Quad :=
  { x with
    copies := x.copies.map fun (t, c) => (t, { c with quad := g.quads.getD c.quad 0 })
    tcache := old.tcache, fetches := old.fetches, nextTicket := old.nextTicket, nextRed := old.nextRed, snap := old.snap }

/-- Writes the sections from gang position `i` on. -/
def restoreSections (g : Gang) : List Nat → Nat → State → State
  | [], _, s => s
  | q :: rest, i, s =>
      let s := s.modQuad q fun old => restoredQuad g old (g.image.getD i Quad.init)
      restoreSections g rest (i + 1)
        { s with
          ls := cpaste s.ls (lsKey q 0) (g.imageLs.getD i [])
          tiles := cpaste s.tiles (tileLo q) (g.imageTiles.getD i [])
          acc := cpaste s.acc (accLo q) (g.imageAcc.getD i [])
          unf := ((g.imageUnf.getD i []).map fun u => { u with addr := lsKey q u.addr }) ++ s.unf }

/-- Parts of a quad's copies whose pages came in meanwhile go on (R188). (DEDUCED, log entry 45.) -/
def resumeCopies (s : State) (q : Nat) : State :=
  (s.quad q).copies.foldl (fun s (t, c) => if c.st == .storage && c.lines.any (lineReady s) then goOn s q t else s) s

/-- RESTORE_DMA_DONE: the sections are in their quads; every core runs its restore routine. -/
def execRestoreDmaDone (gid : Nat) (s : State) : Out :=
  match s.gang? gid with
  | some g =>
      if g.phase != .restoring || g.image.isEmpty then .next s
      else
        let s := writeRecords (restoreSections g g.quads 0 s) gid g ((gangCores g).flatMap fun p => coreKeys s g p.1 p.2)
        let s := s.modGang gid fun g => { g with image := [], imageLs := [], imageTiles := [], imageAcc := [], imageUnf := [] }
        let s := g.quads.foldl resumeCopies s
        let n := (gangCores g).foldl (fun m p => max m (coreKeys s g p.1 p.2).length) 0
        .next (s.postIn (96 * n) (.restoreRoutineEnd gid))
  | none => .next s

/-- A strand that sleeps at a port or barrier again: its offer is sent from the new position, or its image is gone (R265, R273,
R279). -/
def resumeOffer (s : State) (k : Nat) (id cluster : Nat) : State :=
  match mget? s.offers id, s.strand? k with
  | some o, some st =>
      if o.gone then takeTrap { s with offers := merase s.offers id } k (st.pc.setWidth 64) cCONNECTOR 5 o.ref
      else resendOffer s id cluster s.now
  | _, _ => s

/-- A strand continues after its restore routine (R334, R336, R343). (DEDUCED, log entry 93.) -/
def resumeStrand (s : State) (cluster k : Nat) : State :=
  match s.strand? k with
  | some st0 =>
      if st0.act != .saving then s
      else
        let st := { saveReturn (settle st0 s.now) s.now with issued := s.now, resume := .run }
        match st0.resume with
        | .parked => postOverwrite (s.setStrand k (supReturn st st.tpc (s.now + 3))) k
        | .asleep z len =>
            let s := s.setStrand k { st with act := .asleep z len }
            match z with
            | .port id | .barrier id => resumeOffer s k id cluster
            | _ => finishWait s k
        | _ => postOverwrite (s.setStrand k { st with act := .run }) k
  | none => s

/-- Whether the host or the lightship holds a grid halted (R171, R379). -/
def gridHeld (s : State) (grid : Nat) : Bool := ((s.grid? grid).map fun x => x.heldHost || x.heldLs).getD false

/-- The routines have read the records: the gang is resident again, with its copy of the code (R32); halted if it was, or if its grid is
held. -/
def restoreGang (s : State) (gid : Nat) (g : Gang) : State :=
  let s := (gangKeys s gid).foldl (readRecord g) s
  let s := s.setGang gid { g with
    phase := .resident, halted := g.halted || gridHeld s g.grid, suspAt := none, recs := [], badSb := none }
  let fresh (x : Quad) : Quad := { x with cores := x.cores.map fun c => { c with stale := [] } }
  let s := g.quads.foldl (fun s q => s.modQuad q fresh) s
  (gangKeys s gid).foldl (fun s k => resumeStrand s g.cluster k) s

/-- RESTORE_ROUTINE_END: the gang goes on, or a scoreboard code of 11 in a record raises MACHINE of source 5 (R341, R343). -/
def execRestoreRoutineEnd (gid : Nat) (s : State) : Out :=
  match s.gang? gid with
  | some g =>
      if g.phase != .restoring || !g.image.isEmpty then .next s
      else match g.badSb.or (badRecord s g) with
        | some (q, vec, n) => .next (machineCheck s gid 5 q (if vec then 1 else 0) (BitVec.ofNat 64 n))
        | none => .next (restoreGang s gid g)
  | none => .next s

/-! ### PARK (R170) -/

/-- The page on which the copy of a trapped WAITT still waits, lowest address first. -/
def parkPage (s : State) (g : Gang) (st : Strand) : Option Nat :=
  if st.tcause.toNat % 65536 ≠ 0x209 then none
  else (ticketOf s st g (st.tval.toNat % 256)).bind fun y =>
    (((s.pages.filter fun p => y.pages.contains p.pte).foldl (fun (b : Option Page) p =>
      match b with
      | some x => if p.va < x.va then some p else b
      | none => some p) none).map fun p => p.pte)

/-- A strand stops at PARK and adds its page; the request of the first one to reach the controller starts the pre-emption. It travels as
an acknowledgement does (R340 and the traced run of the storage program). (DEDUCED, log entry 93.) -/
def parkStrand (s : State) (k : Nat) : State :=
  match s.strand? k, s.gang? (k / 256) with
  | some st, some g =>
      let pages := match parkPage s g st with
        | some p => if g.parkPages.contains p then g.parkPages else p :: g.parkPages
        | none => g.parkPages
      let t := s.now + 2 * hops (hubOf g.cluster) (s.quadOf k) + 2
      (s.setStrand k { st with act := .parked }).setGang g.gid { g with parkPages := pages, askAt := some (min t (g.askAt.getD t)) }
  | _, _ => s

end Sys2Proof.Machine
end

