-- ==== Sys2Proof/Machine/Dispatcher.lean ====
section
/-! DEFINITION. The dispatch engine: launch records and kernel headers, priorities, placement, pre-emption for a blocked grid,
early launch, wedged grids, the start of a gang (R30, R109 to R128, R272, R392). -/

namespace Sys2Proof.Machine

/-! ### Headers (R115 to R117) -/

def zeroAt (bs : List Byte) (lo n : Nat) : Bool := fieldOf bs lo n == 0

/-- A segment-table entry: virtual address, local-store offset, size; none when it breaks a limit. -/
def parseSeg (code : Nat) (bs : List Byte) : Option (Nat × Nat × Nat) :=
  let va := fieldOf bs 0 8
  let off := fieldOf bs 8 4
  let n := fieldOf bs 12 4
  if va % 64 ≠ 0 || off % 32 ≠ 0 || n % 4 ≠ 0 || n = 0 || roundUp code 4096 < off + n then none else some (va, off, n)

/-- The fields of a header whose limits hold; its segments are read later. -/
def parseHeader (bs : List Byte) : Option Header :=
  let b (i : Nat) : Nat := (bs.getD i 0).toNat
  let conn (i : Nat) : Nat := fieldOf bs (64 + 8 * i) 8
  let h : Header :=
    { entry := fieldOf bs 0 4, codesz := fieldOf bs 4 4, sreq := b 8, salloc := b 9, vreq := b 10, valloc := b 11, spc := b 12
      lw := b 13 % 4, lh := b 13 / 4 % 4, tiles := b 14, accs := b 15, lstore := fieldOf bs 16 4, coop := b 20 == 1, equota := b 21
      segs := [], conns := (List.range (b 22)).map conn }
  if h.entry % 4 = 0 && h.entry < h.codesz && 4 ≤ h.codesz && h.codesz ≤ Config.sysBase &&
     1 ≤ h.sreq && h.sreq ≤ 32 && h.salloc % 8 = 0 && h.salloc ≤ 32 && h.sreq ≤ h.sall &&
     h.vreq ≤ 32 && h.valloc % 4 = 0 && h.valloc ≤ 32 && h.vreq ≤ h.valloc && 1 ≤ h.spc && h.spc ≤ 4 &&
     h.lw ≤ 2 && h.lh ≤ 2 && b 13 < 16 && h.tiles ≤ 12 && h.accs ≤ 4 && b 20 ≤ 1 && 1 ≤ h.equota && h.equota ≤ 16 &&
     b 22 ≤ 8 && b 23 = 0 && 1 ≤ fieldOf bs 24 2 && fieldOf bs 24 2 ≤ 256 && zeroAt bs 26 6 && fieldOf bs 32 8 % 64 = 0 &&
     zeroAt bs 40 24 && ((List.range 8).all fun i => decide (i < b 22) == (conn i != 0)) &&
     roundUp h.codesz 4096 + h.lstore ≤ Config.sysBase then some h else none

inductive HeaderRes where
  | ok (h : Header) (s : State)
  | bad (s : State)

/-- Reads and checks a header and its segment table (R117). -/
def readHeader (s : State) (asid va : Nat) : HeaderRes :=
  if va % 128 ≠ 0 then .bad s
  else match readVa asid 2 va 128 s with
    | .bad s => .bad s
    | .ok bs s =>
        match parseHeader bs with
        | none => .bad s
        | some h =>
            let n := fieldOf bs 24 2
            match readVa asid 2 (fieldOf bs 32 8) (16 * n) s with
            | .bad s => .bad s
            | .ok tb s =>
                match (List.range n).mapM fun i => parseSeg h.codesz ((tb.drop (16 * i)).take 16) with
                | some segs => .ok { h with segs := segs } s
                | none => .bad s

/-! ### Launch records (R118, R119) -/

def recLaunch (bs : List Byte) : Launch :=
  let f := fieldOf bs 21 1
  { hdrva := fieldOf bs 0 8, argva := BitVec.ofNat 64 (fieldOf bs 8 8), count := fieldOf bs 16 4, pri := fieldOf bs 20 1 % 8
    early := f.testBit 0, coop := f.testBit 1, start := f.testBit 2, done := f.testBit 3
    startCap := BitVec.ofNat 64 (fieldOf bs 24 8), startTh := BitVec.ofNat 64 (fieldOf bs 32 8)
    doneCap := BitVec.ofNat 64 (fieldOf bs 40 8), doneInc := BitVec.ofNat 64 (fieldOf bs 48 8) }

/-- The record checks that end with BADREC. -/
def recBad (s : State) (bs : List Byte) (l : Launch) : Bool :=
  l.count = 0 || 2 ^ 20 < l.count || 8 ≤ fieldOf bs 20 1 || 16 ≤ fieldOf bs 21 1 || !zeroAt bs 22 2 || !zeroAt bs 56 8 ||
  (l.early && !l.start) || (l.start && (tlCheck s l.startCap).isNone) || (l.done && (tlCheck s l.doneCap).isNone)

/-- Records that a launch queue holds. -/
def queueLen (s : State) (q : Nat) : Nat :=
  (s.grids.filter fun g => g.2.launch.pri == q && g.2.placed < g.2.launch.count && !g.2.failed).length

def Grid.w (x : Grid) : Nat := 2 ^ x.hdr.lw
def Grid.h (x : Grid) : Nat := 2 ^ x.hdr.lh
def Grid.coop (x : Grid) : Bool := x.launch.coop || x.hdr.coop

/-- Accepts a record into an address space: the status, the checks in the order of R119. -/
def acceptLaunch (s : State) (asid : Nat) (bs : List Byte) : Nat × State :=
  let l := recLaunch bs
  if !(cget s.astab asid).getLsbD 0 || recBad s bs l then (2, s)
  else match readHeader s asid l.hdrva with
    | .bad s => (1, s)
    | .ok h s =>
        let x := Grid.init s.nextSeq asid h l
        if x.coop && 512 < l.count * x.w * x.h then (4, s)
        else if 64 ≤ queueLen s l.pri then (3, s)
        else (0, { s.setGrid s.nextSeq { x with waitAt := some s.now } with nextSeq := s.nextSeq + 1 })

/-- LAUNCH_ACCEPT (R119, R120, R376). -/
def execLaunchAccept (w : LaunchFrom) (asid : BitVec 8) (rec : BitVec 512) (s : State) : Out :=
  let (st, s) := acceptLaunch s asid.toNat (bytesOf 64 rec)
  match w with
  | .strand key d ready =>
      .next (s.deliverFrom hub0 key (max ready (s.now + hops (s.quadOf key) hub0 + 80)) (.s d (BitVec.ofNat 64 st)))
  | .host tag => .next (complete s tag 0 (BitVec.ofNat 64 st))

/-! ### Waiting, priority, quantum (R121, R125, R128) -/

def agePeriod (s : State) : Nat := 2 ^ bitsOf s.dscfg.toNat 15 10
def quantLen (s : State) : Nat := 2 ^ bitsOf s.dscfg.toNat 23 18
def wedgeLen (s : State) : Nat := 2 ^ bitsOf s.dscfg.toNat 31 26

/-- A gang counts as resident until its pre-emption is chosen, and from its placement on. (DEDUCED, log entry 68.) -/
def Gang.resident (g : Gang) : Bool :=
  match g.phase with
  | .resident => true
  | .starting | .restoring => g.askAt.isNone
  | _ => false

/-- A gang that is being saved, or is saved, and does not wait for a storage page. (DEDUCED, log entry 68.) -/
def Gang.waits (g : Gang) : Bool := !g.resident && g.parkPages.isEmpty

/-- A grid is waiting (R121). -/
def gridWaits (s : State) (x : Grid) : Bool :=
  !x.failed && (x.placed < x.launch.count || (gridGangs s x.seq).any Gang.waits)

def gridResident (s : State) (x : Grid) : Bool := (gridGangs s x.seq).any Gang.resident

/-- Effective priority at a cycle (R121). -/
def effPrio (s : State) (x : Grid) (now : Nat) : Nat :=
  match x.waitAt with
  | some t => min 7 (x.launch.pri + (now - t) / agePeriod s)
  | none => x.launch.pri

/-- Age and quantum as they stand at the end of a cycle. (DEDUCED, log entry 90.) -/
def refreshGrid (s : State) (x : Grid) : Grid :=
  let x := if gridWaits s x then { x with waitAt := some (x.waitAt.getD s.now) } else { x with waitAt := none, prio := x.launch.pri }
  if gridResident s x then { x with quantum := some (x.quantum.getD s.now) } else { x with quantum := none, expired := none }

def refreshGrids (s : State) : State := { s with grids := s.grids.map fun (n, x) => (n, refreshGrid s x) }

/-- PRIORITY_AGING. -/
def execPriorityAging (grid : Nat) (s : State) : Out := .next (s.modGrid grid fun x => { x with prio := effPrio s x s.now })

/-- QUANTUM_EXPIRY: it alone pre-empts nothing. (DESIGN CHOICE, log entry 148.) -/
def execQuantumExpiry (grid : Nat) (start : Nat) (s : State) : Out :=
  .next (s.modGrid grid fun x =>
    if x.quantum = some start && start + quantLen s ≤ s.now then { x with expired := some (start + quantLen s) } else x)

/-! ### Placement (R122, R123) -/

/-- Quads that are not free; with `soon`, those of gangs being saved and those being cleared count as free. -/
def busyQuads (s : State) (soon : Bool) : List Nat :=
  let held := (s.gangs.filter fun g => g.2.onQuads && (!soon || g.2.resident)).flatMap fun g => g.2.quads
  if soon then held else held ++ (s.quads.filter fun q => q.2.clearing.isSome).map fun q => q.1

def rectQuads (ox oy w h : Nat) : List Nat := (List.range (w * h)).map fun i => quadAt (ox + i % w) (oy + i / w)

/-- Origins in the order of `place`. -/
def origins (w h : Nat) : List (Nat × Nat) :=
  (List.range 32).flatMap fun c =>
    let o := clusterOrigin c
    (List.range (4 / h)).flatMap fun j => (List.range (4 / w)).map fun i => (quadX o + i * w, quadY o + j * h)

/-- `place(w, h)`. -/
def place (busy : List Nat) (w h : Nat) : Option (Nat × Nat) :=
  (origins w h).find? fun o => (rectQuads o.1 o.2 w h).all fun q => !busy.contains q

/-- Places for `n` gangs, each taking the first place left. -/
def placeAll (w h : Nat) : Nat → List Nat → Option (List (Nat × Nat))
  | 0, _ => some []
  | n + 1, busy =>
      match place busy w h with
      | some o => (placeAll w h n (rectQuads o.1 o.2 w h ++ busy)).map fun l => o :: l
      | none => none

/-- Gangs of a grid that are ready to resume, lowest index first. -/
def savedGangs (s : State) (grid : Nat) : List Gang :=
  sortBy (fun a b => decide (a.index ≤ b.index)) ((gridGangs s grid).filter fun g => g.phase == .saved)

/-- The next `n` gangs of a grid: saved ones, then the indices of those never placed. -/
def nextGangs (s : State) (x : Grid) (n : Nat) : List (Gang ⊕ Nat) :=
  let back := (savedGangs s x.seq).take n
  (back.map Sum.inl) ++ ((List.range (min (n - back.length) (x.launch.count - x.placed))).map fun i => Sum.inr (x.placed + i))

/-- How many gangs a decision for a grid has to place. -/
def needCount (s : State) (x : Grid) : Nat :=
  if x.coop then (savedGangs s x.seq).length + (x.launch.count - x.placed) else 1

/-- A gang of the grid is ready to place; a cooperative grid resumes as a whole (R122, R124). (DEDUCED, log entry 71.) -/
def hasReady (s : State) (x : Grid) : Bool :=
  (x.placed < x.launch.count || !(savedGangs s x.seq).isEmpty) &&
  (!x.coop || (gridGangs s x.seq).all fun g => g.resident || g.phase == .saved)

/-- A start condition holds (R124). (DEDUCED, log entry 72.) -/
def startHolds (s : State) (x : Grid) : Bool :=
  !x.launch.start || (match tlCheck s x.launch.startCap with
    | some n => !(tlVal s n).ult x.launch.startTh
    | none => false)

def isEarly (s : State) (x : Grid) : Bool := x.launch.early && !startHolds s x
def producesFor (p e : Grid) : Bool := e.launch.start && p.launch.done && p.launch.doneCap == e.launch.startCap

/-- `quota_ok` (R126). -/
def quotaOk (s : State) (x : Grid) : Bool :=
  let held := ((gridGangs s x.seq).filter Gang.onQuads).foldl (fun a g => a + g.w * g.h) 0
  let free := ((List.range 512).filter fun q => !(busyQuads s false).contains q).length
  decide (held + x.w * x.h ≤ x.hdr.equota * (free + held) / 16)

/-- The grids that a decision considers, in order; a grid accepted in this cycle is considered from the next. -/
def dispatchOrder (s : State) : List Grid :=
  let e := (s.grids.map fun g => g.2).filter fun x =>
    gridWaits s x && hasReady s x && (startHolds s x || x.launch.early) && !(x.placed == 0 && x.waitAt == some s.now)
  let e := sortBy (fun a b => decide (b.prio < a.prio) || (a.prio == b.prio && decide (a.seq ≤ b.seq))) e
  let early := (s.grids.map fun g => g.2).filter fun x => isEarly s x && gridResident s x && !x.failed
  let (front, rest) := e.partition fun p => early.any fun x => producesFor p x
  front ++ rest

/-! ### Starting gangs (R113, R272, R392) -/

/-- spc_eff (R111). -/
def spcEff (h : Header) : Nat :=
  let a := min h.spc (128 / h.sall)
  if h.valloc = 0 then a else min a (96 / h.valloc)

/-- The lowest-numbered free gang id. -/
def lowestFree {α : Type} : SMap α → Nat → Nat
  | [], n => n
  | (k, _) :: t, n => if k = n then lowestFree t (n + 1) else n

/-- Loading of a grid's images: state, cycle of the last load's end, lantern room, images that cannot load. -/
structure Loads where
  s : State
  t : Nat
  room : Bool
  bad : List Nat

/-- One CONN entry of a grid (R272). (DEDUCED, log entry 76.) -/
def loadConn (x : Grid) (home : Nat) (l : Loads) (va : Nat) : Loads :=
  if !l.room then l
  else match loadImage l.s x.asid va home with
    | (.noRoom, _) => { l with room := false }
    | (.shared ready, s) =>
        { l with s := if x.refs then s else modImage s x.asid va fun m => { m with refs := m.refs + 1 }, t := max l.t ready }
    | (.loaded size m, s) =>
        let t := l.t + loadCycles size
        { l with s := { s with images := s.images ++ [{ m with refs := 1, ready := t }] }.post t 2 (.connectorImageLoad x.seq va)
                 t := t }
    | (_, s) => { l with s := s.post (l.t + 200) 2 (.connectorImageLoad x.seq va), t := l.t + 200, bad := va :: l.bad }

/-- CONNECTOR_IMAGE_LOAD: the end of a load; an image that could not be read, or is refused, ends the grid with CONNIMG. -/
def execConnectorImageLoad (grid : Nat) (va : Nat) (s : State) : Out :=
  match s.grid? grid with
  | some x => if x.loading.contains va then .next (endGridBy s grid 0x13) else .next s
  | none => .next s

/-- The cluster of a grid's first gang (R272). (DESIGN CHOICE, log entry 150.) -/
def homeAt (s : State) (x : Grid) (index : Nat) (o : Nat × Nat) : State :=
  if index = 0 then s.modGrid x.seq fun x => { x with home := clusterOf (quadAt o.1 o.2) } else s

/-- Places one gang of a grid at an origin. -/
def startGang (s : State) (x : Grid) (t : Nat) (g : Gang ⊕ Nat) (o : Nat × Nat) : State :=
  match g with
  | .inl g => homeAt (startRestore s g o.1 o.2) x g.index o
  | .inr i =>
      let gid := lowestFree s.gangs 0
      let g := Gang.init gid (cget s.gens gid) x.seq i x.hdr.lw x.hdr.lh o.1 o.2 (spcEff x.hdr)
      homeAt (((s.setGang gid g).modGrid x.seq fun x => { x with placed := x.placed + 1 }).post
        (t + 300 + (x.hdr.codesz + 63) / 64 + (x.hdr.lstore + 511) / 512) 2 (.gangStart gid)) x i o

/-- Starts gangs at their places. -/
def startGangs (x : Grid) (t : Nat) : List ((Gang ⊕ Nat) × (Nat × Nat)) → State → State
  | [], s => s
  | (g, o) :: rest, s => startGangs x t rest (startGang s x t g o)

/-- A byte of a segment that cannot be read when the gang starts is free. (DESIGN CHOICE, log entry 74.) -/
def segBytes (s : State) (asid va n : Nat) : List Byte × State :=
  match readVa asid (pagesIn n) va n s with
  | .ok bs s => (bs, s)
  | .bad s => ((List.range n).map fun i => Config.freeByte (s.free + i), { s with free := s.free + n })

/-- Code and local store of one quad (R30, R80, R392): the segments in table order, zeros behind the code and in the requested bytes.
(DESIGN CHOICE, log entry 117.) -/
def loadQuad (x : Grid) (segs : List (Nat × List Byte)) (s : State) (q : Nat) : State :=
  let xb := roundUp x.hdr.codesz 4096
  let ls := segs.foldl (fun m p => csetN m (lsKey q p.1) p.2) s.ls
  { s.modQuad q fun y => { y.emptied with xbp := BitVec.ofNat 8 (xb / 4096), clearing := none } with
    ls := cclear ls (lsKey q x.hdr.codesz) (lsKey q (xb + x.hdr.lstore)) }

/-- Reads the segments of a grid. -/
def readSegs (asid : Nat) : List (Nat × Nat × Nat) → State → List (Nat × List Byte) × State
  | [], s => ([], s)
  | (va, off, n) :: rest, s =>
      let (bs, s) := segBytes s asid va n
      let (l, s) := readSegs asid rest s
      ((off, bs) :: l, s)

/-- A segment that meets uncorrectable data raises MACHINE in the gang that it is loaded for (R383). -/
def badSegs (s : State) (g : Gang) (x : Grid) : State :=
  x.hdr.segs.foldl (fun s (va, _, n) =>
    match badOfRange s x.asid va n with
    | some l => badData s g.gid g.origin l
    | none => s) s

/-- GANG_START: the code is in place and every strand stands at the entry (R109, R392); halted when its grid is held (R171). -/
def execGangStart (gid : Nat) (s : State) : Out :=
  match s.gang? gid with
  | some g =>
      match s.grid? g.grid with
      | some x =>
          if g.phase != .starting then .next s
          else
            let (segs, s) := readSegs x.asid x.hdr.segs (badSegs s g x)
            let s := g.quads.foldl (loadQuad x segs) s
            let s := s.setGang gid { g with phase := .resident, halted := gridHeld s g.grid }
            .next ((List.range g.count).foldl (fun s i =>
              s.setStrand (keyOf gid i) (Strand.init gid i x.hdr.entry s.now)) s)
      | none => .next s
  | none => .next s

/-! ### `preempt_for` (R125, R126) -/

/-- A strand sleeps in TLWAIT on a timeline: in the controller's list, or its operation is on the way there. -/
def waitsOn (s : State) (n k : Nat) : Bool :=
  ((mget? s.timelines n).any fun t => t.waiters.any fun w => w.1 == k) ||
  s.agenda.any fun e => match e.ev with
    | .timelineOperation (.wait m _ j _) => m == n && j == k
    | _ => false

/-- An early gang that may be evicted for its producer: every strand has ended or sleeps in TLWAIT on the timeline. -/
def sleepingGang (s : State) (p : Grid) (g : Gang) : Bool :=
  g.phase == .resident &&
  s.strands.all fun (k, st) =>
    st.gid != g.gid || st.act == .ended ||
    (match tlCheck s p.launch.doneCap, st.act with
      | some n, .asleep (.timeline _) _ => waitsOn s n k
      | _, _ => false)

/-- The gangs that a grid gives up for another: none when it is no victim; a cooperative grid gives up all of them (R122). -/
def victimGangs (s : State) (g x : Grid) : List Gang :=
  let byIndex := sortBy (fun (a b : Gang) => decide (b.index ≤ a.index))
  let res := byIndex ((gridGangs s x.seq).filter Gang.resident)
  if x.seq = g.seq || x.failed || res.isEmpty then []
  else if x.prio < g.prio || (x.prio = g.prio && x.expired.isSome) then (if x.coop then res else res.take 1)
  else if isEarly s x && producesFor g x then
    if x.coop then (if res.all (sleepingGang s g) then res else []) else (res.filter (sleepingGang s g)).take 1
  else []

/-- Lower priority, then earlier quantum expiry, then higher sequence number. -/
def victimBefore (a b : Grid) : Bool :=
  decide (a.prio < b.prio) || (a.prio == b.prio &&
    (decide (a.quantum.getD 0 < b.quantum.getD 0) || (a.quantum == b.quantum && decide (b.seq ≤ a.seq))))

/-- Pre-empts for a blocked grid, unless quads that are being saved or cleared will do. -/
def preemptFor (s : State) (g : Grid) : State :=
  if (placeAll g.w g.h (needCount s g) (busyQuads s true)).isSome then s
  else
    let vs := sortBy victimBefore ((s.grids.map fun x => x.2).filter fun x => !(victimGangs s g x).isEmpty)
    match vs with
    | v :: _ => (victimGangs s g v).foldl (fun s x => askPreempt s x.gid) s
    | [] => s

/-- One grid of a decision: passed over, or decided. -/
inductive Decide where
  | pass
  | decided (s : State)

/-- One turn of the loop of `dispatch_step`. (DEDUCED, log entry 88.) -/
def tryGrid (s : State) (x : Grid) : Decide :=
  if isEarly s x && !quotaOk s x then .pass
  else
    let next := nextGangs s x (needCount s x)
    let fresh := (next.filter fun g => match g with
      | .inr _ => true
      | .inl _ => false).length
    if 2 ^ 20 < s.gangs.length + fresh then .pass
    else match placeAll x.w x.h next.length (busyQuads s false) with
      | some places =>
          let home := if x.placed = 0 then (places.head?.map fun o => clusterOf (quadAt o.1 o.2)).getD 0 else homeCluster s x.seq
          let l := x.hdr.conns.foldl (loadConn x home) ⟨s, max s.now x.loadEnd, true, []⟩
          if !l.room then .pass
          else
            let s := l.s.modGrid x.seq fun y => { y with refs := true, loading := l.bad ++ y.loading, loadEnd := l.t }
            .decided (startGangs x l.t (next.zip places) s)
      | none => .decided (preemptFor s x)

/-- The loop of `dispatch_step`. -/
def tryGrids (s : State) : List Grid → Decide
  | [] => .decided s
  | x :: rest =>
      match tryGrid s x with
      | .pass => tryGrids s rest
      | d => d

/-- DISPATCH_STEP (R124). (DEDUCED, log entry 101.) -/
def execDispatchStep (s : State) : Out :=
  match tryGrids s (dispatchOrder s) with
  | .decided s => .next s
  | .pass => .next s

/-! ### Wedged grids (R127) -/

/-- A strand that has exited or sleeps in one of the instructions of R127. -/
def wedgeAsleep (st : Strand) : Bool :=
  match st.act with
  | .ended => true
  | .asleep (.timeline _) _ | .asleep (.queue _ _) _ | .asleep (.promise _) _ | .asleep (.port _) _ | .asleep (.barrier _) _ => true
  | _ => false

def gangAsleep (s : State) (g : Gang) : Bool :=
  g.phase == .resident && !g.halted && s.strands.all fun p => p.2.gid != g.gid || wedgeAsleep p.2

def gridIsWedged (s : State) (x : Grid) : Bool :=
  let res := (gridGangs s x.seq).filter Gang.resident
  !x.failed && x.placed < x.launch.count && !res.isEmpty && res.all (gangAsleep s) && x.issued + wedgeLen s ≤ s.now

/-- GRID_WEDGED: the grid ends with fault 0x10. -/
def execGridWedged (grid : Nat) (s : State) : Out :=
  match s.grid? grid with
  | some x => if gridIsWedged s x then .next (endGridBy s grid 0x10) else .next s
  | none => .next s

end Sys2Proof.Machine
end

