-- ==== Sys2Proof/Machine/Mesh.lean ====
section
/-! DEFINITION. The mesh and its links: the routes of messages on an idle network, links that retry or have stopped, packets promoted
at a router (R362 to R369, R373). -/

namespace Sys2Proof.Machine

/-! ### Links and routes (R12, R366, R371) -/

/-- Neighbours that a packet for `t` may go to from `q`, in the order of an idle network: west first, else N, E, S (R366). -/
def nextHops (q t : Nat) : List Nat :=
  if quadX t < quadX q then [q - 1]
  else (if quadY t < quadY q then [q - 32] else []) ++ (if quadX q < quadX t then [q + 1] else []) ++
    (if quadY q < quadY t then [q + 32] else [])

/-- The next router on the XY tree, first along x and then along y (R371). -/
def treeHop (q t : Nat) : List Nat :=
  if quadX t < quadX q then [q - 1] else if quadX q < quadX t then [q + 1]
  else if quadY t < quadY q then [q - 32] else if quadY q < quadY t then [q + 32] else []

/-- The links of a route; the fuel counts its hops. -/
def routeLinks (next : Nat → Nat → List Nat) (t : Nat) : Nat → Nat → List Nat
  | 0, _ => []
  | n + 1, q =>
      match next q t with
      | r :: _ => linkBetween q r :: routeLinks next t n r
      | [] => []

/-- Whether some route to `t` from one of the quads avoids the stopped links; the fuel counts its hops. -/
def canReach (next : Nat → Nat → List Nat) (stopped : List Nat) (t : Nat) : Nat → List Nat → Bool
  | 0, qs => qs.contains t
  | n + 1, qs =>
      canReach next stopped t n (qs.flatMap fun q => (next q t).filter fun r => !stopped.contains (linkBetween q r)).eraseDups

/-- The way of a message: the quads at its ends, and whether it keeps to the XY tree. -/
structure Way where
  src  : Nat
  dst  : Nat
  tree : Bool
  deriving DecidableEq, Repr

def Way.next (w : Way) : Nat → Nat → List Nat := if w.tree then treeHop else nextHops
/-- The links that it takes on an idle network. -/
def Way.links (w : Way) : List Nat := routeLinks w.next w.dst (hops w.src w.dst) w.src
/-- Its message can reach its end. -/
def Way.isOpen (w : Way) (stopped : List Nat) : Bool := canReach w.next stopped w.dst (hops w.src w.dst) [w.src]

/-! ### Messages on their way -/

def RemoteWrite.key : RemoteWrite → Nat
  | .st _ _ _ k | .stv _ _ _ k | .amo _ _ _ _ k _ _ | .cas _ _ _ _ k _ _ | .join _ k _ _ _ _ _ => k
def RemoteWrite.loc : RemoteWrite → Loc
  | .st l _ _ _ | .stv l _ _ _ | .amo l _ _ _ _ _ _ | .cas l _ _ _ _ _ _ | .join l _ _ _ _ _ _ => l
def RemoteRead.key : RemoteRead → Nat
  | .ld _ _ k _ _ | .ldv _ _ k _ _ => k
def RemoteRead.loc : RemoteRead → Loc
  | .ld l _ _ _ _ | .ldv l _ _ _ _ => l

/-- The root of an episode's tree on this device, the origin of its gang (R325); for a domain group that of the dispatch engine.
(DESIGN CHOICE, log entry 82.) -/
def episodeRoot (s : State) (e : Episode) : Option Nat :=
  if Grp.isDomain e.grp then some hub0 else (s.gang? e.gid).map Gang.origin

/-- Where a strand's fault starts: its gang is named by grid and index. -/
def faultQuad (s : State) (f : FaultMsg) : Option Nat :=
  (s.gangs.find? fun g => g.2.grid == f.grid && g.2.index == f.gang).map fun g => g.2.quadOf f.sidx

/-- The ways of the messages that bring a step due in a cycle, for a step that messages bring. (DESIGN CHOICE, log entry 82.) -/
def msgWays (s : State) (ev : Instr) (due : Nat) : List Way :=
  let own (k : Nat) : Nat := s.quadOf k
  let buf (asid va f : Nat) (ovf down : Bool) : List Way :=
    ((imageOf? s asid va).bind fun m => (m.fifos[f]?).map fun x =>
      let e := bufEnds m x ovf
      if down then Way.mk (hubOf e.1) (hubOf e.2) false else ⟨hubOf e.2, hubOf e.1, false⟩).toList
  match ev with
  | .sendArrival m =>
      if capDev m.cap == s.dev.toNat && m.sender != 2 ^ 40 then
        [⟨own m.sender, targetQuad s (own m.sender) (capGid m.cap) (capSidx m.cap), m.tree⟩] else []
  | .remoteStorePublish w => [⟨own (RemoteWrite.key w), (RemoteWrite.loc w).quad, false⟩]
  | .remoteLoadResponse r => [⟨own (RemoteRead.key r), (RemoteRead.loc r).quad, false⟩]
  | .remoteAcknowledgement _ | .sendStatusReturn _ _ _ _ =>
      ((s.replies.find? fun r => r.fl == ⟨.step 2 ev, due⟩).map fun r => Way.mk r.src r.dst false).toList
  | .timelineOperation o => [⟨own (TlOp.key o), tlHub (TlOp.num o), false⟩]
  | .taskQueueOperation o => [⟨own (TqOp.key o), tqHub (TqOp.cap o), false⟩]
  | .doneSignal _ cap _ => [⟨hub0, tlHub (tlNum cap), false⟩]
  | .launchAccept (.strand k _ _) _ _ => [⟨own k, hub0, false⟩]
  | .offerArrival id => ((mget? s.offers id).map fun o => Way.mk (own o.key) (hubOf o.lantern) false).toList
  | .completionDelivery id k _ _ => ((mget? s.offers id).map fun o => Way.mk (hubOf o.lantern) (own k) false).toList
  | .fifoItemArrival a v f ovf _ => buf a v f ovf true
  | .permitReturn a v f ovf => buf a v f ovf false
  | .closeArrival a v f ovf k _ _ => (buf a v f ovf true).map fun e => ⟨own k, e.src, false⟩
  | .suspend g l => ((s.gang? g).map fun x => Way.mk (hubOf x.cluster) (hubOf l) false).toList
  | .preempt k => ((s.gang? (k / 256)).map fun g => Way.mk (hubOf g.cluster) (own k) false).toList
  | .saveAcknowledgement g q _ => ((s.gang? g).map fun x => Way.mk q (hubOf x.cluster) false).toList
  | .fault f => ((faultQuad s f).map fun q => Way.mk q hub0 false).toList
  | .episodeDecision n =>
      match (mget? s.episodes n).bind fun e => (episodeRoot s e).map fun r => (e, r) with
      | some (e, r) => e.parts.map fun p => ⟨own p.key, r, false⟩
      | none => []
  | .reductionComplete n rank =>
      match (mget? s.episodes n).bind fun e => (episodeRoot s e).map fun r => (e, r) with
      | some (e, r) => (e.parts.filter fun p => p.rank == rank).map fun p => ⟨r, own p.key, true⟩
      | none => []
  | _ => []

/-- The class of the packet that brings a step (R363); a SEND's status goes with the replies. (DESIGN CHOICE, log entry 145.) -/
def msgClass : Instr → Nat
  | .remoteAcknowledgement _ | .sendStatusReturn _ _ _ _ | .saveAcknowledgement _ _ _ | .wputAcknowledgement _ _ _ _ _ => 1
  | .sendArrival _ => 2
  | .offerArrival _ | .completionDelivery _ _ _ _ | .fifoItemArrival _ _ _ _ _ | .permitReturn _ _ _ _ | .closeArrival _ _ _ _ _ _ _ |
    .suspend _ _ | .preempt _ => 3
  | .episodeDecision _ | .reductionComplete _ _ => 4
  | _ => 0

/-- A step's message cannot reach its end: every route that it may take crosses a stopped link (R373).
(DESIGN CHOICE, log entry 82.) -/
def blockedMsg (s : State) (ev : Instr) : Bool :=
  !s.stopped.isEmpty && (msgWays s ev s.now).any fun w => !w.isOpen s.stopped

/-- Everything on its way: the steps of the agenda and the results that replies bring. -/
def flights (s : State) : List Flight :=
  (s.agenda.map fun e => ⟨.step e.prio e.ev, e.due⟩) ++ (s.replies.map fun r => r.fl).filter fun f =>
    match f.what with
    | .reg _ _ => true
    | .step _ _ => false

def Flight.class (f : Flight) : Nat :=
  match f.what with
  | .step _ ev => msgClass ev
  | .reg _ _ => 1

/-- An arrival that is there and is put off is on no link any more (R193, R197). -/
def landed (prio : Nat) (ev : Instr) : Bool := prio == 0 && (arrivalPair ev).isSome

def flightWays (s : State) (f : Flight) : List Way :=
  match f.what with
  | .step p ev => if landed p ev then [] else msgWays s ev f.due
  | .reg _ _ => ((s.replies.find? fun r => r.fl == f).map fun r => Way.mk r.src r.dst false).toList

/-- The streams in which a message keeps its place: its class from router to router (R367), and the arrivals from strand to strand
(R199). -/
def flightStreams (s : State) (f : Flight) : List (Nat × Nat × Nat) :=
  ((flightWays s f).map fun w => (f.class, w.src, w.dst)) ++
  match f.what with
  | .step _ ev => ((arrivalPair ev).map fun p => (5, p.1, p.2)).toList
  | .reg _ _ => []

/-- It is on a link: the link lies on its way, and it has left, a reply from its far end. -/
def onLink (s : State) (link : Nat) (f : Flight) : Bool :=
  decide (s.now < f.due) &&
  (flightWays s f).any fun w => w.links.contains link && (f.class != 1 || decide (f.due ≤ s.now + oneWay w.src w.dst))

/-! ### Messages that come late (R199, R209, R367, R373) -/

/-- A message comes at a later cycle; what a release then orders reaches to a later cycle too, 0 for no change (R199, R213). -/
structure Move where
  fl  : Flight
  due : Nat
  rel : Nat
  deriving DecidableEq, Repr

/-- Cycles from the end of the earlier accesses of a strand to the cycle in which a release of it comes, for a step that is one (R213);
a send to another device comes a cycle or more after them. -/
def releaseTime (s : State) (k : Nat) (f : Flight) : Option Nat :=
  let on (j : Nat) : Option Nat := if j = k then (flightWays s f).head?.map fun w => oneWay w.src w.dst else none
  match f.what with
  | .step _ (.sendArrival m) =>
      if !m.release || m.sender != k then none else if capDev m.cap == s.dev.toNat then (on k).map fun n => n + 2 else some 1
  | .step _ (.timelineOperation (.sig _ _ j _ _ _)) => on j
  | .step _ (.taskQueueOperation (.push _ _ _ j _ _)) | .step _ (.taskQueueOperation (.rsv _ _ j _ _)) |
    .step _ (.taskQueueOperation (.rel _ _ j _ _)) => on j
  | .step _ (.launchAccept (.strand j _ _) _ _) => on j
  | .step _ (.offerArrival id) => (mget? s.offers id).bind fun o => on o.key
  | _ => none

/-- A release of a strand that waits for an access comes behind it. -/
def lateReleases (s : State) (k due late : Nat) : List Move :=
  (flights s).filterMap fun f => (releaseTime s k f).bind fun n => if due + n ≤ f.due then some ⟨f, late + n, late⟩ else none

/-- What a late message makes late: the acknowledgement of a store, and the releases of the strand that wait for its access (R209). -/
def lateToo (s : State) (f : Flight) (due : Nat) : List Move :=
  match f.what with
  | .step _ (.remoteStorePublish w) =>
      let k := RemoteWrite.key w
      let own := s.quadOf k
      let q := (RemoteWrite.loc w).quad
      let acks := (s.replies.filter fun r => r.src == q && r.fl.what == .step 2 (.remoteAcknowledgement k) &&
        decide (f.due + ackDelay own q ≤ r.fl.due + bankStep own q)).map fun r => r.fl
      let first := acks.foldl (fun b a => match b with
        | some x => if a.due < x.due then some a else b
        | none => some a) (none : Option Flight)
      (first.map fun a => Move.mk a (a.due + (due - f.due)) 0).toList ++ lateReleases s k (f.due + 1) (due + 1)
  | .step _ (.remoteLoadResponse r) => lateReleases s (RemoteRead.key r) (f.due + 1) (due + 1)
  | _ => []

/-- A strand's account of a remote access that comes late: when it is published or has performed, and when it acquires (R208, R213). -/
def lateAccess (s : State) (k old due : Nat) (store : Bool) : State :=
  s.modStrand k fun st =>
    let st := { st with acqAt := if st.acqAt = old + 1 then due + 1 else st.acqAt }
    if store then
      { st with pubAt := max st.pubAt (due + 1), relQ := st.relQ.map fun r => if old + 1 ≤ r.2 then (r.1, max r.2 (due + 1)) else r }
    else { st with loadsAt := max st.loadsAt (due + 1) }

/-- A step that comes late: a release by SEND orders what it now waits for. -/
def lateStep (ev : Instr) (rel : Nat) : Instr :=
  match ev with
  | .sendArrival m => .sendArrival { m with rel := max m.rel rel }
  | ev => ev

/-- One message comes at a later cycle, with what its strand holds of it. -/
def moveFlight (s : State) (m : Move) : State :=
  let f := m.fl
  let due := m.due
  let g : Flight := ⟨match f.what with
    | .step p ev => .step p (lateStep ev m.rel)
    | w => w, due⟩
  let s : State := { s with
    replies := (s.replies.map fun r => if r.fl == f then { r with fl := g } else r),
    late := s.late.map fun l => { l with known := l.known.map fun x => if x == f then g else x } }
  match f.what with
  | .step p ev =>
      let s := { s with agenda := insertDue ⟨due, p, lateStep ev m.rel⟩ (s.agenda.erase ⟨f.due, p, ev⟩) }
      match ev with
      | .remoteStorePublish w => lateAccess s (RemoteWrite.key w) f.due due true
      | .remoteLoadResponse r => lateAccess s (RemoteRead.key r) f.due due false
      | .taskQueueOperation (.popTry cap k _ _ _) =>
          s.modStrand k fun st =>
            { st with loadsAt := max st.loadsAt (due + roundTrip (s.quadOf k) (tqHub cap) - oneWay (s.quadOf k) (tqHub cap)) }
      | _ => s
  | .reg k r =>
      s.modStrand k fun st =>
        { st with
          pend := (st.pend.map fun p => if p.1 == f.due && p.2.ref == r then (due, p.2) else p),
          wake := (if st.act == .run && st.wake == f.due then due else st.wake),
          loadsAt := if st.loadsAt = f.due then due else st.loadsAt }

/-- The moves of a pass over what is on its way, in the order in which it comes: what is behind a message that is late, in any stream of
both, comes no earlier than it (R199, R367). -/
def behind (s : State) (ms : List Move) : List Move :=
  ((sortBy (fun (a b : Flight) => decide (a.due ≤ b.due)) (flights s)).foldl
    (fun (acc : List ((Nat × Nat × Nat) × Nat) × List Move) f =>
      let mine := ms.filter fun m => m.fl == f
      let streams := flightStreams s f
      let own := mine.foldl (fun d m => max d m.due) f.due
      let due := acc.1.foldl (fun d x => if streams.contains x.1 then max d x.2 else d) own
      if due ≤ f.due then acc
      else ((streams.map fun x => (x, due)) ++ acc.1, acc.2 ++ [⟨f, due, mine.foldl (fun d m => max d m.rel) 0⟩])) ([], [])).2

/-- The moves with all that they make late, until nothing more is. -/
def allMoves (s : State) : Nat → List Move → List Move
  | 0, ms => ms
  | n + 1, ms =>
      let ms' := behind s (ms ++ ms.flatMap fun m => lateToo s m.fl m.due)
      if ms' = ms then ms else allMoves s n ms'

/-- Messages come at later cycles, and with them what waits for them; the ones behind them in their streams stay behind.
(DESIGN CHOICE, log entry 82.) -/
def putBack (s : State) (ms : List Move) : State :=
  if ms.isEmpty then s
  else
    let moved := allMoves s ((flights s).length + 1) (behind s ms)
    let t := moved.foldl moveFlight s
    let streams := (moved.flatMap fun m => flightStreams s m.fl).eraseDups
    let after := (flights t).map fun f => (f, flightStreams t f)
    { t with late := t.late ++ streams.map fun x =>
        { stream := x, due := moved.foldl (fun d m => if (flightStreams s m.fl).contains x then max d m.due else d) 0,
          known := (after.filter fun p => p.2.contains x).map fun p => p.1 } }

/-- What was sent behind a late message comes behind it (R367). -/
def floors (s : State) : List Move :=
  if s.late.isEmpty then []
  else (flights s).filterMap fun f =>
    let floor := s.late.foldl (fun d l => if (flightStreams s f).contains l.stream && !l.known.contains f then max d l.due else d) 0
    if f.due < floor then some ⟨f, floor, 0⟩ else none

/-- No cycle: what is due then stays on its way. -/
def never : Nat := 2 ^ 64

/-- What comes in the cycle that begins and cannot reach its end stays on its way (R373). -/
def cutOff (s : State) : List Move :=
  if s.stopped.isEmpty then []
  else (flights s).filterMap fun f =>
    if f.due ≤ s.now && (flightWays s f).any fun w => !w.isOpen s.stopped then some ⟨f, never, 0⟩ else none

/-- A cycle begins: late messages hold back what was sent behind them, and stopped links what must cross them. -/
def holdBack (s : State) : State :=
  let s := { s with replies := s.replies.filter fun r => decide (s.now ≤ r.fl.due), late := s.late.filter fun l => decide (s.now < l.due) }
  let s := putBack s (floors s)
  putBack s (cutOff s)

/-- Messages on their way over a link are late by some cycles (R373). -/
def delayLink (s : State) (link n : Nat) : State :=
  let s := putBack s (floors s)
  putBack s (((flights s).filter (onLink s link)).map fun f => ⟨f, f.due + n, 0⟩)

/-! ### The order at a bank (R177) -/

/-- The input port at which a remote access of a step comes to its bank's router. -/
def bankPort (s : State) : Instr → Option Nat
  | .remoteStorePublish w => some (inPort (s.quadOf (RemoteWrite.key w)) (RemoteWrite.loc w).quad)
  | .remoteLoadResponse r => some (inPort (s.quadOf (RemoteRead.key r)) (RemoteRead.loc r).quad)
  | _ => none

/-- Puts the accesses `q` in the places of those of `l`. -/
def refill (s : State) : List Due → List Due → List Due
  | [], _ => []
  | e :: t, q =>
      match (bankPort s e.ev), q with
      | some _, b :: q' => b :: refill s t q'
      | _, q => e :: refill s t q

/-- The remote accesses of the cycle that begins are served in the order of their input ports N, E, S, W, local; those of one port in the
order sent (R177). -/
def portOrder (s : State) : State :=
  let (now, later) := s.agenda.partition fun e => decide (e.due ≤ s.now)
  let q := (List.range 5).flatMap fun p => now.filter fun e => bankPort s e.ev == some p
  if q.isEmpty then s else { s with agenda := refill s now q ++ later }

/-- The order of what the cycle that begins brings: a MACHINE before a PREEMPT of it (R337), and the accesses by their ports. -/
def arrange (s : State) : State :=
  let s := portOrder s
  let machine (e : Due) : Bool := match e.ev with
    | .machine _ _ _ _ _ => decide (e.due ≤ s.now)
    | _ => false
  if s.agenda.any machine then
    { s with agenda := (s.agenda.filter machine).map (fun e => { e with prio := 0 }) ++ s.agenda.filter fun e => !machine e }
  else s

/-! ### Promotion (R369, R370) -/

/-- The lost cycles at which a packet is promoted. -/
def agep (s : State) : Nat := max 8 (bitsOf s.nccfg.toNat 7 0)

/-- The order of grants among promoted packets of a router: more lost cycles first, then the input port. -/
def Promo.before (a b : Promo) : Bool :=
  a.router == b.router && (decide (b.lost < a.lost) || (a.lost == b.lost && decide (a.port < b.port)))

def insertPromo (p : Promo) : List Promo → List Promo
  | [] => [p]
  | x :: t => if Promo.before p x then p :: x :: t else x :: insertPromo p t

/-- Each output of a router grants the first of its promoted packets; the others lose a cycle more.
(DESIGN CHOICE, log entry 84.) -/
def grantPackets : List Promo → List Promo → List Promo
  | _, [] => []
  | seen, p :: t =>
      if seen.any fun x => x.router == p.router && x.out == p.out then { p with lost := p.lost + 1 } :: grantPackets seen t
      else grantPackets (p :: seen) t

/-- PACKET_PROMOTION: a packet that has lost AGEP cycles at a router is granted before those that are not promoted; its count at an
earlier router is gone. (DESIGN CHOICE, log entry 84.) -/
def execPacketPromotion (p : Promo) (s : State) : Out :=
  if p.lost < agep s then .next s
  else .next { s with packets := insertPromo p (s.packets.filter fun x => x.id != p.id) }

end Sys2Proof.Machine
end

