-- ==== Sys2Proof/Machine/Reduce.lean ====
section
/-! DEFINITION. In-network reduction and expert routing: RED, REDW, TOPK, MCAST and their episodes (R315 to R327). -/

namespace Sys2Proof.Machine

/-! ### The tree (R320) -/

/-- One level of the tree: neighbours in rank order are combined, an odd last one goes up. -/
def redLevel {α : Type} (f : α → α → α) : List α → List α
  | a :: b :: t => f a b :: redLevel f t
  | l => l

/-- `red_tree`; the fuel bounds the levels. -/
def redTree {α : Type} (f : α → α → α) (z : α) : Nat → List α → α
  | 0, l => l.headD z
  | _ + 1, [] => z
  | _ + 1, [a] => a
  | n + 1, l => redTree f z n (redLevel f l)

/-- `comb` of one element of a format (R320). -/
def comb (op : RedOp) (t : Fmt) (a b : FN) : FN :=
  match op with
  | .add =>
      if t == .i32 then ((a.1 + b.1) % 2 ^ 32, 0)
      else
        let r := rnd t .rne false 0 (xsum .rne [fpDecode t a.1, fpDecode t b.1])
        (r.code, a.2 ||| b.2 ||| r.flags)
  | _ =>
      let max := op == .max
      if t == .i32 then
        let less := decide (intOf true 32 a.1 < intOf true 32 b.1)
        (if less != max then a.1 else b.1, 0)
      else
        let r := minMaxNum t max a.1 b.1
        (r.1, a.2 ||| b.2 ||| r.2)

/-- The element format in which a contribution is combined. -/
def redFmt (t : Fmt) : Fmt := if t == .mxe4m3 then .f32 else t

/-- Elements of one MX block of 64 bytes, decoded to FP32 (R319, R320). -/
def blockEls (bs : List Byte) : List Nat :=
  (List.range 32).map fun i => (mxDecode .e4m3 (byteAt' bs 32) (byteAt' bs i)).code
where byteAt' (bs : List Byte) (i : Nat) : Nat := (bs.getD i 0).toNat

def blockScale (bs : List Byte) : Nat := (bs.getD 32 0).toNat

/-- One 64-byte unit of the result from the units of the contributions in rank order: bytes and flags. (DEDUCED, log entry 62.) -/
def redUnit (op : RedOp) (t : Fmt) (us : List (List Byte)) : List Byte × Flags :=
  if t == .mxe4m3 then
    let els := us.map fun u => blockEls u
    let rs := (List.range 32).map fun i => redTree (comb op .f32) (0, 0) 64 (els.map fun e => (e.getD i 0, (0 : Flags)))
    if us.any fun u => blockScale u == 255 then (List.replicate 32 0x7F ++ [0xFF] ++ List.replicate 31 0, orFlags rs)
    else
      let (sc, codes, fl) := mxEncode .e4m3 .rne true (rs.map fun r => r.1) (List.replicate 32 0)
      (codes.map (fun c => BitVec.ofNat 8 c) ++ [BitVec.ofNat 8 sc] ++ List.replicate 31 0, orFlags rs ||| fl)
  else
    let w := Fmt.width t / 8
    let rs := (List.range (64 / w)).map fun i =>
      redTree (comb op t) (0, 0) 64 (us.map fun u => (fieldOf u (w * i) w, (0 : Flags)))
    (rs.flatMap fun r => leBytes w r.1, orFlags rs)

/-- The result of a whole range. -/
def redResult (op : RedOp) (t : Fmt) (cs : List (List Byte)) : List Byte × Flags :=
  let n := (cs.headD []).length / 64
  let us := (List.range n).map fun k => redUnit op t (cs.map fun c => (c.drop (64 * k)).take 64)
  (us.flatMap fun u => u.1, us.foldl (fun a u => a ||| u.2) 0)

/-! ### TOPK (R326, R327) -/

/-- An entry: score code, id, rank. -/
abbrev TEntry := Nat × Nat × Nat

/-- Whether an entry ranks before or equal to another. -/
def entryLe (a b : TEntry) : Bool :=
  let x := fpDecode .f32 a.1
  let y := fpDecode .f32 b.1
  let o : Ordering := match x.isNan, y.isNan with
    | true, true => .eq
    | true, false => .gt
    | false, true => .lt
    | false, false => xcmp y x
  match o with
  | .lt => true
  | .gt => false
  | .eq => a.2.1 < b.2.1 || (a.2.1 == b.2.1 && a.2.2 ≤ b.2.2)

/-- The non-empty entries of a contribution. -/
def topEntries (rank : Nat) (v : VVal) : List TEntry :=
  ((List.range 8).map fun i => ((lane v i).toNat, (lane v (8 + i)).toNat, rank)).filter fun e => e.2.1 != 0xFFFFFFFF

/-- A node keeps the best eight. -/
def mergeBest (a b : List TEntry) : List TEntry := (sortBy entryLe (a ++ b)).take 8

/-- The loop of `.thr`: c from entry `j` on. -/
def thrLoop (es : List TEntry) (th kmin : Nat) : Nat → Nat → Nat → Nat → Nat
  | 0, _, _, c => c
  | n + 1, j, s, c =>
      let s := (fadd32 s ((es.getD (j - 1) (negInf32, 0, 0)).1)).1
      let x := fpDecode .f32 s
      let y := fpDecode .f32 th
      if kmin ≤ j && !x.isNan && !y.isNan && xcmp x y != .lt then j else thrLoop es th kmin n (j + 1) s c

/-- The lanes of vD. -/
def topLanes (es : List TEntry) (c status : Nat) : VVal :=
  vmk fun i =>
    if i < 8 then BitVec.ofNat 32 (if i < c then (es.getD i (0, 0, 0)).1 else negInf32)
    else if i < 16 then BitVec.ofNat 32 (if i - 8 < c then (es.getD (i - 8) (0, 0, 0)).2.1 else 0xFFFFFFFF)
    else if i = 16 then BitVec.ofNat 32 c else if i = 17 then BitVec.ofNat 32 status else 0

/-- The parameters of a TOPK: k, or θ, kmin and kmax in their places (R326). -/
def topPar (thr : Bool) (b : Word) : Word :=
  let cl (n : Nat) : Nat := clampN 1 8 n
  if thr then
    let kmax := cl (bitsOf b.toNat 39 36)
    orBits [(bitsOf b.toNat 31 0, 0), (min (cl (bitsOf b.toNat 35 32)) kmax, 32), (kmax, 36)]
  else BitVec.ofNat 64 (cl (bitsOf b.toNat 3 0))

def topResult (thr : Bool) (par : Word) (cs : List VVal) : VVal :=
  let es := redTree mergeBest [] 64 ((List.range cs.length).map fun i => sortBy entryLe (topEntries i (cs.getD i (vmk fun _ => 0))))
  let v := es.length
  let c := if thr then
      let kmax := bitsOf par.toNat 39 36
      thrLoop es (bitsOf par.toNat 31 0) (bitsOf par.toNat 35 32) kmax 1 0 kmax
    else par.toNat
  topLanes es (min c v) 0

/-! ### Episodes (R317, R321, R324, R325) -/

/-- A strand may contribute yet: it has not ended, and its gang may still be starting. -/
def canContribute (s : State) (k : Nat) : Bool :=
  match s.strand? k with
  | some st => st.act != .ended
  | none => (s.gang? (k / 256)).any fun g => g.phase == .starting && decide (k % 256 < g.count)

/-- A member that cannot contribute any more: an ended strand, or a domain word of this device whose gang is gone (R324). -/
def deadMember (s : State) (gid : Nat) (grp : Grp) : Bool :=
  ((groupMembers s gid grp).any fun m => m.any fun k => !canContribute s k) ||
  match grp with
  | .domain n => (List.range 64).any fun i =>
      let w := cget s.domtab (64 * n.val + i)
      bitsOf w.toNat 63 61 == s.dev.toNat && domMember s w == some none
  | .gang _ => false

/-- A domain group with a member on a peer that cannot be reached (R378). -/
def lostMember (s : State) (grp : Grp) : Bool :=
  match grp with
  | .domain n => (List.range 64).any fun i =>
      let w := cget s.domtab (64 * n.val + i)
      w.getLsbD 32 && s.lost.contains (bitsOf w.toNat 63 61)
  | .gang _ => false

/-- The quad of a strand, on its quads or in its gang's saved image. -/
def modQuadOf (s : State) (key : Nat) (f : Quad → Quad) : State :=
  match s.gang? (key / 256) with
  | some g =>
      if g.image.isEmpty then s.modQuad (g.quadOf (key % 256)) f
      else s.setGang g.gid { g with image := updAt g.image (key % 256 / (4 * g.spc)) f }
  | none => s

def quadOfStrand (s : State) (key : Nat) : Quad :=
  match s.gang? (key / 256) with
  | some g => if g.image.isEmpty then s.quad (g.quadOf (key % 256)) else g.image.getD (key % 256 / (4 * g.spc)) Quad.init
  | none => Quad.init

/-- Writes a result into a member's local store, or into its saved image (R324). -/
def writeRange (s : State) (key op off : Nat) (bs : List Byte) : State :=
  match s.gang? (key / 256) with
  | some g =>
      if g.image.isEmpty then lsWrite s .reduce op (g.quadOf (key % 256)) off bs
      else
        let i := key % 256 / (4 * g.spc)
        let note (l : List Unf) : List Unf := unfWith s .reduce op (g.imageLs.getD i []) off bs.length l
        ({ s with free := s.free + 1 }).setGang g.gid
          { g with imageLs := updAt g.imageLs i fun m => csetN m off bs, imageUnf := updAt g.imageUnf i note }
  | none => s

/-- A ticket 1 to 255 in rotation, no outstanding one (R321). -/
def freshRed (x : Quad) : Nat :=
  (((List.range 255).map fun i => (x.nextRed - 1 + i) % 255 + 1).find? fun t => !((mget? x.reds t).any fun r => !r.done)).getD x.nextRed

def redsOut (x : Quad) : Nat := (x.reds.filter fun r => !r.2.done).length

/-- Marks a reduction complete and wakes the strands that wait for it (R322). -/
def settleRed (s : State) (key ticket : Nat) (code : Word) : State :=
  let op := ((mget? (quadOfStrand s key).reds ticket).map fun r => r.op).getD 0
  let s := modQuadOf s key fun x => { x with reds := x.reds.map fun (t, r) =>
    (t, if t == ticket then { r with done := true, code := code, at' := s.now } else r) }
  let idx (k : Nat) : Nat := ((s.gang? (k / 256)).map fun g => k % 256 / (4 * g.spc)).getD 0
  s.strands.foldl (fun s (k, st) =>
    match st.sleep? with
    | some (.reduction t d) =>
        if t = ticket && k / 256 = key / 256 && idx k = idx key then
          let s := s.deliverAt k (s.now + 2) (.s d code)
          (wakeStrand s k (s.now + 2)).modStrand k fun st => { st with seen := op :: st.seen }
        else s
    | _ => s) s

/-- An episode has members on other devices. -/
def Episode.remote (e : Episode) : Bool := e.members.any Option.isNone

/-- Posts the decision once every member of this device has contributed; those of other devices contribute at a free cycle, however
late (R317). (DESIGN CHOICE, log entry 64.) -/
def scheduleEpisode (s : State) (id : Nat) : State :=
  match mget? s.episodes id with
  | some e =>
      if !e.decided && e.members.all fun m => m.all fun k => e.parts.any fun p => p.key == k then
        let away := if e.remote then Config.freeNat (s.free + 1) else 0
        s.tick1.tick1.post (max (s.now + away + (redTimes s e).1) (lastOfGroup s e false)) 2 (.episodeDecision id)
      else s
  | none => s

/-- The first undecided episode of a group to which a member has not contributed (R317). -/
def openFor (s : State) (gid : Nat) (grp : Grp) (key : Nat) : Option Episode :=
  (s.episodes.map fun x => x.2).find? fun e =>
    e.grp == grp && e.gid == grpGang gid grp && !e.decided && !e.parts.any fun x => x.key == key

/-- An episode opens. A member on another device may end before it contributes, at a free cycle (R324).
(DESIGN CHOICE, log entry 64.) -/
def openEpisode (s : State) (e : Episode) : State :=
  let put (s : State) (e : Episode) : State := { s with opSeq := e.id, episodes := mset s.episodes e.id e }
  if !e.remote || !Config.freeBool s.free then (put s e).tick1
  else
    let t := s.now + Config.freeNat (s.free + 1)
    (put s { e with goneAt := some t }).tick1.tick1.post t 2 (.episodeDecision e.id)

/-- A contribution joins the first undecided episode that lacks its member, or opens one (R317). -/
def contribute (s : State) (gid : Nat) (grp : Grp) (p : Part) : State :=
  match openFor s gid grp p.key with
  | some e => scheduleEpisode { s with episodes := mset s.episodes e.id { e with parts := e.parts ++ [p] } } e.id
  | none =>
      let id := s.opSeq + 1
      let e : Episode := { id := id, grp := grp, gid := grpGang gid grp, members := groupMembers s gid grp, goneAt := none, parts := [p]
                           decided := false, status := 0, bytes := [], lanes := vmk fun _ => 0, flags := 0 }
      scheduleEpisode (openEpisode s e) id

/-- Two contributions agree in instruction, op, format, length and parameters. -/
def agree (a b : Contrib) : Bool :=
  match a, b with
  | .red o t x, .red p u y => o == p && t == u && x.length == y.length
  | .topk t p _, .topk u q _ => t == u && p == q
  | _, _ => false

/-- The contributions in rank order; those of other devices are free. (DESIGN CHOICE, log entry 64.) -/
def rankedBytes (s : State) (e : Episode) (len : Nat) : List (List Byte) :=
  (List.range e.members.length).map fun r =>
    match e.parts.find? fun p => p.rank == r with
    | some p => match p.c with
      | .red _ _ bs => bs
      | .topk _ _ _ => []
    | none => (List.range len).map fun i => Config.freeByte (s.free + 4096 * r + i)
def rankedLanes (s : State) (e : Episode) : List VVal :=
  (List.range e.members.length).map fun r =>
    match e.parts.find? fun p => p.rank == r with
    | some p => match p.c with
      | .topk _ _ v => v
      | .red _ _ _ => vmk fun _ => 0
    | none => vmk fun i => BitVec.ofNat 32 (Config.freeNat (s.free + 4096 * r + i))

/-- The decision may be MISMATCH for what other devices hold: a contribution of another kind (R317), or another table of the domain group
(R318). (DESIGN CHOICE, log entry 64.) -/
def Episode.peersMatter (s : State) (e : Episode) : Bool := e.remote || (Grp.isDomain e.grp && !s.domain.isEmpty)

/-- EPISODE_DECISION: at the root with the last contribution, or a member on another device has ended without its contribution. With other
devices in the domain a mismatch is a free choice. -/
def execEpisodeDecision (ep : Nat) (s : State) : Out :=
  match mget? s.episodes ep with
  | some e =>
      if e.goneAt.any fun t => decide (t ≤ s.now) then
        .next (if e.decided then s else abortGroup s e.grp e.gid fun x => decide (e.id ≤ x.id))
      else
      match e.decided, e.parts with
      | false, p :: rest =>
          let remote := e.peersMatter s
          let bad := !(rest.all fun x => agree p.c x.c) || (remote && Config.freeBool s.free)
          let e' := if bad then { e with decided := true, status := 2, lanes := topLanes [] 0 2 }
            else match p.c with
              | .red op t bs =>
                  let r := redResult op t (rankedBytes s e bs.length)
                  { e with decided := true, bytes := r.1, flags := r.2 }
              | .topk thr par _ => { e with decided := true, lanes := topResult thr par (rankedLanes s e) }
          let s := if remote then { s with free := s.free + 300000 } else s
          let s := { s with episodes := mset s.episodes ep e' }
          let due := max (s.now + (redTimes s e).2) (lastOfGroup s e true)
          .next (e'.parts.foldl (fun s p => s.post due 2 (.reductionComplete ep p.rank)) s)
      | _, _ => .next s
  | none => .next s

/-- An earlier episode of the group is not complete yet at a member (R317). -/
def earlierOwed (s : State) (e : Episode) (key : Nat) : Bool :=
  s.episodes.any fun x => x.2.grp == e.grp && x.2.gid == e.gid && decide (x.1 < e.id) && x.2.parts.any fun p => p.key == key

/-- REDUCTION_COMPLETE: the result, or the status alone, at one member, in episode order (R317, R321, R322, R324, R327). -/
def execReductionComplete (ep rank : Nat) (s : State) : Out :=
  match mget? s.episodes ep with
  | some e =>
      match e.decided, e.parts.find? fun p => p.rank == rank with
      | true, some p =>
          if earlierOwed s e p.key then .next (s.post (s.now + 1) 2 (.reductionComplete ep rank)) else
          let left := e.parts.filter fun x => x.rank != rank
          let s := { s with episodes := if left.isEmpty then merase s.episodes ep else mset s.episodes ep { e with parts := left } }
          match p.c with
          | .red _ _ _ =>
              let op := ((mget? (quadOfStrand s p.key).reds p.ticket).map fun r => r.op).getD 0
              let s := if e.status = 0 then writeRange s p.key op p.off e.bytes else s
              let code : Word := BitVec.ofNat 64 (e.status + if e.status = 0 then 256 * e.flags.toNat else 0)
              .next (settleRed s p.key p.ticket code)
          | .topk _ _ _ =>
              let v := if e.status = 0 then e.lanes else topLanes [] 0 e.status
              .next (settleRed (s.deliver p.key (.v p.d (BitVec.allOnes 32) v)) p.key p.ticket (BitVec.ofNat 64 e.status))
      | _, _ => .next s
  | none => .next s

/-! ### Instructions -/

/-- Joins a group's episode; on an aborted group, or one with a lost peer (R378), or where a new episode would lack an ended member, completes ABORTED at once, after
the member's earlier episodes (R317, R324). (DEDUCED, log entry 63.) -/
def joinEpisode (s : State) (gid : Nat) (grp : Grp) (p : Part) : State :=
  if s.aborted.contains (grp, grpGang gid grp) || lostMember s grp || ((openFor s gid grp p.key).isNone && deadMember s gid grp) then
    let id := s.opSeq + 1
    let e : Episode := { id := id, grp := grp, gid := grpGang gid grp, members := groupMembers s gid grp, goneAt := none, parts := [p]
                         decided := true, status := 1, bytes := [], lanes := vmk fun _ => 0, flags := 0 }
    { s with opSeq := id, episodes := mset s.episodes id e }.post (max s.now (lastOfGroup s e true)) 2 (.reductionComplete id p.rank)
  else contribute s gid grp p

/-- Takes a ticket of the issuing quad. -/
def takeRed (s : State) (q : Nat) (gid key : Nat) : Nat × State :=
  let x := s.quad q
  let t := freshRed x
  let r : Red := { gid := gid, key := key, done := false, code := 0, op := s.opSeq + 1, at' := s.now }
  (t, { s.setQuad q { x with reds := mset x.reds t r, nextRed := t % 255 + 1 } with opSeq := s.opSeq + 1 })

def grpWord (grp : Grp) : Word := (Grp.code grp).setWidth 64

/-- RED (R319, R321). (DEDUCED, log entry 41; DEDUCED, log entry 61.) -/
def execRed (g : Guard) (op : RedOp) (t : Fmt) (m : Mode) (d a : SReg) (len : Src96) (grp : Grp) (s : State) : Out :=
  let i : Instr := .red g op t m d a len grp
  issue i g (fun st gang _ s =>
    let n := match len with
      | .reg r => (sreg st r).toNat % 8192
      | .imm k => k.toNat
    let fa := sreg st a
    let q := gang.quadOf st.sidx
    if n < 64 || 4096 < n || n % 64 ≠ 0 then
      .trap cILLEGAL 0 (match len with
        | .reg r => sreg st r
        | .imm _ => i.bits64)
    else match resolve s st gang fa m true with
      | .error c => .trap c 0 fa
      | .ok l =>
          if l.space ≠ 0 || l.quad ≠ q then .trap cREMOTE 0 fa
          else if regionBad s false q l.off then .trap cPROTECT 0 fa
          else if fa.toNat % 64 ≠ 0 then .trap cALIGN 0 fa
          else if Config.sysBase < l.off + n then .trap cPROTECT 0 fa
          else match rankOf (groupMembers s st.gid grp) s.cur with
            | none => .trap cCAPABILITY 0 (grpWord grp)
            | some rank =>
                if 8 ≤ redsOut (s.quad q) then .stall
                else
                  let bytes := lsRead s .reduce (.op (s.opSeq + 1)) q l.off n
                  let (tk, s) := takeRed s q st.gid s.cur
                  .done (joinEpisode (s.wrS 2 d (BitVec.ofNat 64 tk)) st.gid grp
                    { rank := rank, key := s.cur, quad := q, ticket := tk, off := l.off, d := 0, c := .red op t bytes })) s

/-- REDW (R322). -/
def execRedw (g : Guard) (d a : SReg) (s : State) : Out :=
  issue (.redw g d a) g (fun st gang _ s =>
    let t := (sreg st a).toNat % 256
    match mget? (s.quad (gang.quadOf st.sidx)).reds t with
    | none => .done (s.wrS 1 d 0)
    | some r =>
        if r.done then
          let n := max 1 (r.at' + 2 - s.now)
          .done ((s.wrS n d r.code).modCur fun st => { st with seen := r.op :: st.seen, wake := s.now + n })
        else .hold (s.sleepIn (.reduction t d) (Instr.redw g d a).len)) s

/-- TOPK (R326). -/
def execTopk (g : Guard) (thr : Bool) (d a : VReg) (k : Src96) (grp : Grp) (s : State) : Out :=
  issue (.topk g thr d a k grp) g (fun st gang _ s =>
    let q := gang.quadOf st.sidx
    let par := topPar thr (match k with
      | .reg r => sreg st r
      | .imm n => n.setWidth 64)
    match rankOf (groupMembers s st.gid grp) s.cur with
    | none => .trap cCAPABILITY 0 (grpWord grp)
    | some rank =>
        if 8 ≤ redsOut (s.quad q) then .stall
        else
          let (tk, s) := takeRed s q st.gid s.cur
          .done (joinEpisode (s.awaitReg (.v d)) st.gid grp
            { rank := rank, key := s.cur, quad := q, ticket := tk, off := 0, d := d, c := .topk thr par (vreg st a) })) s

/-- The list of MCAST from its bytes: a member, or a bad entry. -/
def mcastList (h : Header) (g : Gang) (vec : Bool) (bs : List Byte) (n : Nat) : Option (List (Nat × Fin 32)) :=
  (List.range n).mapM fun i =>
    let sidx := fieldOf bs (4 * i) 1
    let reg := fieldOf bs (4 * i + 1) 1
    if fieldOf bs (4 * i + 2) 2 != 0 || g.count ≤ sidx || (!vec && reg == 0) || (if vec then h.vreq else h.sreq) ≤ reg then none
    else some (sidx, Fin.ofNat 32 reg)

def hasDup : List Nat → Bool
  | [] => false
  | x :: t => t.contains x || hasDup t

/-- The status of an MCAST and its list (R316). (DESIGN CHOICE, log entry 152.) -/
def mcastStatus (s : State) (g : Gang) (k : Fin 8) (vec : Bool) (bs : List Byte) (n : Nat) : Nat × List (Nat × Fin 32) :=
  match (s.headerOf g.gid).bind fun h => mcastList h g vec bs n with
  | none => (1, [])
  | some l =>
      if 32 < n then (1, [])
      else if hasDup (l.map fun x => x.1) then (2, [])
      else if s.episodes.any fun e => e.2.grp == .gang k && e.2.gid == g.gid && !e.2.decided then (3, [])
      else (0, l)

/-- MCAST: sD at 4h + 5. (DEDUCED, log entry 66; DESIGN CHOICE, log entry 153.) -/
def execMcast (g : Guard) (k : Fin 8) (vec : Bool) (m : Mode) (d a b : SReg) (s : State) : Out :=
  issue (.mcast g k vec m d a b) g (fun st gang _ s =>
    let fa := sreg st a
    let n := (sreg st b).toNat % 64
    match resolve s st gang fa m false with
    | .error c => .trap c 0 fa
    | .ok l =>
        if l.space ≠ 0 || !gang.hasQuad l.quad then .trap cREMOTE 0 fa
        else if regionBad s false l.quad l.off then .trap cPROTECT 0 fa
        else if fa.toNat % 4 ≠ 0 then .trap cALIGN 0 fa
        else if n ≤ 32 && Config.sysBase < l.off + 4 * n then .trap cPROTECT 0 fa
        else
          let bs := lsRead s .core (.strand s.cur) l.quad l.off (if n ≤ 32 then 4 * n else 0)
          let (status, list) := if 32 < n then (1, []) else mcastStatus s gang k vec bs n
          let s := if status = 0 then
              { s.setGang gang.gid { gang with mcg := gang.mcg.set k.val ⟨vec, list⟩ } with
                aborted := s.aborted.filter fun x => x != (.gang k, gang.gid) }
            else s
          let q' := hubOf gang.cluster
          .done (s.wrFrom q' (roundTrip (gang.quadOf st.sidx) q') d (BitVec.ofNat 64 status))) s

end Sys2Proof.Machine
end

