-- ==== Sys2Proof/Machine/Sha.lean ====
section
/-! DEFINITION. SHA-256, which R380 and R381 name: the function of FIPS 180-4. -/

namespace Sys2Proof.Machine

/-- The round constants. -/
def shaK : List Nat :=
  [0x428A2F98, 0x71374491, 0xB5C0FBCF, 0xE9B5DBA5, 0x3956C25B, 0x59F111F1, 0x923F82A4, 0xAB1C5ED5,
   0xD807AA98, 0x12835B01, 0x243185BE, 0x550C7DC3, 0x72BE5D74, 0x80DEB1FE, 0x9BDC06A7, 0xC19BF174,
   0xE49B69C1, 0xEFBE4786, 0x0FC19DC6, 0x240CA1CC, 0x2DE92C6F, 0x4A7484AA, 0x5CB0A9DC, 0x76F988DA,
   0x983E5152, 0xA831C66D, 0xB00327C8, 0xBF597FC7, 0xC6E00BF3, 0xD5A79147, 0x06CA6351, 0x14292967,
   0x27B70A85, 0x2E1B2138, 0x4D2C6DFC, 0x53380D13, 0x650A7354, 0x766A0ABB, 0x81C2C92E, 0x92722C85,
   0xA2BFE8A1, 0xA81A664B, 0xC24B8B70, 0xC76C51A3, 0xD192E819, 0xD6990624, 0xF40E3585, 0x106AA070,
   0x19A4C116, 0x1E376C08, 0x2748774C, 0x34B0BCB5, 0x391C0CB3, 0x4ED8AA4A, 0x5B9CCA4F, 0x682E6FF3,
   0x748F82EE, 0x78A5636F, 0x84C87814, 0x8CC70208, 0x90BEFFFA, 0xA4506CEB, 0xBEF9A3F7, 0xC67178F2]

/-- The initial hash value. -/
def shaInit : List Nat :=
  [0x6A09E667, 0xBB67AE85, 0x3C6EF372, 0xA54FF53A, 0x510E527F, 0x9B05688C, 0x1F83D9AB, 0x5BE0CD19]

abbrev W32 := BitVec 32

/-- The eight working words. -/
structure ShaWords where
  a : W32
  b : W32
  c : W32
  d : W32
  e : W32
  f : W32
  g : W32
  h : W32
  deriving DecidableEq, Repr

def rotr (x : W32) (n : Nat) : W32 := x.rotateRight n
def bigSigma0 (x : W32) : W32 := rotr x 2 ^^^ rotr x 13 ^^^ rotr x 22
def bigSigma1 (x : W32) : W32 := rotr x 6 ^^^ rotr x 11 ^^^ rotr x 25
def smallSigma0 (x : W32) : W32 := rotr x 7 ^^^ rotr x 18 ^^^ (x >>> 3)
def smallSigma1 (x : W32) : W32 := rotr x 17 ^^^ rotr x 19 ^^^ (x >>> 10)

/-- One round with its constant and its word of the schedule. -/
def shaRound (x : ShaWords) (kw : W32 × W32) : ShaWords :=
  let t1 := x.h + bigSigma1 x.e + ((x.e &&& x.f) ^^^ (~~~x.e &&& x.g)) + kw.1 + kw.2
  let t2 := bigSigma0 x.a + ((x.a &&& x.b) ^^^ (x.a &&& x.c) ^^^ (x.b &&& x.c))
  ⟨t1 + t2, x.a, x.b, x.c, x.d + t1, x.e, x.f, x.g⟩

/-- The message schedule: the block's words, newest first, extended by `n` words. -/
def shaSchedule : Nat → List W32 → List W32
  | 0, l => l
  | n + 1, l =>
      let at' (i : Nat) : W32 := l.getD (i - 1) 0
      shaSchedule n ((smallSigma1 (at' 2) + at' 7 + smallSigma0 (at' 15) + at' 16) :: l)

/-- Big-endian words of a byte string. -/
def shaWords : Nat → List Byte → List W32
  | 0, _ => []
  | n + 1, bs => (bs.getD 0 0 ++ bs.getD 1 0 ++ bs.getD 2 0 ++ bs.getD 3 0 : BitVec 32) :: shaWords n (bs.drop 4)

/-- One 64-byte block. -/
def shaBlock (x : ShaWords) (bs : List Byte) : ShaWords :=
  let ws := (shaSchedule 48 (shaWords 16 bs).reverse).reverse
  let y := ((shaK.map fun k => BitVec.ofNat 32 k).zip ws).foldl shaRound x
  ⟨x.a + y.a, x.b + y.b, x.c + y.c, x.d + y.d, x.e + y.e, x.f + y.f, x.g + y.g, x.h + y.h⟩

/-- The message with its padding: a one bit, zeros, the length in bits. -/
def shaPad (bs : List Byte) : List Byte :=
  bs ++ [0x80] ++ List.replicate ((119 - bs.length % 64) % 64) 0 ++ (bytesOf 8 (BitVec.ofNat 64 (8 * bs.length))).reverse

/-- Blocks of 64 bytes. -/
def shaBlocks : Nat → List Byte → ShaWords → ShaWords
  | 0, _, x => x
  | n + 1, bs, x => shaBlocks n (bs.drop 64) (shaBlock x (bs.take 64))

/-- SHA-256; byte 0 of the digest is the least significant byte of the value. (PRESUMED, log entry 120.) -/
def sha256 (bs : List Byte) : BitVec 256 :=
  let at' (i : Nat) : W32 := BitVec.ofNat 32 (shaInit.getD i 0)
  let p := shaPad bs
  let x := shaBlocks (p.length / 64) p ⟨at' 0, at' 1, at' 2, at' 3, at' 4, at' 5, at' 6, at' 7⟩
  let big : BitVec 256 := x.a ++ x.b ++ x.c ++ x.d ++ x.e ++ x.f ++ x.g ++ x.h
  BitVec.ofNat 256 (natOf (bytesOf 32 big).reverse)

end Sys2Proof.Machine
end

