-- ==== Sys2Proof/Machine/Storage.lean ====
section
/-! DEFINITION. The storage queue engines (R354 to R359): reads, the sweep, write-backs, flush, the lightship's evict and drive
administration (R379). The time that a drive takes and whether it fails are free. -/

namespace Sys2Proof.Machine

/-- Gangs parked on a page no longer wait for it (R170). -/
def unpark (s : State) (pte : Nat) : State :=
  s.gangs.foldl (fun s (k, g) =>
    if g.parkPages.contains pte then
      let rest := g.parkPages.filter fun p => p != pte
      let s := s.setGang k { g with parkPages := rest }
      if rest.isEmpty && g.phase == .parked then s.post (s.now + 1) 2 (.parkedReady k) else s
    else s) s

/-- The DMA of a quad's section is under way: parts of its copies go on in the quad of the resume (R188, R343). -/
def beingSaved (s : State) (q : Nat) : Bool := (s.holder q).any fun g => g.phase == .dma

/-- Copies whose parts wait for a page go on: those in quads move, those of swapped-out gangs after their resume (R188, R343). -/
def releasePage (s : State) (pte : Nat) : State :=
  let s := mapCopies s fun c => { c with pages := c.pages.filter fun p => p != pte }
  s.quads.foldl (fun s (q, x) => x.copies.foldl (fun s (t, c) =>
    if c.st == .storage && c.lines.any (lineReady s) && !beingSaved s q then goOn s q t else s) s) s

/-! ### The drives (R357) -/

/-- A command of a root port's drive has completed; the next one that waits is submitted. -/
def endCommand (s : State) (port : Nat) : State :=
  let d := driveOf s port
  match d.fifo with
  | c :: rest => startCommand { s with drives := mset s.drives port { d with out := d.out - 1, fifo := rest } } c
  | [] => { s with drives := mset s.drives port { d with out := d.out - 1 } }

/-! ### Protection information (R357) -/

/-- The guard of type 1 protection information: a CRC of polynomial 0x8BB7. (PRESUMED, log entry 119.) -/
def crcByte (c : BitVec 16) (b : Byte) : BitVec 16 :=
  (List.range 8).foldl (fun c _ => if c.getLsbD 15 then (c <<< 1) ^^^ 0x8BB7 else c <<< 1) (c ^^^ (b.setWidth 16 <<< 8))

def guardOf (bs : List Byte) : BitVec 16 := bs.foldl crcByte 0

/-- An entry's namespace carries protection information. -/
def ePI (e : Word) : Bool := e.getLsbD 10

/-- Guard and reference tag of the block with a key. -/
def blockPi (disk : CMap 8) (block : Nat) : BitVec 48 := guardOf (cgetN disk (4096 * block) 4096) ++ BitVec.ofNat 32 block

/-- The blocks of a page whose first byte has a key. -/
def pageBlocks (k : Nat) : List Nat := (List.range 16).map fun i => k / 4096 + i

/-- The information that a Write generates. -/
def writePi (s : State) (e : Word) (k : Nat) : State :=
  if ePI e then { s with diskPi := (pageBlocks k).foldl (fun m b => mset m b (blockPi s.disk b)) s.diskPi } else s

/-- The check of a Read; what another writer left with a block is free. (DESIGN CHOICE, log entry 17.) -/
def checkPi (s : State) (e : Word) (k : Nat) : Bool :=
  !ePI e || (pageBlocks k).all fun b =>
    match mget? s.diskPi b with
    | some p => p == blockPi s.disk b
    | none => Config.freeBool (s.free * 2 ^ 64 + b)

/-- STORAGE_READ_SEND: the Read goes to the drive. -/
def execStorageReadSend (pte : Nat) (s : State) : Out :=
  match pageOf? s pte with
  | some p =>
      if p.st == .reading && p.frame.isSome && !p.sent then
        .next (issueCommand (modPage s pte fun p => { p with sent := true }) (.read pte))
      else .next s
  | none => .next s

/-- The entry of a page that came in: FRAME, A and RES set, D as it stands (R355). -/
def entryIn (e : Word) (f : Nat) : Word :=
  setField e 39 16 (f / 65536) ||| 0x900

/-- Copies that wait on a page fault (R355). -/
def faultWaiters (s : State) (pte : Nat) : State :=
  let s := s.quads.foldl (fun s (q, x) => x.copies.foldl (fun s (t, c) =>
    if !c.st.settled && c.pages.contains pte then faultCopy s q t c c.lines else s) s) s
  recheckInvals { s with gangs := s.gangs.map fun (k, g) => (k, { g with image := g.image.map fun x =>
      { x with copies := x.copies.map fun (t, c) =>
          (t, if !c.st.settled && c.pages.contains pte then { c with st := .faulted, done := s.now, lines := [], pages := [] } else c) } }) }

/-- ERR, saturating at 65,535 (R354). -/
def driveError (s : State) : State := { s with spErr := min (s.spErr + 1) 65535 }

/-- Window puts and RMAs that wait for a page have failed with it. -/
def failWaiters (s : State) (pte : Nat) : State :=
  { s with
    awayPuts := s.awayPuts.map fun a => if a.res.any fun r => r.2.tgt.pte? == some pte then { a with failed := true } else a
    rmaPending := s.rmaPending.map fun a => if a.res.any fun r => r.2.tgt.pte? == some pte then { a with failed := true } else a }

/-- A Read has failed for good: the frame returns, the copies that wait fault. -/
def readFailed (s : State) (pte f : Nat) : State :=
  let s := failWaiters s pte
  let s := setHbmWord s pte (setField (hbmWord s pte) 9 9 0)
  let s := driveError { s with pages := s.pages.filter fun o => o.pte != pte }
  kickSweep (unpark (faultWaiters (returnFrame s f) pte) pte)

/-- A page has come into its frame. (DESIGN CHOICE, log entry 18.) -/
def readDone (s : State) (p : Page) (f : Nat) : State :=
  let e := hbmWord s p.pte
  let k := diskKey e (hbmWord s (p.pte + 8))
  let shared := s.pool.contains f || s.pages.any fun o => o.pte != p.pte && o.frame == some f
  let hbm := if shared then csetN s.hbm f ((List.range pageBytes).map fun i => Config.freeByte (s.free + i))
             else cpaste (cclear s.hbm f (f + pageBytes)) f (cslice s.disk k (k + pageBytes))
  let s := setHbmWord { s with hbm := hbm, hbmBad := goodLines s.hbmBad f pageBytes, free := s.free + pageBytes } p.pte (entryIn e f)
  let s := { s with pages := (s.pages.filter fun o => o.pte != p.pte) ++ [{ p with st := .resident }] }
  kickSweep (unpark (releasePage s p.pte) p.pte)

/-- STORAGE_READ_COMPLETE: good status; the protection information is checked. -/
def execStorageReadComplete (pte : Nat) (s : State) : Out :=
  match pageOf? s pte with
  | some p =>
      match p.st, p.frame with
      | .reading, some f =>
          let e := hbmWord s pte
          let ok := checkPi s e (diskKey e (hbmWord s (pte + 8)))
          let s := (endCommand s (eDRIVE e)).tick1
          .next (if ok then readDone s p f else readFailed s pte f)
      | _, _ => .next s
  | none => .next s

/-- STORAGE_READ_FAIL: the second failure of a Read, or of its PI check. -/
def execStorageReadFail (pte : Nat) (s : State) : Out :=
  match pageOf? s pte with
  | some p =>
      match p.st, p.frame with
      | .reading, some f => .next (readFailed (endCommand s (eDRIVE (hbmWord s pte))) pte f)
      | _, _ => .next s
  | none => .next s

/-! ### Write-back and eviction (R355, R356) -/

/-- The lightship's evicts have one page less to wait for; those without any are complete (R379). -/
def evictDone (s : State) (pte : Nat) : State :=
  let es := s.evicts.map fun e => { e with left := e.left.filter fun p => p != pte }
  { s with evicts := es.filter fun e => !e.left.isEmpty
           reports := s.reports ++ (es.filter fun e => e.left.isEmpty).map fun _ => [0] }

/-- The lightship's evicts that wait for a page report its failed write-back and end (R379). -/
def evictFailed (s : State) (pte : Nat) : State :=
  { s with evicts := s.evicts.filter fun e => !e.left.contains pte
           reports := s.reports ++ (s.evicts.filter fun e => e.left.contains pte).map fun _ => [1] }

/-- A clean page leaves: RES goes to 0, its translations with it, and its frame returns. -/
def evictPage (s : State) (p : Page) : State :=
  let s := setHbmWord s p.pte (setField (hbmWord s p.pte) 11 11 0)
  let s := evictDone (dropCovered { s with pages := s.pages.filter fun o => o.pte != p.pte } (.page p.asid p.va)) p.pte
  match p.frame with
  | some f => returnFrame s f
  | none => s

/-- The lightship's evict treats a page: not while it is pinned, written back while it is dirty (R379).
(DESIGN CHOICE, log entry 21.) -/
def evictMarked (s : State) (p : Page) : State :=
  if p.st != .resident || pinned s p.pte then s
  else if eD (hbmWord s p.pte) then startWriteback s p.pte
  else evictPage s p

/-- The hand treats the next resident page of the ring and moves on. -/
def sweepHand (s : State) : State :=
  match s.pages.find? fun p => p.st != .reading with
  | none => s
  | some p =>
      let e := hbmWord s p.pte
      let s := { s with pages := (s.pages.filter fun o => o.pte != p.pte) ++ [p] }
      if p.st == .writeback then s
      else if eA e || pinned s p.pte then setHbmWord s p.pte (setField e 8 8 0)
      else if eD e then startWriteback s p.pte
      else evictPage s p

/-- SWEEP_STEP. -/
def execSweepStep (s : State) : Out :=
  let s := { s with sweepAt := 0 }
  let s := (s.pages.filter fun p => p.evict).foldl evictMarked s
  .next (kickSweep (if sweepOn s then sweepHand s else s))

/-- What reached the drive: bytes written during the write-back are old or new by a free choice (R355). (DEDUCED, log entry 20.) -/
def mixSlices (free : Nat) (old new : CMap 8) : CMap 8 :=
  ((old.map fun c => c.1) ++ new.map fun c => c.1).foldl (fun m k =>
    cset m k (if Config.freeBool (free + k) then cget old k else cget new k)) []

/-- A write-back that a Flush waits for has ended (R357). -/
def flushStep (s : State) (pte : Nat) : State :=
  if s.flushing.contains pte then
    let s := { s with flushing := s.flushing.erase pte }
    let s := if s.flushing.contains pte && eD (hbmWord s pte) then startWriteback s pte
             else { s with flushing := s.flushing.filter fun p => p != pte }
    if s.flushing.isEmpty then askFlush s else s
  else s

/-- A failed write-back leaves the Flush's list: its page stays dirty (R355, R357). -/
def flushFail (s : State) (pte : Nat) : State :=
  if s.flushing.contains pte then
    let s := { s with flushing := s.flushing.filter fun p => p != pte }
    if s.flushing.isEmpty then askFlush s else s
  else s

/-- WRITEBACK_COMPLETE. -/
def execWritebackComplete (pte : Nat) (s : State) : Out :=
  match pageOf? s pte with
  | some p =>
      match p.st, p.frame with
      | .writeback, some f =>
          let e := hbmWord s pte
          let k := diskKey e (hbmWord s (pte + 8))
          let bytes := mixSlices s.free p.wbOld (cslice s.hbm f (f + pageBytes))
          let s := { s with disk := cpaste (cclear s.disk k (k + pageBytes)) k bytes, free := s.free + pageBytes }
          let s := endCommand (writePi s e k) (eDRIVE e)
          .next (kickSweep (flushStep (modPage s pte fun p => { p with st := .resident, wbOld := [] }) pte))
      | _, _ => .next s
  | none => .next s

/-- WRITEBACK_FAIL: the second failure of a Write. -/
def execWritebackFail (pte : Nat) (s : State) : Out :=
  match pageOf? s pte with
  | some p =>
      if p.st == .writeback then
        let s := driveError (setHbmWord (if p.sent then endCommand s (eDRIVE (hbmWord s pte)) else s) pte (setField (hbmWord s pte) 9 9 1))
        let s := modPage (evictFailed s pte) pte fun p => { p with st := .resident, sent := true, evict := false, wbOld := [] }
        .next (flushFail s pte)
      else .next s
  | none => .next s

/-- A drive's Flush has ended: what the drive held when it was submitted is durable, or it has failed twice, a drive error (R355, R357,
R358). -/
def flushDone (s : State) (port : Nat) (x : DriveFlush) : State :=
  let d := driveOf s port
  let s := endCommand { s with drives := mset s.drives port { d with flushed := d.flushed.erase x } } port
  if x.good then { s with durable := cpaste (cclear s.durable (driveLo port) (driveLo (port + 1))) (driveLo port) x.held }
  else driveError s

/-- The Flushes that the drives have answered by now. -/
def flushAnswers (s : State) : List (Nat × DriveFlush) :=
  s.drives.flatMap fun d => (d.2.flushed.filter fun x => decide (x.due ≤ s.now)).map fun x => (d.1, x)

/-- NVME_FLUSH: drives have answered, and a Flush that is asked for goes to every drive that the engine serves. No copy can tell (R357,
R358). (DESIGN CHOICE, log entry 17.) -/
def execNvmeFlush (s : State) : Out :=
  let s := (flushAnswers s).foldl (fun s p => flushDone s p.1 p.2) s
  .next (if s.flushAsks = 0 then s
    else (s.drives.filter fun d => driveOk s d.1).foldl (fun s d => issueCommand s (.flush d.1)) { s with flushAsks := s.flushAsks - 1 })

/-- SPPUSH (R354). -/
def execSppush (pa : Word) (s : State) : Out := .next (pushFrame s pa.toNat)

/-- SPCMD_FLUSH. -/
def execSpcmdFlush (val : Word) (s : State) : Out := .next (if val.getLsbD 0 then flushPages s else s)

/-- Entries of a table that are not invalid: (index, low word). -/
def tableEntries (s : State) (t : Nat) : List (Nat × Word) :=
  (s.hbm.filter fun c => t ≤ c.1 && c.1 < t + 65536 && (c.1 - t) % 16 == 0 && c.2.toNat % 16 != 0).map fun c =>
    ((c.1 - t) / 16, hbmWord s c.1)

/-- Resident storage entries below a level-1 table whose page lies in a range: (address, entry's place). -/
def storageLeaves (s : State) (root lo hi : Nat) : List (Nat × Nat) :=
  (tableEntries s root).flatMap fun (i, e) =>
    if eTYPE e != 1 then [] else (tableEntries s (eFRAME e)).flatMap fun (j, e') =>
      if eTYPE e' != 1 then [] else (tableEntries s (eFRAME e')).filterMap fun (k, e'') =>
        let va := i * 2 ^ 40 + j * 2 ^ 28 + k * 65536
        if eTYPE e'' == 4 && eRES e'' && lo < va + 65536 && va < hi then some (va, eFRAME e' + 16 * k) else none

/-- STORAGE_EVICT (R379): the resident pages of the range are marked, and treated by the engine from now on; with none it is complete.
(DESIGN CHOICE, log entry 155.) -/
def execStorageEvict (root lo hi : Nat) (s : State) : Out :=
  let asid := ((List.range 256).find? fun a => eFRAME (cget s.astab a) == root).getD 0
  let leaves := storageLeaves s root lo hi
  let s := leaves.foldl (fun s (va, pte) =>
    modPage (notePage s asid va pte (hbmWord s pte)) pte fun p => { p with evict := true }) s
  .next (if leaves.isEmpty then { s with reports := s.reports ++ [[0]] }
    else kickSweep { s with evicts := s.evicts ++ [⟨root, lo, hi, leaves.map fun l => l.2⟩] })

/-- NVME_ADMIN (R357, R379): a drive whose initialisation fails leaves its port unused. -/
def execNvmeAdmin (op : NvmeOp) (s : State) : Out :=
  let set (port : Nat) (f : Drive → Drive) : Out := .next { s with drives := mset s.drives port (f (driveOf s port)) }
  match op with
  | .init port ok => set port fun d => { d with ok := ok }
  | .createQueues port => set port fun d => { d with queues := true }
  | .deleteQueues port => set port fun d => { d with queues := false }

end Sys2Proof.Machine
end

