-- ==== Sys2Proof/Machine/Windows.lean ====
section
/-! DEFINITION. Windows across devices (R203 to R206). -/

namespace Sys2Proof.Machine

def winNum (c : Word) : Nat := bitsOf c.toNat 56 47
def winGen (c : Word) : Nat := bitsOf c.toNat 15 0
/-- TYPE 5 and zero reserved bits (R203). -/
def winWord (c : Word) : Bool := bitsOf c.toNat 63 60 == 5 && bitsOf c.toNat 46 16 == 0

/-- The window that a capability names on this device. -/
def windowOf (s : State) (c : Word) : Option Window :=
  (mget? s.windows (winNum c)).bind fun w => if w.gen.toNat = winGen c then some w else none

/-- WPUT (R204): it takes a copy slot and a ticket. (DESIGN CHOICE, log entry 135.) -/
def execWput (g : Guard) (m : Mode) (k : Fin 4) (a b c : SReg) (len : BitVec 32) (s : State) : Out :=
  issue (.wput g m k a b c len) g (fun st gang _ s =>
    let cap := sreg st a
    let fa := sreg st b
    let off := sreg st c
    if !winWord cap || !inDomain s (capDev cap) then .trap cCAPABILITY 0 cap
    else match copyChecks s st gang m false fa [fa, off] len.toNat with
      | .error (c, v) => .trap c 0 v
      | .ok l =>
          let eng := gang.quadOf st.sidx
          if 16 ≤ outstanding (s.quad eng) then .stall
          else .done (startCopy s eng
            (newCopy (.put cap off k) st gang (s.asidOf st.gid) l 0 off 0 len.toNat 1 0) (s.now + 4))) s

/-- A put is written or turned away at its window, and its lines are moved (R186); the answer travels back: it is there within the bound
of R204, counted from the put's acceptance. -/
def ackPut (s : State) (m : PutMsg) (err : BitVec 8) : State :=
  let bound := ((mget? (s.quad m.quad).copies m.ticket).map putBound).getD (s.now + 1200)
  (modCopy s m.quad m.ticket fun c => { c with sent := 0 }).tick1.postIn (1 + Config.freeNat s.free % max 1 (bound - s.now)) (.wputAcknowledgement m.key m.k m.quad m.ticket err)

/-- Strands asleep in WWAIT.r on a window go on when its counter reaches their threshold (R205). (DESIGN CHOICE, log entry 137.) -/
def wakeWindow (s : State) (num : Nat) (count : Word) : State :=
  s.strands.foldl (fun s (k, st) =>
    match st.sleep? with
    | some (.window n th d) =>
        if n = num && !count.ult th then (wakeStrand (s.deliverS k d count) k (s.now + 1)).acquireBy k s.now else s
    | _ => s) s

/-- The translations of a window's pages through a translation cache, which they use and fill (R185): none when one fails.
(DESIGN CHOICE, log entry 23.) -/
def putTargets (s : State) (asid va n : Nat) : Xlate :=
  ((List.range ((va + n - 1) / 65536 - va / 65536 + 1)).map fun i => va / 65536 + i).foldl (fun x p =>
    match (translate x.s 0 asid (65536 * p) true).2 with
    | .ok t s => ⟨s, 0, x.res ++ [(p, some (t, 0))], x.absent⟩
    | .bad s => ⟨s, 0, x.res ++ [(p, none)], x.absent⟩
    | .absent => ⟨x.s, 0, x.res ++ [(p, none)], true⟩) ⟨s, 0, [], false⟩

/-- Requests every translated storage page that is not in. -/
def requestAway (x : Xlate) (die : Nat) : State × Bool :=
  x.res.foldl (fun (s, away) r =>
    match r.2.bind fun t => t.1.tgt.pte?.map fun pte => (t.1, pte) with
    | some (t, pte) =>
        if ((pageOf? s pte).map fun g => g.st == .reading).getD true then (requestPage s t.asid t.va pte die s.now, true) else (s, away)
    | none => (s, away)) (x.s, false)

/-- Bytes written page by page through translations. -/
def writeThrough (s : State) (res : List (Nat × Option (Trans × Nat))) (va : Nat) (bs : List Byte) : State :=
  res.foldl (fun s r =>
    match r.2 with
    | some (t, _) =>
        let lo := max va (65536 * r.1)
        let hi := min (va + bs.length) (65536 * r.1 + 65536)
        s.writeTarget (t.at lo) ((bs.drop (lo - va)).take (hi - lo))
    | none => s) s

/-- A translated page whose drive has failed, or that is not in and whose drive is not usable. -/
def pageLost (s : State) (r : Nat × Option (Trans × Nat)) : Bool :=
  (r.2.bind fun t => t.1.tgt.pte?).any fun pte =>
    !(driveOf s (eDRIVE (hbmWord s pte))).ok || ((pageOf? s pte).isNone && driveBars s pte)

/-- The HBM bytes of a range of translated pages: (address, bytes). -/
def hbmRanges (s : State) (res : List (Nat × Option (Trans × Nat))) (va n : Nat) : List (Nat × Nat) :=
  res.filterMap fun r => r.2.bind fun t =>
    let lo := max va (65536 * r.1)
    (s.paOf (t.1.at lo)).map fun pa => (pa, min (va + n) (65536 * r.1 + 65536) - lo)

/-- A range of translated pages reaches into HBM that does not exist (R20). -/
def rangeAbsent (s : State) (res : List (Nat × Option (Trans × Nat))) (va n : Nat) : Bool :=
  (hbmRanges s res va n).any fun r => decide (Config.hbmSize < r.1 + r.2)

/-- A put no longer waits for pages; invalidations that waited for it are looked at again (R352). -/
def dropAway (s : State) (m : PutMsg) : State :=
  if s.awayPuts.any fun a => a.msg == m then recheckInvals { s with awayPuts := s.awayPuts.filter fun a => a.msg != m } else s

/-- The translations of a put: those that it has waited with, else those of now. -/
def putXlate (s : State) (m : PutMsg) (asid va : Nat) : Xlate :=
  match s.awayPuts.find? fun a => a.msg == m with
  | some a => ⟨s, 0, a.res.map fun r => (r.1, some (r.2, 0)), false⟩
  | none => putTargets s asid va m.bytes.length

/-- A put stays at its window with its translations, its bytes before `n` written: it waits for pages, or has lines left to write. -/
def awayPut (s : State) (m : PutMsg) (x : Xlate) (n : Nat) : State :=
  if s.awayPuts.any fun a => a.msg == m then
    { s with awayPuts := s.awayPuts.map fun a => if a.msg == m then { a with next := n } else a }
  else { s with awayPuts := s.awayPuts ++ [⟨m, x.res.filterMap fun r => r.2.map fun t => (r.1, t.1), false, n⟩] }

/-- The bytes of a put that are written. -/
def putDone (s : State) (m : PutMsg) : Nat := ((s.awayPuts.find? fun a => a.msg == m).map AwayPut.next).getD 0

/-- Another put of the quad, accepted earlier, is on its way to this device or is writing there: it waits for no page. -/
def putBehind (s : State) (m : PutMsg) : Bool :=
  let x := s.quad m.quad
  let op := ((mget? x.copies m.ticket).map Copy.op).getD 0
  x.copies.any fun (t, y) => t != m.ticket && decide (0 < y.sent) && y.lines.isEmpty && decide (y.op < op) &&
    (match y.kind with
     | .put cap _ _ => capDev cap == s.dev.toNat
     | _ => false) &&
    s.awayPuts.all fun a => a.msg.quad != m.quad || a.msg.ticket != t || a.res.all fun r => r.2.tgt.pte?.isNone || (s.paOf r.2.tgt).isSome

/-- The quad of a put moves a line of it now: no other line of the quad moves in this cycle, and earlier puts go first (R186).
(DESIGN CHOICE, log entry 12.) -/
def putTurn (s : State) (m : PutMsg) : Bool :=
  (s.quad m.quad).movedAt != s.now + 1 && (s.quad m.quad).lineAt != s.now && !putBehind s m

/-- One line of a put has reached its destination (R186). -/
def putMoved (s : State) (m : PutMsg) : State :=
  (modCopy s m.quad m.ticket fun c => { c with sent := c.sent - 1 }).modQuad m.quad fun x => { x with movedAt := s.now + 1 }

/-- A put's line at its window: the bytes up to the next 64-byte border are written, unless they would replace a part of a line that holds
uncorrectable data, which raises MACHINE in the gang that put (R186, R383). (DESIGN CHOICE, log entry 110.) -/
def putLine (s : State) (m : PutMsg) (x : Xlate) (va k : Nat) : State :=
  let bs := (m.bytes.drop (putDone s m)).take k
  match x.res.findSome? fun r => if r.1 = va / 65536 then r.2.bind fun t => s.badAt (t.1.at va) k true else none with
  | some l => badData s (m.key / 256) m.quad l
  | none => writeThrough s x.res va bs

/-- All lines of a put are written: the window's counter counts it, then the answer leaves (R204). -/
def putWritten (s : State) (m : PutMsg) (w : Window) : State :=
  let n := w.count + 1
  let s := dropAway s m
  ackPut (wakeWindow { s with windows := mset s.windows (winNum m.cap) { w with count := n } } (winNum m.cap) n) m 0

/-- A put that its owner cannot write: it writes nothing, and its error code is free. -/
def putLost (s : State) (m : PutMsg) : State := ackPut (dropAway s m).tick1 m (BitVec.ofNat 8 (Config.freeNat s.free))

/-- WPUT_REMOTE_WRITE: the owner checks generation and bounds, writes one line in a cycle (R186), then counts. What a peer answers is
its own, once its lines are written; what becomes of a put whose window does not translate, or whose page cannot be read, the spec does
not say. (DESIGN CHOICE, log entry 23.) -/
def execWputRemoteWrite (m : PutMsg) (s : State) : Out :=
  if capDev m.cap != s.dev.toNat then
    if 1 < ((mget? (s.quad m.quad).copies m.ticket).map Copy.sent).getD 0 then
      .next (if putTurn s m then (putMoved s m).postIn 1 (.wputRemoteWrite m) else s.postIn 1 (.wputRemoteWrite m))
    else .next (ackPut s m (if s.lost.contains (capDev m.cap) then 0x21
      else if Config.freeBool s.free then 0 else if Config.freeBool (s.free + 1) then 0x21 else 0x22))
  else
    match windowOf s m.cap with
    | none => .next (ackPut (dropAway s m) m 0x21)
    | some w =>
        if w.len < m.off.toNat + m.bytes.length then .next (ackPut (dropAway s m) m 0x22)
        else
          let va := w.base + m.off.toNat
          let x := putXlate s m w.asid va
          if x.absent then .fault .absentMemory
          else if x.res.any (fun r => r.2.isNone || pageLost x.s r) || s.awayPuts.any (fun a => a.msg == m && a.failed) then
            .next (putLost x.s m)
          else
            let (s, away) := requestAway x 0
            if away then .next ((awayPut s m x (putDone s m)).postIn 16 (.wputRemoteWrite m))
            else if rangeAbsent s x.res va m.bytes.length then .fault .absentMemory
            else if !putTurn s m then .next ((awayPut s m x (putDone s m)).postIn 1 (.wputRemoteWrite m))
            else
              let i := putDone s m
              let k := min (64 - (va + i) % 64) (m.bytes.length - i)
              let t := putMoved (putLine s m x (va + i) k) m
              if m.bytes.length ≤ i + k then .next (putWritten t m w)
              else .next ((awayPut t m x (i + k)).postIn 1 (.wputRemoteWrite m))

/-- WPUT_ACKNOWLEDGEMENT: Wk counts, refused or not; the slot is free. The answer to a peer's put leaves the device. -/
def execWputAcknowledgement (key : Nat) (k : Fin 4) (quad ticket : Nat) (err : BitVec 8) (s : State) : Out :=
  if (s.strand? key).isNone then .next s else
  let s := settleCopy s quad ticket true
  let s := s.modStrand key fun st =>
    let st := { st with wcnt := st.wcnt.set k.val (st.wcnt[k.val] + 1) }
    if err = 0 then st else serrNote st err.toNat
  match (s.strand? key).bind fun st => st.sleep?.map fun z => (st, z) with
  | some (st, .putCount j th d) =>
      if j = k && !(st.wcnt[k.val]).ult th then .next (wakeStrand (s.deliverS key d st.wcnt[k.val]) key (s.now + 1)) else .next s
  | _ => .next s

def src96Val (st : Strand) : Src96 → Word
  | .reg r => sreg st r
  | .imm i => i.setWidth 64

/-- WWAIT on a put counter (R205). -/
def execWwait (g : Guard) (d : SReg) (k : Fin 4) (b : Src96) (s : State) : Out :=
  issue (.wwait g d k b) g (fun st _ _ s =>
    let th := src96Val st b
    let n := st.wcnt[k.val]
    if !n.ult th then .done (s.wrS 2 d n)
    else .hold (s.sleepIn (.putCount k th d) (Instr.wwait g d k b).len)) s

/-- A window that a counter instruction names: TYPE 5 of the own device and of a live registration, else CAPABILITY (R205).
(DEDUCED, log entry 24.) -/
def ownWindow (s : State) (c : Word) : Option Window :=
  if winWord c && capDev c == s.dev.toNat then windowOf s c else none

/-- Hops to the router that holds a window's counter: its place is the cluster of its number. (DESIGN CHOICE, log entry 30.) -/
def winHops (q : Nat) (c : Word) : Nat := hops q (hubOf (winNum c % 32))

/-- A counter of a window is read: an acquire, behind which memory operations wait until the value is there (R206, R213). -/
def readCount (s : State) (q : Nat) (c : Word) (d : SReg) (n : Word) : State :=
  let l := 4 * winHops q c + 5
  ((s.wrFrom (hubOf (winNum c % 32)) l d n).modCur fun st => { st with loadsAt := max st.loadsAt (s.now + l), hold := max 1 st.hold }).acquired s.now

/-- WWAIT.r. -/
def execWwaitR (g : Guard) (d a : SReg) (b : Src96) (s : State) : Out :=
  issue (.wwaitR g d a b) g (fun st gang _ s =>
    let c := sreg st a
    match ownWindow s c with
    | none => .trap cCAPABILITY 0 c
    | some w =>
        let th := src96Val st b
        if !w.count.ult th then .done (readCount s (gang.quadOf st.sidx) c d w.count)
        else .hold (s.sleepIn (.window (winNum c) th d) (Instr.wwaitR g d a b).len)) s

/-- WCNT. -/
def execWcnt (g : Guard) (d : SReg) (k : Fin 4) (s : State) : Out :=
  issueDone (.wcnt g d k) g (fun st _ s => s.wrS 2 d st.wcnt[k.val]) s
/-- WCNT.r. -/
def execWcntR (g : Guard) (d a : SReg) (s : State) : Out :=
  issue (.wcntR g d a) g (fun st gang _ s =>
    let c := sreg st a
    match ownWindow s c with
    | none => .trap cCAPABILITY 0 c
    | some w => .done (readCount s (gang.quadOf st.sidx) c d w.count)) s
/-- WCNT.clr. -/
def execWcntClr (g : Guard) (d : SReg) (k : Fin 4) (s : State) : Out :=
  issueDone (.wcntClr g d k) g (fun st _ s =>
    (s.wrS 2 d st.wcnt[k.val]).modCur fun st => { st with wcnt := st.wcnt.set k.val 0 }) s

end Sys2Proof.Machine
end

