-- ==== Sys2Proof/Machine/System.lean ====
section
/-! DEFINITION. Control registers and system instructions (R163 to R171, R334), MACHINE (R345, R383). -/

namespace Sys2Proof.Machine

/-- VSTAT is read and written after the flags of every earlier instruction (R98). -/
def vstatBusy (s : State) (st : Strand) (n : BitVec 12) : Bool := n.toNat == 0x010 && decide (s.now < st.flagAt)

/-- MFC. -/
def execMfc (g : Guard) (d : SReg) (n : BitVec 12) (s : State) : Out :=
  issue (.mfc g d n) g (fun st gang _ s =>
    if vstatBusy s st n then .stall else .done (s.wrS 1 d (crRead s st gang n.toNat))) s

/-- Control-space offset of a register that belongs to a quad (R24). -/
def quadReg (n : Nat) : Option Nat :=
  if 0x40 ≤ n ∧ n < 0x4C then some (0x9000 + 8 * (n - 0x40))
  else if n = 0x50 then some 0x9080
  else if n = 0x100 then some 0x9100
  else none

/-- MTC: a register of the strand at once, one of the quad from the next cycle (R31, R282); clearing IH lets a pending OVERWRITE
be taken (R332). -/
def execMtc (g : Guard) (n : BitVec 12) (a : SReg) (s : State) : Out :=
  issue (.mtc g n a) g (fun st gang _ s =>
    let v := sreg st a
    if vstatBusy s st n then .stall
    else match quadReg n.toNat with
      | some off => .done (s.post (s.now + 1) 0 (.registerWrite (gang.quadOf st.sidx) 3 off v))
      | none =>
          let s := s.modCur fun st => crWriteStrand st n.toNat v
          .done (if n.toNat = 0x022 then postOverwrite s s.cur else s)) s

/-- TRAP (R166). -/
def execTrap (g : Guard) (a : Src96) (s : State) : Out :=
  issue (.trap g a) g (fun st _ _ s => .trapNext cSOFTWARE 0 (src96Val st a) s) s

/-- TRAP.sys. -/
def execTrapSys (g : Guard) (i : BitVec 32) (s : State) : Out :=
  issue (.trapSys g i) g (fun _ _ _ s => .trapNext cSOFTWARE 1 (BitVec.ofNat 64 (2 ^ 63 + i.toNat)) s) s

/-- RTE (R32, R168, R332, R334): in user mode a jump to TPC that clears IH; in supervisor mode with K = 0 the trap registers and
the mode come back, with K = 1 the pc and mode of PREEMPT. -/
def execRte (g : Guard) (s : State) : Out :=
  issue (.rte g) g (fun st _ _ s =>
    let t := if st.sup && st.k then (st.tstat.extractLsb' 44 20).setWidth 64 else st.tpc
    match badTarget t with
    | some c => .trap c 0 t
    | none =>
        let s := freshCode s s.cur
        if !st.sup then
          .jump t (postOverwrite (s.modCur fun st => { st with tcause := setField st.tcause 16 16 0 }) s.cur)
        else if st.k then .hold (postOverwrite (s.modCur fun st => saveReturn st (s.now + 3)) s.cur)
        else .hold (postOverwrite (s.modCur fun st => supReturn st t (s.now + 3)) s.cur)) s

/-- FLARE (R169): it takes effect when its source is enabled. -/
def execFlare (g : Guard) (s : State) : Out :=
  issue (.flare g) g (fun _ _ _ s => .done (if s.sncfg.getLsbD 0 then flareLatch s else s)) s

/-- PARK (R170). -/
def execPark (g : Guard) (s : State) : Out :=
  issue (.park g) g (fun _ _ _ s => .hold (parkStrand s s.cur)) s

/-- HALT (R171): no later instruction of the gang issues. -/
def execHalt (g : Guard) (s : State) : Out :=
  issue (.halt g) g (fun st _ _ s => .done (s.modGang st.gid fun x => { x with halted := true })) s

/-! ### MACHINE (R345, R383) -/

/-- Uncorrectable data of HBM stays known by its line (R383). -/
def noteBad (s : State) (src : BitVec 8) (addr : Word) : State :=
  if src = 3 && !s.hbmBad.contains (addr.toNat / 64) then { s with hbmBad := addr.toNat / 64 :: s.hbmBad } else s

/-- The other gangs of this device with members in an episode of a domain group that a gang is a member of: a router slot may hold
contributions of them all (R324). -/
def slotGangs (s : State) (gid : Nat) : List Nat :=
  let of (e : Episode) : List Nat := e.members.filterMap fun m => m.map fun k => k / 256
  (((s.episodes.filter fun e => Grp.isDomain e.2.grp && (of e.2).contains gid).flatMap fun e => of e.2).filter fun g =>
    g != gid && (s.gang? g).isSome).eraseDups

/-- MACHINE; one of a router is by a free choice of a slot with contributions, and reaches every member gang (R324).
(DESIGN CHOICE, log entry 110.) -/
def execMachine (gid : Nat) (src : BitVec 8) (quad : Nat) (which : BitVec 8) (addr : Word) (s : State) : Out :=
  let t := machineCheck (noteBad s src addr) gid src quad which addr
  let more := if src = 4 then slotGangs s gid else []
  .next (if more.isEmpty then t
    else if Config.freeBool s.free then (more.foldl (fun t g => machineCheck t g src quad which addr) t).tick1 else t.tick1)

end Sys2Proof.Machine
end

