-- ==== Sys2Proof/Machine/Management.lean ====
section
/-! DEFINITION. The host, the peers, the lightship, links, power and reset (R369, R373 to R384). -/

namespace Sys2Proof.Machine

/-! ### RMA (R375) -/

/-- The translations of a range's pages, by the walker of cluster 8d of the receiving die d. -/
def rmaTargets (s : State) (die : Fin 4) (asid va n : Nat) (wr : Bool) : Xlate :=
  ((List.range ((va + n - 1) / 65536 - va / 65536 + 1)).map fun i => va / 65536 + i).foldl (fun x p =>
    match walk x.s (8 * die.val) asid (65536 * p) wr with
    | .ok t s => ⟨s, 0, x.res ++ [(p, some (t, 0))], x.absent⟩
    | .bad s => ⟨s, 0, x.res ++ [(p, none)], x.absent⟩
    | .absent => ⟨x.s, 0, x.res ++ [(p, none)], true⟩) ⟨s, 0, [], false⟩

/-- Bytes read page by page through translations. -/
def readThrough (s : State) (res : List (Nat × Option (Trans × Nat))) (va n : Nat) : List Byte :=
  res.flatMap fun r =>
    match r.2 with
    | some (t, _) =>
        let lo := max va (65536 * r.1)
        ((s.readTarget (t.at lo) (min (va + n) (65536 * r.1 + 65536) - lo)).getD [])
    | none => []

/-! ### The order of one connection (R377) -/

/-- The connection of a command or RMA. -/
def connOf : Instr → Option Conn
  | .rmaRead t .. | .rmaWrite t .. => some t.conn
  | i => (hostCmd? i).map fun c => c.conn

/-- Over reliable ordered delivery, an earlier RMA of the connection has still to take effect. -/
def rodWaits (s : State) (ev : Instr) : Bool :=
  (connOf ev).any fun c => c.rod && s.rmaPending.any fun a => a.conn == c && a.ev != ev

/-- A command or RMA comes a cycle later, before what arrives then. -/
def rodLater (s : State) (ev : Instr) : State := s.post (s.now + 1) 1 ev

/-- A command steps back within its cycle, and with it the later ones of its ordered connection. -/
def stepBack (s : State) (ev : Instr) : State :=
  let same (e : Due) : Bool := decide (e.due ≤ s.now) && (connOf e.ev == connOf ev) && ((connOf ev).any fun c => c.rod)
  let (later, rest) := s.agenda.partition same
  later.foldl (fun s e => s.post s.now 2 e.ev) (({ s with agenda := rest }).post s.now 2 ev)

/-! ### RMA (R375, R377) -/

/-- A range touches uncorrectable data of HBM that a write does not replace whole (R383). -/
def badRange (s : State) (x : Xlate) (va n : Nat) (wr : Bool) : Bool :=
  (hbmRanges s x.res va n).any fun r =>
    (if wr then goodLines s.hbmBad r.1 r.2 else s.hbmBad).any fun l => decide (64 * l < r.1 + r.2 ∧ r.1 < 64 * l + 64)

def rmaDone (s : State) (ev : Instr) : State := { s with rmaPending := s.rmaPending.filter fun a => a.ev != ev }
/-- The translations of an RMA: those that it has waited with, as a copy keeps its own, else those of now (R350, R375). -/
def rmaXlate (s : State) (die : Fin 4) (asid va n : Nat) (wr : Bool) (ev : Instr) : Xlate :=
  match s.rmaPending.find? fun a => a.ev == ev with
  | some a => ⟨s, 0, a.res.map fun r => (r.1, some (r.2, 0)), false⟩
  | none => rmaTargets s die asid va n wr
/-- An RMA waits for its pages. -/
def rmaWaits (s : State) (conn : Conn) (ev : Instr) (x : Xlate) : State :=
  if s.rmaPending.any fun a => a.ev == ev then s else { s with rmaPending := s.rmaPending ++ [⟨conn, ev, x.res.filterMap fun r => r.2.map fun t => (r.1, t.1), false⟩] }
/-- The answer of an RMA: bytes, or an error completion. -/
def answer (s : State) (tag : BitVec 32) (bs : Option (List Byte)) : State := { s with answers := s.answers ++ [(tag, bs)] }

/-- An RMA of either kind: its pages are translated, those that are not in are read in first, then its bytes move. A failed
translation or Read, a drive that cannot be used and uncorrectable data end it with an error completion.
(DEDUCED, log entry 22; DEDUCED, log entry 75.) -/
def rma (s : State) (tag : RmaTag) (die : Fin 4) (asid va n : Nat) (wr : Bool) (ev : Instr)
    (act : State → Xlate → State × List Byte) : Out :=
  if !s.booted then .next s
  else if rodWaits s ev then .next (rodLater s ev)
  else if n = 0 then .next (answer s tag.tag (some []))
  else
    let x := rmaXlate s die asid va n wr ev
    if x.absent then .fault .absentMemory
    else if x.res.any (fun r => r.2.isNone || pageLost x.s r) || s.rmaPending.any (fun a => a.ev == ev && a.failed) then
      .next (answer (rmaDone x.s ev) tag.tag none)
    else
      let (s, away) := requestAway x die.val
      if away then .next ((rmaWaits s tag.conn ev x).post (s.now + 16) 1 ev)
      else if rangeAbsent s x.res va n then .fault .absentMemory
      else if badRange s x va n wr then .next (answer (rmaDone s ev) tag.tag none)
      else
        let (s, bs) := act (rmaDone s ev) x
        .next (answer s tag.tag (some bs))

/-- RMA_READ. -/
def execRmaRead (tag : RmaTag) (die : Fin 4) (asid : BitVec 8) (va n : Nat) (s : State) : Out :=
  rma s tag die asid.toNat va n false (.rmaRead tag die asid va n) fun s x => (s, readThrough s x.res va n)

/-- RMA_WRITE: the acknowledgement follows the write. -/
def execRmaWrite (tag : RmaTag) (die : Fin 4) (asid : BitVec 8) (va : Nat) (bytes : List Byte) (s : State) : Out :=
  rma s tag die asid.toNat va bytes.length true (.rmaWrite tag die asid va bytes) fun s x =>
    (writeThrough s x.res va bytes, [])

/-! ### Host commands (R376) -/

/-- Status 1 counts in HSTAT. -/
def badCommand (s : State) (c : HostCmd) : State :=
  { complete s (cmdTag c) 1 0 with badCmd := min (s.badCmd + 1) (2 ^ 32 - 1) }

/-- LAUNCH: its completion follows the acceptance, which comes before the later commands of its connection (R377). -/
def hostLaunch (c : HostCmd) (s : State) : State := s.postFirst s.now 1 (.launchAccept (.host (cmdTag c)) (cmdAsid c) (cmdBody c))

/-- TLSIG: saturation is a status, no trap. -/
def hostTlsig (c : HostCmd) (s : State) : State :=
  match tlCheck s (cmdA c) with
  | none => complete s (cmdTag c) 2 0
  | some n => let (s, v, sat) := tlAdd s n (cmdB c); complete s (cmdTag c) (if sat then 4 else 0) v

/-- TLRD. -/
def hostTlrd (c : HostCmd) (s : State) : State :=
  match tlCheck s (cmdA c) with
  | none => complete s (cmdTag c) 2 0
  | some n => complete s (cmdTag c) 0 (tlVal s n)

/-- The register that a CFGWR or CFGRD names: its address within the limits of the command's row. -/
def cfgLoc (s : State) (a : Word) : Option Loc :=
  let n := a.toNat
  let (x, y, sp, off) := (bitsOf n 60 55, bitsOf n 54 50, bitsOf n 49 47, bitsOf n 46 0)
  if bitsOf n 63 61 ≠ s.dev.toNat || 31 < x || 15 < y || !(sp == 3 || sp == 4) || spaceSize sp ≤ off || off % 8 ≠ 0 ||
     (sp == 4 && !(x % 4 == 1 && y % 4 == 1)) then none
  else some ⟨quadAt x y, sp, off⟩

/-- CFGWR. -/
def hostCfgwr (c : HostCmd) (s : State) : State :=
  match cfgLoc s (cmdA c) with
  | none => complete s (cmdTag c) 3 0
  | some l => complete (wordWrite s false l (cmdB c)) (cmdTag c) 0 0

/-- CFGRD. -/
def hostCfgrd (c : HostCmd) (s : State) : State :=
  match cfgLoc s (cmdA c) with
  | none => complete s (cmdTag c) 3 0
  | some l => complete s (cmdTag c) 0 (wordRead s l)

/-- The grid with a sequence number, alive. -/
def liveGrid (s : State) (n : Nat) : Option Grid := (s.grid? n).bind fun x => if x.failed then none else some x

/-- Every gang of a grid halts, or issues again (R171, R379). -/
def setHalted (s : State) (grid : Nat) (h : Bool) : State :=
  { s with gangs := s.gangs.map fun (k, g) => (k, if g.grid = grid then { g with halted := h } else g) }

/-- HALT of either master. -/
def haltGrid (s : State) (grid : Nat) (lightship : Bool) : State :=
  setHalted (s.modGrid grid fun x => if lightship then { x with heldLs := true } else { x with heldHost := true }) grid true

/-- A strand sleeps in an instruction, no routine has it. -/
def Strand.isAsleep (st : Strand) : Bool :=
  match st.act with
  | .asleep _ _ => true
  | _ => false

/-- The gangs of a grid issue again; what became pending meanwhile is taken first (R195), and firmware whose copy has settled returns. -/
def issueAgain (s : State) (grid : Nat) : State :=
  let keys := (gridGangs s grid).flatMap fun g => gangKeys s g.gid
  let s := keys.foldl postOverwrite (setHalted s grid false)
  (keys.filter fun k => (s.strand? k).any Strand.isAsleep).foldl finishWait s

/-- RELEASE: a host's changes nothing while the lightship holds the grid. (DEDUCED, log entry 89.) -/
def releaseGrid (s : State) (grid : Nat) (lightship : Bool) : State :=
  match s.grid? grid with
  | some x =>
      if x.heldLs && !lightship then s
      else issueAgain (s.setGrid grid { x with heldHost := false, heldLs := false }) grid
  | none => s

/-- HALT, RELEASE or END of the grid that A names. -/
def hostGrid (f : State → Nat → State) (c : HostCmd) (s : State) : State :=
  if (liveGrid s (cmdA c).toNat).isNone then complete s (cmdTag c) 5 0 else complete (f s (cmdA c).toNat) (cmdTag c) 0 0

/-- FLUSH: the write-backs have started when it completes. (DEDUCED, log entry 85.) -/
def hostFlush (c : HostCmd) (s : State) : State := complete (flushPages s) (cmdTag c) 0 0

/-- INVAL: the completion follows the invalidation. -/
def hostInval (c : HostCmd) (s : State) : State :=
  match (cmdA c).toNat with
  | 0 => startInval s (.host (cmdTag c)) (.page (cmdAsid c).toNat (cmdB c).toNat)
  | 1 => startInval s (.host (cmdTag c)) (.asid (cmdAsid c).toNat)
  | 2 => startInval s (.host (cmdTag c)) .all
  | _ => badCommand s c

/-- What a command does by its OPC; BADCMD for an unknown one and for a reserved byte. (DEDUCED, log entry 78.) -/
def runCommand (c : HostCmd) (s : State) : State :=
  if !cmdRsvZero c then badCommand s c
  else match cmdOpc c with
    | 1 => hostLaunch c s
    | 2 => hostTlsig c s
    | 3 => hostTlrd c s
    | 4 => hostCfgwr c s
    | 5 => hostCfgrd c s
    | 6 => hostGrid (fun s n => haltGrid s n false) c s
    | 7 => hostGrid (fun s n => releaseGrid s n false) c s
    | 8 => hostGrid (fun s n => endGridBy s n 0x11) c s
    | 9 => hostFlush c s
    | 10 => hostInval c s
    | _ => badCommand s c

/-- A command reaches the endpoint, once it is open, in the order of its connection and, at a timeline, in the turn of its port (R134,
R377). (DEDUCED, log entry 77.) -/
def command (ev : Instr) (c : HostCmd) (s : State) : Out :=
  if !s.booted then .next s
  else if rodWaits s ev then .next (rodLater s ev)
  else if tlYields s ev then .next (stepBack s ev)
  else .next (runCommand c s)

/-- LAUNCH. -/
def execHostLaunch (c : HostCmd) (s : State) : Out := command (.hostLaunch c) c s
/-- TLSIG. -/
def execHostTlsig (c : HostCmd) (s : State) : Out := command (.hostTlsig c) c s
/-- TLRD. -/
def execHostTlrd (c : HostCmd) (s : State) : Out := command (.hostTlrd c) c s
/-- CFGWR. -/
def execCfgwr (c : HostCmd) (s : State) : Out := command (.cfgwr c) c s
/-- CFGRD. -/
def execCfgrd (c : HostCmd) (s : State) : Out := command (.cfgrd c) c s
/-- HALT. -/
def execHostHalt (c : HostCmd) (s : State) : Out := command (.hostHalt c) c s
/-- RELEASE. -/
def execHostRelease (c : HostCmd) (s : State) : Out := command (.hostRelease c) c s
/-- END: fault 0x11. -/
def execHostEnd (c : HostCmd) (s : State) : Out := command (.hostEnd c) c s
/-- FLUSH. -/
def execFlush (c : HostCmd) (s : State) : Out := command (.flush c) c s
/-- INVAL. -/
def execInval (c : HostCmd) (s : State) : Out := command (.inval c) c s

/-- UNSUPPORTED_PACKET (R374). -/
def execUnsupportedPacket (s : State) : Out := .next { s with unsup := min (s.unsup + 1) (2 ^ 32 - 1) }

/-! ### Peers, packets and links (R369, R373, R378) -/

/-- PEER_UNREACHABLE: open episodes of domain groups that include the peer are ABORTED; sends and puts to it fail. -/
def execPeerUnreachable (dev : Nat) (s : State) : Out :=
  let s := if s.lost.contains dev then s else { s with lost := dev :: s.lost }
  let hit := (List.finRange 32).filter fun n =>
    (List.range 64).any fun i =>
      let w := (cget s.domtab (64 * n.val + i)).toNat
      bitsOf w 32 32 == 1 && bitsOf w 63 61 == dev
  .next (hit.foldl (fun s n => abortGroup s (.domain n) 0 fun _ => true) s)

/-- The quad beyond a link. -/
def linkEnd (quad : Nat) (dir : Dir) : Nat :=
  match dir with
  | .n => quad - 32
  | .e => quad + 1
  | .s => quad + 32
  | .w => quad - 1
  | .q => quad

/-- The link at a quad's port. -/
def linkAt (quad : Nat) (dir : Dir) : Nat := linkBetween quad (linkEnd quad dir)

/-- A retry costs 8 cycles, 24 on a die-to-die link. -/
def retryCycles (quad : Nat) (dir : Dir) : Nat := if dieOf quad = dieOf (linkEnd quad dir) then 8 else 24

/-- FLIT_CRC_RETRY: what is on its way over the link is late; failures that follow one another within a retry's time are in a row, and the
16th stops the link. (DESIGN CHOICE, log entry 82.) -/
def execFlitCrcRetry (quad : Nat) (dir : Dir) (s : State) : Out :=
  let k := linkAt quad dir
  let n := match mget? s.retries k with
    | some (n, t) => if s.now ≤ t + retryCycles quad dir then n + 1 else 1
    | none => 1
  let s := delayLink { s with retries := mset s.retries k (n, s.now) } k (retryCycles quad dir)
  let s := lateCopies s [dieOf quad, dieOf (linkEnd quad dir)] (retryCycles quad dir)
  .next (if 16 ≤ n then s.post s.now 2 (.linkStop quad dir) else s)

/-- What comes in this cycle and cannot reach its end does not come in it. -/
def stopNow (s : State) : State :=
  let (hit, rest) := s.agenda.partition fun e => decide (e.due ≤ s.now) && !landed e.prio e.ev && blockedMsg s e.ev
  { s with agenda := hit.foldl (fun l e => insertDue { e with due := s.now + 1 } l) rest }

/-- LINK_STOP: every gang resident on either die of the link receives MACHINE, source 4; nothing crosses the link until a reset. -/
def execLinkStop (quad : Nat) (dir : Dir) (s : State) : Out :=
  let k := linkAt quad dir
  if s.stopped.contains k then .next s
  else
    let s := cutCopies (stopNow { s with stopped := k :: s.stopped })
    let dies := [dieOf quad, dieOf (linkEnd quad dir)]
    let hit := ((s.gangs.map fun g => g.2).filter fun g => g.onQuads && dies.contains (dieOf g.origin)).map fun g => g.gid
    .next (hit.foldl (fun s gid => machineCheck s gid 4 quad (BitVec.ofNat 8 (dirCode dir)) 0) s)

/-! ### The lightship (R379, R381, R382) -/

/-- An answer of the lightship (R379). (DESIGN CHOICE, log entry 79.) -/
def report (s : State) (bs : List Byte) : State := { s with reports := s.reports ++ [bs] }

/-- CFGRD: status, then the value. -/
def execLightshipCfgrd (addr : Word) (s : State) : Out :=
  .next (match cfgLoc s addr with
    | none => report s [3]
    | some l => report s (0 :: bytesOf 8 (wordRead s l)))

/-- CFGWR: it alone writes PWCFG (R384). -/
def execLightshipCfgwr (addr val : Word) (s : State) : Out :=
  .next (match cfgLoc s addr with
    | none => report s [3]
    | some l => report (wordWrite s true l val) [0])

/-- An operation on a live grid. -/
def lightshipGrid (grid : Nat) (f : State → State) (s : State) : Out :=
  .next (if (liveGrid s grid).isNone then report s [5] else report (f s) [0])

/-- HALT. -/
def execLightshipHalt (grid : Nat) (s : State) : Out := lightshipGrid grid (fun s => haltGrid s grid true) s
/-- RELEASE. -/
def execLightshipRelease (grid : Nat) (s : State) : Out := lightshipGrid grid (fun s => releaseGrid s grid true) s
/-- END. -/
def execLightshipEnd (grid : Nat) (s : State) : Out := lightshipGrid grid (fun s => endGridBy s grid 0x11) s
/-- INVAL. -/
def execLightshipInval (c : Cover) (s : State) : Out := .next (startInval s .lightship c)

/-- SNAPSHOT_READ: a quad's snapshot registers, 0x8000 to 0x8FFF. -/
def execSnapshotRead (quad : Nat) (s : State) : Out :=
  .next (report s ((List.range 512).flatMap fun i => bytesOf 8 (snapWord (s.quad quad) (8 * i))))

/-- FIRMWARE_UPDATE: the image is used from the next reset. -/
def execFirmwareUpdate (image : List Byte) (s : State) : Out := .next { s with flash := image }

/-- ATTEST: the report of R381 and its signature. -/
def execAttest (nonce : BitVec 256) (s : State) : Out :=
  let body := bytesOf 32 nonce ++ (s.measure.toList.flatMap fun m => bytesOf 32 m) ++ bytesOf 8 Config.fuseWord ++
    bytesOf 16 Config.serialNumber
  .next (report s (body ++ bytesOf 64 (Config.signReport body)))

/-- SNCYC_MATCH: a flare when CYC = SNCYC and ECYC is 1. -/
def execSncycMatch (s : State) : Out := .next (if s.sncfg.getLsbD 3 && s.cyc == s.sncyc then flareLatch s else s)

/-- LIGHTSHIP_FLARE: while ELS is 1. -/
def execLightshipFlare (s : State) : Out := .next (if s.sncfg.getLsbD 1 then flareLatch s else s)

/-! ### Boot and reset (R17, R33, R380, R384) -/

/-- The system region of every quad as an image loads it. -/
def loadSystem (ls : CMap 8) (image : List Byte) : CMap 8 :=
  (List.range 512).foldl (fun m q =>
    csetN m (lsKey q Config.sysBase) ((List.range (Config.lsSize - Config.sysBase)).map (Config.systemByte image))) ls

/-- The sequence of R380: a verified image extends measurement register 0, its system region is loaded, the endpoint opens, DEV is
assigned, 0 outside a domain (R15); without verification the dies stay in reset. (DESIGN CHOICE, log entry 81.) -/
def bootDevice (s : State) : State :=
  if !Config.imageVerifies s.flash then { s with held := true }
  else
    let m0 := sha256 (bytesOf 32 s.measure[0] ++ bytesOf 32 (sha256 s.flash))
    let peers := Config.bootDomain.filter fun d => d != Config.bootDev.toNat
    { s with
      booted := true, held := false, measure := s.measure.set 0 m0, ls := loadSystem s.ls s.flash
      dev := if peers.isEmpty then 0 else Config.bootDev, domain := peers, cycBase := s.now }

/-- BOOT: once, after reset; dies held in reset wait for an update and a reset. -/
def execBoot (s : State) : Out := .next (if s.booted || s.held then s else bootDevice s)

/-- An operation of the lightship. -/
def isLightship : Instr → Bool
  | .lightshipCfgrd .. | .lightshipCfgwr .. | .lightshipHalt .. | .lightshipRelease .. | .lightshipEnd .. | .snapshotRead .. |
    .firmwareUpdate .. | .attest .. | .nvmeAdmin .. | .lightshipInval .. | .storageEvict .. | .reset | .thermalReset | .boot |
    .lightshipFlare => true
  | _ => false

/-- What comes from outside the compute array: the heat, hosts, peers, faults of links and data, a packet that loses cycles. -/
def isOutside (ev : Instr) : Bool :=
  match ev with
  | .thermalGateRaise | .unsupportedPacket | .peerUnreachable .. | .flitCrcRetry .. | .machine .. | .packetPromotion .. => true
  | ev => (connOf ev).isSome

/-- What a reset leaves to come: the lightship's operations that are not answered, its evicts from their beginning, and what comes later from
outside, commands of new connections among it; one that has come and waits goes with its connection. -/
def keptAgenda (s : State) : List Due :=
  s.evicts.foldl (fun l e => insertDue ⟨s.now, 2, .storageEvict e.root e.lo e.hi⟩ l) (s.agenda.filter fun d =>
    isLightship d.ev || (isOutside d.ev && decide (s.now < d.due) && (d.prio != 1 || (connOf d.ev).isNone)))

/-- Reset: the compute array is as R33 says; what the lightship, the memories outside the array, the drives' contents and the
outside world hold stays. Every grid ends without completion; caches that are gone have nothing left to invalidate.
(DEDUCED, log entry 80.) -/
def resetDevice (s : State) : State :=
  bootDevice { State.reset with
    now := s.now, cycBase := s.now, free := s.free, opSeq := s.opSeq, flash := s.flash, measure := s.measure
    reports := s.reports ++ (s.invals.filter fun i => i.who == .lightship).map fun _ => [0]
    agenda := keptAgenda s, hbm := s.hbm, hbmBad := s.hbmBad, host := s.host, disk := s.disk, diskPi := s.diskPi, durable := s.durable
    records := s.records, completions := s.completions, answers := s.answers, dev := s.dev }

/-- RESET. -/
def execReset (s : State) : Out := .next (resetDevice s)

/-- THERMAL_GATE_RAISE: GATE goes up by 1, to at most 15. -/
def execThermalGateRaise (s : State) : Out :=
  .next { s with pwcfg := setField s.pwcfg 3 0 (min (s.pwcfg.toNat % 16 + 1) 15) }

/-- THERMAL_RESET: at TLIM + 10 °C the lightship resets the compute dies. -/
def execThermalReset (s : State) : Out := .next (resetDevice s)

end Sys2Proof.Machine
end

