-- ==== Sys2Proof/Machine/Dispatch.lean ====
section
/-! DEFINITION. The dispatch of an instruction, or of a step of the device, to its meaning. -/

namespace Sys2Proof.Machine

def exec (i : Instr) (s : State) : Host.Outcome State Fault Refusal :=
  match i with
  | .nop g => Sys2Proof.Machine.execNop g s
  | .add g d a b => Sys2Proof.Machine.execAdd g d a b s
  | .sub g d a b => Sys2Proof.Machine.execSub g d a b s
  | .mul g d a b => Sys2Proof.Machine.execMul g d a b s
  | .mulh g k d a b => Sys2Proof.Machine.execMulh g k d a b s
  | .div g u d a b => Sys2Proof.Machine.execDiv g u d a b s
  | .rem g u d a b => Sys2Proof.Machine.execRem g u d a b s
  | .and g d a b => Sys2Proof.Machine.execAnd g d a b s
  | .or g d a b => Sys2Proof.Machine.execOr g d a b s
  | .xor g d a b => Sys2Proof.Machine.execXor g d a b s
  | .andn g d a b => Sys2Proof.Machine.execAndn g d a b s
  | .shl g d a b => Sys2Proof.Machine.execShl g d a b s
  | .shr g d a b => Sys2Proof.Machine.execShr g d a b s
  | .sar g d a b => Sys2Proof.Machine.execSar g d a b s
  | .rotl g d a b => Sys2Proof.Machine.execRotl g d a b s
  | .min g u d a b => Sys2Proof.Machine.execMin g u d a b s
  | .max g u d a b => Sys2Proof.Machine.execMax g u d a b s
  | .clz g d a => Sys2Proof.Machine.execClz g d a s
  | .ctz g d a => Sys2Proof.Machine.execCtz g d a s
  | .popc g d a => Sys2Proof.Machine.execPopc g d a s
  | .ext g signed d a f => Sys2Proof.Machine.execExt g signed d a f s
  | .ins g d a f => Sys2Proof.Machine.execIns g d a f s
  | .sel g d p a b => Sys2Proof.Machine.execSel g d p a b s
  | .mov g d b => Sys2Proof.Machine.execMov g d b s
  | .cmp g c d a b => Sys2Proof.Machine.execCmp g c d a b s
  | .plog g d x => Sys2Proof.Machine.execPlog g d x s
  | .pmov g d a => Sys2Proof.Machine.execPmov g d a s
  | .pmovS g d a => Sys2Proof.Machine.execPmovS g d a s
  | .pmovB g d a => Sys2Proof.Machine.execPmovB g d a s
  | .fadd g sub rm d a b => Sys2Proof.Machine.execFadd g sub rm d a b s
  | .fmul g rm d a b => Sys2Proof.Machine.execFmul g rm d a b s
  | .ffma g rm d a b c => Sys2Proof.Machine.execFfma g rm d a b c s
  | .fminmax g max d a b => Sys2Proof.Machine.execFminmax g max d a b s
  | .fcmp g c d a b => Sys2Proof.Machine.execFcmp g c d a b s
  | .fcvt g u sat rm dst src d a => Sys2Proof.Machine.execFcvt g u sat rm dst src d a s
  | .mkfa g d a off k => Sys2Proof.Machine.execMkfa g d a off k s
  | .fafld g f d a => Sys2Proof.Machine.execFafld g f d a s
  | .br g c a b disp => Sys2Proof.Machine.execBr g c a b disp s
  | .jmp g disp => Sys2Proof.Machine.execJmp g disp s
  | .call g d disp => Sys2Proof.Machine.execCall g d disp s
  | .callr g d a => Sys2Proof.Machine.execCallr g d a s
  | .ret g a => Sys2Proof.Machine.execRet g a s
  | .loop g d disp => Sys2Proof.Machine.execLoop g d disp s
  | .exit g => Sys2Proof.Machine.execExit g s
  | .yield g => Sys2Proof.Machine.execYield g s
  | .mfc g d n => Sys2Proof.Machine.execMfc g d n s
  | .mtc g n a => Sys2Proof.Machine.execMtc g n a s
  | .trap g a => Sys2Proof.Machine.execTrap g a s
  | .trapSys g n => Sys2Proof.Machine.execTrapSys g n s
  | .rte g => Sys2Proof.Machine.execRte g s
  | .flare g => Sys2Proof.Machine.execFlare g s
  | .park g => Sys2Proof.Machine.execPark g s
  | .halt g => Sys2Proof.Machine.execHalt g s
  | .ld g w m acq d a off => Sys2Proof.Machine.execLd g w m acq d a off s
  | .st g w m rel a off c => Sys2Proof.Machine.execSt g w m rel a off c s
  | .ldv g m d a off => Sys2Proof.Machine.execLdv g m d a off s
  | .stv g m a off c => Sys2Proof.Machine.execStv g m a off c s
  | .amo g op dw m o d a off b => Sys2Proof.Machine.execAmo g op dw m o d a off b s
  | .cas g dw m o d a off b c => Sys2Proof.Machine.execCas g dw m o d a off b c s
  | .taglk g d a => Sys2Proof.Machine.execTaglk g d a s
  | .tagset g d a b => Sys2Proof.Machine.execTagset g d a b s
  | .tagclr g d a => Sys2Proof.Machine.execTagclr g d a s
  | .copyIn g m d a b c rowb rows => Sys2Proof.Machine.execCopyIn g m d a b c rowb rows s
  | .copyOut g m d a b c rowb rows => Sys2Proof.Machine.execCopyOut g m d a b c rowb rows s
  | .copyst g d a => Sys2Proof.Machine.execCopyst g d a s
  | .waitt g a => Sys2Proof.Machine.execWaitt g a s
  | .testc g d a => Sys2Proof.Machine.execTestc g d a s
  | .phase g sc => Sys2Proof.Machine.execPhase g sc s
  | .xfence g src dst => Sys2Proof.Machine.execXfence g src dst s
  | .send g rel a v => Sys2Proof.Machine.execSend g rel a v s
  | .sendC g rel d a v => Sys2Proof.Machine.execSendC g rel d a v s
  | .sendn g dir r => Sys2Proof.Machine.execSendn g dir r s
  | .sendm g k a => Sys2Proof.Machine.execSendm g k a s
  | .expect g x => Sys2Proof.Machine.execExpect g x s
  | .capmk g d f vec reg => Sys2Proof.Machine.execCapmk g d f vec reg s
  | .wput g m k a b c len => Sys2Proof.Machine.execWput g m k a b c len s
  | .wwait g d k b => Sys2Proof.Machine.execWwait g d k b s
  | .wwaitR g d a b => Sys2Proof.Machine.execWwaitR g d a b s
  | .wcnt g d k => Sys2Proof.Machine.execWcnt g d k s
  | .wcntR g d a => Sys2Proof.Machine.execWcntR g d a s
  | .wcntClr g d k => Sys2Proof.Machine.execWcntClr g d k s
  | .put g d a b => Sys2Proof.Machine.execPut g d a b s
  | .get g d a c => Sys2Proof.Machine.execGet g d a c s
  | .putd g d a b c => Sys2Proof.Machine.execPutd g d a b c s
  | .getd g d a b c => Sys2Proof.Machine.execGetd g d a b c s
  | .getany g d a m c => Sys2Proof.Machine.execGetany g d a m c s
  | .close g d a => Sys2Proof.Machine.execClose g d a s
  | .bar g => Sys2Proof.Machine.execBar g s
  | .conld g d a => Sys2Proof.Machine.execConld g d a s
  | .conul g d a => Sys2Proof.Machine.execConul g d a s
  | .tqpush g d a b => Sys2Proof.Machine.execTqpush g d a b s
  | .tqpushP g d a b => Sys2Proof.Machine.execTqpushP g d a b s
  | .tqpushRsv g d a c => Sys2Proof.Machine.execTqpushRsv g d a c s
  | .tqpushRel g d a c => Sys2Proof.Machine.execTqpushRel g d a c s
  | .tqpop g d v a => Sys2Proof.Machine.execTqpop g d v a s
  | .tqpopTry g d v a => Sys2Proof.Machine.execTqpopTry g d v a s
  | .join g m d a b c => Sys2Proof.Machine.execJoin g m d a b c s
  | .joinP g m d a b c => Sys2Proof.Machine.execJoinP g m d a b c s
  | .tlsig g d a b => Sys2Proof.Machine.execTlsig g d a b s
  | .tlwait g d a b => Sys2Proof.Machine.execTlwait g d a b s
  | .tlrd g d a => Sys2Proof.Machine.execTlrd g d a s
  | .tlrdSet g d a b => Sys2Proof.Machine.execTlrdSet g d a b s
  | .launch g m d a => Sys2Proof.Machine.execLaunch g m d a s
  | .vadd g t rm sati d a b => Sys2Proof.Machine.execVadd g t rm sati d a b s
  | .vsub g t rm sati d a b => Sys2Proof.Machine.execVsub g t rm sati d a b s
  | .vmul g t rm sati d a b => Sys2Proof.Machine.execVmul g t rm sati d a b s
  | .vfma g t w rm sati d a b c => Sys2Proof.Machine.execVfma g t w rm sati d a b c s
  | .vmin g t u d a b => Sys2Proof.Machine.execVmin g t u d a b s
  | .vmax g t u d a b => Sys2Proof.Machine.execVmax g t u d a b s
  | .vabs g t sati d a => Sys2Proof.Machine.execVabs g t sati d a s
  | .vneg g t sati d a => Sys2Proof.Machine.execVneg g t sati d a s
  | .vand g d a b => Sys2Proof.Machine.execVand g d a b s
  | .vor g d a b => Sys2Proof.Machine.execVor g d a b s
  | .vxor g d a b => Sys2Proof.Machine.execVxor g d a b s
  | .vshl g t d a b => Sys2Proof.Machine.execVshl g t d a b s
  | .vshr g t u d a b => Sys2Proof.Machine.execVshr g t u d a b s
  | .vcmp g t u c d a b => Sys2Proof.Machine.execVcmp g t u c d a b s
  | .vsel g d p a b => Sys2Proof.Machine.execVsel g d p a b s
  | .vmov g d x => Sys2Proof.Machine.execVmov g d x s
  | .vext g signed d a k => Sys2Proof.Machine.execVext g signed d a k s
  | .vins g d a k => Sys2Proof.Machine.execVins g d a k s
  | .vperm g d a b c => Sys2Proof.Machine.execVperm g d a b c s
  | .vcvt g u part sat rm dst src d a => Sys2Proof.Machine.execVcvt g u part sat rm dst src d a s
  | .vpack g t sat rm d a k c => Sys2Proof.Machine.execVpack g t sat rm d a k c s
  | .vunpk g t d a k c => Sys2Proof.Machine.execVunpk g t d a k c s
  | .vdot g t rm sati d a b => Sys2Proof.Machine.execVdot g t rm sati d a b s
  | .vred g op t rm sati d a => Sys2Proof.Machine.execVred g op t rm sati d a s
  | .vscan g op t rm sati d a => Sys2Proof.Machine.execVscan g op t rm sati d a s
  | .vscana g rm d a b => Sys2Proof.Machine.execVscana g rm d a b s
  | .vrcp g d a => Sys2Proof.Machine.execVrcp g d a s
  | .vrsq g d a => Sys2Proof.Machine.execVrsq g d a s
  | .vsqrt g rm d a => Sys2Proof.Machine.execVsqrt g rm d a s
  | .vexp2 g d a => Sys2Proof.Machine.execVexp2 g d a s
  | .vlog2 g d a => Sys2Proof.Machine.execVlog2 g d a s
  | .vsin g d a => Sys2Proof.Machine.execVsin g d a s
  | .vcos g d a => Sys2Proof.Machine.execVcos g d a s
  | .vtanh g d a => Sys2Proof.Machine.execVtanh g d a s
  | .vrng g f32 d => Sys2Proof.Machine.execVrng g f32 d s
  | .rngskip g x => Sys2Proof.Machine.execRngskip g x s
  | .vsort g t dn d a b => Sys2Proof.Machine.execVsort g t dn d a b s
  | .tld g d a b j => Sys2Proof.Machine.execTld g d a b j s
  | .tst g d a b j => Sys2Proof.Machine.execTst g d a b j s
  | .tzero g d j => Sys2Proof.Machine.execTzero g d j s
  | .accz g d j => Sys2Proof.Machine.execAccz g d j s
  | .accld g d a b c j => Sys2Proof.Machine.execAccld g d a b c j s
  | .accst g d a b c j => Sys2Proof.Machine.execAccst g d a b c j s
  | .mma g z d a b j => Sys2Proof.Machine.execMma g z d a b j s
  | .mmas g z d a b c x => Sys2Proof.Machine.execMmas g z d a b c x s
  | .accvRd g d a b => Sys2Proof.Machine.execAccvRd g d a b s
  | .accvWr g d a b => Sys2Proof.Machine.execAccvWr g d a b s
  | .accvCvt g rm sat d a j => Sys2Proof.Machine.execAccvCvt g rm sat d a j s
  | .accvCvti g sat d a j => Sys2Proof.Machine.execAccvCvti g sat d a j s
  | .mxwait g d a => Sys2Proof.Machine.execMxwait g d a s
  | .mxtest g d a => Sys2Proof.Machine.execMxtest g d a s
  | .plank g d a b j => Sys2Proof.Machine.execPlank g d a b j s
  | .planm g r c a j => Sys2Proof.Machine.execPlanm g r c a j s
  | .balance g c a j => Sys2Proof.Machine.execBalance g c a j s
  | .planx g c d a j => Sys2Proof.Machine.execPlanx g c d a j s
  | .plandot g c a b j => Sys2Proof.Machine.execPlandot g c a b j s
  | .planlse g col c d a j => Sys2Proof.Machine.execPlanlse g col c d a j s
  | .planrd g c x => Sys2Proof.Machine.execPlanrd g c x s
  | .red g op t m d a len grp => Sys2Proof.Machine.execRed g op t m d a len grp s
  | .redw g d a => Sys2Proof.Machine.execRedw g d a s
  | .topk g thr d a k grp => Sys2Proof.Machine.execTopk g thr d a k grp s
  | .mcast g k vec m d a b => Sys2Proof.Machine.execMcast g k vec m d a b s
  | .pfetch g pin d a b => Sys2Proof.Machine.execPfetch g pin d a b s
  | .tlbinvPage g d a => Sys2Proof.Machine.execTlbinvPage g d a s
  | .tlbinvAs g d => Sys2Proof.Machine.execTlbinvAs g d s
  | .tlbinvAsid g d a => Sys2Proof.Machine.execTlbinvAsid g d a s
  | .tlbinvAll g d => Sys2Proof.Machine.execTlbinvAll g d s
  | .tlbinvComplete w c => Sys2Proof.Machine.execTlbinvComplete w c s
  | .overwrite key => Sys2Proof.Machine.execOverwrite key s
  | .preempt key => Sys2Proof.Machine.execPreempt key s
  | .machine gid src quad which addr => Sys2Proof.Machine.execMachine gid src quad which addr s
  | .launchAccept w asid rec => Sys2Proof.Machine.execLaunchAccept w asid rec s
  | .dispatchStep => Sys2Proof.Machine.execDispatchStep s
  | .priorityAging grid => Sys2Proof.Machine.execPriorityAging grid s
  | .quantumExpiry grid start => Sys2Proof.Machine.execQuantumExpiry grid start s
  | .connectorImageLoad grid va => Sys2Proof.Machine.execConnectorImageLoad grid va s
  | .gangStart gid => Sys2Proof.Machine.execGangStart gid s
  | .gridWedged grid => Sys2Proof.Machine.execGridWedged grid s
  | .gangEnd gid => Sys2Proof.Machine.execGangEnd gid s
  | .doneSignal grid cap inc => Sys2Proof.Machine.execDoneSignal grid cap inc s
  | .quadClearDone quad => Sys2Proof.Machine.execQuadClearDone quad s
  | .saveRoutineStart gid quad core => Sys2Proof.Machine.execSaveRoutineStart gid quad core s
  | .saveAcknowledgement gid quad core => Sys2Proof.Machine.execSaveAcknowledgement gid quad core s
  | .drainComplete gid => Sys2Proof.Machine.execDrainComplete gid s
  | .contextDmaDone gid ok => Sys2Proof.Machine.execContextDmaDone gid ok s
  | .parkedReady gid => Sys2Proof.Machine.execParkedReady gid s
  | .restoreDmaDone gid => Sys2Proof.Machine.execRestoreDmaDone gid s
  | .restoreRoutineEnd gid => Sys2Proof.Machine.execRestoreRoutineEnd gid s
  | .suspend gid lantern => Sys2Proof.Machine.execSuspend gid lantern s
  | .offerArrival offer => Sys2Proof.Machine.execOfferArrival offer s
  | .lanternDecision lantern => Sys2Proof.Machine.execLanternDecision lantern s
  | .completionDelivery offer key st item => Sys2Proof.Machine.execCompletionDelivery offer key st item s
  | .deadlineWithdrawal offer => Sys2Proof.Machine.execDeadlineWithdrawal offer s
  | .closeArrival asid va fifo ovf key d back => Sys2Proof.Machine.execCloseArrival asid va fifo ovf key d back s
  | .closedEmptyCompletion offer port => Sys2Proof.Machine.execClosedEmptyCompletion offer port s
  | .fifoItemArrival asid va fifo ovf item => Sys2Proof.Machine.execFifoItemArrival asid va fifo ovf item s
  | .permitReturn asid va fifo ovf => Sys2Proof.Machine.execPermitReturn asid va fifo ovf s
  | .sendArrival m => Sys2Proof.Machine.execSendArrival m s
  | .sendStatusReturn key d report st => Sys2Proof.Machine.execSendStatusReturn key d report st s
  | .sendnArrival key reg val sender => Sys2Proof.Machine.execSendnArrival key reg val sender s
  | .remoteStorePublish w => Sys2Proof.Machine.execRemoteStorePublish w s
  | .remoteAcknowledgement key => Sys2Proof.Machine.execRemoteAcknowledgement key s
  | .remoteLoadResponse r => Sys2Proof.Machine.execRemoteLoadResponse r s
  | .timelineOperation op => Sys2Proof.Machine.execTimelineOperation op s
  | .taskQueueOperation op => Sys2Proof.Machine.execTaskQueueOperation op s
  | .copyAccept quad ticket => Sys2Proof.Machine.execCopyAccept quad ticket s
  | .lineMove quad ticket => Sys2Proof.Machine.execLineMove quad ticket s
  | .copyComplete quad ticket ok => Sys2Proof.Machine.execCopyComplete quad ticket ok s
  | .waittWake key => Sys2Proof.Machine.execWaittWake key s
  | .storageReadSend pte => Sys2Proof.Machine.execStorageReadSend pte s
  | .storageReadComplete pte => Sys2Proof.Machine.execStorageReadComplete pte s
  | .storageReadFail pte => Sys2Proof.Machine.execStorageReadFail pte s
  | .sweepStep => Sys2Proof.Machine.execSweepStep s
  | .writebackComplete pte => Sys2Proof.Machine.execWritebackComplete pte s
  | .writebackFail pte => Sys2Proof.Machine.execWritebackFail pte s
  | .nvmeFlush => Sys2Proof.Machine.execNvmeFlush s
  | .wputRemoteWrite m => Sys2Proof.Machine.execWputRemoteWrite m s
  | .wputAcknowledgement key k quad ticket err => Sys2Proof.Machine.execWputAcknowledgement key k quad ticket err s
  | .jobStart quad id => Sys2Proof.Machine.execJobStart quad id s
  | .jobComplete quad id => Sys2Proof.Machine.execJobComplete quad id s
  | .episodeDecision ep => Sys2Proof.Machine.execEpisodeDecision ep s
  | .reductionComplete ep rank => Sys2Proof.Machine.execReductionComplete ep rank s
  | .rmaRead tag die asid va n => Sys2Proof.Machine.execRmaRead tag die asid va n s
  | .rmaWrite tag die asid va bytes => Sys2Proof.Machine.execRmaWrite tag die asid va bytes s
  | .storageEvict root lo hi => Sys2Proof.Machine.execStorageEvict root lo hi s
  | .sppush pa => Sys2Proof.Machine.execSppush pa s
  | .spcmdFlush val => Sys2Proof.Machine.execSpcmdFlush val s
  | .registerWrite quad space off val => Sys2Proof.Machine.execRegisterWrite quad space off val s
  | .linkStop quad dir => Sys2Proof.Machine.execLinkStop quad dir s
  | .fault f => Sys2Proof.Machine.execFault f s
  | .flushResponse key endpoint => Sys2Proof.Machine.execFlushResponse key endpoint s
  | .hostLaunch c => Sys2Proof.Machine.execHostLaunch c s
  | .hostTlsig c => Sys2Proof.Machine.execHostTlsig c s
  | .hostTlrd c => Sys2Proof.Machine.execHostTlrd c s
  | .cfgwr c => Sys2Proof.Machine.execCfgwr c s
  | .cfgrd c => Sys2Proof.Machine.execCfgrd c s
  | .hostHalt c => Sys2Proof.Machine.execHostHalt c s
  | .hostRelease c => Sys2Proof.Machine.execHostRelease c s
  | .hostEnd c => Sys2Proof.Machine.execHostEnd c s
  | .flush c => Sys2Proof.Machine.execFlush c s
  | .inval c => Sys2Proof.Machine.execInval c s
  | .lightshipCfgrd addr => Sys2Proof.Machine.execLightshipCfgrd addr s
  | .lightshipCfgwr addr val => Sys2Proof.Machine.execLightshipCfgwr addr val s
  | .lightshipHalt grid => Sys2Proof.Machine.execLightshipHalt grid s
  | .lightshipRelease grid => Sys2Proof.Machine.execLightshipRelease grid s
  | .lightshipEnd grid => Sys2Proof.Machine.execLightshipEnd grid s
  | .snapshotRead quad => Sys2Proof.Machine.execSnapshotRead quad s
  | .firmwareUpdate image => Sys2Proof.Machine.execFirmwareUpdate image s
  | .attest nonce => Sys2Proof.Machine.execAttest nonce s
  | .nvmeAdmin op => Sys2Proof.Machine.execNvmeAdmin op s
  | .flitCrcRetry quad dir => Sys2Proof.Machine.execFlitCrcRetry quad dir s
  | .packetPromotion p => Sys2Proof.Machine.execPacketPromotion p s
  | .peerUnreachable dev => Sys2Proof.Machine.execPeerUnreachable dev s
  | .lightshipInval c => Sys2Proof.Machine.execLightshipInval c s
  | .unsupportedPacket => Sys2Proof.Machine.execUnsupportedPacket s
  | .sncycMatch => Sys2Proof.Machine.execSncycMatch s
  | .thermalGateRaise => Sys2Proof.Machine.execThermalGateRaise s
  | .thermalReset => Sys2Proof.Machine.execThermalReset s
  | .reset => Sys2Proof.Machine.execReset s
  | .boot => Sys2Proof.Machine.execBoot s
  | .lightshipFlare => Sys2Proof.Machine.execLightshipFlare s

end Sys2Proof.Machine
end

