-- ==== Sys2Proof/Machine/Firmware.lean ====
section
/-! DEFINITION. The firmware of the system region as the manual states its actions (R81, R167, R336) and the figures of the shipped
image (R391); a strand stands at the supervisor entry when they take effect. -/

namespace Sys2Proof.Machine

/-- The firmware returns to TPC (R334). -/
def firmwareReturn (s : State) (k wake : Nat) : State :=
  postOverwrite (freshCode (s.modStrand k fun st => supReturn st st.tpc wake) k) k

/-- The firmware ends the grid with the cause it was entered for: the fault is out 20 cycles after the trap (R391). -/
def firmwareEnd (s : State) (k : Nat) (st : Strand) (err : BitVec 192) : State :=
  postFault s k 17 (st.tcause.toNat % 256) (st.tcause.toNat / 256 % 256) st.tpc st.tval err

/-- The firmware's status in s1. -/
def setS1 (s : State) (k : Nat) (n : Nat) : State := s.modStrand k fun st => regWrite st (.s 1 (BitVec.ofNat 64 n))

/-- Service 1 (R81): the checks, then a copy into the caller's quad; the strand sleeps until it completes. -/
def overlayService (s : State) (k : Nat) (st : Strand) (g : Gang) : State :=
  let base := (sreg st 1).toNat
  let va := sreg st 2
  let size := (sreg st 3).toNat
  let q := g.quadOf st.sidx
  if base % 32 ≠ 0 || va.toNat % 64 ≠ 0 || size % 4 ≠ 0 || size < 4 || 65536 < size || 4096 * (s.quad q).xbp.toNat < base + size then
    firmwareReturn (setS1 s k 1) k (s.now + 13)
  else if 16 ≤ outstanding (s.quad q) then s.modStrand k fun st => { st with wake := s.now + 1 }
  else
    let y := newCopy .overlay st g (s.asidOf st.gid) ⟨q, 0, base⟩ 0 va 0 size 1 0
    let t := nextTicket (s.quad q)
    (startCopy s q y (s.now + 4)).modStrand k fun st => { st with act := .asleep (.overlay t) 0 }

/-- The services of TRAP.sys (R167). -/
def service (s : State) (k : Nat) (st : Strand) (g : Gang) : State :=
  match st.tval.toNat % 2 ^ 32 with
  | 0 => firmwareReturn (setS1 s k 0) k (s.now + 13)
  | 1 => overlayService s k st g
  | _ => firmwareReturn (setS1 s k 1) k (s.now + 13)

/-- PROMISE/LATE: the strand sleeps until the copy settles, and returns 5 cycles later. -/
def lateService (s : State) (k : Nat) (st : Strand) (g : Gang) : State :=
  match ticketOf s st g (st.tval.toNat % 256) with
  | some y =>
      if y.st.settled then firmwareReturn s k (max (y.done + 5) (s.now + 1))
      else s.modStrand k fun x => { x with act := .asleep (.late st.tval) 0 }
  | none => firmwareReturn s k (s.now + 1)

/-- The firmware's action on the cause that it was entered for (R336). (DESIGN CHOICE, log entry 28; DEDUCED, log entry 29.) -/
def firmwareAct (s : State) (k : Nat) (st : Strand) (g : Gang) : State :=
  let cause := st.tcause.toNat % 256
  let sub := st.tcause.toNat / 256 % 256
  if cause = cMACHINE then
    firmwareEnd s k st (BitVec.ofNat 192 (natOf (cgetN s.ls (lsKey (g.quadOf st.sidx) Config.errRecord) 24)))
  else if userCause cause sub && st.scause.getLsbD 16 then firmwareEnd s k st 0
  else if cause = cOVERWRITE then firmwareReturn (s.modStrand k ovwlNote) k (s.now + 13)
  else if cause = cPROMISE && sub = 1 then lateService s k st g
  else if cause = cPROMISE && sub = 2 then
    s.modStrand k fun st => { st with pc := BitVec.ofNat 20 parkPc, wake := s.now + 21 }
  else if cause = cSOFTWARE && sub = 1 then service s k st g
  else firmwareEnd s k st 0

/-- What a strand at the firmware does. -/
def firmware (s : State) (k : Nat) (st : Strand) (g : Gang) : State :=
  if st.pc.toNat = parkPc then parkStrand s k else firmwareAct s k st g

end Sys2Proof.Machine
end

