-- ==== Sys2Proof/Machine/Engine.lean ====
section
/-! DEFINITION. The start of a strand's next instruction, the passing of a cycle with the steps that it brings, and the placing of
an instruction where the next step fetches. -/

namespace Sys2Proof.Machine

/-! ### The start of an instruction (R74) -/

/-- What the start of a strand's next instruction gives: a state (a trap, or the firmware's act), or an instruction to execute. -/
inductive Begin where
  | out (s : State)
  | run (i : Instr) (s : State)

/-- Makes a strand current and fetches its instruction. -/
def begin (s0 : State) (k : Nat) : Begin :=
  match s0.strand? k, s0.gang? (k / 256) with
  | some st0, some g =>
      let st := settle st0 s0.now
      let s := { (s0.setStrand k st) with cur := k }
      let (q, c, _) := g.place (k % 256)
      if atFirmware s st then .out (firmware s k st g)
      else match fetchAt s st.sup q c fetchFuel st.pc.toNat with
        | .trap pc cause val =>
            let s := s.modCur fun st => { st with pc := BitVec.ofNat 20 pc }
            .out (if owesResults s k then stalled s else takeTrap s k (BitVec.ofNat 64 pc) cause 0 val)
        | .ins pc i => .run i (s.modCur fun st => { st with pc := BitVec.ofNat 20 pc })
  | _, _ => .out s0

/-! ### The end of a cycle -/

def postAll (prio : Nat) (l : List Instr) (s : State) : State := l.foldl (fun s i => s.post s.now prio i) s

/-- Steps that the work of this cycle has made due in it: gangs that end, save routines that start, grids that are wedged. -/
def endSteps (s : State) : List Instr :=
  ((s.gangs.filter fun g => gangDone s g.2).map fun g => Instr.gangEnd g.1) ++
  (s.gangs.flatMap fun g => (g.2.acks.filter fun a => coreReady s g.2 a.1 a.2).map fun a => Instr.saveRoutineStart g.1 a.1 a.2) ++
  ((s.grids.filter fun g => gridIsWedged s g.2).map fun g => Instr.gridWedged g.1)

/-- Lanterns with a region or a barrier that could decide. -/
def busyLanterns (s : State) : List Nat :=
  ((s.images.flatMap fun m => m.regions.map fun r => r.lantern) ++ s.offers.map fun o => o.2.lantern).eraseDups

/-- Offers whose deadline has come. -/
def expired (s : State) : List Nat :=
  (s.offers.filter fun o => (o.2.live || o.2.susp) && o.2.deadline.any fun d => !s.cyc.ult d).map fun o => o.1

/-- Grids whose effective priority has changed, and those whose quantum has expired. -/
def agedGrids (s : State) : List Nat := (s.grids.filter fun g => effPrio s g.2 s.now != g.2.prio).map fun g => g.1
def expiredQuanta (s : State) : List (Nat × Nat) :=
  s.grids.filterMap fun g =>
    match g.2.quantum, g.2.expired with
    | some q, none => if q + quantLen s ≤ s.now then some (g.1, q) else none
    | _, _ => none

/-- The steps of a new cycle. (DESIGN CHOICE, log entry 40.) -/
def openCycle (s : State) : State :=
  let s := takeRequests { s with packets := grantPackets [] s.packets }
  let s := if s.sncfg.getLsbD 3 && s.cyc == s.sncyc then s.post s.now 2 .sncycMatch else s
  let s := postAll 3 ((agedGrids s).map Instr.priorityAging ++ (expiredQuanta s).map fun g => Instr.quantumExpiry g.1 g.2) s
  let s := (s.quads.filter fun q => !q.2.jobs.isEmpty).foldl (fun s q => postStarts (freeIds s q.1) q.1) s
  let s := postClosed (postAll 4 ((expired s).map Instr.deadlineWithdrawal) s)
  let s := postAll 5 ((busyLanterns s).map Instr.lanternDecision) s
  if s.grids.any fun g => gridWaits s g.2 then s.post s.now 6 .dispatchStep else s

/-- Nothing is due and no strand can issue: what the cycle's work made due in it is posted, else the next cycle begins. -/
def tick (s : State) : State :=
  match endSteps s with
  | [] => openCycle (arrange (holdBack { refreshGrids s with now := s.now + 1 }))
  | l => postAll 3 l s

/-! ### The word of the opcode table at the next fetch -/

/-- Puts an instruction's bits (numbered as the opcode table numbers them) where the next step fetches. Where no strand can issue,
the state gets a resident gang of one quad with one strand at pc 0, its mode the one the instruction may run in, and nothing due
before it. (DESIGN CHOICE, log entry 97.) -/
def placeWord (s : State) (nbits w : Nat) : State :=
  let bs := bytesOf 16 (BitVec.ofNat 128 (w % 2 ^ nbits))
  let quiet := if (dueNow s).isSome then { s with agenda := s.agenda.filter fun e => s.now < e.due } else s
  match (pick quiet).filter fun k => !((quiet.strand? k).any (atFirmware quiet)) with
  | some k =>
      let pc := ((quiet.strand? k).map fun st => st.pc.toNat).getD 0
      { quiet with ls := csetN quiet.ls (lsKey (quiet.quadOf k) pc) bs }
  | none =>
      let sup := ((decodeTableWord nbits w).map Instr.supOnly).getD false
      let g := { Gang.init 0 (cget s.gens 0) 0 0 0 0 0 0 1 with phase := .resident }
      let x := { Quad.init with xbp := 1 }
      { quiet with
        held := false
        pwcfg := quiet.pwcfg &&& 0xFFF0
        grids := mset quiet.grids 0 { Grid.init 0 0 wordHeader wordLaunch with placed := 1 }
        gangs := mset quiet.gangs 0 g
        quads := mset quiet.quads 0 x
        strands := [(0, { Strand.init 0 0 0 quiet.now with sup := sup })]
        ls := csetN quiet.ls 0 bs }

end Sys2Proof.Machine
end

