-- ==== Sys2Proof/Machine/Step.lean ====
section
/-! DEFINITION. One step of the device: the first due step of the agenda, unless a stopped link holds its message back (R373), else
the next instruction of a ready strand (R129), else one cycle passes. -/

namespace Sys2Proof.Machine

def step (s : State) : Host.Outcome State Fault Refusal :=
  match dueNow s with
  | some (ev, s') => if blockedMsg s' ev then .next s' else exec ev s'
  | none =>
      match pick s with
      | some k =>
          match begin s k with
          | .out s' => .next s'
          | .run i s' => exec i s'
      | none => .next (tick s)

/-- The state with an instruction's bits where `step` fetches its next instruction. -/
def State.withFetchWord (s : State) (nbits w : Nat) : State := placeWord s nbits w

end Sys2Proof.Machine
end

