-- ==== Sys2Proof/Safety.lean ====
section
/-! DEFINITION. The terms in which claims are stated: when an instruction of the current strand has its own effect, the state it has
it in, the values registers hold once every result is delivered, what a trap leaves, and the invariants of the device. -/

namespace Sys2Proof.Machine

/-! ### Issue -/

/-- The guard of an instruction; "always" for a step of the device. -/
def Instr.grd : Instr → Guard
  | .nop g | .add g .. | .sub g .. | .mul g .. | .mulh g .. | .div g .. | .rem g .. | .and g .. | .or g .. | .xor g .. |
    .andn g .. | .shl g .. | .shr g .. | .sar g .. | .rotl g .. | .min g .. | .max g .. | .clz g .. | .ctz g .. |
    .popc g .. | .ext g .. | .ins g .. | .sel g .. | .mov g .. | .cmp g .. | .plog g .. | .pmov g .. | .pmovS g .. |
    .pmovB g .. | .fadd g .. | .fmul g .. | .ffma g .. | .fminmax g .. | .fcmp g .. | .fcvt g .. | .mkfa g .. |
    .fafld g .. | .br g .. | .jmp g .. | .call g .. | .callr g .. | .ret g .. | .loop g .. | .exit g | .yield g |
    .mfc g .. | .mtc g .. | .trap g .. | .trapSys g .. | .rte g | .flare g | .park g | .halt g | .ld g .. | .st g .. |
    .ldv g .. | .stv g .. | .amo g .. | .cas g .. | .taglk g .. | .tagset g .. | .tagclr g .. | .copyIn g .. |
    .copyOut g .. | .copyst g .. | .waitt g .. | .testc g .. | .phase g .. | .xfence g .. | .send g .. | .sendC g .. |
    .sendn g .. | .sendm g .. | .expect g .. | .capmk g .. | .wput g .. | .wwait g .. | .wwaitR g .. | .wcnt g .. |
    .wcntR g .. | .wcntClr g .. | .put g .. | .get g .. | .putd g .. | .getd g .. | .getany g .. | .close g .. | .bar g |
    .conld g .. | .conul g .. | .tqpush g .. | .tqpushP g .. | .tqpushRsv g .. | .tqpushRel g .. | .tqpop g .. |
    .tqpopTry g .. | .join g .. | .joinP g .. | .tlsig g .. | .tlwait g .. | .tlrd g .. | .tlrdSet g .. | .launch g .. |
    .vadd g .. | .vsub g .. | .vmul g .. | .vfma g .. | .vmin g .. | .vmax g .. | .vabs g .. | .vneg g .. | .vand g .. |
    .vor g .. | .vxor g .. | .vshl g .. | .vshr g .. | .vcmp g .. | .vsel g .. | .vmov g .. | .vext g .. | .vins g .. |
    .vperm g .. | .vcvt g .. | .vpack g .. | .vunpk g .. | .vdot g .. | .vred g .. | .vscan g .. | .vscana g .. |
    .vrcp g .. | .vrsq g .. | .vsqrt g .. | .vexp2 g .. | .vlog2 g .. | .vsin g .. | .vcos g .. | .vtanh g .. |
    .vrng g .. | .rngskip g .. | .vsort g .. | .tld g .. | .tst g .. | .tzero g .. | .accz g .. | .accld g .. |
    .accst g .. | .mma g .. | .mmas g .. | .accvRd g .. | .accvWr g .. | .accvCvt g .. | .accvCvti g .. | .mxwait g .. |
    .mxtest g .. | .plank g .. | .planm g .. | .balance g .. | .planx g .. | .plandot g .. | .planlse g .. | .planrd g .. |
    .red g .. | .redw g .. | .topk g .. | .mcast g .. | .pfetch g .. | .tlbinvPage g .. | .tlbinvAs g .. |
    .tlbinvAsid g .. | .tlbinvAll g .. => g
  | _ => ⟨0, false⟩

/-- The current strand with the results due delivered, and its gang. -/
def current (s : State) : Option (Strand × Gang) :=
  match s.strand? s.cur, s.gang? (s.cur / 256) with
  | some st, some g => some (settle st s.now, g)
  | _, _ => none

/-- The instruction names no supervisor-only operation in user mode (R74) and no register above the kernel's counts (R66). -/
def admitted (i : Instr) (s : State) (st : Strand) : Bool :=
  !(Instr.supOnly i && !st.sup) &&
  ((s.headerOf st.gid).bind fun h => (Instr.uses i).findSome? (illreg? h)).isNone

/-- Every register the instruction needs is there, and no earlier access holds it back (R144, R175, R189, R193). -/
def unblocked (i : Instr) (now : Nat) (st : Strand) : Bool :=
  !guardBusy st (Instr.grd i) && !(Instr.uses i).any (useBusy (Instr.laneGuard i) st) && !(Instr.memOp i && !drained now st st.hold)

/-- The guard lets the instruction have its effect (R67). -/
def guardOn (i : Instr) (st : Strand) : Bool := Instr.laneGuard i || (guardMask st (Instr.grd i)).getLsbD 0

/-- The instruction has its own effect in this state: it is admitted, its guard is true, nothing blocks it. -/
def ready (i : Instr) (s : State) : Bool :=
  match current s with
  | some (st, _) => admitted i s st && unblocked i s.now st && guardOn i st
  | none => false

/-- The state in which an issued instruction has its effect: the core served this strand in this cycle (R129). -/
def issued (i : Instr) (s : State) : State :=
  match current s with
  | some (st, g) => markIssue ((s.setStrand s.cur st).setStrand s.cur (readSources i s.now st)) g st.sidx
  | none => s

/-- The state that a trap of an instruction finds: the core served this strand in this cycle, and nothing else is done (R7, R329). -/
def served (s : State) : State :=
  match current s with
  | some (st, g) => markIssue (s.setStrand s.cur st) g st.sidx
  | none => s

/-- The instruction traps: once every earlier result is there, in the state as it was served; until then the strand tries again in the
next cycle (R329). -/
def traps (i : Instr) (s : State) (st : Strand) (cause sub : Nat) (val : Word) : Prop :=
  (owesResults s s.cur = false → exec i s = .next (takeTrap (served s) s.cur (st.pc.setWidth 64) cause sub val)) ∧
  (owesResults s s.cur = true → exec i s = .next (stalled (s.setStrand s.cur st)))

/-- The lane mask or guard value of the instruction. -/
def maskOf (i : Instr) (st : Strand) : Lane := guardMask st (Instr.grd i)

/-! ### What registers hold once every result is delivered -/

/-- Every result on its way, delivered in issue order (R144). -/
def deliverAll (st : Strand) : Strand := { st.pend.foldl (fun a p => regWrite a p.2) st with pend := [] }
def finalS (st : Strand) (r : SReg) : Word := sreg (deliverAll st) r
def finalV (st : Strand) (r : VReg) : VVal := vreg (deliverAll st) r
def finalP (st : Strand) (r : PReg) : Lane := preg (deliverAll st) r

/-- A strand of the state once every result is delivered. -/
def sOfStrand (s : State) (k : Nat) (r : SReg) : Word := ((s.strand? k).map fun st => finalS st r).getD 0
def vOfStrand (s : State) (k : Nat) (r : VReg) : VVal := ((s.strand? k).map fun st => finalV st r).getD (vmk fun _ => 0)
def pOfStrand (s : State) (k : Nat) (r : PReg) : Lane := ((s.strand? k).map fun st => finalP st r).getD 0

/-- Two strands agree on the control registers that no instruction but MTC, a trap or a return writes (R164, R333). -/
def sameSpecials (a b : Strand) : Prop :=
  a.sup = b.sup ∧ a.tvec = b.tvec ∧ a.tpc = b.tpc ∧ a.tcause = b.tcause ∧ a.tval = b.tval ∧ a.tstat = b.tstat ∧
  a.ssca = b.ssca ∧ a.sscb = b.sscb ∧ a.stpc = b.stpc ∧ a.scause = b.scause ∧ a.sval = b.sval ∧ a.rngk = b.rngk

/-- Two states hold the same memories: local store, HBM, host memory, drives with their protection information, tiles, accumulators. -/
def sameMemories (s t : State) : Prop :=
  t.ls = s.ls ∧ t.hbm = s.hbm ∧ t.host = s.host ∧ t.disk = s.disk ∧ t.diskPi = s.diskPi ∧ t.durable = s.durable ∧
  t.tiles = s.tiles ∧ t.acc = s.acc

/-- Two states hold the same registers of the device and of every quad (R24, R281, R301). -/
def sameRegisters (s t : State) : Prop :=
  t.dscfg = s.dscfg ∧ t.spcfg = s.spcfg ∧ t.nccfg = s.nccfg ∧ t.sncfg = s.sncfg ∧ t.sncyc = s.sncyc ∧ t.pwcfg = s.pwcfg ∧
  t.astab = s.astab ∧ t.domtab = s.domtab ∧ t.lnStarve = s.lnStarve ∧
  ∀ q, (t.quad q).tc = (s.quad q).tc ∧ (t.quad q).pcfg = (s.quad q).pcfg ∧ (t.quad q).xbp = (s.quad q).xbp

/-- Every strand but the current one is as before. -/
def otherStrands (s t : State) : Prop := ∀ k, k ≠ s.cur → t.strand? k = s.strand? k

/-! ### Results as the rules state them, over exact integers -/

/-- The destination, the latency and the result of the scalar integer instructions that write one register with no shared unit
(R144, R145, R149, R152). -/
def aluRule (st : Strand) : Instr → Option (SReg × Nat × Word)
  | .add _ d a b => some (d, 1, BitVec.ofInt 64 ((sreg st a).toInt + (srcVal st b).toInt))
  | .sub _ d a b => some (d, 1, BitVec.ofInt 64 ((sreg st a).toInt - (srcVal st b).toInt))
  | .mul _ d a b => some (d, 3, BitVec.ofInt 64 ((sreg st a).toInt * (srcVal st b).toInt))
  | .mulh _ .ss d a b => some (d, 3, BitVec.ofInt 64 ((sreg st a).toInt * (srcVal st b).toInt / 2 ^ 64))
  | .mulh _ .uu d a b => some (d, 3, BitVec.ofNat 64 ((sreg st a).toNat * (srcVal st b).toNat / 2 ^ 64))
  | .mulh _ .su d a b => some (d, 3, BitVec.ofInt 64 ((sreg st a).toInt * (srcVal st b).toNat / 2 ^ 64))
  | .and _ d a b => some (d, 1, sreg st a &&& srcVal st b)
  | .or _ d a b => some (d, 1, sreg st a ||| srcVal st b)
  | .xor _ d a b => some (d, 1, sreg st a ^^^ srcVal st b)
  | .andn _ d a b => some (d, 1, sreg st a &&& ~~~srcVal st b)
  | .shl _ d a b => some (d, 1, BitVec.ofNat 64 ((sreg st a).toNat * 2 ^ ((srcVal st b).toNat % 64)))
  | .shr _ d a b => some (d, 1, BitVec.ofNat 64 ((sreg st a).toNat / 2 ^ ((srcVal st b).toNat % 64)))
  | .sar _ d a b => some (d, 1, BitVec.ofInt 64 ((sreg st a).toInt / 2 ^ ((srcVal st b).toNat % 64)))
  | .rotl _ d a b => some (d, 1, (sreg st a).rotateLeft ((srcVal st b).toNat % 64))
  | .min _ false d a b => some (d, 1, BitVec.ofInt 64 (min (sreg st a).toInt (srcVal st b).toInt))
  | .min _ true d a b => some (d, 1, BitVec.ofNat 64 (min (sreg st a).toNat (srcVal st b).toNat))
  | .max _ false d a b => some (d, 1, BitVec.ofInt 64 (max (sreg st a).toInt (srcVal st b).toInt))
  | .max _ true d a b => some (d, 1, BitVec.ofNat 64 (max (sreg st a).toNat (srcVal st b).toNat))
  | .sel _ d p a b => some (d, 1, if (preg st p).getLsbD 0 then sreg st a else srcVal st b)
  | .mov _ d b => some (d, 1, srcVal st b)
  | .pmovS _ d a => some (d, 1, BitVec.ofNat 64 (preg st a).toNat)
  | _ => none

/-- The results of division (R146). -/
def divRule (st : Strand) : Instr → Option (SReg × Word)
  | .div _ false d a b => some (d,
      if srcVal st b = 0 then -1
      else if (sreg st a).toInt = -2 ^ 63 ∧ (srcVal st b).toInt = -1 then BitVec.ofInt 64 (-2 ^ 63)
      else BitVec.ofInt 64 ((sreg st a).toInt.tdiv (srcVal st b).toInt))
  | .div _ true d a b => some (d,
      if srcVal st b = 0 then BitVec.ofNat 64 (2 ^ 64 - 1)
      else BitVec.ofNat 64 ((sreg st a).toNat / (srcVal st b).toNat))
  | .rem _ false d a b => some (d,
      if srcVal st b = 0 then sreg st a
      else if (sreg st a).toInt = -2 ^ 63 ∧ (srcVal st b).toInt = -1 then 0
      else BitVec.ofInt 64 ((sreg st a).toInt - (srcVal st b).toInt * (sreg st a).toInt.tdiv (srcVal st b).toInt))
  | .rem _ true d a b => some (d,
      if srcVal st b = 0 then sreg st a else BitVec.ofNat 64 ((sreg st a).toNat % (srcVal st b).toNat))
  | _ => none

/-- The truth of a CMP condition (R150). -/
def condRule (c : Cond) (a b : Word) : Prop :=
  match c with
  | .eq => a = b
  | .ne => a ≠ b
  | .lt => a.toInt < b.toInt
  | .ge => b.toInt ≤ a.toInt
  | .ltu => a.toNat < b.toNat
  | .geu => b.toNat ≤ a.toNat
  | .tst => a &&& b ≠ 0
  | .ntst => a &&& b = 0

/-- The predicate and the 32 bits it receives (R143, R150 to R152). -/
def predRule (st : Strand) : Instr → PReg × Lane → Prop
  | .cmp _ c d a b, x => x = (d, BitVec.allOnes 32) ∧ condRule c (sreg st a) (srcVal st b) ∨
      x = (d, 0) ∧ ¬condRule c (sreg st a) (srcVal st b)
  | .plog _ d (.two .and a b), x => x = (d, preg st a &&& preg st b)
  | .plog _ d (.two .or a b), x => x = (d, preg st a ||| preg st b)
  | .plog _ d (.two .xor a b), x => x = (d, preg st a ^^^ preg st b)
  | .plog _ d (.two .andn a b), x => x = (d, preg st a &&& ~~~preg st b)
  | .plog _ d (.twoImm .and a i), x => x = (d, preg st a &&& i)
  | .plog _ d (.twoImm .or a i), x => x = (d, preg st a ||| i)
  | .plog _ d (.twoImm .xor a i), x => x = (d, preg st a ^^^ i)
  | .plog _ d (.twoImm .andn a i), x => x = (d, preg st a &&& ~~~i)
  | .plog _ d (.not a), x => x = (d, ~~~preg st a)
  | .pmov _ d (.reg a), x => x = (d, BitVec.ofNat 32 ((sreg st a).toNat % 2 ^ 32))
  | .pmov _ d (.imm i), x => x = (d, i)
  | .pmovB _ d a, x => x = (d, BitVec.allOnes 32) ∧ sreg st a ≠ 0 ∨ x = (d, 0) ∧ sreg st a = 0
  | _, _ => False

/-- The divider of the current strand's core is free in this cycle (R144). -/
def dividerFree (s : State) : Bool :=
  match current s with
  | some (st, g) =>
      let (q, c, _) := g.place st.sidx
      (if h : c < 4 then ((s.quad q).cores[c]).divFree else 0) ≤ s.now
  | none => false

/-! ### Frames and completion -/

/-- The instruction answers a next state of which a fact holds. -/
def completes (i : Instr) (s : State) (p : State → Prop) : Prop := ∃ t, exec i s = .next t ∧ p t

/-- A step waits on the agenda for a cycle. -/
def posted (t : State) (due prio : Nat) (ev : Instr) : Prop := ⟨due, prio, ev⟩ ∈ t.agenda

/-- The first register that an instruction names as a destination. -/
def destOf (i : Instr) : Option OpRef := ((Instr.uses i).find? fun u => u.wr).map fun u => u.ref

/-- Scalar instructions whose whole effect is one register, flags and the SR counter (R144 to R157). -/
def scalarOnly : Instr → Bool
  | .add .. | .sub .. | .mul .. | .mulh .. | .div .. | .rem .. | .and .. | .or .. | .xor .. | .andn .. | .shl .. | .shr .. | .sar ..
  | .rotl .. | .min .. | .max .. | .clz .. | .ctz .. | .popc .. | .ext .. | .ins .. | .sel .. | .mov .. | .cmp .. | .plog ..
  | .pmov .. | .pmovS .. | .pmovB .. | .fadd .. | .fmul .. | .ffma .. | .fminmax .. | .fcmp .. | .fcvt .. | .mkfa .. | .fafld .. => true
  | _ => false

/-- Those among them that may set flags (R96). -/
def setsFlags : Instr → Bool
  | .fadd .. | .fmul .. | .ffma .. | .fminmax .. | .fcmp .. | .fcvt .. => true
  | _ => false

/-- Those that use the SR counter when their rounding code is SR (R93). -/
def roundsBySr : Instr → Bool
  | .fadd _ _ .sr .. | .fmul _ .sr .. | .ffma _ .sr .. | .fcvt _ _ _ .sr .. => true
  | _ => false

/-- What a port instruction offers (R274, R276): the reference, GETANY's mask, the direction, the class, the item, the deadline, the
registers of data and status. -/
structure PortOp where
  ref : Word
  mask : Option Nat
  put : Bool
  vec : Bool
  item : Item
  deadline : Option Word
  d : Fin 32
  c : SReg

def portOp (st : Strand) : Instr → Option PortOp
  | .put _ d a b => some ⟨sreg st a, none, true, svVec b, svItem st b, none, d, 0⟩
  | .putd _ d a b c => some ⟨sreg st a, none, true, svVec b, svItem st b, some (sreg st c), d, 0⟩
  | .get _ d a c => some ⟨sreg st a, none, false, svVec d, .scalar 0, none, svReg d, c⟩
  | .getd _ d a b c => some ⟨sreg st a, none, false, svVec d, .scalar 0, some (sreg st b), svReg d, c⟩
  | .getany _ d a (.reg b) c => some ⟨sreg st a, some ((sreg st b).toNat % 256), false, svVec d, .scalar 0, none, svReg d, c⟩
  | .getany _ d a (.imm k) c => some ⟨sreg st a, some k.toNat, false, svVec d, .scalar 0, none, svReg d, c⟩
  | _ => none

/-! ### Vector results as the rules state them -/

/-- An exact integer wrapped to the type's width, or clamped first under SATI (R85, R230). -/
def intRule (t : Fmt) (sati : Bool) (v : Int) : Nat :=
  let w := Fmt.width t
  let lo : Int := if t = .ui8 then 0 else -2 ^ (w - 1)
  let hi : Int := if t = .ui8 then 2 ^ w - 1 else 2 ^ (w - 1) - 1
  ((if sati then max lo (min hi v) else v) % 2 ^ w).toNat

/-- The element of an arithmetic instruction: the exact integer, or the one rounding of the exact sum of the terms (R105, R230). -/
def arithRule (t : Fmt) (rm : Rm) (sati : Bool) (u : Nat) (i : Int) (terms : List XVal) : Nat :=
  if Fmt.isInt t then intRule t sati i else (xsumRnd t rm u terms).code

/-- The destination, latency, element type, rounding code and element results (lane, element, SR chunk) of an elementwise
instruction (R230, R238). -/
def vecRule (st : Strand) : Instr → Option (VReg × Nat × Fmt × Rm × (Nat → Nat → Nat → Nat))
  | .vadd _ t rm sati d a b => some (d, arithL t 2, t, rm, fun k j u =>
      let x := el (Fmt.width t) (lane (vop st a) k) j
      let y := el (Fmt.width t) (lane (vsrc st b) k) j
      arithRule t rm sati u (intEl t x + intEl t y) [fpDecode t x, fpDecode t y])
  | .vsub _ t rm sati d a b => some (d, arithL t 2, t, rm, fun k j u =>
      let x := el (Fmt.width t) (lane (vop st a) k) j
      let y := el (Fmt.width t) (lane (vsrc st b) k) j
      arithRule t rm sati u (intEl t x - intEl t y) [fpDecode t x, xneg (fpDecode t y)])
  | .vmul _ t rm sati d a b => some (d, arithL t 4, t, rm, fun k j u =>
      let x := el (Fmt.width t) (lane (vop st a) k) j
      let y := el (Fmt.width t) (lane (vsrc st b) k) j
      arithRule t rm sati u (intEl t x * intEl t y) [xmul (fpDecode t x) (fpDecode t y)])
  | .vfma _ t .no rm sati d a b c => some (d, 4, t, rm, fun k j u =>
      let x := el (Fmt.width t) (lane (vop st a) k) j
      let y := el (Fmt.width t) (lane (vsrc st b) k) j
      let z := el (Fmt.width t) (lane (vreg st c) k) j
      arithRule t rm sati u (intEl t x * intEl t y + intEl t z) [xmul (fpDecode t x) (fpDecode t y), fpDecode t z])
  | .vfma _ t w rm _ d a b c => some (d, 4, .f32, rm, fun k _ u =>
      let h := if w = .hi then 1 else 0
      (xsumRnd .f32 rm u [xmul (fpDecode t (el 16 (lane (vop st a) k) h)) (fpDecode t (el 16 (lane (vsrc st b) k) h)),
        fpDecode .f32 (lane (vreg st c) k).toNat]).code)
  | .vmin _ t u d a b => some (d, 2, t, .rne, fun k j _ =>
      (minMaxEl t u false (el (Fmt.width t) (lane (vop st a) k) j) (el (Fmt.width t) (lane (vsrc st b) k) j)).1)
  | .vmax _ t u d a b => some (d, 2, t, .rne, fun k j _ =>
      (minMaxEl t u true (el (Fmt.width t) (lane (vop st a) k) j) (el (Fmt.width t) (lane (vsrc st b) k) j)).1)
  | .vabs _ t sati d a => some (d, 2, t, .rne, fun k j _ =>
      let x := el (Fmt.width t) (lane (vop st a) k) j
      if Fmt.isInt t then intRule t sati ((intEl t x).natAbs : Int) else (signEl t false x).1)
  | .vneg _ t sati d a => some (d, 2, t, .rne, fun k j _ =>
      let x := el (Fmt.width t) (lane (vop st a) k) j
      if Fmt.isInt t then intRule t sati (-intEl t x) else (signEl t true x).1)
  | .vshl _ t d a b => some (d, 2, t, .rne, fun k j _ =>
      let x := el (Fmt.width t) (lane (vop st a) k) j
      let n := el (Fmt.width t) (lane (vsrc st b) k) j
      if Fmt.width t ≤ n then 0 else x * 2 ^ n % 2 ^ Fmt.width t)
  | .vshr _ t u d a b => some (d, 2, t, .rne, fun k j _ =>
      let w := Fmt.width t
      let x := el w (lane (vop st a) k) j
      let n := el w (lane (vsrc st b) k) j
      if u || t = .ui8 then (if w ≤ n then 0 else x / 2 ^ n) else (intOf true w x / 2 ^ min n w % 2 ^ w).toNat)
  | .vdot _ t rm sati d a b => some (d, 5, .f32, rm, fun k _ u =>
      (dotLane t rm sati (lane (vop st a) k) (lane (vop st b) k) (lane (vreg st d) k) u).1)
  | _ => none

/-- The destination, latency and lanes of a whole-lane instruction (R230, R232 to R235). -/
def laneRule (st : Strand) : Instr → Option (VReg × Nat × (Nat → Lane))
  | .vand _ d a b => some (d, 2, fun k => lane (vop st a) k &&& lane (vsrc st b) k)
  | .vor _ d a b => some (d, 2, fun k => lane (vop st a) k ||| lane (vsrc st b) k)
  | .vxor _ d a b => some (d, 2, fun k => lane (vop st a) k ^^^ lane (vsrc st b) k)
  | .vsel _ d p a b => some (d, 2, fun k => if (preg st p).getLsbD k then lane (vop st a) k else lane (vop st b) k)
  | .vmov _ d (.v o) => some (d, 2, fun k => lane (vop st o) k)
  | .vmov _ d (.imm i) => some (d, 2, fun _ => i)
  | .vmov _ d (.s r) => some (d, 2, fun _ => (sreg st r).setWidth 32)
  | .vperm _ d a b none => some (d, 3, fun k => lane (vop st a) ((lane (vop st b) k).toNat % 32))
  | .vperm _ d a b (some c) => some (d, 3, fun k =>
      let n := (lane (vop st b) k).toNat % 64
      if n < 32 then lane (vop st a) n else lane (vreg st c) (n - 32))
  | _ => none

/-- The chunks that SR takes for the results of an instruction with `n` of them (R93). -/
def srRule (st : Strand) (rm : Rm) (n : Nat) : List Nat := if rm = .sr then chunks st.rngk st.rngc.toNat ((n + 7) / 8) else []

/-- The special function of an instruction, its rounding code, destination and operand (R242). -/
def sfuRule : Instr → Option (Sfu × Rm × VReg × VOp)
  | .vrcp _ d a => some (.rcp, .rne, d, a)
  | .vrsq _ d a => some (.rsq, .rne, d, a)
  | .vsqrt _ rm d a => some (.sqrt, rm, d, a)
  | .vexp2 _ d a => some (.exp2, .rne, d, a)
  | .vlog2 _ d a => some (.log2, .rne, d, a)
  | .vsin _ d a => some (.sin, .rne, d, a)
  | .vcos _ d a => some (.cos, .rne, d, a)
  | .vtanh _ d a => some (.tanh, .rne, d, a)
  | _ => none

/-- The core of the current strand, with its shared units. -/
def coreNow (s : State) : CoreSt :=
  match current s with
  | some (st, g) =>
      let (q, c, _) := g.place st.sidx
      if h : c < 4 then (s.quad q).cores[c] else CoreSt.init
  | none => CoreSt.init

/-- Vector instructions that write registers alone (R222 to R248). -/
def vectorOnly : Instr → Bool
  | .vadd .. | .vsub .. | .vmul .. | .vfma .. | .vmin .. | .vmax .. | .vabs .. | .vneg .. | .vand .. | .vor .. | .vxor .. | .vshl ..
  | .vshr .. | .vcmp .. | .vsel .. | .vmov .. | .vext .. | .vins .. | .vperm .. | .vcvt .. | .vpack .. | .vunpk .. | .vdot .. | .vred ..
  | .vscan .. | .vscana .. | .vrcp .. | .vrsq .. | .vsqrt .. | .vexp2 .. | .vlog2 .. | .vsin .. | .vcos .. | .vtanh .. | .vrng ..
  | .rngskip .. | .vsort .. => true
  | _ => false

/-- The registers that an instruction names as destinations. -/
def dests (i : Instr) : List OpRef := ((Instr.uses i).filter fun u => u.wr).map fun u => u.ref

/-- Vector instructions that move the SR counter (R93, R245, R247). -/
def movesCounter : Instr → Bool
  | .vadd _ _ .sr .. | .vsub _ _ .sr .. | .vmul _ _ .sr .. | .vfma _ _ _ .sr .. | .vdot _ _ .sr .. | .vcvt _ _ _ _ .sr ..
  | .vpack _ _ _ .sr .. | .vrng .. | .rngskip .. => true
  | _ => false

/-! ### Jobs of the matrix engine -/

/-- The job an instruction submits (R285, R288 to R297, R305 to R310): the trap of its checks where one fails (R290, R304, R393), the
register of its id, its operation. -/
def jobRule (s : State) (st : Strand) (q : Nat) (i : Instr) : Option (Option (Nat × Word) × Option SReg × JobOp) :=
  let tc (t : Tile) : Word := tcOf s q t
  let ill (ok : Bool) : Option (Nat × Word) := if ok then none else some (0x01, i.bits64)
  let rows (c : SReg) : Nat := min ((sreg st c).toNat % 256) 128
  let vals (v : VReg) (n : Nat) : List Lane := (List.range n).flatMap fun k => lanes (vreg st (Fin.ofNat 32 (v.val + k)))
  let same (a b : Tile) : Bool := isPlan (tc a) && isPlan (tc b) && tcRows (tc a) == tcRows (tc b) && tcRowb (tc a) == tcRowb (tc b)
  let move (d : Tile) (a b : SReg) : Option (Nat × Word) :=
    if cfgOk (tc d) then lsCheck s st q (sreg st a) (sreg st b) (tcRows (tc d)) (rowBytes (tc d)) else ill false
  match i with
  | .tld _ d a b j => some (move d a b, j, .tld d (tc d) (sreg st a).toNat (sreg st b).toNat)
  | .tst _ d a b j => some (move d a b, j, .tst d (tc d) (sreg st a).toNat (sreg st b).toNat)
  | .tzero _ d j => some (none, j, .tzero d)
  | .accz _ d j => some (none, j, .accz d)
  | .accld _ d a b c j =>
      some (lsCheck s st q (sreg st a) (sreg st b) (rows c) 256, j, .accld d (sreg st a).toNat (sreg st b).toNat (rows c))
  | .accst _ d a b c j =>
      some (lsCheck s st q (sreg st a) (sreg st b) (rows c) 256, j, .accst d (sreg st a).toNat (sreg st b).toNat (rows c))
  | .mma _ z d a b j => some (mmaCheck i s st q a b pairOk, j, .mma z d a b (tc a) (tc b))
  | .mmas _ z d a b c x => some (mmaCheck i s st q a b (fun f h => fp8 f && fp8 h), x.map fun y => y.2,
      .mmas z d a b (tc a) (tc b) (vals c 4) (match x with
        | some (r, _) => if r = 0 then 0x3F800000 else (sreg st r).setWidth 32
        | none => 0x3F800000))
  | .accvCvt _ rm sat d a j => some (ill (isOrd (tc d) && [Fmt.f32, .f16, .bf16, .e4m3, .e5m2].contains (tcFmt (tc d))), j,
      .cvt rm sat d a (tc d) st.rngk st.rngc)
  | .accvCvti _ sat d a j => some (ill (isOrd (tc d) && [Fmt.i8, .ui8].contains (tcFmt (tc d))), j, .cvti sat d a (tc d))
  | .plank _ d a b j => some (ill (same a d), j, .plank d a (tc a) ((sreg st b).setWidth 32))
  | .planm _ r c a j => some (none, j, .planm r c (vals a 2))
  | .balance _ c a j => some (ill (isPlan (tc a)), j, .balance c a (tc a) (s.quad q).pcfg)
  | .planx _ c d a j => some (ill (same a d), j, .planx c d a (tc a))
  | .plandot _ c a b j => some (ill (same a b), j, .plandot c a b (tc a))
  | .planlse _ col c d a j => some (ill (isPlan (tc a)), j, .planlse c col d a (tc a))
  | _ => none

/-- The quad takes a job from this core in this cycle (R285): fewer than 8 wait, none was taken in this cycle, fewer than 2 BALANCE jobs
are incomplete, and no core before it in the rotation submits. -/
def jobSlot (s : State) (q core : Nat) (op : JobOp) : Bool :=
  let x := s.quad q
  decide ((x.jobs.filter fun y => y.start.isNone).length < 8) && x.lastAccept != some s.now &&
  (!isBalance op || decide ((x.jobs.filter fun y => isBalance y.op).length < 2)) && !jobRival s q core

/-! ### Invariants -/

/-- Every memory of the device, and the table of gang generations, is in its canonical form. -/
def State.memoriesOk (s : State) : Bool :=
  Memory.wf s.ls && Memory.wf s.hbm && Memory.wf s.host && Memory.wf s.disk && Memory.wf s.durable && Memory.wf s.tiles && Memory.wf s.acc && Memory.wf s.gens

/-- What a step answers, when it answers a next state. -/
def nextOf (o : Out) : Option State :=
  match o with
  | .next s => some s
  | _ => none

end Sys2Proof.Machine
end

