-- ==== Sys2Proof/Certificates/Slice0/Obligations.lean ====
section
/-! DEFINITION. The statements about the device, for the provers. -/

open Sys2Proof Sys2Proof.Machine

/-! ### Encoding -/

/-- Words written out bit by bit from the field layout (R63), the worked examples of the encoding notes among them, decode to the
instructions they stand for; so do words whose one wrong bit makes them ILLEGAL (R60, R64, R67, R69). -/
def Obligations.DecodesSpecWords : Prop :=
  decode 0x0000000100000000000000000071800A = some (.sub ⟨0, false⟩ 6 7 (.imm64 0x100000000)) ∧
  decode 0x00000000000000010000000000412805 = some (.add ⟨2, true⟩ 4 4 (.imm32 1)) ∧
  decode 0x00000000FFFFFFF80000000000618005 = some (.add ⟨0, false⟩ 6 6 (.imm32 0xFFFFFFF8)) ∧
  decode 0xA4 = some (.exit ⟨0, false⟩) ∧
  decode 0x0FC001432421020C = some (.vfma ⟨0, false⟩ .f32 .no .rne false 4 ⟨2, .none⟩ (.reg ⟨9, .bcast 31⟩) 3) ∧
  decode 0x0C210180 = some (.put ⟨0, false⟩ 4 2 (.s 3)) ∧
  decode 0x0000000000000005000000000800430D = some (.mma ⟨0, false⟩ false 1 0 2 (some 5)) ∧
  decode 0x00000000000000403000014300614381 = some (.red ⟨0, false⟩ .add .f32 .loc 5 6 (.imm 64) (.gang 3)) ∧
  decode 0x024000A24D40 = some (.sendn ⟨3, false⟩ .e (.v 9 10)) ∧
  decode 0x0000000000000001000000000C412805 = none ∧
  decode 0x00000000000000010210000000412805 = none ∧
  decode 0x00000000000000010000000000412005 = none ∧
  decode 0x00000000000000010000000000412807 = none

/-- Decoding the encoding of any well-formed instruction gives that instruction back, with every operand at every value. -/
def Obligations.EncodeDecodeRoundTrip : Prop :=
  ∀ (i : Instr) (w : BitVec 128), i.wf = true → encode i = some w → decode w = some i

/-- A window that decodes starts with the encoding of the instruction read: its bits agree with the encoding over the instruction's
length, and the instruction is well formed. Two instructions never share a word. -/
def Obligations.DecodeReadsOneInstruction : Prop :=
  ∀ (w : BitVec 128) (i : Instr), decode w = some i →
    i.wf = true ∧ ∃ e, encode i = some e ∧ w.toNat % 2 ^ (8 * i.len) = e.toNat % 2 ^ (8 * i.len)

/-- Every opcode the map of R72 leaves unassigned decodes to nothing, whatever the other bits. The guard code 0b1000 decodes to
nothing in every instruction (R67). -/
def Obligations.ReservedEncodingsAreIllegal : Prop :=
  (∀ w : BitVec 128,
    let op := (w.extractLsb' 2 8).toNat
    (0x32 ≤ op ∧ op < 0x40 ∨ 0x57 ≤ op ∧ op < 0x60 ∨ 0x70 ≤ op ∧ op < 0x80 ∨ 0xA5 ≤ op ∧ op < 0xC0 ∨
      0xD2 ≤ op ∧ op < 0xE0 ∨ 0xE6 ≤ op) → decode w = none) ∧
  (∀ w : BitVec 128, (w.extractLsb' 10 4).toNat = 8 → decode w = none)

/-! ### Steps -/

/-- Where nothing is due and a strand that is not at the firmware may issue, and the bytes at its pc pass the checks of fetch and
decode to an instruction, the step executes that instruction with the strand current and its due results delivered. A step that is
due runs before any strand issues (the model's order of one cycle, log entry 40), but a HALT of the lightship or a reset of the same
cycle runs before a host command (R379), and its configuration write before the host's (R385; the model's reading of both, log entry
105), and a message that every route would take over a stopped link does not arrive (R373; the model's choice, log entry 82). -/
def Obligations.StepRunsDecodedInstruction : Prop :=
  (∀ (s : State) (k : Nat) (st0 : Strand) (g : Gang) (i : Instr),
    dueNow s = none → pick s = some k → s.strand? k = some st0 → s.gang? (k / 256) = some g →
    (let st := settle st0 s.now
     let q := (g.place (k % 256)).1
     let c := (g.place (k % 256)).2.1
     let pc := st.pc.toNat
     let s' := { s.setStrand k st with cur := k }
     let len := lenOf (BitVec.ofNat 2 (codeNat s' q c pc 4))
     atFirmware s' st = false →
     (st.sup = true ∨ pc < 0xFC000 ∧ pc < 4096 * (s.quad q).xbp.toNat) →
     codeNat s' q c pc 4 % 4 ≠ 3 → pc % 32 + len ≤ 32 →
     decode (BitVec.ofNat 128 (codeNat s' q c pc len)) = some i →
     step s = exec i s')) ∧
  (∀ (s : State) (e : Due) (t : List Due), s.agenda = e :: t → e.due ≤ s.now →
    (let first (d : Due) : Bool := d.due == e.due && lightshipBefore e.ev d.ev
     let rest : State := { s with agenda := t }
     ((∀ d ∈ t, first d = false) →
       (blockedMsg rest e.ev = false → step s = exec e.ev rest) ∧ (blockedMsg rest e.ev = true → step s = .next rest)) ∧
     (∀ l d r, t = l ++ d :: r → first d = true → (∀ x ∈ l, first x = false) →
       step s = exec d.ev { s with agenda := e :: (l ++ r) })))

/-- Fetch and decode traps with the TVAL of R75, in the order of R74; a fill word is skipped (R61). -/
def Obligations.FetchTraps : Prop :=
  ∀ (s : State) (sup : Bool) (q c n pc : Nat),
    let w := codeNat s q c pc 4
    let len := lenOf (BitVec.ofNat 2 w)
    let inside := sup = true ∨ pc < 0xFC000 ∧ pc < 4096 * (s.quad q).xbp.toNat
    (sup = false → 0xFC000 ≤ pc → fetchAt s sup q c (n + 1) pc = .trap pc 0x05 (BitVec.ofNat 64 pc)) ∧
    (sup = false → pc < 0xFC000 → 4096 * (s.quad q).xbp.toNat ≤ pc →
      fetchAt s sup q c (n + 1) pc = .trap pc 0x07 (BitVec.ofNat 64 pc)) ∧
    (inside → w = 0xFFFFFFFF → fetchAt s sup q c (n + 1) pc = fetchAt s sup q c n ((pc + 4) % 2 ^ 20)) ∧
    (inside → w % 4 = 3 → w ≠ 0xFFFFFFFF → fetchAt s sup q c (n + 1) pc = .trap pc 0x01 (BitVec.ofNat 64 w)) ∧
    (inside → w % 4 ≠ 3 → 32 < pc % 32 + len → fetchAt s sup q c (n + 1) pc = .trap pc 0x01 (BitVec.ofNat 64 w)) ∧
    (inside → w % 4 ≠ 3 → pc % 32 + len ≤ 32 → decode (BitVec.ofNat 128 (codeNat s q c pc len)) = none →
      fetchAt s sup q c (n + 1) pc = .trap pc 0x01 (BitVec.ofNat 64 (codeNat s q c pc 8)))

/-- After reset the registers of the device hold the values the rules give them; no register of a strand is there, for no gang is.
-/
def Obligations.ResetRegisters : Prop :=
  State.reset.dscfg = 0x58546000 ∧ State.reset.spcfg = 0x0EA6000000000000 ∧ State.reset.nccfg = 0x22444020 ∧
  State.reset.sncfg = 0x2 ∧ State.reset.pwcfg = 0x6900 ∧ State.reset.now = 0 ∧ State.reset.cyc = 0 ∧
  (∀ c : Fin 32, State.reset.lnStarve[c] = 4) ∧ State.reset.astab = [] ∧ State.reset.domtab = [] ∧
  State.reset.strands = [] ∧ State.reset.gangs = [] ∧ State.reset.grids = []

/-- Every memory of the device is listed in canonical form after reset. -/
def Obligations.ResetMemoriesCanonical : Prop :=
 State.reset.memoriesOk = true

/-- Every step keeps every memory in canonical form, in every state in which they are. -/
def Obligations.StepKeepsMemoriesCanonical : Prop :=
  ∀ s s' : State, s.memoriesOk = true → step s = .next s' → s'.memoriesOk = true

/-! ### Registers, guards, issue traps -/

/-- A write to `s0` or `p0` is discarded; `s0` reads zero and `p0` all ones (R66). A write to any other register changes it and no
other. A result of latency L reaches its register when L cycles have passed and no earlier (R144): a consumer stalls until then. -/
def Obligations.RegisterFile : Prop :=
  (∀ (st : Strand) (w : Word) (m x : Lane) (r d : SReg) (p q : PReg),
    sreg st 0 = 0 ∧ preg st 0 = BitVec.allOnes 32 ∧
    regWrite st (.s 0 w) = st ∧ regWrite st (.p 0 m x) = st ∧
    (d ≠ 0 → sreg (regWrite st (.s d w)) r = if r = d then w else sreg st r) ∧
    (q ≠ 0 → preg (regWrite st (.p q m x)) p = if p = q then (x &&& m) ||| (preg st q &&& ~~~m) else preg st p)) ∧
  (∀ (st : Strand) (now l : Nat) (d : SReg) (w : Word), d ≠ 0 → 1 < l →
    let st' := regLater st now l (.s d w)
    (∀ t, t < now + l → onWay (settle st' t) (.s d) = true) ∧
    (∀ t, now + l ≤ t → sreg (settle st' t) d = w ∧ onWay (settle st' t) (.s d) = false))

/-- A supervisor-only instruction, or a supervisor-only case of MFC and MTC, raises PRIV in user mode, with the pc and the bits of
the instruction (R74, R75), once every earlier result is there (R329). A register above the kernel's count raises ILLREG with (class
<< 8) | number, the first operand that fails deciding (R66). A guard that is false leaves the instruction no effect but one issue
cycle (R68): the pc advances, the core served the strand. -/
def Obligations.IssueChecks : Prop :=
  (∀ (i : Instr) (s : State) (st : Strand) (g : Gang), current s = some (st, g) → st.sup = false → Instr.supOnly i = true →
    (owesResults s s.cur = false → exec i s = .next (takeTrap (s.setStrand s.cur st) s.cur (st.pc.setWidth 64) 0x03 0 i.bits64)) ∧
    (owesResults s s.cur = true → exec i s = .next (stalled (s.setStrand s.cur st)))) ∧
  (∀ (i : Instr) (s : State) (st : Strand) (g : Gang) (h : Header) (v : Word), current s = some (st, g) →
    (Instr.supOnly i && !st.sup) = false → s.headerOf st.gid = some h → (Instr.uses i).findSome? (illreg? h) = some v →
    (owesResults s s.cur = false → exec i s = .next (takeTrap (s.setStrand s.cur st) s.cur (st.pc.setWidth 64) 0x02 0 v)) ∧
    (owesResults s s.cur = true → exec i s = .next (stalled (s.setStrand s.cur st)))) ∧
  (∀ (i : Instr) (s : State) (st : Strand) (g : Gang), current s = some (st, g) → (encodeFields i).isSome = true →
    admitted i s st = true → guardBusy st (Instr.grd i) = false → Instr.laneGuard i = false →
    (guardMask st (Instr.grd i)).getLsbD 0 = false →
    exec i s = .next (advance (markIssue (s.setStrand s.cur st) g st.sidx) i.len))

/-! ### Scalar instructions -/

/-- ADD, SUB, MUL, MULH, AND, OR, XOR, ANDN, SHL, SHR, SAR, ROTL, MIN, MAX, SEL, MOV and PMOV.s write the exact result of their
rule, wrapped modulo 2^64, after their latency, and advance; nothing else happens. -/
def Obligations.ScalarIntegerResults : Prop :=
  ∀ (i : Instr) (s : State) (st : Strand) (g : Gang) (d : SReg) (l : Nat) (w : Word),
    current s = some (st, g) → ready i s = true → aluRule st i = some (d, l, w) →
    exec i s = .next (advance ((issued i s).wrS l d w) i.len)

/-- DIV and REM complete with the result of R146 for every pair of operands when the core's divider is free, after 18 cycles. -/
def Obligations.DivisionResults : Prop :=
  ∀ (i : Instr) (s : State) (st : Strand) (g : Gang) (d : SReg) (w : Word),
    current s = some (st, g) → ready i s = true → dividerFree s = true → divRule st i = some (d, w) →
    ∃ t st', exec i s = .next t ∧ t.strand? s.cur = some st' ∧ finalS st' d = (if d = 0 then 0 else w) ∧
      (d ≠ 0 → (s.now + 18, RegVal.s d w) ∈ st'.pend) ∧ (∀ r, r ≠ d → finalS st' r = finalS st r) ∧ sameMemories s t ∧
      st'.vstat = st.vstat

/-- CLZ, CTZ and POPC (R147): the zero bits above the highest 1, those below the lowest 1, the 1 bits; CLZ and CTZ of 0 give 64. EXT
and INS (R148), bit by bit, with n = min(len, 64 - pos): EXT puts bits [pos + n - 1 : pos] at bit 0 and extends them by zeros or by
their top bit; INS replaces bits [pos + n - 1 : pos] of sD by the low bits of a and keeps the others. -/
def Obligations.BitInstructions : Prop :=
  (∀ (g : Guard) (d a : SReg) (s : State) (st : Strand) (gang : Gang), current s = some (st, gang) →
    (let x := sreg st a
     (ready (.clz g d a) s = true → ∃ n, exec (.clz g d a) s = .next (advance ((issued (.clz g d a) s).wrS 1 d (BitVec.ofNat 64 n)) 8) ∧
       (x = 0 → n = 64) ∧ (x ≠ 0 → n < 64 ∧ x.getLsbD (63 - n) = true ∧ ∀ j, 63 - n < j → x.getLsbD j = false)) ∧
     (ready (.ctz g d a) s = true → ∃ n, exec (.ctz g d a) s = .next (advance ((issued (.ctz g d a) s).wrS 1 d (BitVec.ofNat 64 n)) 8) ∧
       (x = 0 → n = 64) ∧ (x ≠ 0 → n < 64 ∧ x.getLsbD n = true ∧ ∀ j, j < n → x.getLsbD j = false)) ∧
     (ready (.popc g d a) s = true → exec (.popc g d a) s = .next (advance ((issued (.popc g d a) s).wrS 1 d
       (BitVec.ofNat 64 ((List.range 64).filter fun j => x.getLsbD j).length)) 8)))) ∧
  (∀ (g : Guard) (sg : Bool) (d a : SReg) (f : FieldSpec) (s : State) (st : Strand) (gang : Gang), current s = some (st, gang) →
    (let pos := (fieldVal st f).1
     let n := min (fieldVal st f).2 (64 - pos)
     (ready (.ext g sg d a f) s = true → ∃ w : Word,
       exec (.ext g sg d a f) s = .next (advance ((issued (.ext g sg d a f) s).wrS 1 d w) (Instr.ext g sg d a f).len) ∧
       ∀ j, j < 64 → w.getLsbD j = if j < n then (sreg st a).getLsbD (pos + j)
         else sg && decide (0 < n) && (sreg st a).getLsbD (pos + n - 1)) ∧
     (ready (.ins g d a f) s = true → ∃ w : Word,
       exec (.ins g d a f) s = .next (advance ((issued (.ins g d a f) s).wrS 1 d w) (Instr.ins g d a f).len) ∧
       ∀ j, j < 64 → w.getLsbD j = if pos ≤ j ∧ j < pos + n then (sreg st a).getLsbD (j - pos) else (sreg st d).getLsbD j)))

/-- CMP writes 32 equal bits by its condition; PLOG, PMOV and PMOV.b write what R151 and R152 give; one cycle later it is there. -/
def Obligations.PredicateResults : Prop :=
  ∀ (i : Instr) (s : State) (st : Strand) (g : Gang) (x : PReg × Lane),
    current s = some (st, g) → ready i s = true → predRule st i x →
    exec i s = .next (advance ((issued i s).wr 1 (.p x.1 (BitVec.allOnes 32) x.2)) i.len)

/-- MKFA composes and FAFLD extracts the fields of a fabric address where R156 and R157 place them; taking the fields of a composed
address gives its coordinates modulo the fields' sizes. -/
def Obligations.FabricAddresses : Prop :=
  ∀ (g : Guard) (d a : SReg) (off : Src96) (k : BitVec 3) (s : State) (st : Strand) (gang : Gang), current s = some (st, gang) →
    (ready (.mkfa g d a off k) s = true → ∃ w : Word,
      exec (.mkfa g d a off k) s = .next (advance ((issued (.mkfa g d a off k) s).wrS 1 d w) (Instr.mkfa g d a off k).len) ∧
      bitsOf w.toNat 63 61 = bitsOf (sreg st a).toNat 18 16 ∧
      bitsOf w.toNat 60 55 = (sreg st a).toNat % 64 ∧ bitsOf w.toNat 54 50 = (sreg st a).toNat / 256 % 32 ∧
      bitsOf w.toNat 49 47 = k.toNat ∧
      bitsOf w.toNat 46 0 = (match off with
        | .reg r => bitsOf (sreg st r).toNat 46 0
        | .imm i => i.toNat)) ∧
    (∀ f : FaField, ready (.fafld g f d a) s = true →
      exec (.fafld g f d a) s = .next (advance ((issued (.fafld g f d a) s).wrS 1 d (match f with
        | .x => ((sreg st a).extractLsb' 55 6).signExtend 64
        | .y => ((sreg st a).extractLsb' 50 5).signExtend 64
        | .xu => ((sreg st a).extractLsb' 55 6).setWidth 64
        | .yu => ((sreg st a).extractLsb' 50 5).setWidth 64
        | .sp => ((sreg st a).extractLsb' 47 3).setWidth 64
        | .off => ((sreg st a).extractLsb' 0 47).setWidth 64
        | .dev => ((sreg st a).extractLsb' 61 3).setWidth 64)) 8))

/-- FADD, FADD.sub, FMUL, FFMA, FMINMAX, FCMP and FCVT complete for every operand. Their value is the one rounding of the exact
value (R105), it fills bits [31:0] with zeros above (R143) or the integer's extension (R155), that rounding's flags join VSTAT, and
under SR the chunk is the next one and the counter moves by one (R93). The FP32 comparisons of FCMP by R154: every one but `.ne` and
`.un` is false when an operand is NaN, and -0 equals +0. -/
def Obligations.ScalarFloats : Prop :=
  (∀ (i : Instr) (s : State) (st : Strand) (g : Gang), current s = some (st, g) → ready i s = true →
    (let u (rm : Rm) : Nat := (srRule st rm 1).headD 0
     let x (r : SReg) : XVal := fpDecode .f32 ((sreg st r).toNat % 2 ^ 32)
     let y (b : Src96) : XVal := fpDecode .f32 (fsrc st b)
     let marks (rm : Rm) (fl : Flags) (t : State) : Prop := (t.strand? s.cur).map (fun z => (z.vstat, z.rngc)) =
       some (st.vstat ||| fl.setWidth 64, if rm = .sr then st.rngc + 1 else st.rngc)
     let rounds (rm : Rm) (d : SReg) (ts : List XVal) : Prop := completes i s fun t =>
       sOfStrand t s.cur d = (if d = 0 then 0 else BitVec.ofNat 64 (xsumRnd .f32 rm (u rm) ts).code) ∧
       marks rm (xsumRnd .f32 rm (u rm) ts).flags t
     (∀ gd sub rm d a b, i = .fadd gd sub rm d a b → rounds rm d [x a, if sub then xneg (y b) else y b]) ∧
     (∀ gd rm d a b, i = .fmul gd rm d a b → rounds rm d [xmul (x a) (y b)]) ∧
     (∀ gd rm d a b c, i = .ffma gd rm d a b c → rounds rm d [xmul (x a) (y b), x c]) ∧
     (∀ gd mx d a b, i = .fminmax gd mx d a b → completes i s fun t =>
       sOfStrand t s.cur d = (if d = 0 then 0 else
         BitVec.ofNat 64 (minMaxNum .f32 mx ((sreg st a).toNat % 2 ^ 32) (fsrc st b)).1) ∧
       marks .rne (minMaxNum .f32 mx ((sreg st a).toNat % 2 ^ 32) (fsrc st b)).2 t) ∧
     (∀ gd c d a b, i = .fcmp gd c d a b → completes i s fun t =>
       pOfStrand t s.cur d = (if d = 0 then BitVec.allOnes 32 else
         if (fcompare (FCond.toV c) (x a) (y b)).1 then BitVec.allOnes 32 else 0) ∧
       marks .rne (fcompare (FCond.toV c) (x a) (y b)).2 t) ∧
     (∀ gd z sat rm dst src d a, i = .fcvt gd z sat rm dst src d a →
       (let r := convert dst src z sat rm (u rm) ((sreg st a).toNat % 2 ^ Fmt.width src)
        completes i s fun t => sOfStrand t s.cur d = (if d = 0 then 0 else if dst = .i32 ∧ z = false
          then (BitVec.ofNat 32 r.1).signExtend 64 else BitVec.ofNat 64 r.1) ∧ marks rm r.2 t)))) ∧
  (∀ (x y : XVal),
    ((x.isNan || y.isNan) = true → (fcompare .eq x y).1 = false ∧ (fcompare .ne x y).1 = true ∧ (fcompare .lt x y).1 = false ∧
      (fcompare .le x y).1 = false ∧ (fcompare .un x y).1 = true ∧ (fcompare .lt x y).2 = fINV ∧ (fcompare .le x y).2 = fINV) ∧
    (x.isNan = false → y.isNan = false → (fcompare .un x y).1 = false ∧ (fcompare .ne x y).1 = !(fcompare .eq x y).1 ∧
      ((fcompare .le x y).1 = ((fcompare .lt x y).1 || (fcompare .eq x y).1)) ∧ (fcompare .eq x y).2 = 0) ∧
    (∀ n k e e', (fcompare .eq (.fin n 0 e) (.fin k 0 e')).1 = true))

/-- BR, JMP, CALL, CALLR, RET and LOOP transfer to their targets, with the link or the counter written, when the target passes the
checks of R77; a branch not taken and a LOOP that falls through advance (R158 to R160). A taken transfer whose target is not a
multiple of 4 traps ALIGN, one at or above 2^20 traps PROTECT, at the transferring instruction and before any other effect (R77):
TVAL is the target, no link or counter is written and no FULL register is read. -/
def Obligations.ControlTransfers : Prop :=
  (∀ (i : Instr) (s : State) (st : Strand) (g : Gang), current s = some (st, g) → ready i s = true →
    (let goes (t : Word) (s' : State) : Prop := t.toNat % 4 = 0 → t.toNat < 2 ^ 20 →
       exec i s = .next (s'.modCur fun x => { x with pc := BitVec.ofNat 20 t.toNat, wake := s'.now + 3 })
     let target (disp : BitVec 32) : Word := BitVec.ofInt 64 (st.pc.toNat + disp.toInt)
     (∀ gd c a b disp, i = .br gd c a b disp →
       (condRule (BrCond.toCond c) (sreg st a) (sreg st b) → goes (target disp) (issued i s)) ∧
       (¬condRule (BrCond.toCond c) (sreg st a) (sreg st b) → exec i s = .next (advance (issued i s) 12))) ∧
     (∀ gd disp, i = .jmp gd disp → goes (target disp) (issued i s)) ∧
     (∀ gd d disp, i = .call gd d disp →
       goes (target disp) ((issued i s).wrS 1 d (BitVec.ofNat 64 (st.pc.toNat + 12)))) ∧
     (∀ gd d a, i = .callr gd d a → goes (sreg st a) ((issued i s).wrS 1 d (BitVec.ofNat 64 (st.pc.toNat + 8)))) ∧
     (∀ gd a, i = .ret gd a → goes (sreg st a) (issued i s)) ∧
     (∀ gd d disp, i = .loop gd d disp →
       (sreg st d - 1 ≠ 0 → goes (target disp) ((issued i s).wrS 1 d (sreg st d - 1))) ∧
       (sreg st d = 1 → exec i s = .next (advance ((issued i s).wrS 1 d 0) 12))))) ∧
  (∀ (i : Instr) (s : State) (st : Strand) (g : Gang) (t : Word) (c : Nat), current s = some (st, g) → ready i s = true →
    (t.toNat % 4 ≠ 0 ∧ c = 0x04 ∨ t.toNat % 4 = 0 ∧ 2 ^ 20 ≤ t.toNat ∧ c = 0x05) →
    ((∃ gd co a b disp, i = .br gd co a b disp ∧ condRule (BrCond.toCond co) (sreg st a) (sreg st b) ∧
       t = BitVec.ofInt 64 (st.pc.toNat + disp.toInt)) ∨
     (∃ gd disp, i = .jmp gd disp ∧ t = BitVec.ofInt 64 (st.pc.toNat + disp.toInt)) ∨
     (∃ gd d disp, i = .call gd d disp ∧ t = BitVec.ofInt 64 (st.pc.toNat + disp.toInt)) ∨
     (∃ gd d a, i = .callr gd d a ∧ t = sreg st a) ∨ (∃ gd a, i = .ret gd a ∧ t = sreg st a) ∨
     (∃ gd d disp, i = .loop gd d disp ∧ sreg st d - 1 ≠ 0 ∧ t = BitVec.ofInt 64 (st.pc.toNat + disp.toInt)) ∨
     (∃ gd, i = .rte gd ∧ t = (if st.sup = true ∧ st.tstat.getLsbD 8 = true then BitVec.ofNat 64 (st.tstat.toNat / 2 ^ 44)
       else st.tpc))) →
    traps i s st c 0 t)

/-- The frame of the scalar register instructions (ADD to MOV, the predicate writers, FADD to FCVT, MKFA, FAFLD): when one has its
effect, no other strand, no memory and no register of the device or of a quad changes; of its own strand every register but the
destination, every special register but VSTAT and the SR counter, SERR and the window counters stay; the SR counter moves under SR
alone; and no flag is cleared. -/
def Obligations.ScalarFrame : Prop :=
  ∀ (i : Instr) (s t : State) (st : Strand) (g : Gang), current s = some (st, g) → ready i s = true → scalarOnly i = true →
    exec i s = .next t →
    ∃ st', t.strand? s.cur = some st' ∧ otherStrands s t ∧ sameMemories s t ∧ sameRegisters s t ∧ sameSpecials st st' ∧
      (∀ r, some (OpRef.s r) ≠ destOf i → finalS st' r = finalS st r) ∧ (∀ r, finalV st' r = finalV st r) ∧
      (∀ r, some (OpRef.p r) ≠ destOf i → finalP st' r = finalP st r) ∧
      st'.serr = st.serr ∧ st'.wcnt = st.wcnt ∧ (setsFlags i = false → st'.vstat = st.vstat) ∧ (roundsBySr i = false → st'.rngc = st.rngc) ∧
      st.vstat &&& st'.vstat = st.vstat

/-! ### Control registers -/

/-- MFC of every control register that R164 lists completes in one cycle with the value of its rule; of VSTAT once the flags of
every earlier instruction have arrived (R98). The identity registers by their layouts (R15, R114): for a strand of a gang that
stands on the device, SPOS gives device, quad, cluster, die, core and slot; GPOS the gang id, its generation, the strand index, the
position in the gang and its shape; GANG the index, the grid's last index, its priority and whether it is cooperative. -/
def Obligations.ControlRegisterReads : Prop :=
  (∀ (g : Guard) (d : SReg) (n : BitVec 12) (s : State) (st : Strand) (gang : Gang),
    current s = some (st, gang) → ready (.mfc g d n) s = true → (n = 0x010 → st.flagAt ≤ s.now) →
    ∃ w : Word, exec (.mfc g d n) s = .next (advance ((issued (.mfc g d n) s).wrS 1 d w) 12) ∧
      (n = 0x000 → w = BitVec.ofNat 64 (s.now - s.cycBase)) ∧ (n = 0x010 → w = st.vstat) ∧ (n = 0x011 → w = st.serr) ∧
      (n = 0x018 → w = st.rngk) ∧ (n = 0x019 → w = st.rngc.setWidth 64) ∧ (n = 0x01A → w = st.rngc.extractLsb' 64 64) ∧
      (n = 0x020 → w = st.tvec) ∧ (n = 0x021 → w = st.tpc) ∧ (n = 0x022 → w = st.tcause) ∧ (n = 0x023 → w = st.tval) ∧
      (n = 0x101 → w = st.tstat) ∧ (n = 0x102 → w = st.ssca) ∧ (n = 0x103 → w = st.sscb) ∧ (n = 0x104 → w = st.stpc) ∧
      (n = 0x105 → w = st.scause) ∧ (n = 0x106 → w = st.sval) ∧
      (n = 0x050 → w = (s.quad (gang.quadOf st.sidx)).pcfg) ∧
      (n = 0x100 → w = BitVec.ofNat 64 (4096 * (s.quad (gang.quadOf st.sidx)).xbp.toNat)) ∧
      (∀ k : Fin 12, n.toNat = 0x040 + k.val → w = (s.quad (gang.quadOf st.sidx)).tc[k.val]) ∧
      (n = 0x004 → ∀ x, s.grid? gang.grid = some x → w = x.launch.argva)) ∧
  (∀ (g : Guard) (d : SReg) (s : State) (st : Strand) (gang : Gang) (x : Grid),
    current s = some (st, gang) → s.grid? gang.grid = some x → gang.gid < 2 ^ 20 → gang.lw ≤ 2 → gang.lh ≤ 2 →
    1 ≤ gang.spc → gang.spc ≤ 4 → st.sidx < gang.count → gang.ox + gang.w ≤ 32 → gang.oy + gang.h ≤ 16 →
    gang.index < 2 ^ 20 → x.launch.count ≤ 2 ^ 20 → x.launch.pri < 8 →
    (let value (n : BitVec 12) (p : Nat → Prop) : Prop := ready (.mfc g d n) s = true →
       ∃ w : Word, exec (.mfc g d n) s = .next (advance ((issued (.mfc g d n) s).wrS 1 d w) 12) ∧ p w.toNat
     let i := st.sidx / (4 * gang.spc)
     let qx := gang.ox + i % gang.w
     let qy := gang.oy + i / gang.w
     let core := st.sidx / gang.spc % 4
     let slot := st.sidx % gang.spc
     value 0x001 (fun w => bitsOf w 31 29 = s.dev.toNat ∧ bitsOf w 28 24 = qx ∧ bitsOf w 23 20 = qy ∧
       bitsOf w 19 15 = clusterOf (quadAt qx qy) ∧ bitsOf w 14 13 = dieOf (quadAt qx qy) ∧ bitsOf w 12 11 = core ∧
       bitsOf w 10 9 = slot ∧ bitsOf w 63 32 = 0 ∧ bitsOf w 8 0 = 0) ∧
     value 0x003 (fun w => bitsOf w 63 44 = gang.gid ∧ bitsOf w 43 28 = gang.gen.toNat ∧ bitsOf w 23 16 = st.sidx ∧
       bitsOf w 15 14 = i % gang.w ∧ bitsOf w 13 12 = i / gang.w ∧ bitsOf w 11 10 = gang.lw ∧ bitsOf w 9 8 = gang.lh ∧
       bitsOf w 7 5 = gang.spc ∧ bitsOf w 4 3 = core ∧ bitsOf w 2 1 = slot) ∧
     value 0x002 (fun w => bitsOf w 63 44 = gang.index ∧ bitsOf w 43 24 = x.launch.count - 1 ∧ bitsOf w 19 17 = x.launch.pri ∧
       bitsOf w 16 16 = if x.launch.coop || x.hdr.coop then 1 else 0)))

/-- MTC of a register of the strand writes its fields at once and nothing else (R164, R97, R202, R333): reserved bits stay zero, a
read-only register ignores the write. MTC of a register of the quad goes to it in the next cycle (R31, R282; of PCFG, for which R301
gives no cycle, and of a device register the model's choice, log entry 44). -/
def Obligations.ControlRegisterWrites : Prop :=
  ∀ (g : Guard) (n : BitVec 12) (a : SReg) (s : State) (st : Strand) (gang : Gang),
    current s = some (st, gang) → ready (.mtc g n a) s = true → (n = 0x010 → st.flagAt ≤ s.now) →
    (let v := sreg st a
     (∀ off, quadReg n.toNat = some off → exec (.mtc g n a) s = .next (advance
       ((issued (.mtc g n a) s).post (s.now + 1) 0 (.registerWrite (gang.quadOf st.sidx) 3 off v)) 12)) ∧
     (quadReg n.toNat = none → ∃ t st', exec (.mtc g n a) s = .next t ∧ t.strand? s.cur = some st' ∧
       otherStrands s t ∧ sameMemories s t ∧ sameRegisters s t ∧ st'.sup = st.sup ∧
       (∀ r, finalS st' r = finalS st r) ∧ (∀ r, finalV st' r = finalV st r) ∧ (∀ r, finalP st' r = finalP st r) ∧
       st'.vstat = (if n = 0x010 then v &&& 0x3F else st.vstat) ∧
       st'.serr = (if n = 0x011 then v &&& 0xFFFFFFFF01 else st.serr) ∧
       st'.rngk = (if n = 0x018 then v else st.rngk) ∧
       st'.rngc.setWidth 64 = (if n = 0x019 then v else st.rngc.setWidth 64) ∧
       st'.rngc.extractLsb' 64 64 = (if n = 0x01A then v else st.rngc.extractLsb' 64 64) ∧
       st'.tvec = (if n = 0x020 then v else st.tvec) ∧ st'.tpc = (if n = 0x021 then v else st.tpc) ∧
       st'.tcause = (if n = 0x022 then v &&& 0x1FFFF else st.tcause) ∧ st'.tval = (if n = 0x023 then v else st.tval) ∧
       st'.tstat = (if n = 0x101 then v &&& 0xFFFFF00000000301 else st.tstat) ∧
       st'.ssca = (if n = 0x102 then v else st.ssca) ∧ st'.sscb = (if n = 0x103 then v else st.sscb) ∧
       st'.stpc = (if n = 0x104 then v else st.stpc) ∧ st'.scause = (if n = 0x105 then v &&& 0x1FFFF else st.scause) ∧
       st'.sval = (if n = 0x106 then v else st.sval)))

/-- REGISTER_WRITE of the registers of a quad and of the device keeps each field in its range (R24): a tile configuration its
defined bits (R282), PSWEEP at least 1 (R301), XBP at most 0xFC (R31), the DSCFG exponents (R128), the NCCFG weights (R370), HELD
cleared by writing 1 (R382); PWCFG is not writable from inside the device (R384). -/
def Obligations.RegisterWritesTakeEffect : Prop :=
  ∀ (s : State) (q : Nat) (v : Word),
    (∀ k : Fin 12, completes (.registerWrite q 3 (0x9000 + 8 * k.val) v) s fun t =>
       ∀ j : Fin 12, (t.quad q).tc[j.val] = if j = k then v &&& 0xC0FFFF0F else (s.quad q).tc[j.val]) ∧
    (completes (.registerWrite q 3 0x9080 v) s fun t =>
       bitsOf (t.quad q).pcfg.toNat 63 32 = bitsOf v.toNat 63 32 ∧ bitsOf (t.quad q).pcfg.toNat 31 8 = 0 ∧
       bitsOf (t.quad q).pcfg.toNat 7 0 = max 1 (bitsOf v.toNat 7 0)) ∧
    (completes (.registerWrite q 3 0x9100 v) s fun t => (t.quad q).xbp.toNat = min (bitsOf v.toNat 19 12) 0xFC) ∧
    (completes (.registerWrite 33 3 0x100 v) s fun t =>
       bitsOf t.dscfg.toNat 31 26 = max 16 (min 40 (bitsOf v.toNat 31 26)) ∧
       bitsOf t.dscfg.toNat 23 18 = max 12 (min 32 (bitsOf v.toNat 23 18)) ∧
       bitsOf t.dscfg.toNat 15 10 = max 12 (min 40 (bitsOf v.toNat 15 10))) ∧
    (completes (.registerWrite 33 3 0x300 v) s fun t =>
       bitsOf t.nccfg.toNat 31 28 = max 1 (bitsOf v.toNat 31 28) ∧ bitsOf t.nccfg.toNat 27 24 = max 1 (bitsOf v.toNat 27 24) ∧
       bitsOf t.nccfg.toNat 23 20 = max 1 (bitsOf v.toNat 23 20) ∧ bitsOf t.nccfg.toNat 19 16 = max 1 (bitsOf v.toNat 19 16) ∧
       bitsOf t.nccfg.toNat 15 12 = max 1 (bitsOf v.toNat 15 12) ∧ bitsOf t.nccfg.toNat 7 0 = max 8 (bitsOf v.toNat 7 0)) ∧
    (completes (.registerWrite 33 3 0x400 v) s fun t =>
       t.sncfg.getLsbD 4 = (s.sncfg.getLsbD 4 && !v.getLsbD 4) ∧ bitsOf t.sncfg.toNat 3 0 = bitsOf v.toNat 3 0 ∧
       bitsOf t.sncfg.toNat 15 8 = bitsOf v.toNat 15 8) ∧
    (completes (.registerWrite 33 3 0x500 v) s fun t => t.pwcfg = s.pwcfg)

/-! ### Traps and system instructions -/

/-- NOP has no effect but the advance of the pc; YIELD keeps the strand from being ready for 3 cycles after its issue (R162, R172).
TRAP and TRAP.sys raise SOFTWARE with the pc of the next instruction, fill words passed over (R166; the model's reading, log entry
127), once every earlier result is there (R329); FLARE latches when its source is enabled (R169); PARK stops the strand and asks the
controller to pre-empt its gang (R170, R338; the cycle of the request is the model's reading, log entry 93); HALT stops the gang's
issue (R171); EXIT ends the strand and withdraws its offers (R161, R131). -/
def Obligations.SystemInstructions : Prop :=
  (∀ (g : Guard) (s : State),
    (ready (.nop g) s = true → exec (.nop g) s = .next (advance (issued (.nop g) s) 8)) ∧
    (ready (.yield g) s = true → ∃ t st, exec (.yield g) s = .next t ∧ t.strand? s.cur = some st ∧ st.wake = s.now + 4 ∧
      sameMemories s t)) ∧
  (∀ (g : Guard) (s : State) (st : Strand) (gang : Gang), current s = some (st, gang) →
    (∀ a, ready (.trap g a) s = true → owesResults s s.cur = false → exec (.trap g a) s = .next (takeTrap (issued (.trap g a) s) s.cur
       (((issued (.trap g a) s).skipFill s.cur (st.pc + BitVec.ofNat 20 (Instr.trap g a).len)).setWidth 64) 0x0D 0
       (match a with
        | .reg r => sreg st r
        | .imm i => i.setWidth 64))) ∧
    (∀ i, ready (.trapSys g i) s = true → owesResults s s.cur = false → exec (.trapSys g i) s = .next (takeTrap (issued (.trapSys g i) s)
       s.cur (((issued (.trapSys g i) s).skipFill s.cur (st.pc + 12)).setWidth 64) 0x0D 1 (BitVec.ofNat 64 (2 ^ 63 + i.toNat)))) ∧
    (∀ k (pc : BitVec 20) q c, s.strand? k = some st → s.gang? (k / 256) = some gang → gang.place (k % 256) = (q, c, k % 256 % gang.spc) →
       (codeNat s q c pc.toNat 4 ≠ 0xFFFFFFFF → s.skipFill k pc = pc) ∧
       (st.sup = true → codeNat s q c pc.toNat 4 = 0xFFFFFFFF → codeNat s q c (pc + 4).toNat 4 ≠ 0xFFFFFFFF → s.skipFill k pc = pc + 4)) ∧
    (ready (.flare g) s = true → s.sncfg.getLsbD 0 = true → completes (.flare g) s fun t => t.sncfg = s.sncfg ||| 0x10 ∧
       sameMemories s t ∧ otherStrands s t) ∧
    (ready (.flare g) s = true → s.sncfg.getLsbD 0 = false → exec (.flare g) s = .next (advance (issued (.flare g) s) 8)) ∧
    (ready (.park g) s = true → completes (.park g) s fun t => (t.strand? s.cur).map Strand.act = some .parked ∧
       (t.gang? gang.gid).map Gang.phase = some gang.phase ∧
       let at' := s.now + 2 * hops (hubOf gang.cluster) (s.quadOf s.cur) + 2
       (t.gang? gang.gid).map Gang.askAt = some (some (min at' (gang.askAt.getD at')))) ∧
    (ready (.halt g) s = true → completes (.halt g) s fun t =>
       (t.gang? st.gid).map Gang.halted = (s.gang? st.gid).map fun _ => true) ∧
    (ready (.exit g) s = true → completes (.exit g) s fun t => (t.strand? s.cur).map Strand.act = some .ended ∧
       ∀ o ∈ t.offers, o.2.key ≠ s.cur))

/-- A trap that goes to the supervisor saves TPC, TCAUSE and TVAL in STPC, SCAUSE and SVAL, writes them with the trap's own values,
records the mode in TSTAT.M with K zero, and goes to 0xFC000 in supervisor mode (R333). No other register and no other strand
changes. A user-deliverable cause in user mode, with a handler and outside one, enters the handler (R331, R332): TPC, TCAUSE with IH
set, TVAL are written, the pc is TVEC, the mode stays. -/
def Obligations.TrapEntry : Prop :=
  (∀ (s : State) (k : Nat) (st : Strand) (at' : Word) (cause sub : Nat) (val : Word), s.strand? k = some st →
    (st.sup = false ∨ cause = 0x0E) →
    (userCause cause sub && !st.sup && st.tvec != 0 && !st.tcause.getLsbD 16) = false → cause < 256 → sub < 256 →
    ∃ st', (takeTrap s k at' cause sub val).strand? k = some st' ∧
      (∀ j, j ≠ k → (takeTrap s k at' cause sub val).strand? j = s.strand? j) ∧
      st'.stpc = st.tpc ∧ st'.scause = st.tcause ∧ st'.sval = st.tval ∧ st'.tpc = at' ∧
      st'.tcause = BitVec.ofNat 64 (256 * sub + cause) ∧ st'.tval = val ∧ st'.sup = true ∧ st'.pc = 0xFC000 ∧ st'.act = .run ∧
      st'.tstat.getLsbD 0 = st.sup ∧ st'.tstat.getLsbD 8 = false ∧
      (∀ j, j ≠ 0 → j ≠ 8 → st'.tstat.getLsbD j = st.tstat.getLsbD j) ∧
      st'.tvec = st.tvec ∧ st'.ssca = st.ssca ∧ st'.sscb = st.sscb ∧ st'.vstat = st.vstat ∧ st'.serr = st.serr ∧
      st'.rngk = st.rngk ∧ st'.rngc = st.rngc ∧ st'.wcnt = st.wcnt ∧
      (∀ r, sreg st' r = sreg (settle st s.now) r) ∧ (∀ r, vreg st' r = vreg (settle st s.now) r) ∧
      (∀ r, preg st' r = preg (settle st s.now) r)) ∧
  (∀ (s : State) (k : Nat) (st : Strand) (at' : Word) (cause sub : Nat) (val : Word), s.strand? k = some st →
    userCause cause sub = true → sub < 256 → st.sup = false → st.tvec ≠ 0 → st.tcause.getLsbD 16 = false →
    st.tvec.toNat % 4 = 0 → st.tvec.toNat < 2 ^ 20 →
    ∃ st', (takeTrap s k at' cause sub val).strand? k = some st' ∧
      (∀ j, j ≠ k → (takeTrap s k at' cause sub val).strand? j = s.strand? j) ∧
      st'.tpc = at' ∧ st'.tcause = BitVec.ofNat 64 (65536 + 256 * sub + cause) ∧ st'.tval = val ∧ st'.sup = false ∧
      st'.pc = st.tvec.setWidth 20 ∧ st'.tvec = st.tvec ∧ st'.tstat = st.tstat ∧ st'.stpc = st.stpc ∧ st'.scause = st.scause ∧
      st'.sval = st.sval ∧ st'.ssca = st.ssca ∧ st'.sscb = st.sscb ∧ st'.vstat = st.vstat ∧
      (∀ r, sreg st' r = sreg (settle st s.now) r))

/-- A trap raised in supervisor mode, but for MACHINE, ends the grid (R335, R346): its fault goes to the dispatch engine; meanwhile
the strand sleeps and its trap registers keep what they held (the model's choice, log entry 32); when a fault arrives, the first of
its grid is recorded in 64 bytes and the grid fails. -/
def Obligations.SupervisorTrapsEndTheGrid : Prop :=
  (∀ (s : State) (k : Nat) (st : Strand) (g : Gang) (at' : Word) (cause sub : Nat) (val : Word), s.strand? k = some st →
    s.gang? (k / 256) = some g → st.sup = true → cause ≠ 0x0E →
    ∃ st' due f, (takeTrap s k at' cause sub val).strand? k = some st' ∧ st'.act = .asleep .firmware 0 ∧
      posted (takeTrap s k at' cause sub val) due 2 (.fault f) ∧ f.grid = g.grid ∧ f.code = BitVec.ofNat 8 cause ∧
      f.sub = BitVec.ofNat 8 sub ∧ f.gang = g.index ∧ f.sidx = k % 256 ∧ f.tpc = at' ∧ f.tval = val ∧
      st'.tpc = st.tpc ∧ st'.tcause = st.tcause ∧ st'.tval = st.tval ∧ st'.stpc = st.stpc ∧ st'.tstat = st.tstat) ∧
  (∀ (s : State) (f : FaultMsg) (x : Grid), s.grid? f.grid = some x → x.failed = false →
    (faultBytes64 s f).length = 64 ∧ (faultBytes64 s f).head? = some f.code ∧
    completes (.fault f) s fun t => t.records = s.records ++ [⟨f.grid, false, faultBytes64 s f⟩] ∧
      (t.grid? f.grid = none ∨ (t.grid? f.grid).map Grid.failed = some true))

/-- RTE (R168, R332, R334): in user mode it goes to TPC, clears IH and changes no other trap register; in supervisor mode with K = 0
it goes to TPC and restores TPC, TCAUSE, TVAL and the mode; with K = 1 it goes to IPC, takes the mode from IM, clears K and leaves
the trap registers alone. A target that fails R77 traps. -/
def Obligations.ReturnsFromTrap : Prop :=
  ∀ (g : Guard) (s : State) (st : Strand) (gang : Gang), current s = some (st, gang) → ready (.rte g) s = true →
    (st.sup = false → st.tpc.toNat % 4 = 0 → st.tpc.toNat < 2 ^ 20 → ∃ t st', exec (.rte g) s = .next t ∧
       t.strand? s.cur = some st' ∧ st'.pc = st.tpc.setWidth 20 ∧ st'.sup = false ∧ st'.tcause.getLsbD 16 = false ∧
       (∀ j, j ≠ 16 → st'.tcause.getLsbD j = st.tcause.getLsbD j) ∧ st'.tpc = st.tpc ∧ st'.tval = st.tval ∧
       st'.tvec = st.tvec ∧ (∀ r, finalS st' r = finalS st r) ∧ otherStrands s t ∧ sameMemories s t) ∧
    (let t : Word := if st.sup && st.tstat.getLsbD 8 then BitVec.ofNat 64 (st.tstat.toNat / 2 ^ 44) else st.tpc
     (t.toNat % 4 ≠ 0 → traps (.rte g) s st 0x04 0 t) ∧ (t.toNat % 4 = 0 → 2 ^ 20 ≤ t.toNat → traps (.rte g) s st 0x05 0 t)) ∧
    (st.sup = true → st.tstat.getLsbD 8 = false → st.tpc.toNat % 4 = 0 → st.tpc.toNat < 2 ^ 20 → ∃ t st', exec (.rte g) s = .next t ∧
       t.strand? s.cur = some st' ∧ st'.pc = st.tpc.setWidth 20 ∧ st'.sup = st.tstat.getLsbD 0 ∧ st'.tpc = st.stpc ∧
       st'.tcause = st.scause ∧ st'.tval = st.sval ∧ st'.tstat = st.tstat ∧ (∀ r, finalS st' r = finalS st r) ∧
       otherStrands s t ∧ sameMemories s t) ∧
    (st.sup = true → st.tstat.getLsbD 8 = true → st.tstat.toNat / 2 ^ 44 % 4 = 0 → ∃ t st', exec (.rte g) s = .next t ∧
       t.strand? s.cur = some st' ∧ st'.pc = BitVec.ofNat 20 (st.tstat.toNat / 2 ^ 44) ∧ st'.sup = st.tstat.getLsbD 9 ∧
       st'.tstat.getLsbD 8 = false ∧ st'.tpc = st.tpc ∧ st'.tcause = st.tcause ∧ st'.tval = st.tval ∧ st'.stpc = st.stpc ∧
       st'.scause = st.scause ∧ st'.sval = st.sval ∧ (∀ r, finalS st' r = finalS st r) ∧ otherStrands s t ∧ sameMemories s t)

/-! ### Loads, stores, atomics -/

/-- An access that passes every check (R26, R29, R173) is aligned to its size, lies on the device and inside its space, and in user
mode reaches nothing but the local store and tag tables of the gang's quads, for a write local store alone, outside the code region
and the system region. The checks of an access in their order, each with its cause, and the location of one that passes them all
(R22, R26, R29, R173): REMOTE for a space, device, quad or offset that is not there, or a user's access to local store or tags of a
quad outside its gang; PRIV for a user's access to another space or a write of tags; PROTECT for the code region, or a user's system
region; ALIGN for an address that is no multiple of the size, or a size but 8 in spaces 1, 3 and 4. An access that fails a check
traps with the check's cause and the effective address, before any effect (R26, R173); AMO and CAS reach local store alone, and
REMOTE for another space comes before PROTECT and ALIGN (R178). -/
def Obligations.AccessChecks : Prop :=
  (∀ (s : State) (st : Strand) (gang : Gang) (ea : Word) (m : Mode) (n : Nat) (write : Bool) (l : Loc),
    access s st gang ea m n write = .ok l →
    ea.toNat % n = 0 ∧ l.quad < 512 ∧ l.space < 5 ∧ l.off < spaceSize l.space ∧
    (l.space = 1 ∨ l.space = 3 ∨ l.space = 4 → n = 8) ∧ (l.space = 0 → 4096 * (s.quad l.quad).xbp.toNat ≤ l.off) ∧
    (st.sup = false → gang.hasQuad l.quad = true ∧ (l.space = 0 ∨ l.space = 2 ∧ write = false) ∧
      (l.space = 0 → l.off < 0xFC000))) ∧
  (∀ (s : State) (st : Strand) (gang : Gang) (ea : Word) (m : Mode) (n : Nat) (write : Bool),
    (let own := gang.quadOf st.sidx
     let sp := (ea.extractLsb' 47 3).toNat
     let off := (ea.extractLsb' 0 47).toNat
     let fx : BitVec 6 := ea.extractLsb' 55 6
     let fy : BitVec 5 := ea.extractLsb' 50 5
     let place (dev : Nat) (x y : Int) : Prop :=
       let away : Prop := 5 ≤ sp ∨ dev ≠ s.dev.toNat ∨ x < 0 ∨ 31 < x ∨ y < 0 ∨ 15 < y ∨ spaceSize sp ≤ off ∨
         sp = 4 ∧ ¬(x % 4 = 1 ∧ y % 4 = 1)
       let q := quadAt x.toNat y.toNat
       let outside : Prop := st.sup = false ∧ (sp = 0 ∨ sp = 2) ∧ gang.hasQuad q = false
       let priv : Prop := st.sup = false ∧ (sp = 1 ∨ sp = 3 ∨ sp = 4 ∨ sp = 2 ∧ write = true)
       let region : Prop := sp = 0 ∧ (off < 4096 * (s.quad q).xbp.toNat ∨ st.sup = false ∧ 0xFC000 ≤ off)
       let skew : Prop := ea.toNat % n ≠ 0 ∨ (sp = 1 ∨ sp = 3 ∨ sp = 4) ∧ n ≠ 8
       let gives (r : Except Nat Loc) : Prop := access s st gang ea m n write = r
       (away ∨ outside → gives (.error 0x06)) ∧
       (¬away → ¬outside → (priv → gives (.error 0x03)) ∧ (¬priv → (region → gives (.error 0x05)) ∧
         (¬region → (skew → gives (.error 0x04)) ∧ (¬skew → gives (.ok ⟨q, sp, off⟩)))))
     (m = .abs → place (ea.extractLsb' 61 3).toNat fx.toNat fy.toNat) ∧
     (m = .self → place s.dev.toNat (quadX own + fx.toInt) (quadY own + fy.toInt)) ∧
     (m = .gang → place s.dev.toNat (gang.ox + fx.toInt) (gang.oy + fy.toInt)) ∧
     (m = .loc → place s.dev.toNat (quadX own) (quadY own)))) ∧
  (∀ (g : Guard) (m : Mode) (a : SReg) (off : Off) (s : State) (st : Strand) (gang : Gang) (c : Nat), current s = some (st, gang) →
    (let ea := effAddr st a off
     let fails (i : Instr) : Prop := ready i s = true → traps i s st c 0 ea
     (∀ wd acq d, access s st gang ea m (ldBytes wd) false = .error c → fails (.ld g wd m acq d a off)) ∧
     (∀ wd rel x, access s st gang ea m (stBytes wd) true = .error c → fails (.st g wd m rel a off x)) ∧
     (∀ d, access s st gang ea m 128 false = .error c → fails (.ldv g m d a off)) ∧
     (∀ x, access s st gang ea m 128 true = .error c → fails (.stv g m a off x))) ∧
    (∀ (dw : Bool) (o : Order) (d b : SReg) (off : Off96) (i : Instr),
      ((∃ op, i = .amo g op dw m o d a off b) ∨ ∃ x, i = .cas g dw m o d a off b x) → ready i s = true →
      (let ea := sreg st a + off96Val off
       let r := access s st gang ea m (if dw then 8 else 4) true
       let sp := (ea.extractLsb' 47 3).toNat
       (r = .error c → sp = 0 ∨ c = 0x06 ∨ c = 0x03 → traps i s st c 0 ea) ∧
       (r ≠ .error 0x06 → r ≠ .error 0x03 → sp ≠ 0 → traps i s st 0x06 0 ea))))

/-- LD and LDV (R173 to R175): from the own quad's local store the addressed bytes arrive, lowest first, extended as the width says,
a vector under its lane mask; from its other spaces what the space holds; a remote load goes to its bank, which answers with the
bytes it holds then; a vector load without lanes accesses nothing. A core whose turn at the banks comes later lets the others go
first (R177; that it is the turn of the cycle after issue is the model's reading, log entry 48). With post-increment the base moves
by the offset. No other register, no memory and no other strand changes. -/
def Obligations.LoadsComplete : Prop :=
  ∀ (g : Guard) (m : Mode) (a : SReg) (off : Off) (s : State) (st : Strand) (gang : Gang) (l : Loc), current s = some (st, gang) →
    (let own := gang.quadOf st.sidx
     let ea := effAddr st a off
     let turn (i : Instr) : Prop := bankRival (issued i s) st gang l = false
     let waits (i : Instr) : Prop := completes i s fun t =>
       (t.strand? s.cur).map Strand.pc = some st.pc ∧ sameMemories s t ∧ otherStrands s t
     (∀ wd acq d, ready (.ld g wd m acq d a off) s = true → access s st gang ea m (ldBytes wd) false = .ok l →
       (bankRival (issued (.ld g wd m acq d a off) s) st gang l = true → waits (.ld g wd m acq d a off)) ∧
       (l.quad = own → l.space = 0 → s.unf = [] → turn (.ld g wd m acq d a off) → completes (.ld g wd m acq d a off) s fun t =>
          sOfStrand t s.cur d = (if d = 0 then 0 else ldVal wd (cgetN s.ls (lsKey own l.off) (ldBytes wd))) ∧
          (off.isPost = true → a ≠ d → a ≠ 0 → sOfStrand t s.cur a = sreg st a + offVal off) ∧
          (∀ r, r ≠ d → (r ≠ a ∨ off.isPost = false) → sOfStrand t s.cur r = finalS st r) ∧
          sameMemories s t ∧ otherStrands s t ∧ sameRegisters s t) ∧
       (l.quad ≠ own → completes (.ld g wd m acq d a off) s fun t =>
          posted t (s.now + bankStep own l.quad) 2 (.remoteLoadResponse (.ld l wd s.cur d (s.now + loadDelay own l.quad))) ∧
          sameMemories s t ∧ otherStrands s t)) ∧
     (∀ d, ready (.ldv g m d a off) s = true → access s st gang ea m 128 false = .ok l → l.quad = own → l.space = 0 → s.unf = [] →
       turn (.ldv g m d a off) → completes (.ldv g m d a off) s fun t =>
         (∀ k, k < 32 → lane (vOfStrand t s.cur d) k = if (maskOf (.ldv g m d a off) st).getLsbD k
            then BitVec.ofNat 32 (natOf (cgetN s.ls (lsKey own (l.off + 4 * k)) 4)) else lane (finalV st d) k) ∧
         (∀ r, r ≠ d → vOfStrand t s.cur r = finalV st r) ∧ sameMemories s t ∧ otherStrands s t) ∧
     (∀ d, ready (.ldv g m d a off) s = true → access s st gang ea m 128 false = .ok l →
       (let i := Instr.ldv g m d a off
        (l.quad ≠ own → maskOf i st ≠ 0 → completes i s fun t =>
          posted t (s.now + bankStep own l.quad) 2 (.remoteLoadResponse (.ldv l (maskOf i st) s.cur d (s.now + loadDelay own l.quad + 1))) ∧
          sameMemories s t ∧ otherStrands s t) ∧
        (maskOf i st = 0 → exec i s = .next (advance (postInc st a off (issued i s)) i.len)))) ∧
     (∀ i n d, (∃ wd acq, i = .ld g wd m acq d a off ∧ n = ldBytes wd) → ready i s = true → access s st gang ea m n false = .ok l →
       l.quad = own → l.space ≠ 0 → completes i s fun t =>
         (d ≠ 0 → ∃ wd acq, i = .ld g wd m acq d a off ∧
           sOfStrand t s.cur d = ldVal wd (spaceRead (postInc st a off (issued i s)) s.cur l n)) ∧
         sameMemories s t ∧ otherStrands s t ∧ sameRegisters s t) ∧
     (∀ d, ready (.ldv g m d a off) s = true → access s st gang ea m 128 false = .ok l → l.quad = own → l.space = 2 →
       completes (.ldv g m d a off) s fun t =>
         (∀ k, k < 32 → (maskOf (.ldv g m d a off) st).getLsbD k = true →
           lane (vOfStrand t s.cur d) k = lane (vecOf (tagRead (s.quad own) l.off 128)) k) ∧ sameMemories s t ∧ otherStrands s t)) ∧
  ∀ (loc : Loc) (key : Nat) (x : Strand), s.strand? key = some x →
    (∀ wd d ready, completes (.remoteLoadResponse (.ld loc wd key d ready)) s fun t =>
       (d ≠ 0 → sOfStrand t key d = ldVal wd (spaceRead s key loc (ldBytes wd))) ∧
       sameMemories s t) ∧
    (∀ mask d ready, completes (.remoteLoadResponse (.ldv loc mask key d ready)) s fun t =>
       (∀ k, k < 32 → mask.getLsbD k = true → lane (vOfStrand t key d) k = lane (vecOf (spaceRead s key loc 128)) k) ∧
       sameMemories s t)

/-- ST and STV (R173 to R175): into the own quad's local store exactly the addressed bytes change, to the register's bytes, lowest
first, a vector under its lane mask; in its other spaces the strand register, tag entry or device register of the address; a remote
store goes to its bank, where the same bytes change when it is published, and its acknowledgement comes back. No register changes
but the base under post-increment. A core whose turn at the banks comes later lets the others go first (log entry 48, as in
LoadsComplete). -/
def Obligations.StoresComplete : Prop :=
  ∀ (g : Guard) (m : Mode) (a : SReg) (off : Off) (s : State) (st : Strand) (gang : Gang) (l : Loc), current s = some (st, gang) → s.memoriesOk = true →
    (let own := gang.quadOf st.sidx
     let ea := effAddr st a off
     let turn (i : Instr) : Prop := bankRival (issued i s) st gang l = false
     (∀ wd rel c, ready (.st g wd m rel a off c) s = true → access s st gang ea m (stBytes wd) true = .ok l →
       (rel = true → drained s.now st 2 = true) →
       (bankRival (issued (.st g wd m rel a off c) s) st gang l = true → completes (.st g wd m rel a off c) s fun t =>
          (t.strand? s.cur).map Strand.pc = some st.pc ∧ sameMemories s t ∧ otherStrands s t) ∧
       (l.quad = own → l.space = 0 → turn (.st g wd m rel a off c) → completes (.st g wd m rel a off c) s fun t =>
          (∀ b, cget t.ls b = if lsKey own l.off ≤ b ∧ b < lsKey own l.off + stBytes wd
             then (sreg st c).extractLsb' (8 * (b - lsKey own l.off)) 8 else cget s.ls b) ∧
          t.hbm = s.hbm ∧ t.host = s.host ∧ t.disk = s.disk ∧ t.tiles = s.tiles ∧ t.acc = s.acc ∧ sameRegisters s t ∧
          otherStrands s t ∧ (∀ r, (r ≠ a ∨ off.isPost = false) → sOfStrand t s.cur r = finalS st r) ∧
          (off.isPost = true → a ≠ 0 → sOfStrand t s.cur a = sreg st a + offVal off)) ∧
       (l.quad ≠ own → st.remote < 16 → completes (.st g wd m rel a off c) s fun t =>
          posted t (s.now + bankStep own l.quad) 2 (.remoteStorePublish (.st l (stBytes wd) (sreg st c) s.cur)) ∧
          posted t (s.now + ackDelay own l.quad) 2 (.remoteAcknowledgement s.cur) ∧ sameMemories s t ∧ otherStrands s t)) ∧
     (∀ c, ready (.stv g m a off c) s = true → access s st gang ea m 128 true = .ok l → l.quad = own → l.space = 0 →
       turn (.stv g m a off c) → completes (.stv g m a off c) s fun t =>
         (∀ b, cget t.ls b = if lsKey own l.off ≤ b ∧ b < lsKey own l.off + 128 ∧
              (maskOf (.stv g m a off c) st).getLsbD ((b - lsKey own l.off) / 4) = true
            then (lane (vreg st c) ((b - lsKey own l.off) / 4)).extractLsb' (8 * ((b - lsKey own l.off) % 4)) 8 else cget s.ls b) ∧
         t.hbm = s.hbm ∧ t.host = s.host ∧ t.tiles = s.tiles ∧ t.acc = s.acc ∧ otherStrands s t) ∧
     (∀ wd rel c, (let i := Instr.st g wd m rel a off c
        ready i s = true → access s st gang ea m (stBytes wd) true = .ok l → (rel = true → drained s.now st 2 = true) →
        l.quad = own → l.space ≠ 0 →
        exec i s = .next (advance (spaceWrite (postInc st a off (issued i s)) s.cur l (bytesOf (stBytes wd) (sreg st c))) i.len))) ∧
     (∀ c, (let i := Instr.stv g m a off c
        ready i s = true → access s st gang ea m 128 true = .ok l →
        (l.quad ≠ own → st.remote < 16 → maskOf i st ≠ 0 → completes i s fun t =>
          posted t (s.now + bankStep own l.quad) 2 (.remoteStorePublish (.stv l (maskOf i st) (vreg st c) s.cur)) ∧
          posted t (s.now + ackDelay own l.quad) 2 (.remoteAcknowledgement s.cur) ∧ sameMemories s t ∧ otherStrands s t) ∧
        (maskOf i st = 0 → exec i s = .next (advance (postInc st a off (issued i s)) i.len))))) ∧
  (∀ (s : State) (key q slot r i : Nat) (v : Word) (x : Strand) (h : Header), s.slotKey q slot = some key → s.strand? key = some x →
    s.headerOf (key / 256) = some h → slot < 16 → r < 32 →
    (let y := settle x s.now
     (0 < r → r < h.sall → ∃ z, (spaceWrite s key ⟨q, 1, 8192 * slot + 8 * r⟩ (bytesOf 8 v)).strand? key = some z ∧
       (∀ j : SReg, sreg z j = if j.val = r then v else sreg y j) ∧ z.sst = y.sst ∧ z.vregs = y.vregs ∧ z.pregs = y.pregs) ∧
     (r < h.valloc → i < 16 → ∃ z, (spaceWrite s key ⟨q, 1, 8192 * slot + 4096 + 128 * r + 8 * i⟩ (bytesOf 8 v)).strand? key = some z ∧
       (∀ (j : VReg) (k : Nat), k < 32 → lane (vreg z j) k = if j.val = r ∧ k / 2 = i then v.extractLsb' (32 * (k % 2)) 32
         else lane (vreg y j) k) ∧ z.vst = y.vst ∧ z.sregs = y.sregs ∧ z.pregs = y.pregs) ∧
     (r < h.sall → wordRead s ⟨q, 1, 8192 * slot + 8 * r⟩ = sreg y (Fin.ofNat 32 r)))) ∧
  (∀ (s : State) (key q off n : Nat) (v : Word), off % n = 0 → n = 1 ∨ n = 2 ∨ n = 4 ∨ n = 8 → off + n ≤ 4096 →
    (∀ e, e ≠ off / 16 → tagOf ((spaceWrite s key ⟨q, 2, off⟩ (bytesOf n v)).quad q) e = tagOf (s.quad q) e) ∧
    (off % 16 = 0 → n = 8 → tagOf ((spaceWrite s key ⟨q, 2, off⟩ (bytesOf n v)).quad q) (off / 16) =
      ⟨(tagOf (s.quad q) (off / 16)).valid, v, (tagOf (s.quad q) (off / 16)).slot⟩) ∧
    (off % 16 = 8 → n = 8 → tagOf ((spaceWrite s key ⟨q, 2, off⟩ (bytesOf n v)).quad q) (off / 16) =
      ⟨v.getLsbD 15, (tagOf (s.quad q) (off / 16)).key, v.setWidth 12⟩)) ∧
  (∀ (s : State) (key q : Nat) (v : Word) (c : Fin 32), clusterOf q = c.val →
    (spaceWrite s key ⟨q, 4, 0⟩ (bytesOf 8 v)).lnStarve[c] = BitVec.ofNat 4 (max 1 (v.toNat % 16)) ∧
    ∀ off val, spaceWrite s key ⟨q, 3, off⟩ (bytesOf 8 val) = wordWrite s false ⟨q, 3, off⟩ val) ∧
  ∀ (loc : Loc) (key n : Nat) (v : Word) (x : Strand), s.strand? key = some x →
    (loc.space = 0 → completes (.remoteStorePublish (.st loc n v key)) s fun t =>
       (∀ b, cget t.ls b = if lsKey loc.quad loc.off ≤ b ∧ b < lsKey loc.quad loc.off + n
          then v.extractLsb' (8 * (b - lsKey loc.quad loc.off)) 8 else cget s.ls b) ∧
       t.hbm = s.hbm) ∧
    (∀ (mask : Lane) (vv : VVal), loc.space = 0 → s.memoriesOk = true → completes (.remoteStorePublish (.stv loc mask vv key)) s fun t =>
       (∀ b, cget t.ls b = if lsKey loc.quad loc.off ≤ b ∧ b < lsKey loc.quad loc.off + 128 ∧
            mask.getLsbD ((b - lsKey loc.quad loc.off) / 4) = true
          then (lane vv ((b - lsKey loc.quad loc.off) / 4)).extractLsb' (8 * ((b - lsKey loc.quad loc.off) % 4)) 8 else cget s.ls b) ∧
       t.hbm = s.hbm) ∧
    (loc.space ≠ 0 → exec (.remoteStorePublish (.st loc n v key)) s = .next (spaceWrite s key loc (bytesOf n v))) ∧
    (completes (.remoteAcknowledgement key) s fun t => (t.strand? key).map Strand.remote = some (x.remote - 1) ∧ sameMemories s t)

/-- AMO and CAS on local store (R178): sD receives the old value, zero-extended; memory holds the operation's result, for CAS the
new value where the old one was expected and else what it held; no other byte changes. On another quad they go to the bank, where
the same happens when they are published. They are performed in the core's turn at the banks (log entry 48, as in LoadsComplete). -/
def Obligations.AtomicsComplete : Prop :=
  ∀ (g : Guard) (dw : Bool) (m : Mode) (o : Order) (d a : SReg) (off : Off96) (b : SReg) (s : State) (st : Strand) (gang : Gang)
    (l : Loc), current s = some (st, gang) → s.memoriesOk = true →
    (let own := gang.quadOf st.sidx
     let n := if dw then 8 else 4
     let key := lsKey own l.off
     let old := natOf (cgetN s.ls key n)
     let far (i : Instr) (w : RemoteWrite) : Prop := completes i s fun t =>
       posted t (s.now + bankStep own l.quad) 2 (.remoteStorePublish w) ∧
       posted t (s.now + ackDelay own l.quad) 2 (.remoteAcknowledgement s.cur) ∧ sameMemories s t ∧ otherStrands s t
     (access s st gang (sreg st a + off96Val off) m n true = .ok l → l.quad ≠ own → l.space = 0 → st.remote < 16 →
      (Order.isRel o = true → drained s.now st 2 = true) →
       (∀ op, ready (.amo g op dw m o d a off b) s = true →
         far (.amo g op dw m o d a off b) (.amo l n op (sreg st b) s.cur d (s.now + 8 + 4 * hops own l.quad))) ∧
       (∀ c, ready (.cas g dw m o d a off b c) s = true →
         far (.cas g dw m o d a off b c) (.cas l n (sreg st b) (sreg st c) s.cur d (s.now + 8 + 4 * hops own l.quad)))) ∧
     (∀ (k' : Nat) (x : Strand) (v w : Word) (ready : Nat), s.strand? k' = some x → s.unf = [] →
       (let key := lsKey l.quad l.off
        let old := natOf (cgetN s.ls key n)
        let after (i : Instr) (new : Nat) : Prop := completes i s fun t =>
          sOfStrand t k' d = (if d = 0 then 0 else BitVec.ofNat 64 old) ∧ natOf (cgetN t.ls key n) = new ∧
          (∀ y, y < key ∨ key + n ≤ y → cget t.ls y = cget s.ls y) ∧ t.hbm = s.hbm
        (∀ op, after (.remoteStorePublish (.amo l n op v k' d ready)) (amoVal op n old (v.toNat % 2 ^ (8 * n)))) ∧
        after (.remoteStorePublish (.cas l n v w k' d ready))
          (if old = v.toNat % 2 ^ (8 * n) then w.toNat % 2 ^ (8 * n) else old))) ∧
     (access s st gang (sreg st a + off96Val off) m n true = .ok l → l.quad = own → l.space = 0 → s.unf = [] →
      (Order.isRel o = true → drained s.now st 2 = true) →
     (∀ op, ready (.amo g op dw m o d a off b) s = true → bankRival (issued (.amo g op dw m o d a off b) s) st gang l = false →
        completes (.amo g op dw m o d a off b) s fun t => sOfStrand t s.cur d = (if d = 0 then 0 else BitVec.ofNat 64 old) ∧
        natOf (cgetN t.ls key n) = (let y := (sreg st b).toNat % 2 ^ (8 * n)
          match op with
          | .add => (old + y) % 2 ^ (8 * n)
          | .and => old &&& y
          | .or => old ||| y
          | .xor => old ^^^ y
          | .min => if sext y (8 * n) < sext old (8 * n) then y else old
          | .max => if sext old (8 * n) < sext y (8 * n) then y else old
          | .minu => min old y
          | .maxu => max old y
          | .swap => y) ∧
        (∀ x, x < key ∨ key + n ≤ x → cget t.ls x = cget s.ls x) ∧ t.hbm = s.hbm ∧ otherStrands s t ∧
        (∀ r, r ≠ d → sOfStrand t s.cur r = finalS st r)) ∧
     (∀ c, ready (.cas g dw m o d a off b c) s = true → bankRival (issued (.cas g dw m o d a off b c) s) st gang l = false →
        completes (.cas g dw m o d a off b c) s fun t => sOfStrand t s.cur d = (if d = 0 then 0 else BitVec.ofNat 64 old) ∧
        natOf (cgetN t.ls key n) = (if old = (sreg st b).toNat % 2 ^ (8 * n) then (sreg st c).toNat % 2 ^ (8 * n) else old) ∧
        (∀ x, x < key ∨ key + n ≤ x → cget t.ls x = cget s.ls x) ∧ t.hbm = s.hbm ∧ otherStrands s t ∧
        (∀ r, r ≠ d → sOfStrand t s.cur r = finalS st r))))

/-- The tag table (R179 to R181): TAGLK gives the slot of the lowest valid entry with the key, 2^64 - 1 without one; TAGSET changes
that entry (1), else fills the lowest invalid one (0), else changes nothing (2); TAGCLR empties the entry and gives its slot. EXPECT
arms every register it names and no other (R193, R194); PHASE holds later memory operations back to its scope's level (R189) and
`.system` sleeps until the endpoints written to have answered (R219), each within 16,384 cycles of the rule's 3,000 (the model's
choice, log entry 37); XFENCE leaves no unfenced write that it covers on its two paths in the gang's quads, towards the cores none
that the strand does not see, and stalls 6 cycles (R190; what it covers is the model's choice, log entry 113). -/
def Obligations.TagsArmingFences : Prop :=
  (∀ (g : Guard) (d a b : SReg) (s : State) (st : Strand) (gang : Gang), current s = some (st, gang) →
    (let q := gang.quadOf st.sidx
     let x := s.quad q
     let key := sreg st a
     let first (p : Tag → Bool) (i : Nat) : Prop := i < 256 ∧ p (tagOf x i) = true ∧ ∀ j, j < i → p (tagOf x j) = false
     let none' (p : Tag → Bool) : Prop := ∀ i, i < 256 → p (tagOf x i) = false
     let result (t : State) (v : Word) : Prop := sOfStrand t s.cur d = (if d = 0 then 0 else v) ∧ sameMemories s t ∧ otherStrands s t
     let only (t : State) (i : Nat) (e : Tag) : Prop := ∀ j, tagOf (t.quad q) j = if j = i then e else tagOf x j
     let same (t : State) : Prop := ∀ j, tagOf (t.quad q) j = tagOf x j
     (ready (.taglk g d a) s = true →
       (∀ i, first (hasKey key) i → completes (.taglk g d a) s fun t => result t ((tagOf x i).slot.setWidth 64) ∧ same t) ∧
       (none' (hasKey key) → completes (.taglk g d a) s fun t => result t (BitVec.ofNat 64 (2 ^ 64 - 1)) ∧ same t)) ∧
     (ready (.tagset g d a b) s = true → st.loadsAt ≤ s.now →
       (∀ i, first (hasKey key) i → completes (.tagset g d a b) s fun t =>
          result t 1 ∧ only t i ⟨true, key, (sreg st b).setWidth 12⟩) ∧
       (∀ i, none' (hasKey key) → first (fun e => !e.valid) i → completes (.tagset g d a b) s fun t =>
          result t 0 ∧ only t i ⟨true, key, (sreg st b).setWidth 12⟩) ∧
       (none' (hasKey key) → none' (fun e => !e.valid) → completes (.tagset g d a b) s fun t => result t 2 ∧ same t)) ∧
     (ready (.tagclr g d a) s = true →
       (∀ i, first (hasKey key) i → completes (.tagclr g d a) s fun t =>
          result t ((tagOf x i).slot.setWidth 64) ∧ (tagOf (t.quad q) i).valid = false ∧ ∀ j, j ≠ i → tagOf (t.quad q) j = tagOf x j) ∧
       (none' (hasKey key) → completes (.tagclr g d a) s fun t => result t (BitVec.ofNat 64 (2 ^ 64 - 1)) ∧ same t)))) ∧
  (∀ (g : Guard) (s : State) (st : Strand) (gang : Gang), current s = some (st, gang) →
    (∀ x, ready (.expect g x) s = true → (∀ r ∈ ExpectArg.refs x, onWay st r = false) → ∃ t st',
       exec (.expect g x) s = .next t ∧ t.strand? s.cur = some st' ∧
       (∀ r : SReg, st'.sst[r.val] = if r ≠ 0 ∧ .s r ∈ ExpectArg.refs x then .empty else st.sst[r.val]) ∧
       (∀ r : VReg, st'.vst[r.val] = if .v r ∈ ExpectArg.refs x then .empty else st.vst[r.val]) ∧
       (∀ r, finalS st' r = finalS st r) ∧ sameMemories s t ∧ otherStrands s t) ∧
    (∀ sc, ready (.phase g sc) s = true → sc ≠ .system → completes (.phase g sc) s fun t =>
       (t.strand? s.cur).map Strand.hold = some (match sc with
         | .quad => 1
         | .gang => 3
         | .device => 4
         | _ => 5) ∧ sameMemories s t ∧ otherStrands s t) ∧
    (ready (.phase g .system) s = true → drained s.now st 5 = true →
       (st.flushes = [] → exec (.phase g .system) s = .next (advance (issued (.phase g .system) s) 8)) ∧
       (st.flushes ≠ [] → completes (.phase g .system) s fun t =>
          (t.strand? s.cur).map Strand.act = some (.asleep (.flush st.flushes) 8) ∧
          ∀ ep ∈ st.flushes, ∃ due, s.now + 3000 ≤ due ∧ due < s.now + 19384 ∧ posted t due 2 (.flushResponse s.cur ep))) ∧
    (∀ src dst x, ready (.xfence g src dst) s = true → (issued (.xfence g src dst) s).strand? s.cur = some x →
       (src = .core → drained s.now x 2 = true ∧ awaitsStores (issued (.xfence g src dst) s) x = false) →
       completes (.xfence g src dst) s fun t =>
       (t.strand? s.cur).map Strand.wake = some (s.now + 6) ∧ sameMemories s t ∧
       (dst ≠ .core → (∀ u ∈ t.unf, u ∈ s.unf) ∧
         ∀ u ∈ t.unf, ¬(u.src = src ∧ u.dst = dst ∧ u.addr / 2 ^ 20 ∈ gang.quads ∧ u.covered s x = true)) ∧
       (dst = .core → (t.unf.map fun u => { u with fenced := [] }) = (s.unf.map fun u => { u with fenced := [] }) ∧
         ∀ u ∈ t.unf, u.src = src → u.dst = .core → u.addr / 2 ^ 20 ∈ gang.quads → u.covered s x = true →
           u.seen t (.strand st.key) = true)) ∧
    (∀ key x eps n ep, s.strand? key = some x → x.act = .asleep (.flush eps) n → (∀ e ∈ eps, e = ep) →
       completes (.flushResponse key ep) s fun t => (t.strand? key).map (fun y => (y.act, y.pc)) = some (.run, x.pc + BitVec.ofNat 20 n)))

/-! ### Copies -/

/-- COPY.in and COPY.out (R182 to R185): when the checks of R183 pass and the engine has a slot free, the copy holds a ticket of the
issuing quad with its geometry, and its translations begin 4 cycles later; a check that fails traps with its cause and value. COPYST
gives the promise back for T = 0 (R184); TESTC tells complete from running, from waiting on storage, from faulted (R188); WAITT
sleeps to the promised cycle and then goes on, or traps PROMISE with LATE, STORAGE or FAULT (R187). -/
def Obligations.CopyInstructions : Prop :=
  ∀ (g : Guard) (s : State) (st : Strand) (gang : Gang), current s = some (st, gang) →
    (let q := gang.quadOf st.sidx
     let taken (i : Instr) (kind : CopyKind) (d b : SReg) (rowb rows : Nat) (l : Loc) : Prop := completes i s fun t => ∃ tk y due,
       mget? (t.quad q).copies tk = some y ∧ y.kind = kind ∧ y.st = .issued ∧ y.quad = l.quad ∧ y.la = l.off ∧ y.ga = sreg st b ∧
       y.rowb = rowb ∧ y.rows = rows ∧ y.d = d ∧ y.gid = st.gid ∧ due = s.now + 4 ∧ posted t due 2 (.copyAccept q tk) ∧ 1 ≤ tk ∧
       tk ≤ 255 ∧ sameMemories s t ∧ otherStrands s t
     (∀ m d a b c (rowb : BitVec 32) (rows : BitVec 20),
       let gs : Int := if rows.toNat = 1 then 0 else strideG (sreg st c)
       let ls := if rows.toNat = 1 then 0 else strideL (sreg st c)
       let checks (wr : Bool) := copyChecks s st gang m wr (sreg st a) [sreg st a, sreg st b, BitVec.ofInt 64 gs, BitVec.ofNat 64 ls]
         ((rows.toNat - 1) * ls + rowb.toNat)
       (ready (.copyIn g m d a b c rowb rows) s = true →
          (∀ l, outstanding (s.quad q) < 16 → checks true = .ok l →
            taken (.copyIn g m d a b c rowb rows) .copyIn d b rowb.toNat rows.toNat l) ∧
          (∀ e, checks true = .error e → traps (.copyIn g m d a b c rowb rows) s st e.1 0 e.2)) ∧
       (ready (.copyOut g m d a b c rowb rows) s = true →
          (∀ l, outstanding (s.quad q) < 16 → checks false = .ok l →
            taken (.copyOut g m d a b c rowb rows) .copyOut d b rowb.toNat rows.toNat l) ∧
          (∀ e, checks false = .error e → traps (.copyOut g m d a b c rowb rows) s st e.1 0 e.2))) ∧
     (∀ d a, ready (.copyst g d a) s = true →
       (ticketOf s st gang ((sreg st a).toNat % 256) = none →
          exec (.copyst g d a) s = .next (advance ((issued (.copyst g d a) s).wrS 4 d (sreg st a)) 8)) ∧
       (∀ y, ticketOf s st gang ((sreg st a).toNat % 256) = some y → ∃ w : Word,
          exec (.copyst g d a) s = .next (advance ((issued (.copyst g d a) s).wrS 4 d w) 8) ∧
          w.toNat % 256 = (sreg st a).toNat % 256 ∧
          (y.st = .complete → w.toNat / 256 = (y.done - s.cycBase) % 2 ^ 56))) ∧
     (∀ d a, ready (.testc g d a) s = true → completes (.testc g d a) s fun t => sOfStrand t s.cur d = (if d = 0 then 0 else
        match ticketOf s st gang ((sreg st a).toNat % 256) with
        | none => 0
        | some y => if y.st = .complete then 0 else if y.st = .faulted then 3 else if y.pages = [] then 1 else 2) ∧ sameMemories s t) ∧
     (∀ a, ready (.waitt g a) s = true →
       (passed s ((sreg st a).toNat / 256) = false → completes (.waitt g a) s fun t =>
          (t.strand? s.cur).map Strand.act = some (.asleep (.promise (sreg st a)) 8) ∧
          ∃ due, s.now ≤ due ∧ posted t due 4 (.waittWake s.cur)) ∧
       (passed s ((sreg st a).toNat / 256) = true → promiseOutcome s st gang (sreg st a) = none → completes (.waitt g a) s fun t =>
          (t.strand? s.cur).map Strand.pc = some (st.pc + 8) ∧ sameMemories s t) ∧
       (∀ sub, passed s ((sreg st a).toNat / 256) = true → promiseOutcome s st gang (sreg st a) = some sub →
          traps (.waitt g a) s st 0x09 sub (sreg st a))))

/-- The steps of a copy. A translation that misses takes 240 cycles, and the next ones follow it (R185). Acceptance of a copy of
either direction makes the promise and writes it with the ticket (R184 to R186), and holds its storage pages, those that are not in
among them (R355); a page that does not translate faults it (R183). A put is accepted with its local lines (R204). The last line
moves its bytes between global memory and local store and posts the completion (R186; the cycle of a move is the model's choice, log
entry 12). That the translations follow one another page by page is the model's reading (log entry 14), that the promise counts no
line of a copy not yet accepted the model's choice (log entry 134). Where no line can move the copy waits on storage (R188).
Completion and fault settle the ticket (R187); a sleeping WAITT whose copy is complete goes on behind it, one whose copy is not
traps. Uncorrectable data does not move and raises MACHINE of source 3 (R383; log entry 110). -/
def Obligations.CopySteps : Prop :=
  ∀ (s : State) (q tk : Nat) (y : Copy), mget? (s.quad q).copies tk = some y →
    (y.st = .issued → y.kind = .copyIn ∨ y.kind = .copyOut →
       (let x := xlatePages q y.asid (y.kind == .copyOut) true ((linePages (copyLines y)).drop y.xl.length) y.walking y.xl s
        let ptes := ((x.xl.filterMap fun r => r.2).filterMap fun u => u.tgt.pte?).eraseDups
        let drive (p : Nat) : Nat := eDRIVE (hbmWord x.s p)
        let usable (p : Nat) : Prop := (driveOf x.s (drive p)).ok = true ∧ (eRES (hbmWord x.s p) = true ∨ driveOk x.s (drive p) = true)
        (x.walking = true → x.absent = false → completes (.copyAccept q tk) s fun t => posted t (s.now + 240) 2 (.copyAccept q tk) ∧
          ∃ y', mget? (t.quad q).copies tk = some y' ∧ y'.st = .issued ∧ y'.walking = true ∧ y'.xl = x.xl) ∧
        (x.walking = false → x.absent = false → (∀ r ∈ x.xl, r.2.isSome = true) → (∀ p ∈ ptes, usable p) →
          completes (.copyAccept q tk) s fun t =>
          ∃ y', mget? (t.quad q).copies tk = some y' ∧ y'.st = .flight ∧
            y'.promise = s.now + y'.l0 + unmoved (x.s.quad q) + (copyLines y).length ∧ y'.pins = ptes ∧
            (∀ p, p ∈ y'.pages ↔ p ∈ ptes ∧ ((pageOf? t p).map fun g => g.st == .reading).getD true = true) ∧
            (y'.waited = true ↔ y'.pages ≠ []) ∧
            (∀ st, s.strand? y.key = some st → y.d ≠ 0 →
              sOfStrand t y.key y.d = BitVec.ofNat 64 ((y'.promise - s.cycBase) % 2 ^ 56 * 256 + tk))) ∧
        (x.walking = false → x.absent = false → (∃ r ∈ x.xl, r.2 = none) → completes (.copyAccept q tk) s fun t =>
          (mget? (t.quad q).copies tk).map Copy.st = some .faulted))) ∧
    (∀ cap off k, y.st = .issued → y.kind = .put cap off k → completes (.copyAccept q tk) s fun t => sameMemories s t ∧
       ∃ y', mget? (t.quad q).copies tk = some y' ∧ y'.st = .flight ∧ y'.kind = y.kind ∧ y'.promise = s.now ∧
         (y'.lines.map fun l => l.pieces) = (copyLines y).map fun l => l.2) ∧
    ((s.quad q).lineAt = s.now → headCopy (s.quad q) = some (tk, y) →
      (∀ (l : Line) (o off n : Nat), s.memoriesOk = true → y.lines = [l] → y.held = [] → l.pieces = [(o, off, n)] →
         lineReady s l = true → lineAbsent s l = false →
         (∀ bs, s.readTarget (l.tgt.add o) n = some bs → s.badAt (l.tgt.add o) n false = none → y.kind = .copyIn → completes (.lineMove q tk) s fun t =>
           (∀ b, cget t.ls b = if lsKey y.quad off ≤ b ∧ b < lsKey y.quad off + n then bs.getD (b - lsKey y.quad off) 0
             else cget s.ls b) ∧
           t.hbm = s.hbm ∧ t.host = s.host ∧ ∃ due, s.now ≤ due ∧ posted t due 2 (.copyComplete q tk true)) ∧
         (∀ pa, l.tgt = .hbm pa → s.badAt (l.tgt.add o) n true = none → s.unf = [] → y.kind = .copyOut → completes (.lineMove q tk) s fun t =>
           (∀ b, cget t.hbm b = if pa + o ≤ b ∧ b < pa + o + n then cget s.ls (lsKey y.quad off + (b - (pa + o))) else cget s.hbm b) ∧
           t.ls = s.ls ∧ ∃ due, s.now ≤ due ∧ posted t due 2 (.copyComplete q tk true)) ∧
         (∀ k, s.badAt (l.tgt.add o) n (y.kind == .copyOut) = some k → y.kind = .copyIn ∨ y.kind = .copyOut → completes (.lineMove q tk) s fun t =>
           sameMemories s t ∧ ∃ e ∈ t.agenda, e.due ≤ s.now ∧ e.ev = .machine y.gid 3 y.quad 0 (BitVec.ofNat 64 (64 * k)))) ∧
      (y.kind = .copyIn ∨ y.kind = .copyOut → y.lines ≠ [] → (∀ l ∈ y.lines, lineReady s l = false) →
        completes (.lineMove q tk) s fun t => (mget? (t.quad q).copies tk).map (fun z => (z.st, z.lines)) = some (.storage, y.lines) ∧
          sameMemories s t)) ∧
    (∀ ok, y.st = .flight ∨ y.st = .storage → completes (.copyComplete q tk ok) s fun t =>
       (mget? (t.quad q).copies tk).map Copy.st = some (if ok then .complete else .faulted)) ∧
    (∀ key st g w n, s.strand? key = some st → s.gang? (key / 256) = some g → st.act = .asleep (.promise w) n →
       passed s (w.toNat / 256) = true →
       (promiseOutcome s st g w = none → completes (.waittWake key) s fun t =>
         (t.strand? key).map (fun x => (x.act, x.pc)) = some (.run, st.pc + BitVec.ofNat 20 n) ∧ sameMemories s t) ∧
       (∀ sub, promiseOutcome s st g w = some sub → owesResults s key = false →
         exec (.waittWake key) s = .next (takeTrap s key (st.pc.setWidth 64) 0x09 sub w)))

/-! ### Register capabilities and sends -/

/-- CAPMK makes the capability of R191; SEND, SEND.c, SENDN and SENDM check and send their value on its way to the registers they
name (R196 to R201), traps included: CAPABILITY for a word that is none, REMOTE for a neighbour outside the gang. -/
def Obligations.SendInstructions : Prop :=
  ∀ (g : Guard) (s : State) (st : Strand) (gang : Gang), current s = some (st, gang) → gang.gid < 2 ^ 20 →
    (∀ d f vec reg, ready (.capmk g d f vec reg) s = true → ∃ w : Word,
       exec (.capmk g d f vec reg) s = .next (advance ((issued (.capmk g d f vec reg) s).wrS 1 d w) (Instr.capmk g d f vec reg).len) ∧
       bitsOf w.toNat 63 60 = 1 ∧ w.getLsbD 28 = vec ∧ bitsOf w.toNat 27 23 = reg.val ∧ bitsOf w.toNat 22 16 = 0 ∧
       (match f with
        | .idx a => bitsOf w.toNat 59 57 = s.dev.toNat ∧ bitsOf w.toNat 56 37 = gang.gid ∧
            bitsOf w.toNat 36 29 = (sreg st a).toNat % 256 ∧ bitsOf w.toNat 15 0 = gang.gen.toNat
        | .idxImm i => bitsOf w.toNat 59 57 = s.dev.toNat ∧ bitsOf w.toNat 56 37 = gang.gid ∧
            bitsOf w.toNat 36 29 = i.toNat ∧ bitsOf w.toNat 15 0 = gang.gen.toNat
        | .other a b => bitsOf w.toNat 59 57 = bitsOf (sreg st b).toNat 59 57 ∧
            bitsOf w.toNat 56 37 = bitsOf (sreg st b).toNat 56 37 ∧ bitsOf w.toNat 36 29 = (sreg st a).toNat % 256 ∧
            bitsOf w.toNat 15 0 = bitsOf (sreg st b).toNat 15 0)) ∧
    (∀ rel a v, ready (.send g rel a v) s = true →
       (capBad s (sreg st a) (SendVal.isVec v) = false → completes (.send g rel a v) s fun t => ∃ due m,
          posted t due 2 (.sendArrival m) ∧ m.cap = sreg st a ∧ m.val = sendVal st v ∧ m.sender = s.cur ∧ m.status = none ∧
          (capDev (sreg st a) = s.dev.toNat → s.now + 4 ≤ due) ∧ sameMemories s t ∧ otherStrands s t) ∧
       (capBad s (sreg st a) (SendVal.isVec v) = true →
          traps (.send g rel a v) s st 0x0C 0 (sreg st a))) ∧
    (∀ rel d a v, ready (.sendC g rel d a v) s = true → capBad s (sreg st a) (SendVal.isVec v) = false →
       completes (.sendC g rel d a v) s fun t => (d ≠ 0 → (t.strand? s.cur).map (fun x => onWay x (.s d)) = some true) ∧
         ∃ due m, posted t due 2 (.sendArrival m) ∧ m.cap = sreg st a ∧ m.val = sendVal st v ∧ m.sender = s.cur ∧ m.status = some d) ∧
    (∀ dir r, ready (.sendn g dir r) s = true →
       (∀ k, neighbour gang st.sidx dir = some k → (mget? (s.quad (gang.quadOf st.sidx)).links (dirCode dir)).getD 0 ≤ s.now →
          linkRival (issued (.sendn g dir r) s) (gang.quadOf st.sidx) (gang.place st.sidx).2.1 dir = false →
          completes (.sendn g dir r) s fun t => ∃ due, s.now + 2 ≤ due ∧ posted t due 2 (match r with
            | .s d a => .sendnArrival (keyOf gang.gid k) d (.scalar (sreg st a)) s.cur
            | .v d a => .sendnArrival (keyOf gang.gid k) d (.vector (vreg st a)) s.cur) ∧ sameMemories s t ∧ otherStrands s t) ∧
       (neighbour gang st.sidx dir = none → traps (.sendn g dir r) s st 0x06 0 (BitVec.ofNat 64 (dirCode dir)))) ∧
    (∀ (k : Fin 8) (a : SReg), ready (.sendm g k (.s a)) s = true → (gang.mcg[k.val]).vec = false →
       completes (.sendm g k (.s a)) s fun t => ∀ m ∈ (gang.mcg[k.val]).members, ∃ due x, posted t due 2 (.sendArrival x) ∧
         x.cap = regCap s.dev.toNat gang.gid m.1 false m.2 gang.gen.toNat ∧ x.val = .scalar (sreg st a) ∧ x.sender = s.cur) ∧
    (∀ (k : Fin 8) (a : VReg), ready (.sendm g k (.v a)) s = true → (gang.mcg[k.val]).vec = true →
       completes (.sendm g k (.v a)) s fun t => ∀ m ∈ (gang.mcg[k.val]).members, ∃ due x, posted t due 2 (.sendArrival x) ∧
         x.cap = regCap s.dev.toNat gang.gid m.1 true m.2 gang.gen.toNat ∧ x.val = .vector (vreg st a) ∧ x.sender = s.cur)

/-- An arrival at an EMPTY register writes it and makes it FULL (R193); at any other it raises a pending OVERWRITE and leaves the
register alone (R195); while its strand's save is in progress it is held back (R197, R338). The status goes back where it is asked
for (R198), and an error of an unconfirmed send into SERR (R202). A pending OVERWRITE is taken by a strand that runs in user mode
outside a handler, at the pc of its next instruction, unless a PREEMPT has come to it (R61, R195, R332, R337). -/
def Obligations.SendArrivals : Prop :=
  (∀ (s : State) (key sender : Nat) (st : Strand) (reg : Fin 32) (w : Word), s.strand? key = some st → st.act ≠ .ended →
    beforeSave s key = false → expectsNow s key false reg = false → completes (.sendnArrival key reg (.scalar w) sender) s fun t => ∃ st',
      t.strand? key = some st' ∧
      ((settle st s.now).sst[reg.val] = .empty → st'.sregs[reg.val] = w ∧ st'.sst[reg.val] = .full ∧ st'.ovw = st.ovw) ∧
      ((settle st s.now).sst[reg.val] ≠ .empty → st'.sregs = (settle st s.now).sregs ∧
        st'.ovw = some (st.ovw.getD ⟨false, reg, w⟩))) ∧
  (∀ (s : State) (key sender : Nat) (reg : Fin 32) (v : Item), beforeSave s key = true →
    completes (.sendnArrival key reg v sender) s fun t => posted t (s.now + 1) 0 (.sendnArrival key reg v sender) ∧
      t.strands = s.strands) ∧
  (∀ (s : State) (m : SendMsg) (g : Gang) (st : Strand) (h : Header) (w : Word), capDev m.cap = s.dev.toNat → m.val = .scalar w →
    capVec m.cap = false → s.gang? (capGid m.cap) = some g → s.strand? (keyOf (capGid m.cap) (capSidx m.cap)) = some st →
    s.headerOf (capGid m.cap) = some h → g.gen.toNat = capGen m.cap → capSidx m.cap < g.count → st.act ≠ .ended →
    beforeSave s (keyOf (capGid m.cap) (capSidx m.cap)) = false →
    expectsNow s (keyOf (capGid m.cap) (capSidx m.cap)) false (Fin.ofNat 32 (capReg m.cap)) = false →
    capReg m.cap < h.sreq → capReg m.cap ≠ 0 → (settle st s.now).sst[(Fin.ofNat 32 (capReg m.cap)).val] = .empty →
    completes (.sendArrival m) s fun t =>
      (t.strand? (keyOf (capGid m.cap) (capSidx m.cap))).map (fun x => x.sregs[(Fin.ofNat 32 (capReg m.cap)).val]) = some w ∧
      ∀ d, m.status = some d → ∃ due, posted t due 2 (.sendStatusReturn m.sender (some d) m.report 0)) ∧
  (∀ (s : State) (key : Nat) (st : Strand) (d : SReg) (report : Bool) (code : BitVec 8), s.strand? key = some st → d ≠ 0 →
    completes (.sendStatusReturn key (some d) report code) s fun t => sOfStrand t key d = code.setWidth 64) ∧
  (∀ (s : State) (key : Nat) (st : Strand), s.strand? key = some st → completes (.sendStatusReturn key none true 1) s fun t =>
    (t.strand? key).map (fun x => (x.serr.getLsbD 0, bitsOf x.serr.toNat 15 8)) = some (true, 1)) ∧
  (∀ (s : State) (key : Nat) (st : Strand) (g : Gang) (o : Ovw), s.strand? key = some st → s.gang? (key / 256) = some g →
    st.ovw = some o → st.act = .run → g.issues = true → st.sup = false → st.tcause.getLsbD 16 = false → st.wake ≤ s.now →
    st.resume ≠ .saving → owesResults s key = false →
    exec (.overwrite key) s = .next
      (takeTrap (s.setStrand key { st with ovw := none }) key ((s.skipFill key st.pc).setWidth 64) 0x08 0 o.val))

/-! ### Windows -/

/-- WPUT, WWAIT, WWAIT.r, WCNT, WCNT.r and WCNT.clr (R203 to R206): a put takes a ticket; a counter read gives the counter; a wait
goes on at once where the counter has reached the threshold and sleeps where not. The put is written at the owner by one 64-byte
line in a cycle (R186), in the turn of its quad (the model's choice, log entry 12), and counts there with its last line; a stale
generation or a write beyond the end answers 0x21 or 0x22, and every answer counts in Wk. -/
def Obligations.WindowsCount : Prop :=
  (∀ (g : Guard) (s : State) (st : Strand) (gang : Gang), current s = some (st, gang) →
    (let q := gang.quadOf st.sidx
     (∀ m k a b c (len : BitVec 32) l, ready (.wput g m k a b c len) s = true → winWord (sreg st a) = true →
       inDomain s (capDev (sreg st a)) = true → copyChecks s st gang m false (sreg st b) [sreg st b, sreg st c] len.toNat = .ok l →
       outstanding (s.quad q) < 16 → completes (.wput g m k a b c len) s fun t => ∃ tk y, mget? (t.quad q).copies tk = some y ∧
         y.kind = .put (sreg st a) (sreg st c) k ∧ y.quad = l.quad ∧ y.la = l.off ∧ y.rowb = len.toNat ∧
         posted t (s.now + 4) 2 (.copyAccept q tk) ∧ sameMemories s t) ∧
     (∀ d k, ready (.wcnt g d k) s = true →
       exec (.wcnt g d k) s = .next (advance ((issued (.wcnt g d k) s).wrS 2 d st.wcnt[k.val]) 8)) ∧
     (∀ d k, ready (.wcntClr g d k) s = true → completes (.wcntClr g d k) s fun t =>
       sOfStrand t s.cur d = (if d = 0 then 0 else st.wcnt[k.val]) ∧
       ∀ j : Fin 4, (t.strand? s.cur).map (fun x => x.wcnt[j.val]) = some (if j = k then 0 else st.wcnt[j.val])) ∧
     (∀ d k b, ready (.wwait g d k b) s = true →
       (src96Val st b ≤ st.wcnt[k.val] → completes (.wwait g d k b) s fun t =>
          sOfStrand t s.cur d = (if d = 0 then 0 else st.wcnt[k.val]) ∧ sameMemories s t) ∧
       (st.wcnt[k.val] < src96Val st b → completes (.wwait g d k b) s fun t =>
          (t.strand? s.cur).map Strand.act = some (.asleep (.putCount k (src96Val st b) d) (Instr.wwait g d k b).len))) ∧
     (∀ d a w, ready (.wcntR g d a) s = true → ownWindow s (sreg st a) = some w → completes (.wcntR g d a) s fun t =>
       sOfStrand t s.cur d = (if d = 0 then 0 else w.count) ∧ sameMemories s t) ∧
     (∀ d a b w, ready (.wwaitR g d a b) s = true → ownWindow s (sreg st a) = some w →
       (src96Val st b ≤ w.count → completes (.wwaitR g d a b) s fun t =>
          sOfStrand t s.cur d = (if d = 0 then 0 else w.count) ∧ sameMemories s t) ∧
       (w.count < src96Val st b → completes (.wwaitR g d a b) s fun t => (t.strand? s.cur).map Strand.act =
          some (.asleep (.window (winNum (sreg st a)) (src96Val st b) d) (Instr.wwaitR g d a b).len))))) ∧
  (∀ (s : State) (m : PutMsg), capDev m.cap = s.dev.toNat →
    (windowOf s m.cap = none → completes (.wputRemoteWrite m) s fun t => sameMemories s t ∧
       ∃ due, posted t due 2 (.wputAcknowledgement m.key m.k m.quad m.ticket 0x21)) ∧
    (∀ w, windowOf s m.cap = some w → w.len < m.off.toNat + m.bytes.length → completes (.wputRemoteWrite m) s fun t =>
       sameMemories s t ∧ ∃ due, posted t due 2 (.wputAcknowledgement m.key m.k m.quad m.ticket 0x22)) ∧
    (∀ w, windowOf s m.cap = some w → m.off.toNat + m.bytes.length ≤ w.len →
       (let va := w.base + m.off.toNat
        let x := putXlate s m w.asid va
        let u := (requestAway x 0).1
        let i := putDone s m
        let k := min (64 - (va + i) % 64) (m.bytes.length - i)
        let again (t : State) : Prop := posted t (s.now + 1) 2 (.wputRemoteWrite m) ∧ t.windows = s.windows
        let written (t : State) : Prop := ∀ p tr pa, x.res = [(p, some (tr, 0))] → tr.at (va + i) = .hbm pa → (va + i) / 65536 = p →
          x.s.memoriesOk = true → x.s.badAt (.hbm pa) k true = none →
          ∀ b, cget t.hbm b = if pa ≤ b ∧ b < pa + k then m.bytes.getD (i + (b - pa)) 0 else cget x.s.hbm b
        x.absent = false → (∀ r ∈ x.res, r.2.isSome = true ∧ pageLost x.s r = false) → (requestAway x 0).2 = false →
        (∀ a ∈ s.awayPuts, a.msg = m → a.failed = false) → rangeAbsent u x.res va m.bytes.length = false →
        (putTurn u m = false → completes (.wputRemoteWrite m) s fun t => again t ∧ t.hbm = u.hbm) ∧
        (putTurn u m = true → i + k < m.bytes.length → completes (.wputRemoteWrite m) s fun t => again t ∧ written t ∧
          putDone t m = i + k) ∧
        (putTurn u m = true → m.bytes.length ≤ i + k → completes (.wputRemoteWrite m) s fun t => written t ∧
          (mget? t.windows (winNum m.cap)).map Window.count = some (w.count + 1) ∧
          ∃ due, posted t due 2 (.wputAcknowledgement m.key m.k m.quad m.ticket 0))))) ∧
  (∀ (s : State) (key : Nat) (st : Strand) (k : Fin 4) (q tk : Nat) (err : BitVec 8), s.strand? key = some st →
    completes (.wputAcknowledgement key k q tk err) s fun t =>
      (t.strand? key).map (fun x => x.wcnt[k.val]) = some (st.wcnt[k.val] + 1))

/-! ### Ports and lanterns -/

/-- PUT, GET, PUTD, GETD and GETANY (R274 to R276): when the reference and the ports pass the checks of R275, an offer with the
instruction's value, deadline and registers goes to the lantern and the strand sleeps; a reference or port that fails traps with its
cause. CLOSE of a get port sends the close (R278); BAR makes the gang's barrier offer (R279). CONLD and CONUL (R273): CONLD of an
image that is loaded takes a reference and gives 1, and every CONLD completes with a status 0 to 4; CONUL gives 2 for an image that
is not loaded, 1 where references stay, and 0 where the last one goes and the image with it. The reference is taken and dropped in
the step that issues the instruction (the model's choice, log entry 54). An address that is no multiple of 64 traps ALIGN. -/
def Obligations.PortAndConnectorInstructions : Prop :=
  (∀ (g : Guard) (s : State) (st : Strand) (gang : Gang), current s = some (st, gang) →
    (∀ i x, portOp st i = some x → ready i s = true →
       (∀ m port ports, portRef s st.gid x.ref = .ok (m, port) →
          offerPorts m (!x.put) port x.mask (whoOf gang st) = .ok ports → completes i s fun t => ∃ id o due,
            mget? t.offers id = some o ∧ o.key = s.cur ∧ o.gid = st.gid ∧ o.asid = m.asid ∧ o.va = m.va ∧ o.ports = ports ∧
            o.put = x.put ∧ o.vec = x.vec ∧ o.item = x.item ∧ o.deadline = x.deadline ∧ o.d = x.d ∧ o.c = x.c ∧
            o.live = false ∧ o.fired = false ∧ (t.strand? s.cur).map Strand.act = some (.asleep (.port id) i.len) ∧
            s.now + 2 ≤ due ∧ posted t due 2 (.offerArrival id) ∧ sameMemories s t ∧ otherStrands s t) ∧
       (∀ m port sub, portRef s st.gid x.ref = .ok (m, port) → offerPorts m (!x.put) port x.mask (whoOf gang st) = .error sub →
          traps i s st 0x0A sub x.ref) ∧
       (∀ e, portRef s st.gid x.ref = .error e → traps i s st e.1 e.2 x.ref)) ∧
    (∀ d a m p f ovf, ready (.close g d a) s = true → portRef s st.gid (sreg st a) = .ok (m, p) →
       (m.ports[p]?).map Port.get = some true → bufOfPort m p = some (f, ovf) → completes (.close g d a) s fun t =>
         ∃ due back, s.now + 2 ≤ due ∧ posted t due 2 (.closeArrival m.asid m.va f ovf s.cur d back) ∧ sameMemories s t ∧
           otherStrands s t) ∧
    (ready (.bar g) s = true → completes (.bar g) s fun t => ∃ id o due, mget? t.offers id = some o ∧ o.bar = true ∧
       o.key = s.cur ∧ o.gid = st.gid ∧ o.lantern = gang.cluster ∧
       (t.strand? s.cur).map Strand.act = some (.asleep (.barrier id) 8) ∧ posted t due 2 (.offerArrival id))) ∧
  (∀ (g : Guard) (d a : SReg) (s : State) (st : Strand) (gang : Gang), current s = some (st, gang) →
    (let va := (sreg st a).toNat
     let asid := s.asidOf st.gid
     let result (t : State) (n : Nat) : Prop := sOfStrand t s.cur d = if d = 0 then 0 else BitVec.ofNat 64 n
     (ready (.conld g d a) s = true →
       (va % 64 ≠ 0 → traps (.conld g d a) s st 0x04 0 (sreg st a)) ∧
       (∀ m, va % 64 = 0 → imageOf? s asid va = some m → completes (.conld g d a) s fun t => result t 1 ∧
          (imageOf? t asid va).map Image.refs = some (m.refs + 1) ∧ sameMemories s t) ∧
       (va % 64 = 0 → completes (.conld g d a) s fun t => ∃ n, n ≤ 4 ∧ result t n)) ∧
     (ready (.conul g d a) s = true →
       (va % 64 ≠ 0 → traps (.conul g d a) s st 0x04 0 (sreg st a)) ∧
       (va % 64 = 0 → imageOf? s asid va = none → completes (.conul g d a) s fun t => result t 2 ∧ sameMemories s t) ∧
       (∀ m, va % 64 = 0 → imageOf? s asid va = some m → 1 < m.refs → completes (.conul g d a) s fun t => result t 1 ∧
          (imageOf? t asid va).map Image.refs = some (m.refs - 1)) ∧
       (∀ m, va % 64 = 0 → imageOf? s asid va = some m → m.refs ≤ 1 → completes (.conul g d a) s fun t => result t 0 ∧
          imageOf? t asid va = none))))

/-- The steps of offers (R258 to R265, R276, R279): an offer that arrives in time is live, one that arrives late or is still waiting
at its deadline is decided with status 2; a decision reaches the strand, which goes on with its registers written; a suspended
gang's offers are not live, and one that arrives after its gang's suspend has come is suspended (the model's reading, log entry 69);
a barrier whose every strand waits lets them all go. The steps of buffers (R262, R263, R272, R278): a close reaches a buffer once
(0, then 1); an item that arrives joins the tail, a close that arrives ends the buffer; a permit that returns is one more; the end
of a refused load ends the grid with fault 0x13. -/
def Obligations.OfferAndBufferSteps : Prop :=
  ((∀ (s : State) (id : Nat) (o : Offer), mget? s.offers id = some o → o.fired = false → o.gone = false →
    (let decided (t : State) (code : Word) : Prop := (mget? t.offers id).map Offer.fired = some true ∧
       ∃ due, s.now + 3 ≤ due ∧ posted t due 2 (.completionDelivery id o.key code none)
     (o.live = false → (∀ x, o.deadline = some x → s.cyc.ult x = true) →
       (suspendAt s o.gid o.lantern = none → completes (.offerArrival id) s fun t => (mget? t.offers id).map Offer.live = some true) ∧
       (∀ u, suspendAt s o.gid o.lantern = some u → u ≤ s.now → completes (.offerArrival id) s fun t =>
         (mget? t.offers id).map (fun z => (z.live, z.susp)) = some (false, true)) ∧
       (∀ u, suspendAt s o.gid o.lantern = some u → s.now < u → completes (.offerArrival id) s fun t =>
         (mget? t.offers id).map Offer.live = some true ∧ posted t u 2 (.suspend o.gid o.lantern))) ∧
     (∀ x, o.live = false → o.deadline = some x → s.cyc.ult x = false → completes (.offerArrival id) s fun t => decided t 2) ∧
     (∀ x, o.live = true → o.deadline = some x → s.cyc.ult x = false → completes (.deadlineWithdrawal id) s fun t => decided t 2) ∧
     (∀ i p, closedPort s o = some (i, p) → completes (.closedEmptyCompletion id p) s fun t =>
       decided t (BitVec.ofNat 64 (4 + if o.any then 256 * i else 0))))) ∧
  (∀ (s : State) (id : Nat) (o : Offer) (st : Strand) (n : Nat) (code w : Word), mget? s.offers id = some o →
    s.strand? o.key = some st →
    (let on (t : State) : Prop := (t.strand? o.key).map (fun x => (x.act, x.pc)) = some (.run, st.pc + BitVec.ofNat 20 n) ∧
       mget? t.offers id = none
     (st.act = .asleep (.port id) n → o.put = true → completes (.completionDelivery id o.key code none) s fun t =>
        on t ∧ (o.d ≠ 0 → sOfStrand t o.key o.d = code)) ∧
     (st.act = .asleep (.port id) n → o.put = false → o.vec = false → completes (.completionDelivery id o.key code (some (.scalar w))) s
        fun t => on t ∧ (o.c ≠ 0 → sOfStrand t o.key o.c = code) ∧ (o.d ≠ 0 → o.d ≠ o.c → sOfStrand t o.key o.d = w)) ∧
     (st.act = .asleep (.barrier id) n → completes (.completionDelivery id o.key code none) s on))) ∧
  (∀ (s : State) (gid lantern : Nat), completes (.suspend gid lantern) s fun t =>
    ∀ x ∈ t.offers, x.2.gid = gid → x.2.lantern = lantern → x.2.live = false) ∧
  (∀ (s : State) (gid lantern : Nat), s.images = [] → s.offers ≠ [] → (s.offers.map fun x => x.1).Nodup →
    (∀ x ∈ s.offers, x.2.bar = true ∧ x.2.gid = gid ∧ x.2.live = true ∧ x.2.lantern = lantern) →
    (∀ x ∈ s.strands, x.2.gid = gid → x.2.act ≠ .ended → ∃ y ∈ s.offers, y.2.key = x.1) →
    completes (.lanternDecision lantern) s fun t => ∀ x ∈ s.offers, (mget? t.offers x.1).map Offer.fired = some true ∧
      ∃ due, posted t due 2 (.completionDelivery x.1 x.2.key 0 none))) ∧
  ((∀ (s : State) (asid va fifo : Nat) (ovf : Bool) (m : Image) (f : Fifo), imageOf? s asid va = some m → m.fifos[fifo]? = some f →
    (let buf (t : State) : Option Buf := ((imageOf? t asid va).bind fun x => x.fifos[fifo]?).map fun x => x.which ovf
     (∀ item, completes (.fifoItemArrival asid va fifo ovf (some item)) s fun t =>
        (buf t).map Buf.items = some ((f.which ovf).items ++ [item])) ∧
     (completes (.fifoItemArrival asid va fifo ovf none) s fun t => (buf t).map Buf.closedDown = some true) ∧
     (completes (.permitReturn asid va fifo ovf) s fun t => (buf t).map Buf.permits = some ((f.which ovf).permits + 1)) ∧
     (∀ key st d back, s.strand? key = some st → d ≠ 0 → completes (.closeArrival asid va fifo ovf key d back) s fun t =>
        (buf t).map Buf.closed = some true ∧ sOfStrand t key d = if (f.which ovf).closed then 1 else 0))) ∧
  (∀ (s : State) (grid va : Nat) (x : Grid), s.grid? grid = some x → x.failed = false →
    (x.loading.contains va = true → completes (.connectorImageLoad grid va) s fun t =>
       ∃ r, t.records = s.records ++ [r] ∧ r.grid = grid ∧ r.fault.head? = some 0x13) ∧
    (x.loading.contains va = false → exec (.connectorImageLoad grid va) s = .next s)))

/-! ### Controllers -/

/-- TLSIG, TLWAIT, TLRD, TLRD.set, TQPUSH in its four forms, TQPOP, TQPOP.try, JOIN, JOIN.p and LAUNCH (R120, R133 to R141): an
operand that names a timeline or a queue sends the operation to its controller, the strand sleeping where the rule says so; JOIN
decrements its counter, at its bank when that is another quad's, gives 0 while it is not zero and pushes when it is; LAUNCH sends
its record. A word that names none traps CAPABILITY. The cycles of JOIN, its push and its answer are the model's choice (log entry
132), and the cycles of a die edge in them its reading (log entry 43). -/
def Obligations.ControllerInstructions : Prop :=
  ∀ (g : Guard) (s : State) (st : Strand) (gang : Gang), current s = some (st, gang) →
    (let asleep (t : State) (z : Sleep) (i : Instr) : Prop := (t.strand? s.cur).map Strand.act = some (.asleep z i.len)
     let quiet (t : State) : Prop := sameMemories s t ∧ otherStrands s t ∧ sameRegisters s t
     let tq (i : Instr) (op : Nat → TqOp) : Prop := completes i s fun t => quiet t ∧
       ∃ due back, s.now + 2 ≤ due ∧ posted t due 2 (.taskQueueOperation (op back))
     (∀ d a n, tlCheck s (sreg st a) = some n →
       (∀ b, ready (.tlsig g d a b) s = true → completes (.tlsig g d a b) s fun t => quiet t ∧ asleep t .reply (.tlsig g d a b) ∧
          ∃ due back, s.now + 2 ≤ due ∧ posted t due 2 (.timelineOperation (.sig n (src96Val st b) s.cur d (sreg st a) back))) ∧
       (∀ b, ready (.tlwait g d a b) s = true → completes (.tlwait g d a b) s fun t => quiet t ∧
          asleep t (.timeline d) (.tlwait g d a b) ∧ ∃ due, s.now + 2 ≤ due ∧
          posted t due 2 (.timelineOperation (.wait n (match b with
            | .reg r => sreg st r
            | .imm i => i) s.cur d))) ∧
       (ready (.tlrd g d a) s = true → completes (.tlrd g d a) s fun t => quiet t ∧
          ∃ due back, s.now + 2 ≤ due ∧ posted t due 2 (.timelineOperation (.rd n s.cur d back))) ∧
       (∀ b, ready (.tlrdSet g d a b) s = true → completes (.tlrdSet g d a b) s fun t => quiet t ∧
          ∃ due back, s.now + 2 ≤ due ∧ posted t due 1 (.timelineOperation (.set n (sreg st b) s.cur d back)))) ∧
     (∀ i a, ((∃ d b, i = .tlsig g d a b) ∨ (∃ d b, i = .tlwait g d a b) ∨ (∃ d, i = .tlrd g d a) ∨ ∃ d b, i = .tlrdSet g d a b) →
       ready i s = true → tlCheck s (sreg st a) = none → traps i s st 0x0C 0 (sreg st a)) ∧
     (∀ i a, ((∃ d b, i = .tqpush g d a b) ∨ (∃ d b, i = .tqpushP g d a b) ∨ (∃ d c, i = .tqpushRsv g d a c) ∨
         (∃ d c, i = .tqpushRel g d a c) ∨ (∃ d v, i = .tqpop g d v a) ∨ ∃ d v, i = .tqpopTry g d v a) →
       ready i s = true → tqWord s (sreg st a) = false → traps i s st 0x0C 0 (sreg st a)) ∧
     (∀ d a, tqWord s (sreg st a) = true →
       (∀ b, ready (.tqpush g d a b) s = true → tq (.tqpush g d a b) fun back => .push (sreg st a) (vreg st b) false s.cur d back) ∧
       (∀ b, ready (.tqpushP g d a b) s = true → tq (.tqpushP g d a b) fun back => .push (sreg st a) (vreg st b) true s.cur d back) ∧
       (∀ c, ready (.tqpushRsv g d a c) s = true → tq (.tqpushRsv g d a c) fun back => .rsv (sreg st a) (sreg st c) s.cur d back) ∧
       (∀ c, ready (.tqpushRel g d a c) s = true → tq (.tqpushRel g d a c) fun back => .rel (sreg st a) (sreg st c) s.cur d back) ∧
       (∀ v, ready (.tqpopTry g d v a) s = true → tq (.tqpopTry g d v a) fun back => .popTry (sreg st a) s.cur d v back) ∧
       (∀ v, ready (.tqpop g d v a) s = true → tq (.tqpop g d v a) (fun _ => .pop (sreg st a) s.cur d v) ∧
          completes (.tqpop g d v a) s fun t => asleep t (.queue d v) (.tqpop g d v a))) ∧
     (∀ (m : Mode) (d a b : SReg) (c : VReg) (l : Loc) (permit : Bool), access s st gang (sreg st a) m 8 true = .ok l → l.space = 0 →
       l.quad = gang.quadOf st.sidx → tqWord s (sreg st b) = true → drained s.now st 2 = true → s.unf = [] → s.memoriesOk = true →
       (let i : Instr := if permit then .joinP g m d a b c else .join g m d a b c
        let n : Word := BitVec.ofNat 64 (natOf (cgetN s.ls (lsKey l.quad l.off) 8)) - 1
        ready i s = true → completes i s fun t => BitVec.ofNat 64 (natOf (cgetN t.ls (lsKey l.quad l.off) 8)) = n ∧
          (n ≠ 0 → sOfStrand t s.cur d = 0) ∧
          (n = 0 → ∃ due back, s.now + 8 ≤ due ∧
             posted t due 2 (.taskQueueOperation (.joinPush (sreg st b) (vreg st c) permit s.cur d back))) ∧
          (∀ x, x < lsKey l.quad l.off ∨ lsKey l.quad l.off + 8 ≤ x → cget t.ls x = cget s.ls x))) ∧
     (∀ (m : Mode) (d a b : SReg) (c : VReg) (l : Loc) (permit : Bool), access s st gang (sreg st a) m 8 true = .ok l →
       (let i : Instr := if permit then .joinP g m d a b c else .join g m d a b c
        let own := gang.quadOf st.sidx
        ready i s = true → l.quad ≠ own → tqWord s (sreg st b) = true → drained s.now st 2 = true → st.remote < 16 → completes i s fun t =>
          quiet t ∧ posted t (s.now + bankStep own l.quad) 2 (.remoteStorePublish (.join l s.cur d (sreg st b) permit (vreg st c)
            (s.now + 8 + 4 * hops own l.quad + 16 * edges own l.quad))))) ∧
     (∀ m d a l, ready (.launch g m d a) s = true → resolve s st gang (sreg st a) m false = .ok l → l.space = 0 →
       regionBad s st.sup l.quad l.off = false → (sreg st a).toNat % 64 = 0 → s.unf = [] → completes (.launch g m d a) s fun t =>
         quiet t ∧ ∃ due back, s.now + 80 ≤ due ∧ posted t due 2 (.launchAccept (.strand s.cur d back)
           (BitVec.ofNat 8 (s.asidOf st.gid)) (BitVec.ofNat 512 (natOf (cgetN s.ls (lsKey l.quad l.off) 64))))))

/-- TIMELINE_OPERATION and TASK_QUEUE_OPERATION at their controllers (R134 to R139): an increment saturates at 2^64 - 1; a read
gives the value, and a set replaces it after reading; a wait below its threshold joins the waiters, one at it goes on; a push joins
the tail (0), or finds the queue full (1) or gone (2), or serves the strand that sleeps there; permits are reserved and released, or
not; a pop takes the head, of a range record its first half, or sleeps; the push of a JOIN gives 1, or 8 and its status; a JOIN
published at its bank decrements there. That a queue which firmware never created answers 2, as one that is gone, is the model's
choice (log entry 133), and so is the cycle of the push of a JOIN whose counter is another quad's (log entry 132). -/
def Obligations.ControllerSteps : Prop :=
  (∀ (s : State) (n key back : Nat) (st : Strand) (tl : Timeline) (d : SReg) (v : Word), mget? s.timelines n = some tl →
    s.strand? key = some st →
    (let value (t : State) : Option Word := (mget? t.timelines n).map Timeline.val
     let runs (op : TlOp) (p : State → Prop) : Prop := tlYields s (.timelineOperation op) = false → completes (.timelineOperation op) s p
     (∀ cap, runs (.sig n v key d cap back) fun t =>
        value t = some (if 2 ^ 64 ≤ tl.val.toNat + v.toNat then BitVec.ofNat 64 (2 ^ 64 - 1) else tl.val + v)) ∧
     (runs (.rd n key d back) fun t => value t = some tl.val ∧ (d ≠ 0 → sOfStrand t key d = tl.val)) ∧
     (runs (.set n v key d back) fun t => value t = some v) ∧
     (∀ l, st.act = .asleep (.timeline d) l → tl.val < v → runs (.wait n v key d) fun t =>
        (mget? t.timelines n).map Timeline.waiters = some (tl.waiters ++ [(key, v)]) ∧ t.strand? key = some st) ∧
     (∀ l, st.act = .asleep (.timeline d) l → v ≤ tl.val → runs (.wait n v key d) fun t => value t = some tl.val ∧
        (t.strand? key).map (fun x => (x.act, x.pc)) = some (.run, st.pc + BitVec.ofNat 20 l) ∧
        (d ≠ 0 → sOfStrand t key d = tl.val)))) ∧
  (∀ (s : State) (cap : Word) (key back : Nat) (st : Strand) (d : SReg) (rec : VVal), s.strand? key = some st →
    (let queue (t : State) : Option Queue := mget? t.queues (tqNum cap)
     let status (op : TqOp) (n : Word) (p : State → Prop) : Prop := completes (.taskQueueOperation op) s fun t =>
       sOfStrand t key d = (if d = 0 then 0 else n) ∧ p t
     (queueOf s cap = none →
        (status (.push cap rec false key d back) 2 fun t => t.queues = s.queues) ∧
        (status (.rsv cap 1 key d back) 2 fun t => t.queues = s.queues) ∧
        (status (.rel cap 1 key d back) 2 fun t => t.queues = s.queues) ∧
        (∀ v, status (.popTry cap key d v back) 2 fun t => t.queues = s.queues)) ∧
     (∀ q, queueOf s cap = some q →
        (q.sleepers = [] → q.recs.length + permitsHeld q < q.cap → status (.push cap rec false key d back) 0 fun t =>
           (queue t).map Queue.recs = some (q.recs ++ [(lanes rec).take 8])) ∧
        (q.cap ≤ q.recs.length + permitsHeld q → status (.push cap rec false key d back) 1 fun t => t.queues = s.queues) ∧
        (permitsOf q (key / 256) = 0 → status (.push cap rec true key d back) 3 fun t => t.queues = s.queues) ∧
        (∀ n : Word, q.recs.length + permitsHeld q + n.toNat ≤ q.cap → status (.rsv cap n key d back) 0 fun t =>
           (queue t).map (fun x => permitsOf x (key / 256)) = some (permitsOf q (key / 256) + n.toNat)) ∧
        (∀ n : Word, n.toNat ≤ permitsOf q (key / 256) → status (.rel cap n key d back) 0 fun t =>
           (queue t).map (fun x => permitsOf x (key / 256)) = some (permitsOf q (key / 256) - n.toNat)) ∧
        (∀ n : Word, q.cap < q.recs.length + permitsHeld q + n.toNat → status (.rsv cap n key d back) 1 fun t => t.queues = s.queues) ∧
        (∀ n : Word, permitsOf q (key / 256) < n.toNat → status (.rel cap n key d back) 4 fun t =>
           (queue t).map (fun x => permitsOf x (key / 256)) = some 0) ∧
        (q.sleepers = [] → q.recs.length + permitsHeld q < q.cap → status (.joinPush cap rec false key d back) 1 fun t =>
           (queue t).map Queue.recs = some (q.recs ++ [(lanes rec).take 8])) ∧
        (q.cap ≤ q.recs.length + permitsHeld q → status (.joinPush cap rec false key d back) 9 fun t => t.queues = s.queues) ∧
        (permitsOf q (key / 256) = 0 → status (.joinPush cap rec true key d back) 11 fun t => t.queues = s.queues) ∧
        (∀ k v' d' n x, q.recs = [] → q.sleepers = [k] → 0 + permitsHeld q < q.cap → k ≠ key → s.strand? k = some x →
           x.act = .asleep (.queue d' v') n → laneNat ((lanes rec).take 8) 1 % 256 = 0 →
           status (.push cap rec false key d back) 0 fun t => (queue t).map (fun y => (y.recs, y.sleepers)) = some ([], []) ∧
             (t.strand? k).map (fun y => (y.act, y.pc)) = some (.run, x.pc + BitVec.ofNat 20 n) ∧
             vOfStrand t k v' = recVec ((lanes rec).take 8) ∧ sOfStrand t k d' = 0) ∧
        (∀ v n, st.act = .asleep (.queue d v) n →
           (q.recs = [] → q.sleepers = [] → completes (.taskQueueOperation (.pop cap key d v)) s fun t => t.strand? key = some st ∧
             (queue t).map (fun y => (y.recs, y.sleepers)) = some ([], [key])) ∧
           (∀ r rest, q.recs = r :: rest → q.sleepers = [] → laneNat r 1 % 256 = 0 → status (.pop cap key d v) 0 fun t =>
             (t.strand? key).map Strand.act = some .run ∧ vOfStrand t key v = recVec r ∧
             (queue t).map (fun y => (y.recs, y.sleepers)) = some (rest, []))) ∧
        (∀ v r rest, q.recs = r :: rest → r.length = 8 → laneNat r 1 % 256 = 1 →
           (let lo := recWord r 2
            let size := (recWord r 4 + 2 ^ 64 - lo) % 2 ^ 64
            let mid := (lo + (size + 1) / 2) % 2 ^ 64
            recWord r 6 ≠ 0 → recWord r 6 < size → status (.popTry cap key d v back) 0 fun t => ∃ out stay,
              vOfStrand t key v = recVec out ∧ (queue t).map Queue.recs = some (stay :: rest) ∧
              recWord out 2 = lo ∧ recWord out 4 = mid ∧ recWord stay 2 = mid ∧ recWord stay 4 = recWord r 4 ∧
              ∀ j, j = 0 ∨ j = 1 ∨ j = 6 ∨ j = 7 → laneNat out j = laneNat r j ∧ laneNat stay j = laneNat r j)) ∧
        (∀ v, q.recs = [] → status (.popTry cap key d v back) 5 fun t => t.queues = s.queues) ∧
        (∀ v r rest, q.recs = r :: rest → laneNat r 1 % 256 = 0 → status (.popTry cap key d v back) 0 fun t =>
           (queue t).map Queue.recs = some rest ∧ vOfStrand t key v = recVec r)))) ∧
  (∀ (s : State) (loc : Loc) (key ready : Nat) (st : Strand) (d : SReg) (cap : Word) (permit : Bool) (rec : VVal), s.strand? key = some st →
    loc.space = 0 → s.unf = [] → s.memoriesOk = true →
    (let k := lsKey loc.quad loc.off
     let n : Word := BitVec.ofNat 64 (natOf (cgetN s.ls k 8)) - 1
     completes (.remoteStorePublish (.join loc key d cap permit rec ready)) s fun t =>
       BitVec.ofNat 64 (natOf (cgetN t.ls k 8)) = n ∧ (∀ x, x < k ∨ k + 8 ≤ x → cget t.ls x = cget s.ls x) ∧
       (n ≠ 0 → sOfStrand t key d = 0) ∧
       (n = 0 → ∃ due back, ready + 2 ≤ due ∧ posted t due 2 (.taskQueueOperation (.joinPush cap rec permit key d back)))))

/-! ### Vector instructions -/

/-- The elementwise and whole-lane vector instructions (R96, R227, R229, R230, R232 to R235, R238): after their latency every lane
whose mask bit is 1 holds the results of the rule, every other lane what it held; the results fill a lane from its low bits. -/
def Obligations.VectorLaneResults : Prop :=
  ∀ (i : Instr) (s : State) (st : Strand) (g : Gang), current s = some (st, g) → ready i s = true →
    (∀ d l t rm f, vecRule st i = some (d, l, t, rm, f) → completes i s fun s' => ∀ k, k < 32 →
       lane (vOfStrand s' s.cur d) k = if (maskOf i st).getLsbD k
         then packEls (Fmt.width t) ((List.range (32 / Fmt.width t)).map fun j =>
           f k j ((srRule st rm (32 * (32 / Fmt.width t))).getD (32 / Fmt.width t * k + j) 0))
         else lane (finalV st d) k) ∧
    (∀ d l f, laneRule st i = some (d, l, f) → exec i s = .next (advance ((issued i s).wrV l d (maskOf i st) (vmk f)) i.len))

/-- The vector instructions of other shapes (R231, R234, R236, R237, R239 to R241): VEXT, VINS, VCMP, VCVT, VPACK, VUNPK, VRED,
VSCAN, VSCANA complete with the lanes, the predicate or the scalar of their rules. -/
def Obligations.VectorMovesAndFolds : Prop :=
  ∀ (g : Guard) (s : State) (st : Strand) (gang : Gang), current s = some (st, gang) →
    (let code (rs : List Nat) (k : Nat) : Lane := BitVec.ofNat 32 (rs.getD k 0)
     (∀ sg d a k, ready (.vext g sg d a k) s = true →
        (let x := lane (vop st a) (match k with
           | .imm n => n.val
           | .reg b => (sreg st b).toNat % 32)
         exec (.vext g sg d a k) s = .next (advance ((issued (.vext g sg d a k) s).wrS 2 d
           (if sg then x.signExtend 64 else x.setWidth 64)) (Instr.vext g sg d a k).len))) ∧
     (∀ d a k, ready (.vins g d a k) s = true → completes (.vins g d a k) s fun t => ∀ j, j < 32 →
        lane (vOfStrand t s.cur d) j = if (maskOf (.vins g d a k) st).getLsbD j ∧ j = (match k with
            | .imm n => n.val
            | .reg b => (sreg st b).toNat % 32)
          then (sreg st a).setWidth 32 else lane (finalV st d) j) ∧
     (∀ t u c d a b, ready (.vcmp g t u c d a b) s = true → completes (.vcmp g t u c d a b) s fun s' => ∀ j, j < 32 → d ≠ 0 →
        (pOfStrand s' s.cur d).getLsbD j = if (maskOf (.vcmp g t u c d a b) st).getLsbD j
          then (if t = .i32 then icompare c (intOf (!u) 32 (lane (vop st a) j).toNat) (intOf (!u) 32 (lane (vsrc st b) j).toNat)
                else (fcompare c (fpDecode .f32 (lane (vop st a) j).toNat) (fpDecode .f32 (lane (vsrc st b) j).toNat)).1)
          else (finalP st d).getLsbD j) ∧
     (∀ u part sat rm dst src d a, ready (.vcvt g u part sat rm dst src d a) s = true → completes (.vcvt g u part sat rm dst src d a) s
        fun t => ∀ k, k < 32 → (maskOf (.vcvt g u part sat rm dst src d a) st).getLsbD k = true →
          (let ws := Fmt.width src
           let wd := Fmt.width dst
           let n := 32 / max ws wd
           lane (vOfStrand t s.cur d) k = cvtLane wd ws part.toNat (lane (vreg st d) k) ((List.range n).map fun j =>
             (convert dst src u sat rm ((srRule st rm (32 * n)).getD (n * k + j) 0)
               (el ws (lane (vop st a) k) (if ws < wd then part.toNat * n + j else j))).1))) ∧
     (∀ t sat rm d a k c, ready (.vpack g t sat rm d a k c) s = true → completes (.vpack g t sat rm d a k c) s fun s' =>
        (let r := mxEncode (Fmt.elem t) rm sat ((lanes (vop st a)).map fun x => x.toNat)
           ((List.range 32).map fun i => (srRule st rm 32).getD i 0)
         vOfStrand s' s.cur d = blend (BitVec.allOnes 32) (mxPut (Fmt.elem t) (vreg st d) k.val r.2.1) (vreg st d) ∧
         (c ≠ 0 → sOfStrand s' s.cur c = setField (sreg st c) (8 * k.val + 7) (8 * k.val) r.1))) ∧
     (∀ t d a k c, ready (.vunpk g t d a k c) s = true → completes (.vunpk g t d a k c) s fun s' => ∀ j, j < 32 →
        lane (vOfStrand s' s.cur d) j = if (maskOf (.vunpk g t d a k c) st).getLsbD j
          then BitVec.ofNat 32 (mxDecode (Fmt.elem t) (bitsOf (sreg st c).toNat (8 * k.val + 7) (8 * k.val))
            (el (Fmt.width (Fmt.elem t)) (lane (vop st a) (mxPlace (Fmt.elem t) k.val j).1) (mxPlace (Fmt.elem t) k.val j).2)).code
          else lane (finalV st d) j) ∧
     (∀ op t rm sati d a, ready (.vred g op t rm sati d a) s = true → completes (.vred g op t rm sati d a) s fun s' =>
        sOfStrand s' s.cur d = (let r := (treeSum (redStep op t rm sati) 5 (laneNats (vop st a))).1
          if d = 0 then 0 else if t = .i32 then (BitVec.ofNat 32 r).signExtend 64 else BitVec.ofNat 64 r)) ∧
     (∀ op t rm sati d a, ready (.vscan g op t rm sati d a) s = true → completes (.vscan g op t rm sati d a) s fun s' => ∀ k, k < 32 →
        lane (vOfStrand s' s.cur d) k = code (ksScan (redStep op t rm sati) (laneNats (vop st a))).1 k) ∧
     (∀ rm d a b, ready (.vscana g rm d a b) s = true → completes (.vscana g rm d a b) s fun t => ∃ ps : List (Nat × Nat),
        ps = ([1, 2, 4, 8, 16].foldl (fun l k => (affineStage rm k l).1) ((laneNats (vop st a)).zip (laneNats (vop st b)))) ∧
        ∀ k, k < 32 → lane (vOfStrand t s.cur d) k = code (ps.map fun p => p.1) k ∧
          lane (vOfStrand t s.cur (succV d)) k = code (ps.map fun p => p.2) k))

/-- The special functions complete when the core's unit is free, lane by lane (R227, R242 to R244). VRNG fills its lanes with the
words of the Philox blocks at the counter and moves it by 8; RNGSKIP adds to the counter (R245 to R247). VSORT, when the core's
sorter is free, writes keys that stand in the order of R248 and are those of the source, a NaN canonical. -/
def Obligations.SpecialFunctionsRandomSort : Prop :=
  ∀ (s : State) (st : Strand) (gang : Gang), current s = some (st, gang) →
    (∀ i f rm d a, sfuRule i = some (f, rm, d, a) → ready i s = true → (coreNow s).sfuFree ≤ s.now → completes i s fun t =>
       ∀ k, k < 32 → lane (vOfStrand t s.cur d) k = if (maskOf i st).getLsbD k
         then BitVec.ofNat 32 (sfu f rm (lane (vop st a) k).toNat).1 else lane (finalV st d) k) ∧
    (∀ g f32 d, ready (.vrng g f32 d) s = true → completes (.vrng g f32 d) s fun t =>
       (t.strand? s.cur).map Strand.rngc = some (st.rngc + 8) ∧ ∀ k, k < 32 → (maskOf (.vrng g f32 d) st).getLsbD k = true →
         (let w := (philox st.rngk ((st.rngc.toNat + k / 4) % 2 ^ 128)).getD (k % 4) 0
          lane (vOfStrand t s.cur d) k = BitVec.ofNat 32 (if f32
            then (rnd .f32 .rne false 0 (.fin false (w / 256) (-24))).code else w))) ∧
    (∀ g a b, ready (.rngskip g (.regs a b)) s = true → completes (.rngskip g (.regs a b)) s fun t =>
       (t.strand? s.cur).map Strand.rngc = some (st.rngc + (sreg st b ++ sreg st a)) ∧ sameMemories s t) ∧
    (∀ g x hi, ready (.rngskip g (.imm x hi)) s = true → completes (.rngskip g (.imm x hi)) s fun t =>
       (t.strand? s.cur).map Strand.rngc = some (st.rngc + BitVec.ofNat 128 (x.toNat * if hi then 2 ^ 64 else 1))) ∧
    (∀ g t dn d a b, ready (.vsort g t dn d a b) s = true → (coreNow s).sortFree ≤ s.now →
       completes (.vsort g t dn d a b) s fun s' =>
       (let out := laneNats (vOfStrand s' s.cur d)
        let canon (x : Nat) : Nat := if t = .f32 ∧ (fpDecode .f32 x).isNan = true then 0x7FC00000 else x
        out.Pairwise (fun x y => sortKey t dn x ≤ sortKey t dn y) ∧ out.Perm ((laneNats (vop st a)).map canon)))

/-- The frame of the vector instructions: no memory, no register of the device, no other strand changes; of the own strand the
registers that are no destination, every special register but VSTAT and the SR counter, SERR and the window counters stay; no flag
is cleared, and the counter moves under SR, VRNG and RNGSKIP alone. -/
def Obligations.VectorFrame : Prop :=
  ∀ (i : Instr) (s t : State) (st : Strand) (g : Gang), current s = some (st, g) → ready i s = true → vectorOnly i = true →
    exec i s = .next t →
    ∃ st', t.strand? s.cur = some st' ∧ otherStrands s t ∧ sameMemories s t ∧ sameRegisters s t ∧ sameSpecials st st' ∧
      (∀ r, .s r ∉ dests i → finalS st' r = finalS st r) ∧ (∀ r, .v r ∉ dests i → finalV st' r = finalV st r) ∧
      (∀ r, .p r ∉ dests i → finalP st' r = finalP st r) ∧ st'.serr = st.serr ∧ st'.wcnt = st.wcnt ∧
      (movesCounter i = false → st'.rngc = st.rngc) ∧ st.vstat &&& st'.vstat = st.vstat

/-! ### The matrix engine -/

/-- The instructions that submit a job (R282, R283, R285, R290, R304, R393). A configuration is valid as R283 says and a region
passes as R290 says; an instruction whose check fails traps with its cause; one that passes is accepted when the quad takes a job
from its core: the job joins the queue with the operands of this cycle, its id is the next one and goes to sJ. ACCV.cvt under SR
moves the counter. No other register, no memory and no other strand changes. That a failing check traps before a place in the queue
is looked for is the model's choice (log entry 57). -/
def Obligations.MatrixJobs : Prop :=
  (∀ (i : Instr) (s : State) (st : Strand) (g : Gang) (chk : Option (Nat × Word)) (j : Option SReg) (op : JobOp),
    current s = some (st, g) → ready i s = true →
    (let q := g.quadOf st.sidx
     let x := s.quad q
     jobRule s st q i = some (chk, j, op) →
     (∀ c v, chk = some (c, v) → traps i s st c 0 v) ∧
     (chk = none → jobSlot (issued i s) q (g.place st.sidx).2.1 op = true → completes i s fun t =>
        (t.quad q).jobs = x.jobs ++ [⟨x.nextJob, op, s.now, none, s.opSeq + 1, false⟩] ∧
        (t.quad q).nextJob = (x.nextJob + 1) % 256 ∧
        (∀ d, j = some d → sOfStrand t s.cur d = if d = 0 then 0 else BitVec.ofNat 64 x.nextJob) ∧
        (∀ r, j ≠ some r → sOfStrand t s.cur r = finalS st r) ∧
        (t.strand? s.cur).map Strand.rngc = some (match op with
          | .cvt .sr _ _ _ cfg _ _ => st.rngc + BitVec.ofNat 128 ((cvtCount cfg + 7) / 8)
          | _ => st.rngc) ∧
        sameMemories s t ∧ otherStrands s t ∧ sameRegisters s t))) ∧
  (∀ (s : State) (st : Strand) (q : Nat) (a str : Word) (rows rb : Nat), lsCheck s st q a str rows rb = none ↔
    (a.toNat < 2 ^ 20 ∧ str.toNat < 2 ^ 20 ∧ a.toNat % 64 = 0 ∧ str.toNat % 64 = 0 ∧ 4096 * (s.quad q).xbp.toNat ≤ a.toNat ∧
     (a.toNat : Int) + ((rows : Int) - 1) * str.toNat + rb - 1 ≤ if st.sup then 0xFFFFF else 0xFBFFF)) ∧
  cfgOk 0 = false ∧
  (∀ w : Word, cfgOk w = true ↔ bitsOf w.toNat 3 0 ≠ 15 ∧
    (tcKind w = 1 ∧ tcFmt w = .f32 ∧ 1 ≤ tcRows w ∧ tcRows w ≤ 64 ∧ 1 ≤ tcRowb w ∧ tcRowb w ≤ 64 ∨
     tcKind w = 0 ∧ 1 ≤ tcRows w ∧ tcRows w ≤ 128 ∧
       (tcFmt w ∈ [Fmt.i8, .ui8, .e4m3, .e5m2] ∧ 1 ≤ tcRowb w ∧ tcRowb w ≤ 128 ∨
        tcFmt w ∈ [Fmt.f16, .bf16] ∧ 2 ≤ tcRowb w ∧ tcRowb w ≤ 128 ∧ tcRowb w % 2 = 0 ∨
        tcFmt w = .f32 ∧ 4 ≤ tcRowb w ∧ tcRowb w ≤ 128 ∧ tcRowb w % 4 = 0 ∨
        tcFmt w = .mxe2m1 ∧ tcRowb w = 68)))

/-- MXWAIT and MXTEST give a complete job's flag word with bit 8 set; of an incomplete one MXTEST gives 0 and MXWAIT sleeps (R287).
ACCV.rd and PLANRD read the elements that no incomplete job writes; ACCV.wr writes 32 elements under the mask and no other, and an
ACCV.rd served later in its cycle still gives what they held before it (R297, R298, R303, R314). -/
def Obligations.MatrixAccess : Prop :=
  ∀ (g : Guard) (s : State) (st : Strand) (gang : Gang), current s = some (st, gang) →
    (let q := gang.quadOf st.sidx
     let x := s.quad q
     let word (d : SReg) (r : JobRec) : Word := if d = 0 then 0 else 0x100 ||| r.flags.setWidth 64
     (∀ d a, ready (.mxwait g d a) s = true →
       (∀ r, jobDone x ((sreg st a).toNat % 256) = some r → completes (.mxwait g d a) s fun t => sOfStrand t s.cur d = word d r ∧
          sameMemories s t ∧ otherStrands s t) ∧
       (jobDone x ((sreg st a).toNat % 256) = none → completes (.mxwait g d a) s fun t =>
          (t.strand? s.cur).map Strand.act = some (.asleep (.job ((sreg st a).toNat % 256) d) 8))) ∧
     (∀ d a, ready (.mxtest g d a) s = true → completes (.mxtest g d a) s fun t =>
        sOfStrand t s.cur d = (match jobDone x ((sreg st a).toNat % 256) with
          | some r => word d r
          | none => 0) ∧ sameMemories s t ∧ otherStrands s t) ∧
     (∀ d (a : Acc) b, ready (.accvRd g d a b) s = true → completes (.accvRd g d a b) s fun t => sameMemories s t ∧ otherStrands s t ∧
        (accWriters x a = [] → ∀ k, k < 32 →
          (let e := accKey q a.val ((sreg st b).toNat % 128) (32 * bitsOf (sreg st b).toNat 8 8 + k)
           let reads (w : Lane) : Prop := lane (vOfStrand t s.cur d) k = if (maskOf (.accvRd g d a b) st).getLsbD k then w
             else lane (finalV st d) k
           ((∀ n olds, x.accWr = some (n, olds) → n ≠ s.now) → reads (cget s.acc e)) ∧
           (∀ olds w, x.accWr = some (s.now, olds) → mget? olds e = some w → reads w) ∧
           (∀ olds, x.accWr = some (s.now, olds) → mget? olds e = none → reads (cget s.acc e))))) ∧
     (∀ (d : Acc) a b, ready (.accvWr g d a b) s = true → s.memoriesOk = true → completes (.accvWr g d a b) s fun t =>
        t.ls = s.ls ∧ t.hbm = s.hbm ∧ t.tiles = s.tiles ∧ otherStrands s t ∧
        (∀ k, k < accKey q d.val 0 0 ∨ accKey q d.val 128 0 ≤ k → cget t.acc k = cget s.acc k) ∧
        ((∀ j ∈ x.jobs, MRes.acc d.val ∉ jobReads j.op ++ jobWrites j.op) →
          (let base := accKey q d.val ((sreg st b).toNat % 128) (32 * bitsOf (sreg st b).toNat 8 8)
           (∀ k, cget t.acc k = if base ≤ k ∧ k < base + 32 ∧ (maskOf (.accvWr g d a b) st).getLsbD (k - base) = true
             then lane (vreg st a) (k - base) else cget s.acc k) ∧
           ((∀ n olds, x.accWr = some (n, olds) → n ≠ s.now) → ∀ k, accRead t q k = cget s.acc k)))) ∧
     (∀ c y, ready (.planrd g c y) s = true → completes (.planrd g c y) s fun t => sameMemories s t ∧ otherStrands s t ∧
        ((∀ j ∈ x.jobs, MRes.ctx c ∉ jobWrites j.op) → match y with
          | .vec r d =>
              let w := match r with
                | .f => 0 | .g => 1 | .a => 2 | .b => 3
              ∀ k, k < 32 → lane (vOfStrand t s.cur d) k = cget x.plan (planKey c w k) ∧
                lane (vOfStrand t s.cur (succV d)) k = cget x.plan (planKey c w (32 + k))
          | .st d => sOfStrand t s.cur d = if d = 0 then 0 else (cget x.plan (planKey c 4 0)).setWidth 64
          | .res d => sOfStrand t s.cur d = if d = 0 then 0 else (cget x.plan (planKey c 4 1)).setWidth 64
          | .dot d => sOfStrand t s.cur d = if d = 0 then 0 else (cget x.plan (planKey c 4 2)).setWidth 64)))

/-- JOB_START gives a job its pipe and its time (R286, R312). JOB_COMPLETE writes what the job's rule says and nothing else (that a
job reads its data and makes all its writes in the step that completes it is the model's choice, log entry 56): TZERO and ACCZ
clear, TLD and TST move every active row between the tile and local store (R289, R290), an MMA of 8-bit integers adds the exact
products to the active elements modulo 2^32 (R293, R294); the flag word is kept by its id, and a strand asleep in MXWAIT goes on
(R287). The results of the other jobs at JOB_COMPLETE (with log entry 56 as above). A floating-point MMA adds to each active
element, group by group of 32 products, the rounded exact sum of the group (R107, R293, R295); MMAS rounds the exact sum of the 128
products, scales it by the row and the column scale, and adds it (R296); ACCLD and ACCST move rows of 64 elements (R289); ACCV.cvt
and ACCV.cvti convert each active element, under SR with the chunk of its number in row-major order (R297). PLANK, PLANX and PLANDOT
form the kernel, the plan and its cost entry by entry, PLANLSE the maximum and the sum of every row or column (R305, R308 to R310);
PLANM sets 64 entries (R306); BALANCE writes the vectors, the sweeps done and the residual of the run of R307, at least one sweep
and no more than the limit, fewer only where it converged or met a NaN. -/
def Obligations.MatrixSteps : Prop :=
  ((∀ (s : State) (q id : Nat) (j : Job), (s.quad q).jobs.find? (fun y => y.id == id && y.start.isNone) = some j →
    (startable (s.quad q) s.now).contains id = true → completes (.jobStart q id) s fun t => sameMemories s t ∧
      posted t (s.now + ((jobTime s q j.op).1 + (jobTime s q j.op).2)) 2 (.jobComplete q id) ∧
      { j with start := some s.now } ∈ (t.quad q).jobs) ∧
  (∀ (s : State) (q id : Nat) (j : Job), s.memoriesOk = true →
    (s.quad q).jobs.find? (fun y => y.id == id && y.start.isSome) = some j → j.loose = false →
    (let done (p : State → Prop) : Prop := completes (.jobComplete q id) s p
     let quiet (t : State) : Prop := t.hbm = s.hbm ∧ t.host = s.host ∧ t.disk = s.disk
     (done fun t => quiet t ∧ (∀ y ∈ (t.quad q).jobs, y.seq ≠ j.seq) ∧
       ((∀ y ∈ (s.quad q).jobs, y.id = id → y.seq = j.seq) →
         (mget? (t.quad q).jobRecs id).map JobRec.flags = some (jobOut s q j.seq j.op).flags ∧
         ∀ key st d n, s.strand? key = some st → s.quadOf key = q → st.act = .asleep (.job id d) n →
           (t.strand? key).map (fun x => (x.act, x.pc)) = some (.run, st.pc + BitVec.ofNat 20 n))) ∧
     (∀ tl, j.op = .tzero tl → done fun t => t.ls = s.ls ∧ t.acc = s.acc ∧ ∀ a, cget t.tiles a =
        if tileKey q tl.val 0 ≤ a ∧ a < tileKey q tl.val 16384 then 0 else cget s.tiles a) ∧
     (∀ c, j.op = .accz c → done fun t => t.ls = s.ls ∧ t.tiles = s.tiles ∧ ∀ a, cget t.acc a =
        if accKey q c.val 0 0 ≤ a ∧ a < accKey q c.val 128 0 then 0 else cget s.acc a) ∧
     (∀ tl cfg a str, j.op = .tld tl cfg a str → cfgOk cfg = true → s.unf = [] → done fun t => t.ls = s.ls ∧ t.acc = s.acc ∧
        (∀ r b, r < tcRows cfg → b < rowBytes cfg →
          cget t.tiles (tileKey q tl.val (rowStride cfg * r + b)) = cget s.ls (lsKey q (a + r * str + b))) ∧
        (∀ k, (∀ r b, r < tcRows cfg → b < rowBytes cfg → k ≠ tileKey q tl.val (rowStride cfg * r + b)) →
          cget t.tiles k = cget s.tiles k)) ∧
     (∀ tl cfg a str, j.op = .tst tl cfg a str → cfgOk cfg = true → done fun t => t.tiles = s.tiles ∧ t.acc = s.acc ∧
        (rowBytes cfg ≤ str → ∀ r b, r < tcRows cfg → b < rowBytes cfg →
          cget t.ls (lsKey q (a + r * str + b)) = cget s.tiles (tileKey q tl.val (rowStride cfg * r + b))) ∧
        (∀ k, (∀ r b, r < tcRows cfg → b < rowBytes cfg → k ≠ lsKey q (a + r * str + b)) → cget t.ls k = cget s.ls k)) ∧
     (∀ z (c : Acc) (a b : Tile) ca cb, j.op = .mma z c a b ca cb → cfgOk ca = true → cfgOk cb = true → tcRows cb ≤ 64 →
        Fmt.isInt (tcFmt ca) = true → done fun t => t.ls = s.ls ∧ t.tiles = s.tiles ∧
        (let ent (tl : Tile) (cfg : Word) (r k : Nat) : Int := if tcRowb cfg ≤ k then 0
           else intOf (tcFmt cfg != .ui8) 8 (cget s.tiles (tileKey q tl.val (128 * r + k))).toNat
         (∀ r n, r < tcRows ca → n < tcRows cb → cget t.acc (accKey q c.val r n) =
            BitVec.ofInt 32 ((if z then 0 else ((cget s.acc (accKey q c.val r n)).toNat : Int)) +
              ((List.range 128).map fun k => ent a ca r k * ent b cb n k).sum)) ∧
         (∀ k, (∀ r n, r < tcRows ca → n < tcRows cb → k ≠ accKey q c.val r n) → cget t.acc k = cget s.acc k)))))) ∧
  (∀ (s : State) (q id : Nat) (j : Job), s.memoriesOk = true →
    (s.quad q).jobs.find? (fun y => y.id == id && y.start.isSome) = some j → j.loose = false →
    (let x := s.quad q
     let done (p : State → Prop) : Prop := completes (.jobComplete q id) s p
     let accOnly (t : State) (c : Acc) (rows cols : Nat) (f : Nat → Nat → Nat) : Prop := t.ls = s.ls ∧ t.tiles = s.tiles ∧
       (∀ r n, r < rows → n < cols → cget t.acc (accKey q c.val r n) = BitVec.ofNat 32 (f r n)) ∧
       (∀ k, (∀ r n, r < rows → n < cols → k ≠ accKey q c.val r n) → cget t.acc k = cget s.acc k)
     let tileOnly (t : State) (tl : Tile) (rows cols stride w : Nat) (f : Nat → Nat → Nat) : Prop := t.ls = s.ls ∧ t.acc = s.acc ∧
       (∀ r k, r < rows → k < cols → cgetN t.tiles (tileKey q tl.val (stride * r + w * k)) w = leBytes w (f r k)) ∧
       (∀ a, (∀ r k b, r < rows → k < cols → b < w → a ≠ tileKey q tl.val (stride * r + w * k + b)) →
         cget t.tiles a = cget s.tiles a)
     let old (z : Bool) (c : Acc) (r n : Nat) : Nat := if z then 0 else (cget s.acc (accKey q c.val r n)).toNat
     let prod (ca cb : Word) (a b : Tile) (r n k : Nat) : XVal :=
       xmul (operandEl ca (tileArr s q a.val) (tileArr s q (a.val + 1)) r k) (operandEl cb (tileArr s q b.val) (tileArr s q (b.val + 1)) n k)
     let entry (tl : Tile) (i k : Nat) : Nat := natOf (cgetN s.tiles (tileKey q tl.val (256 * i + 4 * k)) 4)
     let ctx (c : Bool) (w i : Nat) : Nat := (cget x.plan (planKey c w i)).toNat
     let planOf (c : Bool) (a : Tile) (i k : Nat) : Nat := (e2 (fadd32 (fadd32 (entry a i k) (ctx c 0 i)).1 (ctx c 1 k)).1).1
     let planOnly (t : State) (c : Bool) : Prop := t.ls = s.ls ∧ t.tiles = s.tiles ∧ t.acc = s.acc ∧
       ∀ c' w i, i < 64 → w < 5 → c' ≠ c → cget (t.quad q).plan (planKey c' w i) = cget x.plan (planKey c' w i)
     (∀ z c a b ca cb, j.op = .mma z c a b ca cb → cfgOk ca = true → cfgOk cb = true → tcRows cb ≤ 64 → Fmt.isInt (tcFmt ca) = false →
       pairOk (tcFmt ca) (tcFmt cb) = true → done fun t => accOnly t c (tcRows ca) (tcRows cb) fun r n =>
         (List.range 4).foldl (fun v g => (fadd32 v (rne32 (xsum .rne ((List.range 32).map fun k =>
           prod ca cb a b r n (32 * g + k)))).1).1) (old z c r n)) ∧
     (∀ z c a b ca cb rows sb, j.op = .mmas z c a b ca cb rows sb → cfgOk ca = true → cfgOk cb = true → tcRows cb ≤ 64 →
       fp8 (tcFmt ca) = true → fp8 (tcFmt cb) = true → done fun t => accOnly t c (tcRows ca) (tcRows cb) fun r n =>
         (fadd32 (old z c r n) (fmul32 (fmul32 (rne32 (xsum .rne ((List.range 128).map fun k => prod ca cb a b r n k))).1
           (rows.getD r 0).toNat).1 sb.toNat).1).1) ∧
     (∀ c a str rows, j.op = .accld c a str rows → rows ≤ 128 → s.unf = [] → done fun t => accOnly t c rows 64 fun r n =>
       natOf (cgetN s.ls (lsKey q (a + r * str + 4 * n)) 4)) ∧
     (∀ c a str rows, j.op = .accst c a str rows → done fun t => t.tiles = s.tiles ∧ t.acc = s.acc ∧
       (256 ≤ str → ∀ r b, r < rows → b < 256 → cget t.ls (lsKey q (a + r * str + b)) =
         (cget s.acc (accKey q c.val r (b / 4))).extractLsb' (8 * (b % 4)) 8) ∧
       (∀ k, (∀ r b, r < rows → b < 256 → k ≠ lsKey q (a + r * str + b)) → cget t.ls k = cget s.ls k)) ∧
     (∀ rm sat tl c cfg key ctr, j.op = .cvt rm sat tl c cfg key ctr → isOrd cfg = true →
       tcFmt cfg ∈ [Fmt.f32, .f16, .bf16, .e4m3, .e5m2] → done fun t =>
         (let w := Fmt.width (tcFmt cfg) / 8
          let cols := min 64 (tcRowb cfg / w)
          tileOnly t tl (tcRows cfg) cols 128 w fun r k => (convert (tcFmt cfg) .f32 false sat rm
            (if rm = .sr then (chunks key ctr.toNat ((tcRows cfg * cols + 7) / 8)).getD (r * cols + k) 0 else 0)
            (cget s.acc (accKey q c.val r k)).toNat).1)) ∧
     (∀ sat tl c cfg, j.op = .cvti sat tl c cfg → isOrd cfg = true → tcFmt cfg ∈ [Fmt.i8, .ui8] → done fun t =>
       tileOnly t tl (tcRows cfg) (min 64 (tcRowb cfg)) 128 1 fun r k =>
         (clampInt (tcFmt cfg != .ui8) 8 sat (cget s.acc (accKey q c.val r k)).toInt).1) ∧
     (∀ d a cfg k, j.op = .plank d a cfg k → isPlan cfg = true → done fun t => tileOnly t d (tcRows cfg) (tcRowb cfg) 256 4 fun i n =>
       (rne32 (xmul (xneg (fpDecode .f32 (entry a i n))) (fpDecode .f32 k.toNat))).1) ∧
     (∀ c d a cfg, j.op = .planx c d a cfg → isPlan cfg = true → done fun t =>
       tileOnly t d (tcRows cfg) (tcRowb cfg) 256 4 (planOf c a)) ∧
     (∀ c a b cfg, j.op = .plandot c a b cfg → isPlan cfg = true → done fun t => planOnly t c ∧
       cget (t.quad q).plan (planKey c 4 2) = BitVec.ofNat 32 ((List.range (tcRows cfg)).foldl (fun v i => (fadd32 v
         (rne32 (xsum .rne ((List.range (tcRowb cfg)).map fun k => fpDecode .f32
           (if planOf c a i k = 0 then 0 else (fmul32 (planOf c a i k) (entry b i k)).1)))).1).1) 0) ∧
       ∀ w i, i < 64 → w < 4 → cget (t.quad q).plan (planKey c w i) = cget x.plan (planKey c w i)) ∧
     (∀ c col d a cfg, j.op = .planlse c col d a cfg → isPlan cfg = true → done fun t =>
       (let parts (i : Nat) : Nat × FN := lseParts (if col then (List.range (tcRows cfg)).map fun r => (fadd32 (entry a r i) (ctx c 0 r)).1
          else (List.range (tcRowb cfg)).map fun k => (fadd32 (entry a i k) (ctx c 1 k)).1)
        accOnly t d 2 (if col then tcRowb cfg else tcRows cfg) fun r i => if r = 0 then (parts i).1 else (parts i).2.1)) ∧
     (∀ r c vals, j.op = .planm r c vals → vals.length = 64 → done fun t => planOnly t c ∧
       (let w := match r with
          | .f => 0 | .g => 1 | .a => 2 | .b => 3
        ∀ w' i, i < 64 → w' < 5 → cget (t.quad q).plan (planKey c w' i) = if w' = w then vals.getD i 0 else cget x.plan (planKey c w' i))) ∧
     (∀ c a cfg pcfg, j.op = .balance c a cfg pcfg → isPlan cfg = true → 1 ≤ bitsOf pcfg.toNat 7 0 →
       (let b := balanceRun s q c a cfg pcfg
        1 ≤ b.sweeps ∧ b.sweeps ≤ bitsOf pcfg.toNat 7 0 ∧ (b.sweeps < bitsOf pcfg.toNat 7 0 → b.conv = true ∨ b.nan = true) ∧
        (b.conv = true → b.nan = false) ∧ done fun t => planOnly t c ∧
          (∀ i, i < tcRows cfg → cget (t.quad q).plan (planKey c 0 i) = BitVec.ofNat 32 (b.f.getD i 0)) ∧
          (∀ i, i < tcRowb cfg → cget (t.quad q).plan (planKey c 1 i) = BitVec.ofNat 32 (b.g.getD i 0)) ∧
          cget (t.quad q).plan (planKey c 4 0) = BitVec.ofNat 32 (b.sweeps + (if b.conv then 2 ^ 16 else 0) +
            (if b.inf then 2 ^ 17 else 0) + if b.nan then 2 ^ 18 else 0) ∧
          cget (t.quad q).plan (planKey c 4 1) = BitVec.ofNat 32 b.res ∧
          ∀ w i, i < 64 → w = 2 ∨ w = 3 → cget (t.quad q).plan (planKey c w i) = cget x.plan (planKey c w i)))))

/-! ### Reduction and routing -/

/-- RED, TOPK, REDW and MCAST (R316, R317, R319, R321, R322, R326): a member whose operands pass the checks takes a ticket of its
quad, and its contribution, with the bytes of its range or the lanes of its register, joins an episode of the group; REDW gives the
code of a complete reduction, 0 for a ticket never issued, and sleeps on another; MCAST gives status 0 and replaces the group, or
gives 1, 2 or 3 and changes none. An operand that fails traps with its cause. On an aborted group, or one with a peer that is lost,
the reduction completes ABORTED (R324, R378). That RED reads its range in the step that issues it, and that MCAST reads its list and
replaces the group in that step, are the model's choices (log entries 61 and 66). -/
def Obligations.ReductionInstructions : Prop :=
  ∀ (g : Guard) (s : State) (st : Strand) (gang : Gang), current s = some (st, gang) →
    (let q := gang.quadOf st.sidx
     let x := s.quad q
     let joined (t : State) (grp : Grp) (rank tk off : Nat) (c : Contrib) : Prop := ∃ id e p, mget? t.episodes id = some e ∧
       e.decided = false ∧ e.grp = grp ∧ p ∈ e.parts ∧ p.rank = rank ∧ p.key = s.cur ∧ p.ticket = tk ∧ p.off = off ∧ p.c = c
     let ticket (t : State) (tk : Nat) : Prop := 1 ≤ tk ∧ tk ≤ 255 ∧ (mget? (t.quad q).reds tk).map Red.done = some false
     let shut (grp : Grp) : Prop := s.aborted.contains (grp, grpGang st.gid grp) = true ∨ lostMember s grp = true
     let alive (grp : Grp) : Prop := ¬shut grp ∧ deadMember s st.gid grp = false
     let aborts (i : Instr) (rank : Nat) : Prop := completes i s fun t => sameMemories s t ∧ ∃ id e due, mget? t.episodes id = some e ∧
       e.decided = true ∧ e.status = 1 ∧ s.now ≤ due ∧ posted t due 2 (.reductionComplete id rank)
     (∀ op t m d a len grp l rank, ready (.red g op t m d a len grp) s = true →
       (let n := match len with
          | .reg r => (sreg st r).toNat % 8192
          | .imm k => k.toNat
        let i : Instr := .red g op t m d a len grp
        let fails (c : Nat) (v : Word) : Prop := traps i s st c 0 v
        64 ≤ n → n ≤ 4096 → n % 64 = 0 →
        (∀ c, resolve s st gang (sreg st a) m true = .error c → fails c (sreg st a)) ∧
        (resolve s st gang (sreg st a) m true = .ok l →
          (l.space ≠ 0 ∨ l.quad ≠ q → fails 0x06 (sreg st a)) ∧
          (l.space = 0 → l.quad = q → regionBad s false q l.off = false → (sreg st a).toNat % 64 = 0 → l.off + n ≤ 0xFC000 →
            (rankOf (groupMembers s st.gid grp) s.cur = none → fails 0x0C (grpWord grp)) ∧
            (rankOf (groupMembers s st.gid grp) s.cur = some rank → redsOut x < 8 → shut grp → aborts i rank) ∧
            (rankOf (groupMembers s st.gid grp) s.cur = some rank → redsOut x < 8 → alive grp → s.unf = [] → completes i s fun s' =>
              ∃ tk, ticket s' tk ∧ sOfStrand s' s.cur d = (if d = 0 then 0 else BitVec.ofNat 64 tk) ∧
                joined s' grp rank tk l.off (.red op t (cgetN s.ls (lsKey q l.off) n)) ∧ sameMemories s s' ∧ otherStrands s s'))))) ∧
     (∀ thr d a k grp rank, ready (.topk g thr d a k grp) s = true →
       (let i : Instr := .topk g thr d a k grp
        (rankOf (groupMembers s st.gid grp) s.cur = none → traps i s st 0x0C 0 (grpWord grp)) ∧
        (rankOf (groupMembers s st.gid grp) s.cur = some rank → redsOut x < 8 → shut grp → aborts i rank) ∧
        (rankOf (groupMembers s st.gid grp) s.cur = some rank → redsOut x < 8 → alive grp → completes i s fun t =>
           ∃ tk par, ticket t tk ∧ joined t grp rank tk 0 (.topk thr par (vreg st a)) ∧ sameMemories s t ∧
             (t.strand? s.cur).map (fun y => onWay y (.v d)) = some true))) ∧
     (∀ d a, ready (.redw g d a) s = true →
       (mget? x.reds ((sreg st a).toNat % 256) = none → exec (.redw g d a) s = .next (advance ((issued (.redw g d a) s).wrS 1 d 0) 8)) ∧
       (∀ r, mget? x.reds ((sreg st a).toNat % 256) = some r → r.done = true → completes (.redw g d a) s fun t =>
          sOfStrand t s.cur d = (if d = 0 then 0 else r.code) ∧ sameMemories s t) ∧
       (∀ r, mget? x.reds ((sreg st a).toNat % 256) = some r → r.done = false → completes (.redw g d a) s fun t =>
          (t.strand? s.cur).map Strand.act = some (.asleep (.reduction ((sreg st a).toNat % 256) d) 8))) ∧
     (∀ k vec m d a b l, ready (.mcast g k vec m d a b) s = true → resolve s st gang (sreg st a) m false = .ok l → l.space = 0 →
       gang.hasQuad l.quad = true → regionBad s false l.quad l.off = false → (sreg st a).toNat % 4 = 0 → s.unf = [] →
       (let n := (sreg st b).toNat % 64
        let bs := cgetN s.ls (lsKey l.quad l.off) (4 * n)
        let status (code : Nat) (p : State → Prop) : Prop := completes (.mcast g k vec m d a b) s fun t =>
          sOfStrand t s.cur d = (if d = 0 then 0 else BitVec.ofNat 64 code) ∧ sameMemories s t ∧ p t
        let kept (t : State) : Prop := (t.gang? gang.gid).map Gang.mcg = (s.gang? gang.gid).map Gang.mcg
        (32 < n → status 1 kept) ∧
        (n ≤ 32 → l.off + 4 * n ≤ 0xFC000 →
          (∀ code list, mcastStatus s gang k vec bs n = (code, list) → (code ≠ 0 → status code kept) ∧
            (code = 0 → status 0 fun t => (t.gang? gang.gid).map (fun y => y.mcg[k.val]) = some ⟨vec, list⟩))))))

/-- EPISODE_DECISION and REDUCTION_COMPLETE (R317, R320 to R322, R324, R327). Contributions that differ in kind decide MISMATCH,
status 2; what other devices hold may do so too, and a member there that has ended first makes the episode ABORTED, status 1 (both
the model's choice of what peers do, log entry 64). Equal ones decide with the combination in rank order: for `.add` of 32-bit
integers every element is the sum modulo 2^32, whatever the tree. Every member's completion follows; it writes the member's range,
or its register, and settles its ticket with the status and the flags, but not before an earlier episode of the group has completed
there. -/
def Obligations.ReductionSteps : Prop :=
  (∀ (s : State) (ep : Nat) (e : Episode) (p : Part) (rest : List Part), mget? s.episodes ep = some e → e.decided = false →
    e.parts = p :: rest → (∀ at', e.goneAt = some at' → s.now < at') →
    (let decides (f : Episode → Prop) : Prop := completes (.episodeDecision ep) s fun t => sameMemories s t ∧
       (∃ e', mget? t.episodes ep = some e' ∧ e'.decided = true ∧ e'.parts = e.parts ∧ f e') ∧
       ∀ y ∈ e.parts, ∃ due, s.now ≤ due ∧ posted t due 2 (.reductionComplete ep y.rank)
     ((∃ y ∈ rest, agree p.c y.c = false) → decides fun e' => e'.status = 2) ∧
     ((∀ y ∈ rest, agree p.c y.c = true) → decides fun e' => e'.status = e.status ∨ e.peersMatter s = true ∧ e'.status = 2) ∧
     (e.peersMatter s = false →
     (∀ n, (∀ y ∈ e.parts, ∃ bs, y.c = .red .add .i32 bs ∧ bs.length = 64 * n) → e.members.length ≤ 64 →
       (∀ r, r < e.members.length → ∃ y ∈ e.parts, y.rank = r) → e.members ≠ [] → decides fun e' => e'.status = e.status ∧
         ∀ k, k < 16 * n → fieldOf e'.bytes (4 * k) 4 =
           ((rankedBytes s e (64 * n)).map fun c => fieldOf c (4 * k) 4).sum % 2 ^ 32) ∧
     (∀ thr par, (∀ y ∈ e.parts, ∃ v, y.c = .topk thr par v) → decides fun e' => e'.status = e.status ∧
        e'.lanes = topResult thr par (rankedLanes s e))))) ∧
  (∀ (s : State) (ep at' : Nat) (e : Episode), mget? s.episodes ep = some e → e.id = ep → e.decided = false → e.goneAt = some at' →
    at' ≤ s.now → completes (.episodeDecision ep) s fun t => sameMemories s t ∧
      (mget? t.episodes ep).map (fun x => (x.decided, x.status)) = some (true, 1) ∧ t.aborted.contains (e.grp, e.gid) = true) ∧
  (∀ (s : State) (ep rank : Nat) (e : Episode) (p : Part) (g : Gang) (r : Red), s.memoriesOk = true → mget? s.episodes ep = some e →
    e.decided = true → e.parts.find? (fun y => y.rank == rank) = some p → s.gang? (p.key / 256) = some g → g.image = [] →
    (earlierOwed s e p.key = true → exec (.reductionComplete ep rank) s = .next (s.post (s.now + 1) 2 (.reductionComplete ep rank))) ∧
    (let q := g.quadOf (p.key % 256)
     mget? (s.quad q).reds p.ticket = some r → earlierOwed s e p.key = false →
     (let settled (t : State) (code : Nat) : Prop :=
        (mget? (t.quad q).reds p.ticket).map (fun y => (y.done, y.code)) = some (true, BitVec.ofNat 64 code)
      (∀ op t bs, p.c = .red op t bs → completes (.reductionComplete ep rank) s fun s' =>
         settled s' (e.status + if e.status = 0 then 256 * e.flags.toNat else 0) ∧
         ∀ a, cget s'.ls a = if e.status = 0 ∧ lsKey q p.off ≤ a ∧ a < lsKey q p.off + e.bytes.length
           then e.bytes.getD (a - lsKey q p.off) 0 else cget s.ls a) ∧
      (∀ thr par v st, p.c = .topk thr par v → s.strand? p.key = some st → completes (.reductionComplete ep rank) s fun t =>
         settled t e.status ∧ sameMemories s t ∧ vOfStrand t p.key p.d = if e.status = 0 then blend (BitVec.allOnes 32) e.lanes e.lanes
           else topLanes [] 0 e.status))))

/-! ### Translation and storage -/

/-- A walk that gives a translation gives one of the address space and page it was asked for, with the permission asked for (R348 to
R350), and changes no memory but HBM, where it sets A and D. PFETCH gives 0 for no bytes, 1 where a page has no translation and else
0 (R353); its pages are translated one after another, 240 cycles for each that the cache lacks, as those of a copy (the model's
reading, log entry 14). TLBINV removes every translation it covers from every quad at once and answers no sooner than 300 cycles
later; when the last covered copy or put has settled, the waiter is told (R352); that the lightship's report is one byte of 0 is the
model's choice (log entry 79). -/
def Obligations.TranslationInstructions : Prop :=
  (∀ (s s' : State) (c asid va : Nat) (wr : Bool) (tr : Trans), walk s c asid va wr = .ok tr s' →
    va < 2 ^ 52 ∧ tr.covers asid va = true ∧ (wr = true → tr.wr = true ∧ tr.dset = true) ∧ (wr = false → tr.rd = true) ∧
    s'.ls = s.ls ∧ s'.host = s.host ∧ s'.disk = s.disk ∧ s'.strands = s.strands) ∧
  (∀ (g : Guard) (s : State) (st : Strand) (gang : Gang), current s = some (st, gang) →
    (∀ pin d a b, ready (.pfetch g pin d a b) s = true →
       (let i : Instr := .pfetch g pin d a b
        let va := (sreg st a).toNat
        let n := match b with
          | .reg r => (sreg st r).toNat
          | .imm k => k.toNat
        (n = 0 → exec i s = .next (advance ((issued i s).wrS 4 d 0) i.len)) ∧
        (n ≠ 0 → completes i s fun t => sameMemories s t ∧ otherStrands s t ∧
           (d ≠ 0 → (t.strand? s.cur).map (fun y => onWay y (.s d)) = some true) ∧
           ∃ m, posted t (s.now + 4) 2 (.copyAccept (gang.quadOf st.sidx) m) ∧ mget? (t.quad (gang.quadOf st.sidx)).fetches m =
             some ⟨st.key, d, s.asidOf st.gid, pin,
               (List.range (min 64 ((va + n - 1) / 65536 - va / 65536 + 1))).map fun k => va / 65536 + k, false, false⟩))) ∧
    (∀ i d c, (∃ a, i = .tlbinvPage g d a ∧ c = .page (s.asidOf st.gid) (sreg st a).toNat) ∨
        (i = .tlbinvAs g d ∧ c = .asid (s.asidOf st.gid)) ∨ (∃ a, i = .tlbinvAsid g d a ∧ c = .asid ((sreg st a).toNat % 256)) ∨
        (i = .tlbinvAll g d ∧ c = .all) → ready i s = true → completes i s fun t =>
       (∀ q, ∀ x ∈ (t.quad q).tcache, Cover.hits c x.asid x.va x.large = false) ∧ (∀ x ∈ t.wcache, Cover.hitsWalker c x = false) ∧
       posted t (s.now + 300) 2 (.tlbinvComplete (.strand s.cur d) c) ∧ sameMemories s t ∧ otherStrands s t ∧
       (d ≠ 0 → (t.strand? s.cur).map (fun y => onWay y (.s d)) = some true))) ∧
  (∀ (s : State) (q m : Nat) (f : Prefetch), mget? (s.quad q).copies m = none → mget? (s.quad q).fetches m = some f →
    (let x := xlatePages q f.asid false f.pin f.pages f.walking [] s
     let failed := f.failed || x.xl.any fun r => r.2.isNone
     x.absent = false →
     (x.walking = true → completes (.copyAccept q m) s fun t => posted t (s.now + 240) 2 (.copyAccept q m) ∧
        mget? (t.quad q).fetches m = some { f with pages := f.pages.drop x.xl.length, walking := true, failed := failed }) ∧
     (x.walking = false → completes (.copyAccept q m) s fun t => (∀ p ∈ (t.quad q).fetches, p.1 ≠ m) ∧
        ∀ st, s.strand? f.key = some st → st.key = f.key → f.d ≠ 0 →
          (t.strand? f.key).map (fun y => onWay y (.s f.d)) = some false ∧ sOfStrand t f.key f.d = if failed then 1 else 0))) ∧
  (∀ (s : State) (c : Cover) (i : Inval), i ∈ s.invals → i.cover = c → i.issued + 300 ≤ s.now → i.waits s = false →
    (∀ key d st, i.who = .strand key d → s.strand? key = some st → d ≠ 0 → completes (.tlbinvComplete (.strand key d) c) s fun t =>
       sOfStrand t key d = 0 ∧ (t.strand? key).map (fun y => onWay y (.s d)) = some false) ∧
    (∀ tag, i.who = .host tag → completes (.tlbinvComplete (.host tag) c) s fun t => t.completions = s.completions ++ [tag.setWidth 128]) ∧
    (i.who = .lightship → completes (.tlbinvComplete .lightship c) s fun t => t.invals.length + 1 = s.invals.length ∧
       t.reports = s.reports ++ [[0]]) ∧
    (∀ w, (∀ k ∈ s.invals, k.who = w → k.cover = c → s.now < k.issued + 300 ∨ k.waits s = true) → exec (.tlbinvComplete w c) s = .next s))

/-- The storage engine (R354 to R359): a Read is submitted once, at once while the drive's queue has room and else behind the
requests that wait, and answered; a page that comes in, its protection information right, has the drive's bytes and RES and A set,
one whose Read or check fails leaves the pool's count of errors; the sweep clears A, writes back a dirty page, evicts a clean one
and leaves a pinned one; a write-back brings the frame's bytes to the drive, with their protection information, a failed one sets D
again; SPPUSH adds a frame; a Flush writes every dirty page back first, then goes to every drive that is served, and what the drive
held is durable when it answers well; the lightship marks pages and administers drives (R379). That an evict reports 0 with its last
page or at once without one, and 1 for a failed write-back, is the model's choice (log entry 79), as is how marked pages are treated
(log entry 21), the 63 commands that a queue of 64 entries takes (log entry 118), what a drive answers and when (log entry 17), and
the guard of a block (log entry 119). -/
def Obligations.StorageSteps : Prop :=
  (∀ (s : State) (pte f : Nat) (p : Page), s.memoriesOk = true → pageOf? s pte = some p → p.frame = some f →
    (let st (t : State) : Option PageSt := (pageOf? t pte).map Page.st
     let e := hbmWord s pte
     let k := diskKey e (hbmWord s (pte + 8))
     let drive := driveOf s (eDRIVE e)
     let failed (i : Instr) : Prop := completes i s fun t => st t = none ∧ t.spErr = min (s.spErr + 1) 65535
     (p.st = .reading → p.sent = false → completes (.storageReadSend pte) s fun t => sameMemories s t ∧
        (pageOf? t pte).map Page.sent = some true ∧
        (drive.out < 63 → drive.fifo = [] → (driveOf t (eDRIVE e)).out = drive.out + 1 ∧ ∃ due ev, s.now < due ∧ posted t due 2 ev ∧
          (ev = .storageReadComplete pte ∨ ev = .storageReadFail pte)) ∧
        (63 ≤ drive.out ∨ drive.fifo ≠ [] → t.agenda = s.agenda ∧ driveOf t (eDRIVE e) = { drive with fifo := drive.fifo ++ [.read pte] })) ∧
     (p.st = .reading → s.pool.contains f = false → (∀ o ∈ s.pages, o.frame = some f → o.pte = pte) →
        (ePI e = false ∨ ∀ b ∈ pageBlocks k, mget? s.diskPi b = some (blockPi s.disk b)) →
        completes (.storageReadComplete pte) s fun t => st t = some .resident ∧ t.disk = s.disk ∧ t.ls = s.ls ∧
          eRES (hbmWord t pte) = true ∧ eA (hbmWord t pte) = true ∧ bitsOf (hbmWord t pte).toNat 39 16 = f / 65536 % 2 ^ 24 ∧
          (∀ j, j < 65536 → (f + j < pte ∨ pte + 8 ≤ f + j) → cget t.hbm (f + j) = cget s.disk (k + j)) ∧
          (∀ a, (a < f ∨ f + 65536 ≤ a) → (a < pte ∨ pte + 8 ≤ a) → cget t.hbm a = cget s.hbm a)) ∧
     (p.st = .reading → ePI e = true → (∃ b ∈ pageBlocks k, ∃ v, mget? s.diskPi b = some v ∧ v ≠ blockPi s.disk b) →
        failed (.storageReadComplete pte)) ∧
     (p.st = .reading → failed (.storageReadFail pte)) ∧
     (p.st = .writeback → s.flushing.contains pte = false → p.wbOld = cslice s.hbm f (f + 65536) →
        completes (.writebackComplete pte) s fun t => st t = some .resident ∧ t.hbm = s.hbm ∧
          (∀ a, cget t.disk a = if k ≤ a ∧ a < k + 65536 then cget s.hbm (f + (a - k)) else cget s.disk a) ∧
          (ePI e = true → ∀ b ∈ pageBlocks k, mget? t.diskPi b = some (blockPi t.disk b)) ∧ t.durable = s.durable) ∧
     (p.st = .writeback → completes (.writebackFail pte) s fun t => st t = some .resident ∧ eD (hbmWord t pte) = true ∧
        t.spErr = min (s.spErr + 1) 65535 ∧ t.disk = s.disk ∧ t.evicts = s.evicts.filter (fun v => !v.left.contains pte) ∧
        t.reports = s.reports ++ (s.evicts.filter fun v => v.left.contains pte).map fun _ => [1]))) ∧
  (∀ (s : State) (p : Page) (rest : List Page), s.memoriesOk = true → s.pages = p :: rest → (∀ o ∈ s.pages, o.evict = false) →
    p.st = .resident → sweepWanted s = true →
    (let e := hbmWord s p.pte
     let step (f : State → Prop) : Prop := completes .sweepStep s fun t => t.ls = s.ls ∧ t.disk = s.disk ∧ f t
     (eA e = true ∨ pinned s p.pte = true → step fun t => eA (hbmWord t p.pte) = false ∧ (∃ o ∈ t.pages, o.pte = p.pte)) ∧
     (eA e = false → pinned s p.pte = false → eD e = true → step fun t => eD (hbmWord t p.pte) = false ∧
        (pageOf? t p.pte).map Page.st = some .writeback) ∧
     (eA e = false → pinned s p.pte = false → eD e = false → step fun t => eRES (hbmWord t p.pte) = false ∧
        pageOf? t p.pte = none ∧ ((∀ v ∈ s.evicts, v.left = [p.pte]) → t.evicts = [] ∧
          t.reports = s.reports ++ s.evicts.map fun _ => [0])))) ∧
  (∀ s : State,
    (flushAnswers s = [] → s.flushAsks = 0 → exec .nvmeFlush s = .next s) ∧
    (flushAnswers s = [] → 0 < s.flushAsks → (s.drives.map fun p => p.1).Nodup → completes .nvmeFlush s fun t =>
       sameMemories s t ∧ t.durable = s.durable ∧ t.flushAsks + 1 = s.flushAsks ∧ ∀ port drive, mget? s.drives port = some drive →
         (driveOk s port = false → mget? t.drives port = some drive) ∧
         (driveOk s port = true → 63 ≤ drive.out ∨ drive.fifo ≠ [] →
            mget? t.drives port = some { drive with fifo := drive.fifo ++ [.flush port] }) ∧
         (driveOk s port = true → drive.out < 63 → drive.fifo = [] → ∃ x : DriveFlush, s.now < x.due ∧
            x.held = cslice s.disk (driveLo port) (driveLo (port + 1)) ∧ posted t x.due 2 .nvmeFlush ∧
            mget? t.drives port = some { drive with out := drive.out + 1, flushed := drive.flushed ++ [x] })) ∧
    (∀ port (x : DriveFlush), flushAnswers s = [(port, x)] → s.flushAsks = 0 → s.memoriesOk = true →
       (x.good = true → x.held = cslice s.disk (driveLo port) (driveLo (port + 1)) → completes .nvmeFlush s fun t => t.ls = s.ls ∧
          t.hbm = s.hbm ∧ t.host = s.host ∧ t.disk = s.disk ∧ t.diskPi = s.diskPi ∧ t.spErr = s.spErr ∧
          ∀ a, cget t.durable a = if driveLo port ≤ a ∧ a < driveLo (port + 1) then cget s.disk a else cget s.durable a) ∧
       (x.good = false → completes .nvmeFlush s fun t => sameMemories s t ∧ t.durable = s.durable ∧
          t.spErr = min (s.spErr + 1) 65535))) ∧
  (∀ (s : State) (pa : Word), (pa.toNat % 65536 ≠ 0 ∨ 640 * 2 ^ 30 ≤ pa.toNat → exec (.sppush pa) s = .next s) ∧
    (pa.toNat % 65536 = 0 → pa.toNat < 640 * 2 ^ 30 → s.pool.length < 16777215 → s.waiting = [] →
      completes (.sppush pa) s fun t => t.pool = s.pool ++ [pa.toNat] ∧ sameMemories s t)) ∧
  (∀ (s : State) (v : Word), (v.getLsbD 0 = false → exec (.spcmdFlush v) s = .next s) ∧
    (v.getLsbD 0 = true → completes (.spcmdFlush v) s fun t => t.ls = s.ls ∧ t.disk = s.disk ∧
      ((∀ p ∈ s.pages, p.st = .resident ∧ eD (hbmWord s p.pte) = false) → s.flushing = [] → posted t s.now 2 .nvmeFlush) ∧
      ∀ p ∈ s.pages, p.st = .resident → eD (hbmWord s p.pte) = true → (pageOf? t p.pte).map Page.st = some .writeback)) ∧
  (∀ (s : State) (root lo hi : Nat), completes (.storageEvict root lo hi) s fun t => sameMemories s t ∧
    (storageLeaves s root lo hi = [] → t.reports = s.reports ++ [[0]]) ∧
    (storageLeaves s root lo hi ≠ [] → t.reports = s.reports ∧
      t.evicts = s.evicts ++ [⟨root, lo, hi, (storageLeaves s root lo hi).map fun x => x.2⟩]) ∧
    ∀ x ∈ storageLeaves s root lo hi, (pageOf? t x.2).map Page.evict = some true) ∧
  (∀ (s : State) (port : Nat) (ok : Bool),
    (completes (.nvmeAdmin (.init port ok)) s fun t => mget? t.drives port = some { driveOf s port with ok := ok } ∧ sameMemories s t) ∧
    (completes (.nvmeAdmin (.createQueues port)) s fun t => mget? t.drives port = some { driveOf s port with queues := true } ∧
      sameMemories s t) ∧
    (completes (.nvmeAdmin (.deleteQueues port)) s fun t => mget? t.drives port = some { driveOf s port with queues := false } ∧
      sameMemories s t))

/-! ### Grids and gangs -/

/-- LAUNCH_ACCEPT (R117 to R119, R376): a record that is bad gets 2, a header that cannot be read or breaks a limit of R116 gets 1,
a cooperative grid that cannot stand on the device at once 4, a full queue 3; else the grid waits under the next sequence number and
the status is 0. A header that is accepted meets the limits. -/
def Obligations.LaunchAccepts : Prop :=
  (∀ (s : State) (w : LaunchFrom) (asid : BitVec 8) (rec : BitVec 512),
    (let bs := bytesOf 64 rec
     let l := recLaunch bs
     let valid := (cget s.astab asid.toNat).getLsbD 0
     let ends (n : Nat) (p : State → Prop) : Prop := completes (.launchAccept w asid rec) s fun t => p t ∧ (match w with
       | .strand key d _ => (s.strand? key).isSome = true → d ≠ 0 → sOfStrand t key d = BitVec.ofNat 64 n
       | .host tag => t.completions = s.completions ++ [BitVec.ofNat 64 n ++ (0 : BitVec 32) ++ tag])
     (valid = false ∨ recBad s bs l = true → ends 2 fun t => t.grids = s.grids) ∧
     (valid = true → recBad s bs l = false →
       (∀ s', readHeader s asid.toNat l.hdrva = .bad s' → ends 1 fun t => t.grids = s.grids) ∧
       (∀ h s', readHeader s asid.toNat l.hdrva = .ok h s' →
         (let coop := l.coop || h.coop
          let big := 512 < l.count * 2 ^ h.lw * 2 ^ h.lh
          (coop = true → big → ends 4 fun t => t.grids = s.grids) ∧
          ((coop = false ∨ ¬big) → 64 ≤ queueLen s l.pri → ends 3 fun t => t.grids = s.grids) ∧
          ((coop = false ∨ ¬big) → queueLen s l.pri < 64 → ends 0 fun t => t.nextSeq = s.nextSeq + 1 ∧ ∃ x, t.grid? s.nextSeq = some x ∧
             x.launch = l ∧ x.hdr = h ∧ x.asid = asid.toNat ∧ x.placed = 0 ∧ x.waitAt = some s.now ∧ x.failed = false)))))) ∧
  (∀ (bs : List Byte) (h : Header), parseHeader bs = some h → h.entry % 4 = 0 ∧ h.entry < h.codesz ∧ 4 ≤ h.codesz ∧ h.codesz ≤ 0xFC000 ∧
    1 ≤ h.sreq ∧ h.sreq ≤ 32 ∧ h.salloc % 8 = 0 ∧ h.salloc ≤ 32 ∧ h.vreq ≤ h.valloc ∧ h.valloc % 4 = 0 ∧ h.valloc ≤ 32 ∧ 1 ≤ h.spc ∧
    h.spc ≤ 4 ∧ h.lw ≤ 2 ∧ h.lh ≤ 2 ∧ h.tiles ≤ 12 ∧ h.accs ≤ 4 ∧ 1 ≤ h.equota ∧ h.equota ≤ 16 ∧ h.conns.length ≤ 8 ∧
    (h.codesz + 4095) / 4096 * 4096 + h.lstore ≤ 0xFC000)

/-- DISPATCH_STEP (R121 to R124): a place lies in one cluster and takes no quad that is busy; with no candidate nothing changes; the
first candidate's next gang, where it fits, takes the lowest free gang id and stands at the first place, to start after its loading
time. PRIORITY_AGING raises the priority by one per age period up to 7 (R121); QUANTUM_EXPIRY marks the grid (R125). -/
def Obligations.Dispatching : Prop :=
  (∀ (busy : List Nat) (w h : Nat) (o : Nat × Nat), place busy w h = some o → w ∈ [1, 2, 4] → h ∈ [1, 2, 4] →
    o.1 + w ≤ 32 ∧ o.2 + h ≤ 16 ∧ ∀ q ∈ rectQuads o.1 o.2 w h, q ∉ busy ∧ clusterOf q = clusterOf (quadAt o.1 o.2)) ∧
  (∀ s : State, dispatchOrder s = [] → exec .dispatchStep s = .next s) ∧
  (∀ (s : State) (x : Grid) (rest : List Grid) (o : Nat × Nat), dispatchOrder s = x :: rest → s.grid? x.seq = some x → isEarly s x = false →
    (x.launch.coop || x.hdr.coop) = false → x.hdr.conns = [] → savedGangs s x.seq = [] → x.placed < x.launch.count →
    s.gangs.length < 2 ^ 20 → place (busyQuads s false) (2 ^ x.hdr.lw) (2 ^ x.hdr.lh) = some o → completes .dispatchStep s fun t =>
      (let gid := lowestFree s.gangs 0
       (∃ g, t.gang? gid = some g ∧ g.gid = gid ∧ g.gen = cget s.gens gid ∧ g.grid = x.seq ∧ g.index = x.placed ∧ g.ox = o.1 ∧
          g.oy = o.2 ∧ g.lw = x.hdr.lw ∧ g.lh = x.hdr.lh ∧ g.spc = spcEff x.hdr ∧ g.phase = .starting) ∧
       (t.grid? x.seq).map Grid.placed = some (x.placed + 1) ∧
       (x.placed = 0 → (t.grid? x.seq).map Grid.home = some (clusterOf (quadAt o.1 o.2))) ∧
       posted t (max s.now x.loadEnd + 300 + (x.hdr.codesz + 63) / 64 + (x.hdr.lstore + 511) / 512) 2 (.gangStart gid) ∧
       sameMemories s t)) ∧
  (∀ (s : State) (n : Nat) (x : Grid), s.grid? n = some x →
    (completes (.priorityAging n) s fun t => (t.grid? n).map Grid.prio = some (match x.waitAt with
      | some a => min 7 (x.launch.pri + (s.now - a) / 2 ^ bitsOf s.dscfg.toNat 15 10)
      | none => x.launch.pri) ∧ sameMemories s t) ∧
    (∀ a, x.quantum = some a → a + 2 ^ bitsOf s.dscfg.toNat 23 18 ≤ s.now → completes (.quantumExpiry n a) s fun t =>
      (t.grid? n).map Grid.expired = some (some (a + 2 ^ bitsOf s.dscfg.toNat 23 18)) ∧ sameMemories s t))

/-- The start and the end of a gang (R30, R80, R109, R131, R132, R392): every strand starts at the entry in user mode with its
registers zero, the code region covers the code, and in every quad the requested bytes are zero; the end of a gang that is done
removes it, advances its id's generation and begins the clearing of its quads; that of the grid's last gang records the grid's end
and sends its completion signal. DONE_SIGNAL increments the timeline in its port's turn (R134); after the clearing the quad's
memories read as zero. A wedged grid ends with 0x10 (R127). A machine check writes its record into the gang's quads and every strand
that runs no save routine enters the supervisor, before a PREEMPT that has not come to it (R337, R345). That a segment's bytes past
the code size are zero (log entry 117), that the memories read as zero from the start of the clearing (log entry 87), that a MACHINE
ends a sleep and is taken at once (log entry 86), and that the record of a normal end is empty (log entry 67) are the model's
choices. -/
def Obligations.GangsStartAndEnd : Prop :=
  (∀ (s : State) (gid : Nat) (g : Gang), s.gang? gid = some g →
    (∀ x segs s', s.grid? g.grid = some x → g.phase = .starting → readSegs x.asid x.hdr.segs (badSegs s g x) = (segs, s') →
      completes (.gangStart gid) s fun t => (t.gang? gid).map Gang.phase = some .resident ∧
        (∀ i, i < g.count → ∃ st, t.strand? (keyOf gid i) = some st ∧ st.pc = BitVec.ofNat 20 x.hdr.entry ∧ st.sup = false ∧
           st.act = .run ∧ (∀ r, sreg st r = 0) ∧ (∀ r, vreg st r = Vector.replicate 32 0) ∧ (∀ r, r ≠ 0 → preg st r = 0) ∧
           st.tvec = 0 ∧ st.tcause = 0 ∧ st.vstat = 0 ∧ st.rngk = 0 ∧ st.rngc = 0) ∧
        (∀ q ∈ g.quads, (t.quad q).xbp = BitVec.ofNat 8 ((x.hdr.codesz + 4095) / 4096)) ∧
        (∀ q a, q ∈ g.quads → (∀ p ∈ segs, p.1 + p.2.length ≤ 2 ^ 20) → x.hdr.codesz ≤ a → a < (x.hdr.codesz + 4095) / 4096 * 4096 + x.hdr.lstore →
           a < 2 ^ 20 → cget t.ls (lsKey q a) = 0)) ∧
    (gangDone s g = false → exec (.gangEnd gid) s = .next s) ∧
    (∀ x, s.memoriesOk = true → gangDone s g = true → s.grid? g.grid = some x → x.seq = g.grid → x.failed = false →
      completes (.gangEnd gid) s fun t => t.gang? gid = none ∧ cget t.gens gid = cget s.gens gid + 1 ∧
        (∀ k st, t.strand? k = some st → st.gid ≠ gid) ∧ (g.onQuads = false → (∀ q, t.quad q = { s.quad q with fetches := (t.quad q).fetches }) ∧ t.ls = s.ls) ∧
        (g.onQuads = true → ∀ q ∈ g.quads, (t.quad q).clearing = some (s.now + 2048) ∧ posted t (s.now + 2048) 2 (.quadClearDone q) ∧
          ∀ a, a < 0xFC000 → cget t.ls (lsKey q a) = 0) ∧
        (x.ended + 1 = x.launch.count → t.grid? x.seq = none ∧ t.records = s.records ++ [⟨x.seq, false, []⟩] ∧
          (x.launch.done = true → ∃ due, s.now ≤ due ∧ posted t due 2 (.doneSignal x.seq x.launch.doneCap x.launch.doneInc))) ∧
        (x.ended + 1 ≠ x.launch.count → (t.grid? x.seq).map Grid.ended = some (x.ended + 1) ∧ t.records = s.records)) ∧
    (∀ src quad which addr, g.phase = .resident ∨ g.phase = .interrupt ∧ (∃ k st, s.strand? k = some st ∧ st.gid = gid ∧
        st.act ≠ .ended ∧ st.act ≠ .saving) → (src = 4 → slotGangs s gid = []) → completes (.machine gid src quad which addr) s fun t =>
      (∀ q ∈ g.quads, cgetN t.ls (lsKey q 0xFDF00) 24 = machineRecord s src quad which addr) ∧
      (∀ key st, s.strand? key = some st → st.gid = gid → st.act ≠ .ended → st.act ≠ .saving → ∃ st', t.strand? key = some st' ∧ st'.sup = true ∧
         st'.pc = 0xFC000 ∧ st'.tcause = BitVec.ofNat 64 (256 * src.toNat + 0x0E) ∧ st'.tval = 0xFDF00)) ∧
    (∀ quad which addr, (let one (t : State) (k : Nat) : State := machineCheck t k 4 quad which addr
       completes (.machine gid 4 quad which addr) s fun t =>
         t.strands = (one s gid).strands ∨ t.strands = ((slotGangs s gid).foldl one (one s gid)).strands)) ∧
    (∀ src quad which addr x, g.phase ≠ .resident → g.phase ≠ .interrupt → s.grid? g.grid = some x → x.failed = false →
      (src = 4 → slotGangs s gid = []) → completes (.machine gid src quad which addr) s fun t => ∃ r, t.records = s.records ++ [r] ∧ r.grid = g.grid ∧
        r.fault.head? = some 0x0E)) ∧
  (∀ (s : State) (grid n : Nat) (cap inc : Word) (tl : Timeline), tlCheck s cap = some n → mget? s.timelines n = some tl →
    (tlYields s (.doneSignal grid cap inc) = true → exec (.doneSignal grid cap inc) s = .next (s.post s.now 2 (.doneSignal grid cap inc))) ∧
    (tlYields s (.doneSignal grid cap inc) = false → completes (.doneSignal grid cap inc) s fun t => (mget? t.timelines n).map Timeline.val =
      some (if 2 ^ 64 ≤ tl.val.toNat + inc.toNat then BitVec.ofNat 64 (2 ^ 64 - 1) else tl.val + inc) ∧ sameMemories s t)) ∧
  (∀ (s : State) (q c : Nat), (s.quad q).clearing = some c →
    (s.now < c → exec (.quadClearDone q) s = .next s) ∧
    (c ≤ s.now → completes (.quadClearDone q) s fun t => (t.quad q).clearing = none ∧
      (∀ a, a < 0xFC000 → cget t.ls (lsKey q a) = 0) ∧ (∀ a, tileLo q ≤ a → a < tileLo (q + 1) → cget t.tiles a = 0) ∧
      (∀ a, accLo q ≤ a → a < accLo (q + 1) → cget t.acc a = 0) ∧ t.hbm = s.hbm ∧ t.host = s.host)) ∧
  (∀ (s : State) (n : Nat) (x : Grid), s.grid? n = some x →
    (gridIsWedged s x = false → exec (.gridWedged n) s = .next s) ∧
    (gridIsWedged s x = true → completes (.gridWedged n) s fun t => ∃ r, t.records = s.records ++ [r] ∧ r.grid = n ∧
      r.fault.head? = some 0x10))

/-! ### Pre-emption -/

/-- The start of a pre-emption sends PREEMPT to every strand of a resident gang (R338). PREEMPT lets an instruction that can issue
go first, once, and stops a strand that cannot issue; the strand enters the save routine with its pc, mode and sleep kept and no
trap register used (R335, R337, R339); the routines write the records, their acknowledgements end INTERRUPT, then the drain ends and
the DMA starts (R338, R340, R341); at its end the quads are cleared and then the gang is saved, or the grid ends with 0x12 (R342). A
gang parked on pages waits for them (R170). That the saved gang is held in fields of the model and not in bytes of HBM (log entry
35), which of its settled copies keep their ticket (log entry 128), that the DMA needs no bytes of HBM and succeeds (log entry 31),
and that SAVED comes only after the clearing (log entry 95) are the model's choices. So are its readings: a gang that starts or is
restored is asked for and interrupted once RESIDENT (log entry 69), one instruction and a pending OVERWRITE go before PREEMPT (log
entry 70), the save waits for a TLSIG's reply (log entry 103), and the pc that is kept passes over fill words (log entry 127). -/
def Obligations.PreemptionSaves : Prop :=
  (∀ (s : State) (gid : Nat) (g : Gang), s.gang? gid = some g →
    (g.phase ≠ .resident → startPreempt s gid = s) ∧
    (g.phase = .resident → (∃ g', (startPreempt s gid).gang? gid = some g' ∧ g'.phase = .interrupt ∧ g'.acks = gangCores g ∧
        g'.suspAt = some s.now ∧ g'.image = g.image) ∧ sameMemories s (startPreempt s gid) ∧
      ∀ key st, s.strand? key = some st → st.gid = gid →
        posted (startPreempt s gid) (s.now + 2 + 2 * hops (hubOf g.cluster) (s.quadOf key)) 0 (.preempt key))) ∧
  (∀ (s : State) (key : Nat) (st : Strand) (g : Gang), s.strand? key = some st → s.gang? (key / 256) = some g →
    (g.phase ≠ .interrupt → exec (.preempt key) s = .next s) ∧
    (g.phase = .interrupt → issuesNow s key = true → st.resume ≠ .saving → ovwDue st = false → completes (.preempt key) s fun t =>
       t.strand? key = some { st with resume := .saving } ∧ posted t (s.now + 1) 0 (.preempt key) ∧ sameMemories s t) ∧
    (g.phase = .interrupt → issuesNow s key = false ∨ st.resume = .saving ∨ ovwDue st = true →
      (let saves (pc : BitVec 20) (r : Act) : Prop := completes (.preempt key) s fun t => ∃ st', t.strand? key = some st' ∧ st'.act = .saving ∧
         st'.resume = r ∧ st'.sup = true ∧ st'.pc = 0xFC100 ∧ bitsOf st'.tstat.toNat 63 44 = pc.toNat ∧
         st'.tstat.getLsbD 9 = st.sup ∧ st'.tstat.getLsbD 8 = true ∧ st'.tstat.getLsbD 0 = st.tstat.getLsbD 0 ∧ st'.tpc = st.tpc ∧
         st'.tcause = st.tcause ∧ st'.tval = st.tval ∧ st'.stpc = st.stpc ∧ st'.scause = st.scause ∧ st'.sval = st.sval ∧
         st'.sregs = st.sregs ∧ st'.vregs = st.vregs ∧ st'.pregs = st.pregs ∧ st'.pend = st.pend ∧ st'.ovw = st.ovw
       (st.act = .run → saves (s.skipFill key st.pc) .run) ∧ (st.act = .parked → saves st.pc .parked) ∧
       (∀ w n, st.act = .asleep (.promise w) n → saves st.pc .run) ∧ (∀ d n, st.act = .asleep (.timeline d) n → saves st.pc .run) ∧
       (∀ id n, st.act = .asleep (.port id) n → saves st.pc (.asleep (.port id) n)) ∧
       (st.act = .asleep .reply 8 → exec (.preempt key) s = .next (s.post (s.now + 1) 0 (.preempt key)))))) ∧
  (∀ (s : State) (gid : Nat) (g : Gang), s.gang? gid = some g →
    (let phase (t : State) : Option Phase := (t.gang? gid).map Gang.phase
     (∀ q c, coreReady s g q c = true → completes (.saveRoutineStart gid q c) s fun t => sameMemories s t ∧
        posted t (s.now + (96 * (coreKeys s g q c).length + 2 * hops (hubOf g.cluster) q + 2)) 2 (.saveAcknowledgement gid q c)) ∧
     (∀ q c, g.phase = .interrupt → (∀ a ∈ g.acks, a = (q, c)) → completes (.saveAcknowledgement gid q c) s fun t =>
        phase t = some .drain ∧ posted t s.now 2 (.drainComplete gid)) ∧
     (∀ q c, g.phase = .interrupt → (∃ a ∈ g.acks, a ≠ (q, c)) → completes (.saveAcknowledgement gid q c) s fun t =>
        phase t = some .interrupt ∧ (t.gang? gid).map Gang.acks = some (g.acks.filter fun a => a != (q, c))) ∧
     (∀ q c key st, g.phase = .interrupt → coreKeys s g q c = [key] → s.strand? key = some st →
        completes (.saveAcknowledgement gid q c) s fun t =>
          (let p := g.place (key % 256)
           let r := strandRecord s (settle st s.now)
           r.length = 512 ∧ cgetN t.ls (lsKey p.1 (Config.saveBase + 512 * (4 * p.2.1 + p.2.2))) 512 = r)) ∧
     (g.phase = .drain → (∀ q ∈ g.quads, busyCopies (s.quad q) = false ∧ (s.quad q).jobs = []) → completes (.drainComplete gid) s fun t =>
        phase t = some .dma ∧ ∃ due, s.now ≤ due ∧ posted t due 2 (.contextDmaDone gid true)) ∧
     (g.phase = .dma → g.image ≠ [] → completes (.contextDmaDone gid true) s fun t =>
        phase t = some (if g.parkPages = [] then .saved else .parked) ∧ sameMemories s t) ∧
     (g.phase = .dma → g.image = [] → completes (.contextDmaDone gid true) s fun t =>
        phase t = some .dma ∧ posted t (s.now + 2048) 2 (.contextDmaDone gid true) ∧
        (∃ g', t.gang? gid = some g' ∧ g'.image = (g.quads.map fun q => savedQuad g (parkTickets s g.gid q) (s.quad q)) ∧
          g'.imageTiles = (g.quads.map fun q => cslice s.tiles (tileLo q) (tileLo (q + 1))) ∧
          g'.imageAcc = (g.quads.map fun q => cslice s.acc (accLo q) (accLo (q + 1))) ∧
          ∀ h, s.headerOf g.gid = some h →
            g'.imageLs = g.quads.map fun q => cslice s.ls (lsKey q 0) (lsKey q (sectionLs h (s.quad q)))) ∧
        ∀ q ∈ g.quads, (t.quad q).clearing = some (s.now + 2048)) ∧
     (∀ x, g.phase = .dma → g.image = [] → s.grid? g.grid = some x → x.failed = false → completes (.contextDmaDone gid false) s fun t =>
        ∃ r, t.records = s.records ++ [r] ∧ r.grid = g.grid ∧ r.fault.head? = some 0x12) ∧
     (g.phase = .parked → g.parkPages = [] → completes (.parkedReady gid) s fun t => phase t = some .saved ∧ sameMemories s t) ∧
     (g.parkPages ≠ [] → exec (.parkedReady gid) s = .next s)))

/-- RESTORE_DMA_DONE puts the sections back into the quads of the new rectangle, which were cleared: in every quad the local store
below the system region, the tiles, the accumulators, the tags, the configuration registers, the contexts of the plan unit, the
records of jobs and of reductions, and the outstanding copies hold what the sections hold (R342, R343). RESTORE_ROUTINE_END makes
the gang resident, and a strand that was running goes on at the pc and in the mode that PREEMPT kept, with its registers; one that
was parked returns from its trap; one asleep at a port sleeps on (R170, R265, R334, R343), where its records stand as the routines
wrote them; a scoreboard code of 11 in one ends the grid with MACHINE of source 5 (R338, R341), and a PTE fault of the block with
SAVEFAIL (R342). That the saved gang is held in fields of the model, and a changed record in its strand, are its choices (log entry
35). -/
def Obligations.ResumeRestores : Prop :=
  ∀ (s : State) (gid : Nat) (g : Gang), s.gang? gid = some g → g.gid = gid → g.phase = .restoring →
    (g.image ≠ [] → completes (.restoreDmaDone gid) s fun t => (t.gang? gid).map Gang.image = some [] ∧ t.hbm = s.hbm ∧ t.host = s.host ∧
      (t.gang? gid).map Gang.phase = some .restoring ∧ ∃ due, s.now ≤ due ∧ posted t due 2 (.restoreRoutineEnd gid)) ∧
    (∀ x, g.image ≠ [] → s.grid? g.grid = some x → x.failed = false → completes (.contextDmaDone gid false) s fun t =>
      ∃ r, t.records = s.records ++ [r] ∧ r.grid = g.grid ∧ r.fault.head? = some 0x12) ∧
    (∀ i q x, g.ox + g.w ≤ 32 → 1 ≤ g.spc → g.spc ≤ 4 → s.memoriesOk = true → g.quads[i]? = some q → g.image[i]? = some x →
      g.imageLs.length = g.quads.length → g.imageTiles.length = g.quads.length → g.imageAcc.length = g.quads.length →
      (∀ m ∈ g.imageLs, Memory.wf m = true ∧ ∀ c ∈ m, c.1 < 0xFC000) → (∀ m ∈ g.imageTiles, Memory.wf m = true ∧ ∀ c ∈ m, c.1 < 196608) →
      (∀ m ∈ g.imageAcc, Memory.wf m = true ∧ ∀ c ∈ m, c.1 < 32768) → (∀ y ∈ g.image, (y.copies.map fun c => c.1).Pairwise (· < ·)) →
      (∀ a, a < 0xFC000 → cget s.ls (lsKey q a) = 0) → (∀ a, a < 196608 → cget s.tiles (tileLo q + a) = 0) →
      (∀ a, a < 32768 → cget s.acc (accLo q + a) = 0) → completes (.restoreDmaDone gid) s fun t =>
        (∀ a, a < 0xFC000 → cget t.ls (lsKey q a) = cget (g.imageLs.getD i []) a) ∧
        (∀ a, a < 196608 → cget t.tiles (tileLo q + a) = cget (g.imageTiles.getD i []) a) ∧
        (∀ a, a < 32768 → cget t.acc (accLo q + a) = cget (g.imageAcc.getD i []) a) ∧
        (t.quad q).tags = x.tags ∧ (t.quad q).tc = x.tc ∧ (t.quad q).pcfg = x.pcfg ∧ (t.quad q).xbp = x.xbp ∧ (t.quad q).plan = x.plan ∧
        (t.quad q).jobs = x.jobs ∧ (t.quad q).jobRecs = x.jobRecs ∧ (t.quad q).nextJob = x.nextJob ∧ (t.quad q).reds = x.reds ∧
        (t.quad q).copies.map (fun c => (c.1, c.2.uid)) = x.copies.map (fun c => (c.1, c.2.uid)) ∧
        ((∀ y ∈ g.image, ∀ c ∈ y.copies, c.2.st = .storage → c.2.lines.any (lineReady s) = false) →
          (t.quad q).copies = x.copies.map fun c => (c.1, { c.2 with quad := g.quads.getD c.2.quad 0 }))) ∧
    (∀ q v n x, g.image = [] → g.badSb = some (q, v, n) → s.grid? g.grid = some x → x.failed = false →
      completes (.restoreRoutineEnd gid) s fun t => ∃ r, t.records = s.records ++ [r] ∧ r.grid = g.grid ∧
        r.fault.take 2 = [0x0E, 0x05]) ∧
    (g.image = [] → g.badSb = none → (∀ p ∈ g.recs, cgetN s.ls (recordAt g p.1) 512 = p.2 ∧ badCode (recordWord p.2 36) = none ∧
      badCode (recordWord p.2 37) = none) →
      completes (.restoreRoutineEnd gid) s fun t => (t.gang? gid).map Gang.phase = some .resident ∧ sameMemories s t ∧
      ∀ key st, s.strand? key = some st → st.gid = gid → st.act = .saving →
        (st.resume = .run → ∃ st', t.strand? key = some st' ∧
          st'.act = .run ∧ st'.pc.toNat = bitsOf st.tstat.toNat 63 44 ∧ st'.sup = st.tstat.getLsbD 9 ∧ st'.tstat.getLsbD 8 = false ∧
          st'.tpc = st.tpc ∧ st'.tcause = st.tcause ∧ st'.tval = st.tval ∧
          ((∀ r, ((st.pend.filter fun p => p.2.ref == r).map fun p => p.1).Pairwise (· ≤ ·)) → (∀ r, finalS st' r = finalS st r) ∧
            (∀ r, finalV st' r = finalV st r) ∧ (∀ r, finalP st' r = finalP st r))) ∧
        (st.resume = .parked → ∃ st', t.strand? key = some st' ∧ st'.act = .run ∧ st'.pc = st.tpc.setWidth 20 ∧
          st'.sup = st.tstat.getLsbD 0 ∧ st'.tstat.getLsbD 8 = false ∧ st'.tpc = st.stpc ∧ st'.tcause = st.scause ∧ st'.tval = st.sval) ∧
        (∀ id n o, st.resume = .asleep (.port id) n → mget? s.offers id = some o → o.gone = false → ∃ st', t.strand? key = some st' ∧
          st'.act = .asleep (.port id) n ∧ st'.pc.toNat = bitsOf st.tstat.toNat 63 44 ∧ st'.sup = st.tstat.getLsbD 9))

/-! ### The host, the lightship, the network -/

/-- The commands of the host (R376): 128 bytes that reach the open endpoint do what their first byte names, whatever step brings
them, and each is answered with the 16 bytes of its TAG, status and value. One with another code, or with a reserved byte that is
not zero, is answered with 1 and counts in HSTAT (that a reserved byte comes before every other check is the model's choice, log
entry 78). INVAL with A above 2 is BADCMD. FLUSH is answered once its write-backs have begun (the model's choice, log entry 85).
CFGWR has the effect of a write of the register that it names. With the endpoint shut a command has no effect (the model's choice,
log entry 77). A command waits for an earlier RMA of its ordered connection (R377; how is the model's reading, log entry 75), and
one at a timeline for its port's turn (R134). RMA_READ and RMA_WRITE (R375, R377, R383): with the endpoint shut nothing happens (the
model's choice, log entry 77); a range with a page that does not translate, and one with uncorrectable data that a write does not
replace, get an error; a range that lies in HBM is read, or written and acknowledged, over every page it spans, and no other byte of
HBM changes but A and D of the entries walked; one with a storage page that is not in waits for it; one of an ordered connection
waits for an earlier RMA. That a waiting RMA is tried again 16 cycles later and moves in one step is the model's reading (log entry
22), as is the ordered connection (log entry 75); how it meets a bad line is its choice (log entry 110). -/
def Obligations.HostCommands : Prop :=
  (∀ (s : State) (c : HostCmd) (i : Instr), i ∈ [Instr.hostLaunch c, .hostTlsig c, .hostTlrd c, .cfgwr c, .cfgrd c, .hostHalt c, .hostRelease c,
      .hostEnd c, .flush c, .inval c] →
    (s.booted = false → exec i s = .next s) ∧
    (s.booted = true → rodWaits s i = true → exec i s = .next (s.post (s.now + 1) 1 i)) ∧
    (s.booted = true → rodWaits s i = false → tlYields s i = false →
      (let opc := (c.bytes.extractLsb' 0 8).toNat
       let tag : BitVec 32 := c.bytes.extractLsb' 32 32
       let asid : BitVec 8 := c.bytes.extractLsb' 8 8
       let a : Word := c.bytes.extractLsb' 64 64
       let b : Word := c.bytes.extractLsb' 128 64
       let rsv : Prop := c.bytes.extractLsb' 16 16 = 0 ∧ c.bytes.extractLsb' 192 64 = 0 ∧ c.bytes.extractLsb' 768 256 = 0
       let word (status : Nat) (v : Word) : BitVec 128 := v ++ (0 : BitVec 16) ++ BitVec.ofNat 16 status ++ tag
       let answers (t : State) (status : Nat) (v : Word) : Prop := t.completions = s.completions ++ [word status v]
       let does (p : State → Prop) : Prop := completes i s p
       let good (n : Nat) : Prop := rsv ∧ opc = n
       (¬rsv ∨ opc = 0 ∨ 10 < opc ∨ opc = 10 ∧ 2 < a.toNat → does fun t => answers t 1 0 ∧
         t.badCmd = min (s.badCmd + 1) (2 ^ 32 - 1) ∧ sameMemories s t ∧ sameRegisters s t) ∧
       (good 1 → does fun t => posted t s.now 1 (.launchAccept (.host tag) asid (c.bytes.extractLsb' 256 512)) ∧ sameMemories s t) ∧
       (good 2 → tlCheck s a = none → does fun t => answers t 2 0 ∧ t.timelines = s.timelines) ∧
       (∀ n tl, good 2 → tlCheck s a = some n → mget? s.timelines n = some tl → does fun t =>
          (let past := 2 ^ 64 ≤ tl.val.toNat + b.toNat
           let v := if past then BitVec.ofNat 64 (2 ^ 64 - 1) else tl.val + b
           answers t (if past then 4 else 0) v ∧ (mget? t.timelines n).map Timeline.val = some v)) ∧
       (good 3 → does fun t => (match tlCheck s a with
          | none => answers t 2 0
          | some n => answers t 0 (tlVal s n)) ∧ t.timelines = s.timelines) ∧
       (good 4 → cfgLoc s a = none → does fun t => answers t 3 0 ∧ sameRegisters s t ∧ t.quads = s.quads) ∧
       (∀ l, good 4 → cfgLoc s a = some l → does fun t => answers t 0 0 ∧ ∃ u, exec (.registerWrite l.quad l.space l.off b) s = .next u ∧
          t = { u with completions := s.completions ++ [word 0 0] }) ∧
       (good 5 → exec i s = .next { s with completions := s.completions ++ [match cfgLoc s a with
          | none => word 3 0
          | some l => word 0 (wordRead s l)] }) ∧
       (liveGrid s a.toNat = none → good 6 ∨ good 7 ∨ good 8 → does fun t => answers t 5 0 ∧ t.gangs = s.gangs ∧ t.grids = s.grids) ∧
       (∀ x, s.grid? a.toNat = some x → x.failed = false →
          (good 6 → does fun t => answers t 0 0 ∧ (t.grid? a.toNat).map Grid.heldHost = some true ∧
            ∀ g ∈ t.gangs, g.2.grid = a.toNat → g.2.halted = true) ∧
          (good 7 → x.heldLs = false → does fun t => answers t 0 0 ∧
            (t.grid? a.toNat).map Grid.heldHost = some false ∧ ∀ g ∈ t.gangs, g.2.grid = a.toNat → g.2.halted = false) ∧
          (good 7 → x.heldLs = true → does fun t => answers t 0 0 ∧ t.gangs = s.gangs ∧ t.grids = s.grids) ∧
          (good 8 → does fun t => answers t 0 0 ∧ ∃ r, t.records = s.records ++ [r] ∧ r.grid = a.toNat ∧ r.fault.head? = some 0x11)) ∧
       (good 9 → does fun t => answers t 0 0 ∧
          ((∀ p ∈ s.pages, p.st = .resident ∧ eD (hbmWord s p.pte) = false) → s.flushing = [] → posted t s.now 2 .nvmeFlush) ∧
          ∀ p ∈ s.pages, p.st = .resident → eD (hbmWord s p.pte) = true → (pageOf? t p.pte).map Page.st = some .writeback) ∧
       (∀ k, good 10 → (a.toNat = 0 ∧ k = .page asid.toNat b.toNat ∨ a.toNat = 1 ∧ k = .asid asid.toNat ∨ a.toNat = 2 ∧ k = .all) →
          does fun t => posted t (s.now + 300) 2 (.tlbinvComplete (.host tag) k) ∧
          (∀ q, ∀ x ∈ (t.quad q).tcache, Cover.hits k x.asid x.va x.large = false) ∧ t.completions = s.completions)))) ∧
  (∀ (s : State) (tag : RmaTag) (die : Fin 4) (asid : BitVec 8) (va : Nat),
    (∀ n bs, s.booted = false → exec (.rmaRead tag die asid va n) s = .next s ∧ exec (.rmaWrite tag die asid va bs) s = .next s) ∧
    (∀ (i : Instr) (n : Nat) (wr : Bool), (wr = false ∧ i = .rmaRead tag die asid va n ∨
        ∃ bs, wr = true ∧ i = .rmaWrite tag die asid va bs ∧ bs.length = n) → s.booted = true →
      (let x := rmaXlate s die asid.toNat va n wr i
       let answers (t : State) (r : Option (List Byte)) : Prop := t.answers = s.answers ++ [(tag.tag, r)]
       let bytes (k pa : Nat) : Prop := ∃ r ∈ x.res, r.1 = (va + k) / 65536 ∧ ∃ tr m, r.2 = some (tr, m) ∧ tr.at (va + k) = .hbm pa
       let whole (l : Nat) : Prop := ∀ pa, 64 * l ≤ pa → pa < 64 * l + 64 → ∃ k, k < n ∧ bytes k pa
       (rodWaits s i = true → exec i s = .next (s.post (s.now + 1) 1 i)) ∧
       (rodWaits s i = false → n = 0 → exec i s = .next { s with answers := s.answers ++ [(tag.tag, some [])] }) ∧
       (rodWaits s i = false → 0 < n → x.absent = false →
         ((∃ r ∈ x.res, r.2 = none) → completes i s fun t => answers t none ∧ t.hbm = x.s.hbm ∧ t.ls = s.ls) ∧
         ((∀ a ∈ s.rmaPending, a.ev = i → a.failed = false) →
           (∀ r ∈ x.res, ∃ tr m pa, r.2 = some (tr, m) ∧ tr.tgt = .hbm pa ∧ pa + 2 ^ 28 ≤ 640 * 2 ^ 30) →
           ((∃ l ∈ s.hbmBad, (∃ k pa, k < n ∧ bytes k pa ∧ pa / 64 = l) ∧ (wr = false ∨ ¬whole l)) → n ≤ 64 →
             completes i s fun t => answers t none ∧ t.hbm = x.s.hbm ∧ t.ls = s.ls) ∧
           ((∀ l ∈ s.hbmBad, ∀ k pa, k < n → bytes k pa → pa / 64 ≠ l) →
             (wr = false → completes i s fun t => ∃ bs, answers t (some bs) ∧ bs.length = n ∧ t.hbm = x.s.hbm ∧ t.ls = s.ls ∧
               ∀ k, k < n → ∃ pa, bytes k pa ∧ bs.getD k 0 = cget x.s.hbm pa) ∧
             (∀ bs, i = .rmaWrite tag die asid va bs → completes i s fun t => answers t (some []) ∧ t.ls = s.ls ∧
               (∀ a, (∀ k pa, k < n → bytes k pa → a ≠ pa) → cget t.hbm a = cget x.s.hbm a) ∧
               ∀ k pa, k < n → bytes k pa → (∀ j, j < n → j ≠ k → ¬bytes j pa) → cget t.hbm pa = bs.getD k 0))) ∧
         ((∀ r ∈ x.res, r.2.isSome = true ∧ pageLost x.s r = false) → (∀ a ∈ s.rmaPending, a.ev = i → a.failed = false) →
           (requestAway x die.val).2 = true → completes i s fun t => posted t (s.now + 16) 1 i ∧ t.answers = s.answers ∧
             t.ls = s.ls ∧ ∃ a ∈ t.rmaPending, a.ev = i)))) ∧
    (∀ n tr s' pa, s.booted = true → 0 < n → va % 65536 + n ≤ 65536 → walk s (8 * die.val) asid.toNat (va / 65536 * 65536) false = .ok tr s' →
       tr.at va = .hbm pa → pa + n ≤ 640 * 2 ^ 30 → s.rmaPending = [] → s.hbmBad = [] → completes (.rmaRead tag die asid va n) s fun t =>
         t.answers = s.answers ++ [(tag.tag, some (cgetN s'.hbm pa n))] ∧ t.hbm = s'.hbm ∧ t.ls = s.ls) ∧
    (∀ bs tr s' pa, s.booted = true → bs ≠ [] → va % 65536 + bs.length ≤ 65536 →
       walk s (8 * die.val) asid.toNat (va / 65536 * 65536) true = .ok tr s' → tr.at va = .hbm pa → pa + bs.length ≤ 640 * 2 ^ 30 →
       s.rmaPending = [] → s.hbmBad = [] → completes (.rmaWrite tag die asid va bs) s fun t =>
         t.answers = s.answers ++ [(tag.tag, some [])] ∧ t.ls = s.ls ∧
         ∀ a, cget t.hbm a = if pa ≤ a ∧ a < pa + bs.length then bs.getD (a - pa) 0 else cget s'.hbm a))

/-- The lightship's commands and acts (R379 to R384): register access with status 3 for an address that names none, HALT, RELEASE
and END with 5 for a grid that is not alive, invalidation, the snapshot, the firmware image, attestation, flares while their enables
are 1, power. The bytes of the answers are the model's choice (log entry 79), the places of the snapshot's words too (log entry 36),
as is that a host's RELEASE leaves a grid alone that the lightship holds (log entry 89 says which gangs). Links, packets and peers
(R369, R373, R374, R378): a failed flit delays by its retry the one message on its way over its link, with the strand's account of a
store, the sixteenth failure in a row stops the link, and a stopped link's gangs, of either die, get MACHINE of source 4 once, with
the port in the record; a peer that cannot be reached is lost, and the open episodes of its groups end ABORTED; a packet is promoted
once it has lost AGEP cycles, in the order of lost cycles and ports at its router; an unsupported one counts. What is in a row, and
which messages a link carries, are the model's choices (log entry 82), as is the place of promoted packets (log entry 84); so is
what the lightship is answered (log entries 79, 81 and 89). -/
def Obligations.LightshipAndNetwork : Prop :=
  (∀ (s : State),
    (let told (t : State) (bs : List Byte) : Prop := t.reports = s.reports ++ [bs]
     (∀ a, completes (.lightshipCfgrd a) s fun t => sameRegisters s t ∧ sameMemories s t ∧ told t (match cfgLoc s a with
       | none => [3]
       | some l => 0 :: bytesOf 8 (wordRead s l))) ∧
     (∀ a v, completes (.lightshipCfgwr a v) s fun t => told t (match cfgLoc s a with
       | none => [3]
       | some _ => [0]) ∧ (cfgLoc s a = none → sameRegisters s t) ∧ ∀ l, cfgLoc s a = some l → l.quad = 33 → l.space = 3 →
         (l.off = 0x400 → t.sncfg.toNat % 16 = v.toNat % 16) ∧
         (l.off = 0x500 → t.pwcfg.toNat % 16 = v.toNat % 16 ∧ t.pwcfg.toNat / 256 = v.toNat / 256 % 256)) ∧
     (∀ n, liveGrid s n = none → (completes (.lightshipHalt n) s fun t => told t [5] ∧ t.gangs = s.gangs) ∧
       (completes (.lightshipRelease n) s fun t => told t [5] ∧ t.gangs = s.gangs) ∧
       (completes (.lightshipEnd n) s fun t => told t [5] ∧ t.gangs = s.gangs)) ∧
     (∀ n x, s.grid? n = some x → x.failed = false →
       (completes (.lightshipHalt n) s fun t => told t [0] ∧ (t.grid? n).map Grid.heldLs = some true ∧
          ∀ g ∈ t.gangs, g.2.grid = n → g.2.halted = true) ∧
       (completes (.lightshipRelease n) s fun t => told t [0] ∧ (t.grid? n).map (fun y => (y.heldHost, y.heldLs)) = some (false, false) ∧
          ∀ g ∈ t.gangs, g.2.grid = n → g.2.halted = false) ∧
       (completes (.lightshipEnd n) s fun t => told t [0] ∧ ∃ r, t.records = s.records ++ [r] ∧ r.fault.head? = some 0x11)) ∧
     (∀ k, completes (.lightshipInval k) s fun t => posted t (s.now + 300) 2 (.tlbinvComplete .lightship k) ∧ sameMemories s t ∧
       ∀ q, ∀ x ∈ (t.quad q).tcache, Cover.hits k x.asid x.va x.large = false) ∧
     (∀ q, completes (.snapshotRead q) s fun t => ∃ bs, told t bs ∧ bs.length = 4096 ∧ sameMemories s t ∧ t.quads = s.quads ∧
       ∀ k, k < 128 →
         (∀ p, (s.quad q).snap.find? (fun x => x.slot == k) = some p → (bs.drop (32 * k)).take 32 =
           bytesOf 8 (p.pc.setWidth 64) ++ bytesOf 8 p.tcause ++ bytesOf 8 p.ssb ++ bytesOf 8 p.vsb) ∧
         ((∀ p ∈ (s.quad q).snap, p.slot ≠ k) → (bs.drop (32 * k)).take 32 = List.replicate 32 0)) ∧
     (∀ image, exec (.firmwareUpdate image) s = .next { s with flash := image }) ∧
     (∀ nonce, completes (.attest nonce) s fun t => t.measure = s.measure ∧
       (let body := bytesOf 32 nonce ++ (bytesOf 32 s.measure[0] ++ bytesOf 32 s.measure[1] ++ bytesOf 32 s.measure[2] ++
          bytesOf 32 s.measure[3]) ++ bytesOf 8 Config.fuseWord ++ bytesOf 16 Config.serialNumber
        told t (body ++ bytesOf 64 (Config.signReport body)))) ∧
     (let flares (i : Instr) (on : Bool) : Prop := (on = false ∨ s.sncfg.getLsbD 4 = true → exec i s = .next s) ∧
        (on = true → s.sncfg.getLsbD 4 = false → completes i s fun t => t.sncfg = s.sncfg ||| 0x10 ∧ sameMemories s t ∧
          t.strands = s.strands ∧ ∀ key st g, s.strand? key = some st → s.gang? (key / 256) = some g → g.onQuads = true → st.act ≠ .ended →
            (∃ y, mget? s.quads (g.quadOf (key % 256)) = some y) →
            ∃ p ∈ (t.quad (g.quadOf (key % 256))).snap, p.pc = st.pc ∧ p.tcause = st.tcause)
      flares .lightshipFlare (s.sncfg.getLsbD 1) ∧ flares .sncycMatch (s.sncfg.getLsbD 3 && s.cyc == s.sncyc)) ∧
     (completes .thermalGateRaise s fun t => t.pwcfg.toNat % 16 = min (s.pwcfg.toNat % 16 + 1) 15 ∧
       t.pwcfg.toNat / 16 = s.pwcfg.toNat / 16 ∧ sameMemories s t))) ∧
  (∀ (s : State),
    (∀ q d n, (match mget? s.retries (linkAt q d) with
        | some (k, at') => if s.now ≤ at' + retryCycles q d then k + 1 else 1
        | none => 1) = n → completes (.flitCrcRetry q d) s fun t => mget? t.retries (linkAt q d) = some (n, s.now) ∧
       (16 ≤ n → posted t s.now 2 (.linkStop q d)) ∧ sameMemories s t ∧
       (∀ e, s.agenda = [e] → s.replies = [] → floors s = [] → n < 16 →
         (let late := e.due + retryCycles q d
          let f : Flight := ⟨.step e.prio e.ev, e.due⟩
          let crosses : Prop := s.now < e.due ∧
            ∃ w ∈ flightWays s f, linkAt q d ∈ w.links ∧ (f.class = 1 → e.due ≤ s.now + oneWay w.src w.dst)
          (crosses → t.agenda = [{ e with due := late }] ∧ ∀ w x, e.ev = .remoteStorePublish w → s.strand? (RemoteWrite.key w) = some x →
             (t.strand? (RemoteWrite.key w)).map Strand.pubAt = some (max x.pubAt (late + 1))) ∧
          (¬crosses → t.agenda = [e] ∧ t.strands = s.strands)))) ∧
    (∀ q d, s.stopped.contains (linkAt q d) = true → exec (.linkStop q d) s = .next s) ∧
    (∀ q d, s.stopped.contains (linkAt q d) = false → completes (.linkStop q d) s fun t =>
       t.stopped = linkAt q d :: s.stopped ∧ t.hbm = s.hbm ∧ (s.gangs = [] → sameMemories s t) ∧
       ((∀ p ∈ s.gangs, s.gang? p.1 = some p.2 ∧ p.2.gid = p.1 ∧ p.2.phase = .resident) →
        (s.strands.map fun p => p.1).Pairwise (· < ·) → ∀ gid g, s.gang? gid = some g →
         (let hit : Prop := dieOf g.origin = dieOf q ∨ dieOf g.origin = dieOf (linkEnd q d)
          ∀ key st, s.strand? key = some st → st.gid = gid →
            (hit → st.act ≠ .ended → st.act ≠ .saving → (∀ k ∈ g.quads, cgetN t.ls (lsKey k 0xFDF00) 24 =
                machineRecord s 4 q (BitVec.ofNat 8 (dirCode d)) 0) ∧ ∃ st', t.strand? key = some st' ∧ st'.sup = true ∧
              st'.pc = 0xFC000 ∧ st'.tcause = 0x40E ∧ st'.tval = 0xFDF00) ∧
            (¬hit → t.strand? key = some st)))) ∧
    (dirCode .n = 0 ∧ dirCode .e = 1 ∧ dirCode .s = 2 ∧ dirCode .w = 3) ∧
    (∀ d, completes (.peerUnreachable d) s fun t => t.lost.contains d = true ∧ sameMemories s t ∧
       ∀ id e (n : Fin 32) k, mget? s.episodes id = some e → e.id = id → e.grp = .domain n → e.gid = 0 → e.decided = false → k < 64 →
         (let w := cget s.domtab (64 * n.val + k)
          w.getLsbD 32 = true → (w.extractLsb' 61 3).toNat = d →
          (mget? t.episodes id).map (fun e' => (e'.decided, e'.status)) = some (true, 1))) ∧
    (∀ p : Promo, (p.lost < max 8 (bitsOf s.nccfg.toNat 7 0) → exec (.packetPromotion p) s = .next s) ∧
       (max 8 (bitsOf s.nccfg.toNat 7 0) ≤ p.lost → completes (.packetPromotion p) s fun t => p ∈ t.packets ∧ sameMemories s t ∧
         t.agenda = s.agenda ∧ (∀ x ∈ t.packets, x.id = p.id → x = p) ∧ (∀ x ∈ s.packets, x.id ≠ p.id → x ∈ t.packets) ∧
         ∀ x, s.packets = [x] → x.id ≠ p.id → x.router = p.router →
           t.packets = if x.lost < p.lost ∨ x.lost = p.lost ∧ p.port < x.port then [p, x] else [x, p])) ∧
    (exec .unsupportedPacket s = .next { s with unsup := min (s.unsup + 1) (2 ^ 32 - 1) }))

/-- BOOT loads the system region of a verified image, extends its SHA-256 digest into measurement register 0, assigns DEV, 0 outside
a domain, and opens the endpoint; without verification the dies stay in reset; once booted, or held in reset, it does nothing (R15,
R380). RESET and THERMAL_RESET end every grid and clear the array, keep HBM, the host's memory, the drives and the lightship's own
state and operations, and boot again (R33, R384). What a reset keeps, and that it boots in the same step, are the model's choices
(log entry 80), and so is the form of the extension (log entry 81). -/
def Obligations.BootAndReset : Prop :=
  ∀ (s : State),
    (let verified : Prop := Config.imageVerifies s.flash = true
     let m0 := sha256 (bytesOf 32 s.measure[0] ++ bytesOf 32 (sha256 s.flash))
     (s.booted = true ∨ s.held = true → exec .boot s = .next s) ∧
     (s.booted = false → s.held = false → verified → completes .boot s fun t => t.booted = true ∧ t.held = false ∧
       t.measure[0] = m0 ∧ (∀ k : Fin 4, k ≠ 0 → t.measure[k.val] = s.measure[k.val]) ∧ t.hbm = s.hbm ∧ t.cyc = 0 ∧
       ((∀ d ∈ Config.bootDomain, d = Config.bootDev.toNat) → t.dev = 0) ∧
       ((∃ d ∈ Config.bootDomain, d ≠ Config.bootDev.toNat) → t.dev = Config.bootDev) ∧
       ∀ q a, q < 512 → a < 0x4000 → cget t.ls (lsKey q (0xFC000 + a)) = Config.systemByte s.flash a) ∧
     (s.booted = false → s.held = false → ¬verified → exec .boot s = .next { s with held := true }) ∧
     (∀ i, i = .reset ∨ i = .thermalReset → completes i s fun t => t.hbm = s.hbm ∧ t.hbmBad = s.hbmBad ∧ t.host = s.host ∧ t.disk = s.disk ∧
       t.diskPi = s.diskPi ∧ t.durable = s.durable ∧ t.tiles = [] ∧ t.acc = [] ∧ t.grids = [] ∧ t.gangs = [] ∧ t.strands = [] ∧
       t.completions = s.completions ∧ t.answers = s.answers ∧ t.records = s.records ∧ t.agenda = keptAgenda s ∧
       t.reports = s.reports ++ (s.invals.filter fun v => v.who == .lightship).map (fun _ => [0]) ∧
       t.flash = s.flash ∧ t.dscfg = 0x58546000 ∧
       t.spcfg = 0x0EA6000000000000 ∧ t.nccfg = 0x22444020 ∧ t.sncfg = 0x2 ∧ t.pwcfg = 0x6900 ∧
       (∀ q a, q < 512 → a < 0xFC000 → cget t.ls (lsKey q a) = 0) ∧
       (¬verified → t.held = true ∧ t.booted = false ∧ t.measure = s.measure) ∧
       (verified → t.booted = true ∧ t.cyc = 0 ∧ t.measure[0] = m0)))

/-- The decision of a lantern over a loaded image (R257 to R260): a candidate is ready when each of its ports has a live offer, each
buffer it pops an item, each fifo it pushes room, counting its own pop, and each test its sense; it is enabled when no candidate
that its mask names is ready. With none enabled nothing changes. Where no offer starves, the first enabled candidate at or after the
pointer fires and the pointer moves behind it; else the lowest that contains the offer longest starving, and the pointer stays.
Firing takes the heads, gives back and takes permits, sends items on their way, completes every offer of the candidate with the item
of its route, and counts once for every other offer of an enabled candidate. That a region's decision is taken as a step of its
lantern's cycle is the model's choice (log entry 51). -/
def Obligations.FiringCandidates : Prop :=
  ∀ (s : State) (m : Image) (reg : Region), s.images = [m] → m.regions = [reg] → (hl : reg.lantern < 32) →
    (∀ x ∈ s.offers, x.2.bar = false ∧ mget? s.offers x.1 = some x.2) →
    (let e := enabledCands s m reg
     let lim := (s.lnStarve[reg.lantern]).toNat
     let n := reg.cands.length
     let among (x : Nat × Offer) : Prop := ∃ j ∈ e, ∃ c, reg.cands[j]? = some c ∧ ∃ p ∈ c.ports, offerAt s m p = some x
     let holds (j : Nat) (o : Offer) : Prop := ∃ c, reg.cands[j]? = some c ∧ ∃ p ∈ c.ports, ∃ y ∈ o.ports, y.2 = p
     let since (x : Nat × Offer) : Nat := x.2.hist.getD (lim - 1) 0
     let count (c : Cand) (f : Nat) : Nat := (c.pushes.filter fun y => y == f).length
     let fires (c : Nat) (ptr : Nat) : Prop := ∀ cand, reg.cands[c]? = some cand → completes (.lanternDecision reg.lantern) s fun t =>
       sameMemories s t ∧
       (∃ m', t.images = [m'] ∧ m'.regions = [{ reg with ptr := ptr }] ∧ ∀ f x, m.fifos[f]? = some x → ∃ y, m'.fifos[f]? = some y ∧
          y.buf.items = (if (f, false) ∈ cand.pops then x.buf.items.tail else x.buf.items) ∧
          y.obuf.items = (if (f, true) ∈ cand.pops then x.obuf.items.tail else x.obuf.items) ∧
          (x.buf.closed = false → y.buf.permits = x.buf.permits - (count cand f : Int))) ∧
       (∀ p ∈ cand.pops, ∀ x, m.fifos[p.1]? = some x → posted t (s.now + bufDelay m x p.2) 2 (.permitReturn m.asid m.va p.1 p.2)) ∧
       (∀ src dst v x, (src, dst) ∈ cand.routes → 0x40 ≤ dst → dst < 0x80 → m.fifos[dst - 0x40]? = some x → x.buf.closed = false →
          sourceItem s m src = some v → posted t (s.now + bufDelay m x false) 2 (.fifoItemArrival m.asid m.va (dst - 0x40) false (some v))) ∧
       (∀ p ∈ cand.ports, ∀ id o, offerAt s m p = some (id, o) → (mget? t.offers id).map Offer.fired = some true ∧
          (let reply (st : Word) (item : Option Item) : Prop :=
             posted t (s.now + (1 + oneWay (s.quadOf o.key) (hubOf o.lantern))) 2 (.completionDelivery id o.key st item)
           (o.put = true → (∀ r ∈ cand.routes, r.1 = p → r.2 < 0x40) → (∃ r ∈ cand.routes, r.1 = p) → reply 0 none) ∧
           (o.put = true → (∀ r ∈ cand.routes, r.1 = p → r.2 = 0xFF) → reply 1 none) ∧
           (∀ src v, o.put = false → o.any = false → cand.routes.filter (fun r => r.2 == p) = [(src, p)] → sourceItem s m src = some v →
             reply 0 (some v)))) ∧
       (∀ x, among x → (∀ p ∈ cand.ports, offerAt s m p ≠ some x) → (mget? t.offers x.1).map Offer.hist =
          some (if x.2.fired = true ∨ 15 ≤ x.2.hist.length then x.2.hist else x.2.hist ++ [s.now])) ∧
       (∀ x ∈ s.offers, ¬among x → mget? t.offers x.1 = some x.2)
     (e = [] → exec (.lanternDecision reg.lantern) s = .next s) ∧
     (∀ c k, (∀ x, among x → x.2.hist.length < lim) → k < n → c = (reg.ptr + k) % n → c ∈ e → (∀ i, i < k → (reg.ptr + i) % n ∉ e) →
        fires c ((c + 1) % n)) ∧
     (∀ c x, among x → lim ≤ x.2.hist.length → (∀ y, among y → y ≠ x → lim ≤ y.2.hist.length → since x < since y) → c ∈ e → holds c x.2 →
        (∀ j ∈ e, j < c → ¬holds j x.2) → fires c reg.ptr) ∧
     (∀ j, j ∈ e ↔ ∃ c, reg.cands[j]? = some c ∧ candReady s m c = true ∧
        ∀ k d, c.excl.getLsbD k = true → reg.cands[k]? = some d → candReady s m d = false) ∧
     (∀ c, (∀ t ∈ c.tests, (sourceItem s m t.1).isSome = true) → (candReady s m c = true ↔
        (∀ p ∈ c.ports, (offerAt s m p).isSome = true) ∧
        (∀ y ∈ c.pops, ∃ f, m.fifos[y.1]? = some f ∧ (f.which y.2).items ≠ []) ∧
        (∀ f ∈ c.pushes, ∃ x, m.fifos[f]? = some x ∧
          (x.buf.closed = false → (count c f : Int) ≤ x.buf.permits + if (f, false) ∈ c.pops then 1 else 0) ∧
          (x.buf.closed = true → x.ovf = none ∨ x.obuf.closed = true ∨ (count c f : Int) ≤ x.obuf.permits)) ∧
        ∀ t ∈ c.tests, ∀ v, sourceItem s m t.1 = some v → filterHolds t.2.1 (itemWord v) (m.consts.getD t.2.2.1 0) = t.2.2.2)) ∧
     (∀ p id o, offerAt s m p = some (id, o) → o.live = true ∧ (∀ d, o.deadline = some d → s.cyc.toNat < d.toNat) ∧
        o.asid = m.asid ∧ o.va = m.va ∧ ∃ y ∈ o.ports, y.2 = p))
end

