-- ==== Sys2Proof/Laws/Codes.lean ====
section
/-! SUPPORT. Every code of an operand field reads back as what it codes (R63 to R71). -/

namespace Sys2Proof

@[simp] theorem Guard.ofCode_code (g : Guard) : Guard.ofCode g.code = g := by
  obtain ⟨p, n⟩ := g; revert p n; decide
@[simp] theorem sOf_r6 (r : Fin 32) : sOf (r6 r) = r := by revert r; decide
@[simp] theorem pOf_r6 (r : Fin 8) : pOf (r6 r) = r := by revert r; decide
@[simp] theorem tOf_r6 (r : Fin 12) : tOf (r6 r) = r := by revert r; decide
@[simp] theorem aOf_r6 (r : Fin 4) : aOf (r6 r) = r := by revert r; decide
@[simp] theorem Grp.ofCode_code (x : Grp) : Grp.ofCode x.code = x := by
  cases x with
  | gang k => revert k; decide
  | domain n => revert n; decide
@[simp] theorem Pat.ofCode_code (x : Pat) : Pat.ofCode x.code = x := by
  cases x with
  | none => rfl
  | rev => rfl
  | rot k => revert k; decide
  | xor k => revert k; decide
  | bcast k => revert k; decide
  | gbcast k => revert k; decide
@[simp] theorem rmOf_modRm (s : Bool) (r : Rm) : rmOf (modRm s r) = r := by cases s <;> cases r <;> rfl
@[simp] theorem satOf_modRm (s : Bool) (r : Rm) : satOf (modRm s r) = s := by cases s <;> cases r <;> rfl
@[simp] theorem modeOf_modMem (o : Order) (m : Mode) : modeOf (modMem o m) = m := by cases o <;> cases m <;> rfl
@[simp] theorem orderOf_modMem (o : Order) (m : Mode) : orderOf (modMem o m) = o := by cases o <;> cases m <;> rfl

@[simp] theorem MulhKind.ofCode_fn (x : MulhKind) : MulhKind.ofCode (BitVec.ofNat 6 x.code).toNat = x := by cases x <;> rfl
@[simp] theorem Cond.ofCode_fn (x : Cond) : Cond.ofCode (BitVec.ofNat 6 x.code).toNat = x := by cases x <;> rfl
@[simp] theorem BrCond.ofCode_fn (x : BrCond) : BrCond.ofCode (BitVec.ofNat 6 x.code).toNat = x := by cases x <;> rfl
@[simp] theorem FCond.ofCode_fn (x : FCond) : FCond.ofCode (BitVec.ofNat 6 x.code).toNat = x := by cases x <;> rfl
@[simp] theorem VCond.ofCode_fn (x : VCond) : VCond.ofCode (BitVec.ofNat 6 x.code).toNat = x := by cases x <;> rfl
@[simp] theorem PlogOp.ofCode_fn (x : PlogOp) : PlogOp.ofCode (BitVec.ofNat 6 x.code).toNat = x := by cases x <;> rfl
@[simp] theorem FaField.ofCode_fn (q : FaField) : FaField.ofCode (BitVec.ofNat 6 q.code).toNat = q := by cases q <;> rfl
@[simp] theorem Scope.ofCode_fn (x : Scope) : Scope.ofCode (BitVec.ofNat 6 x.code).toNat = x := by cases x <;> rfl
@[simp] theorem Fmt.ofCode_fn (x : Fmt) : Fmt.ofCode (BitVec.ofNat 6 x.code).toNat = x := by cases x <;> rfl
@[simp] theorem fnBool (u : Bool) : ((BitVec.ofNat 6 (b2n u)).toNat == 1) = u := by cases u <;> rfl
@[simp] theorem fnBit (u : Bool) : (BitVec.ofNat 6 (b2n u)).getLsbD 0 = u := by cases u <;> rfl

theorem VOp.read (o : VOp) : (⟨sOf (r6 o.r), Pat.ofCode o.pat.code⟩ : VOp) = o := by simp
theorem rt32 (i : BitVec 32) : (i.setWidth 64).setWidth 32 = i := by
  rw [BitVec.setWidth_setWidth_of_le _ (by decide), BitVec.setWidth_eq]
theorem rt12 (i : BitVec 12) : ((i.setWidth 32).setWidth 64).setWidth 12 = i := by
  rw [BitVec.setWidth_setWidth_of_le _ (by decide), BitVec.setWidth_setWidth_of_le _ (by decide), BitVec.setWidth_eq]
theorem rt8 (i : BitVec 8) : (i.setWidth 64).setWidth 8 = i := by
  rw [BitVec.setWidth_setWidth_of_le _ (by decide), BitVec.setWidth_eq]
theorem rt8w (i : BitVec 8) : ((i.setWidth 32).setWidth 64).setWidth 8 = i := by
  rw [BitVec.setWidth_setWidth_of_le _ (by decide), BitVec.setWidth_setWidth_of_le _ (by decide), BitVec.setWidth_eq]
theorem rt3 (i : BitVec 3) : (i.setWidth 6).setWidth 3 = i := by revert i; decide
theorem rows_low (rows : BitVec 20) (rowb : BitVec 32) : ((rows.setWidth 32) ++ rowb).setWidth 32 = rowb := by
  apply BitVec.eq_of_toNat_eq
  simp only [BitVec.toNat_setWidth, BitVec.toNat_append, Nat.shiftLeft_eq]
  rw [Nat.mul_comm, ← Nat.two_pow_add_eq_or_of_lt rowb.isLt]; omega
theorem rows_high (rows : BitVec 20) (rowb : BitVec 32) : ((rows.setWidth 32) ++ rowb).extractLsb' 32 20 = rows := by
  apply BitVec.eq_of_toNat_eq
  simp only [BitVec.extractLsb'_toNat, BitVec.toNat_setWidth, BitVec.toNat_append, Nat.shiftLeft_eq, Nat.shiftRight_eq_div_pow]
  rw [Nat.mul_comm, ← Nat.two_pow_add_eq_or_of_lt rowb.isLt]; omega
theorem field_pos (pos : BitVec 6) (len : BitVec 7) :
    (BitVec.ofNat 64 (pos.toNat + 256 * len.toNat)).setWidth 6 = pos := by
  apply BitVec.eq_of_toNat_eq
  simp only [BitVec.toNat_setWidth, BitVec.toNat_ofNat]; omega
theorem field_len (pos : BitVec 6) (len : BitVec 7) :
    (BitVec.ofNat 64 (pos.toNat + 256 * len.toNat)).extractLsb' 8 7 = len := by
  apply BitVec.eq_of_toNat_eq
  simp only [BitVec.extractLsb'_toNat, BitVec.toNat_ofNat, Nat.shiftRight_eq_div_pow]; omega
theorem job_read (j : SReg) : (Fin.ofNat 32 (BitVec.ofNat 64 j.val).toNat : SReg) = j := by revert j; decide
theorem sbj_read (x : SReg × SReg) :
    ((Fin.ofNat 32 ((BitVec.ofNat 64 (x.2.val + 64 * x.1.val)).toNat / 64) : SReg),
     (Fin.ofNat 32 (BitVec.ofNat 64 (x.2.val + 64 * x.1.val)).toNat : SReg)) = x := by
  obtain ⟨s, j⟩ := x
  simp only [BitVec.toNat_ofNat, Prod.mk.injEq, Fin.ext_iff, Fin.ofNat]
  omega
theorem slot_low (k : Fin 8) : Fin.ofNat 8 (BitVec.ofNat 6 k.val).toNat = k := by revert k; decide
theorem slot_cls (k : Fin 8) (n : Fin 2) : Fin.ofNat 8 (BitVec.ofNat 6 (k.val + 8 * n.val)).toNat = k := by
  revert k n; decide
theorem slot_bit (k : Fin 8) (n : Fin 2) : (BitVec.ofNat 6 (k.val + 8 * n.val)).getLsbD 3 = decide (n = 1) := by
  revert k n; decide
theorem part_low (p : BitVec 2) (u : Bool) : (BitVec.ofNat 6 (p.toNat + 4 * b2n u)).setWidth 2 = p := by revert p u; decide
theorem part_u (p : BitVec 2) (u : Bool) : (BitVec.ofNat 6 (p.toNat + 4 * b2n u)).getLsbD 2 = u := by revert p u; decide
theorem lt32 (i : BitVec 32) : (i.setWidth 64).toNat < 2 ^ 32 := by rw [BitVec.toNat_setWidth]; omega
theorem lt32_job (j : SReg) : (BitVec.ofNat 64 j.val).toNat < 2 ^ 32 := by rw [BitVec.toNat_ofNat]; omega
theorem lt32_sbj (x : SReg × SReg) : (BitVec.ofNat 64 (x.2.val + 64 * x.1.val)).toNat < 2 ^ 32 := by
  rw [BitVec.toNat_ofNat]; omega
theorem lt32_field (pos : BitVec 6) (len : BitVec 7) : (BitVec.ofNat 64 (pos.toNat + 256 * len.toNat)).toNat < 2 ^ 32 := by
  rw [BitVec.toNat_ofNat]; omega

theorem append_toNat {m n : Nat} (x : BitVec m) (y : BitVec n) : (x ++ y).toNat = y.toNat + 2 ^ n * x.toNat := by
  rw [BitVec.toNat_append, Nat.shiftLeft_eq, Nat.mul_comm, ← Nat.two_pow_add_eq_or_of_lt y.isLt, Nat.add_comm]

/-- The bits above 63 are those the length code keeps. -/
def Fields.canonical (f : Fields) : Prop := (f.l = 0 ∧ f.ext = 0) ∨ (f.l = 1 ∧ f.ext.toNat < 2 ^ 32) ∨ f.l = 2

/-- Reading back the image of canonical fields. -/
theorem Fields.ofBits_toBits (f : Fields) (h : f.canonical) : Fields.ofBits f.toBits = f := by
  obtain ⟨l, op, g, d, a, b, c, fn, lpa, lpb, mod, ext⟩ := f
  have e : extMask l ext = ext := by
    rcases h with ⟨h, h'⟩ | ⟨h, h'⟩ | h <;> simp only at h
    · simp only at h'; simp [extMask, h, h']
    · simp only at h'
      simp only [extMask, h]
      apply BitVec.eq_of_toNat_eq
      simp; omega
    · simp [extMask, h]
  have N : (Fields.toBits ⟨l, op, g, d, a, b, c, fn, lpa, lpb, mod, ext⟩).toNat =
      l.toNat + 2 ^ 2 * (op.toNat + 2 ^ 8 * (g.toNat + 2 ^ 4 * (d.toNat + 2 ^ 6 * (a.toNat + 2 ^ 6 * (b.toNat +
      2 ^ 6 * (c.toNat + 2 ^ 6 * (fn.toNat + 2 ^ 6 * (lpa.toNat + 2 ^ 8 * (lpb.toNat + 2 ^ 8 * (mod.toNat +
      2 ^ 4 * ext.toNat)))))))))) := by
    simp only [Fields.toBits, append_toNat]; omega
  have piece {n k : Nat} (v : BitVec n) (q : (Fields.toBits ⟨l, op, g, d, a, b, c, fn, lpa, lpb, mod, ext⟩).toNat / 2 ^ k % 2 ^ n
      = v.toNat) : (Fields.toBits ⟨l, op, g, d, a, b, c, fn, lpa, lpb, mod, ext⟩).extractLsb' k n = v := by
    apply BitVec.eq_of_toNat_eq
    rw [BitVec.extractLsb'_toNat, Nat.shiftRight_eq_div_pow, q]
  have hl := piece (k := 0) l (by rw [N]; omega)
  have he := piece (k := 64) ext (by rw [N]; omega)
  simp only [Fields.ofBits, Fields.mk.injEq, hl, he, e, and_true, true_and]
  exact ⟨piece op (by rw [N]; omega), piece g (by rw [N]; omega), piece d (by rw [N]; omega),
    piece a (by rw [N]; omega), piece b (by rw [N]; omega), piece c (by rw [N]; omega), piece fn (by rw [N]; omega),
    piece lpa (by rw [N]; omega), piece lpb (by rw [N]; omega), piece mod (by rw [N]; omega)⟩

theorem fmt_low (t : Fmt) : Fmt.ofCode ((BitVec.ofNat 6 t.code).toNat % 16) = t := by cases t <;> rfl
theorem fmt_u (t : Fmt) (u : Bool) : Fmt.ofCode ((BitVec.ofNat 6 (t.code + 16 * b2n u)).toNat % 16) = t := by
  cases t <;> cases u <;> rfl
theorem u_fmt (t : Fmt) (u : Bool) : (BitVec.ofNat 6 (t.code + 16 * b2n u)).getLsbD 4 = u := by
  cases t <;> cases u <;> rfl
theorem fmt_u2 (t : Fmt) (u : Bool) : Fmt.ofCode ((BitVec.ofNat 6 (t.code + 16 * b2n u + 32)).toNat % 16) = t := by
  cases t <;> cases u <;> rfl
theorem u2_fmt (t : Fmt) (u : Bool) : (BitVec.ofNat 6 (t.code + 16 * b2n u + 32)).getLsbD 4 = u := by
  cases t <;> cases u <;> rfl
theorem one_run (t : Fmt) (u : Bool) (o : VOp) :
    (if (BitVec.ofNat 6 (t.code + 16 * b2n u)).getLsbD 5 then some o else none) = none := by
  cases t <;> cases u <;> rfl
theorem two_runs (t : Fmt) (u : Bool) (o : VOp) :
    (if (BitVec.ofNat 6 (t.code + 16 * b2n u + 32)).getLsbD 5 then
      some (⟨sOf (r6 o.r), Pat.ofCode o.pat.code⟩ : VOp) else none) = some o := by
  rw [VOp.read]; cases t <;> cases u <;> rfl
theorem fmt_w (t : Fmt) (w : Wide) : Fmt.ofCode ((BitVec.ofNat 6 (t.code + 16 * w.code)).toNat % 16) = t := by
  cases t <;> cases w <;> rfl
theorem w_fmt (t : Fmt) (w : Wide) : Wide.ofCode ((BitVec.ofNat 6 (t.code + 16 * w.code)).toNat / 16) = w := by
  cases t <;> cases w <;> rfl
theorem fmt_o (t : Fmt) (o : RedOp) : Fmt.ofCode ((BitVec.ofNat 6 (t.code + 16 * o.code)).toNat % 16) = t := by
  cases t <;> cases o <;> rfl
theorem o_fmt (t : Fmt) (o : RedOp) : RedOp.ofCode ((BitVec.ofNat 6 (t.code + 16 * o.code)).toNat / 16) = o := by
  cases t <;> cases o <;> rfl
theorem ldw_low (y : LdW) : LdW.ofCode ((BitVec.ofNat 6 y.code).toNat % 8) = y := by cases y <;> rfl
theorem ldw_p (y : LdW) (p : Bool) : LdW.ofCode ((BitVec.ofNat 6 (y.code + 8 * b2n p)).toNat % 8) = y := by
  cases y <;> cases p <;> rfl
theorem p_ldw (y : LdW) (p : Bool) : (BitVec.ofNat 6 (y.code + 8 * b2n p)).getLsbD 3 = p := by
  cases y <;> cases p <;> rfl
theorem stw_low (y : StW) : StW.ofCode ((BitVec.ofNat 6 y.code).toNat % 8) = y := by cases y <;> rfl
theorem stw_p (y : StW) (p : Bool) : StW.ofCode ((BitVec.ofNat 6 (y.code + 8 * b2n p)).toNat % 8) = y := by
  cases y <;> cases p <;> rfl
theorem p_stw (y : StW) (p : Bool) : (BitVec.ofNat 6 (y.code + 8 * b2n p)).getLsbD 3 = p := by
  cases y <;> cases p <;> rfl
theorem p_v (p : Bool) : (BitVec.ofNat 6 (0 + 8 * b2n p)).getLsbD 3 = p := by cases p <;> rfl
theorem acq_read (q : Bool) (m : Mode) : (orderOf (modMem (if q then .acq else .plain) m) == .acq) = q := by
  cases q <;> cases m <;> rfl
theorem acq_mode (q : Bool) (m : Mode) : modeOf (modMem (if q then .acq else .plain) m) = m := by
  cases q <;> cases m <;> rfl
theorem rel_read (q : Bool) (m : Mode) : (orderOf (modMem (if q then .rel else .plain) m) == .rel) = q := by
  cases q <;> cases m <;> rfl
theorem rel_mode (q : Bool) (m : Mode) : modeOf (modMem (if q then .rel else .plain) m) = m := by
  cases q <;> cases m <;> rfl
theorem amo_op (o : AmoOp) (w : Bool) : AmoOp.ofCode ((BitVec.ofNat 6 (o.code + 16 * b2n w)).toNat % 16) = o := by
  cases o <;> cases w <;> rfl
theorem amo_dw (o : AmoOp) (w : Bool) : (BitVec.ofNat 6 (o.code + 16 * b2n w)).getLsbD 4 = w := by
  cases o <;> cases w <;> rfl
theorem path_src (x y : Path) : Path.ofCode ((BitVec.ofNat 6 (4 * x.code + y.code)).toNat / 4) = x := by
  cases x <;> cases y <;> rfl
theorem path_dst (x y : Path) : Path.ofCode ((BitVec.ofNat 6 (4 * x.code + y.code)).toNat % 4) = y := by
  cases x <;> cases y <;> rfl
theorem dir_low (x : Dir) : Dir.ofCode ((BitVec.ofNat 6 x.code).toNat % 8) = x := by cases x <;> rfl
theorem dir_high (x : Dir) : Dir.ofCode ((BitVec.ofNat 6 (x.code + 8)).toNat % 8) = x := by cases x <;> rfl
theorem sendn_s (x : Dir) (d a : SReg) : (if (BitVec.ofNat 6 x.code).getLsbD 3 then
    SendnRegs.v (sOf (r6 d)) (sOf (r6 a)) else .s (sOf (r6 d)) (sOf (r6 a))) = .s d a := by
  rw [sOf_r6, sOf_r6]; cases x <;> rfl
theorem sendn_v (x : Dir) (d a : VReg) : (if (BitVec.ofNat 6 (x.code + 8)).getLsbD 3 then
    SendnRegs.v (sOf (r6 d)) (sOf (r6 a)) else .s (sOf (r6 d)) (sOf (r6 a))) = .v d a := by
  rw [sOf_r6, sOf_r6]; cases x <;> rfl
theorem slot_sv (k : Fin 8) (x : SV) : svOf ((BitVec.ofNat 6 (k.val + 8 * x.cls)).getLsbD 3) (r6 x.num) = x := by
  cases x with
  | s r => rw [show SV.cls (.s r) = (0 : Fin 2).val from rfl, slot_bit]; exact congrArg SV.s (sOf_r6 r)
  | v r => rw [show SV.cls (.v r) = (1 : Fin 2).val from rfl, slot_bit]; exact congrArg SV.v (sOf_r6 r)
theorem slot_k (k : Fin 8) (x : SV) : Fin.ofNat 8 (BitVec.ofNat 6 (k.val + 8 * x.cls)).toNat = k := by
  cases x with
  | s r => exact slot_cls k 0
  | v r => exact slot_cls k 1
theorem mcast_k (k : Fin 8) (v : Bool) : Fin.ofNat 8 (BitVec.ofNat 6 (k.val + 8 * b2n v)).toNat = k := by revert k v; decide
theorem mcast_v (k : Fin 8) (v : Bool) : (BitVec.ofNat 6 (k.val + 8 * b2n v)).getLsbD 3 = v := by revert k v; decide
theorem plan_reg (r : PlanReg) (c : Bool) : PlanReg.ofCode ((BitVec.ofNat 6 (r.code + 4 * b2n c)).toNat % 4) = r := by
  cases r <;> cases c <;> rfl
theorem plan_ctx (r : PlanReg) (c : Bool) : (BitVec.ofNat 6 (r.code + 4 * b2n c)).getLsbD 2 = c := by
  cases r <;> cases c <;> rfl

theorem sv_read (x : SV) : svOf ((BitVec.ofNat 6 x.cls).getLsbD 0) (r6 x.num) = x := by
  cases x <;> simp [svOf, SV.cls, SV.num]
theorem two_bit (u : Bool) : (BitVec.ofNat 6 (2 + b2n u)).getLsbD 0 = u := by cases u <;> rfl
theorem bit_two (u : Bool) : (BitVec.ofNat 6 (b2n u + 2)).getLsbD 0 = u := by cases u <;> rfl
theorem cap_idx (u : Bool) (a : SReg) (e : BitVec 64) (x y : SReg) :
    (if (0 : BitVec 2) = 2 then CapForm.idxImm (e.setWidth 8)
     else if (BitVec.ofNat 6 (b2n u)).getLsbD 1 then .other x y else .idx (sOf (r6 a))) = .idx a := by
  rw [sOf_r6]; cases u <;> rfl
theorem cap_imm (i : BitVec 8) (y : CapForm) :
    (if (2 : BitVec 2) = 2 then CapForm.idxImm ((i.setWidth 64).setWidth 8) else y) = .idxImm i := by
  rw [rt8]; rfl
theorem cap_other (u : Bool) (a b : SReg) (e : BitVec 64) (x : SReg) :
    (if (0 : BitVec 2) = 2 then CapForm.idxImm (e.setWidth 8)
     else if (BitVec.ofNat 6 (2 + b2n u)).getLsbD 1 then .other (sOf (r6 a)) (sOf (r6 b)) else .idx x) = .other a b := by
  rw [sOf_r6, sOf_r6]; cases u <;> rfl
theorem lane_imm (u : Bool) (k : Fin 32) (x : SReg) :
    (if (BitVec.ofNat 6 (b2n u)).getLsbD 1 then LaneSel.reg x else .imm (sOf (r6 k))) = .imm k := by
  rw [sOf_r6]; cases u <;> rfl
theorem lane_reg (u : Bool) (b : SReg) (x : Fin 32) :
    (if (BitVec.ofNat 6 (b2n u + 2)).getLsbD 1 then LaneSel.reg (sOf (r6 b)) else .imm x) = .reg b := by
  rw [sOf_r6]; cases u <;> rfl

@[simp] theorem rel_beq (r : Bool) : ((if r = true then Order.rel else Order.plain) == Order.rel) = r := by cases r <;> rfl
theorem vins_imm (k : Fin 32) (x : SReg) :
    (if (BitVec.ofNat 6 0).getLsbD 0 then LaneSel.reg x else .imm (sOf (r6 k))) = .imm k := by
  rw [sOf_r6]; rfl
theorem vins_reg (b : SReg) (x : Fin 32) :
    (if (BitVec.ofNat 6 1).getLsbD 0 then LaneSel.reg (sOf (r6 b)) else .imm x) = .reg b := by
  rw [sOf_r6]; rfl
theorem lse_col (c col : Bool) : (BitVec.ofNat 6 (b2n c + 2 * b2n col)).getLsbD 1 = col := by cases c <;> cases col <;> rfl
theorem lse_ctx (c col : Bool) : (BitVec.ofNat 6 (b2n c + 2 * b2n col)).getLsbD 0 = c := by cases c <;> cases col <;> rfl

end Sys2Proof
end

