-- ==== Sys2Proof/Laws/Issue.lean ====
section
/-! SUPPORT. What the issue of an instruction does when the instruction is ready. -/

namespace Sys2Proof.Machine

/-- A ready instruction answers what its body makes of the issued state. -/
theorem issue_ready {i : Instr} {s : State} {st : Strand} {gang : Gang} (body : Strand → Gang → Lane → State → Res)
    (hc : current s = some (st, gang)) (hr : ready i s = true) :
    issue i (Instr.grd i) body s = finish (s.setStrand s.cur st) (served s) st.pc i.len (body st gang (maskOf i st) (issued i s)) := by
  unfold ready at hr
  rw [hc] at hr
  simp only [admitted, unblocked, guardOn, Bool.and_eq_true, Bool.not_eq_true', Option.isNone_iff_eq_none] at hr
  obtain ⟨⟨⟨hp, hi⟩, ⟨hw, hu⟩, hm⟩, hg⟩ := hr
  unfold current at hc
  split at hc
  · next st0 g0 h1 h2 =>
    obtain ⟨rfl, rfl⟩ := Prod.mk.inj (Option.some.inj hc)
    have hi' : (((s.setStrand s.cur (settle st0 s.now)).headerOf (settle st0 s.now).gid).bind fun h =>
        (Instr.uses i).findSome? (illreg? h)) = none := hi
    have hl : (!Instr.laneGuard i && !(guardMask (settle st0 s.now) (Instr.grd i)).getLsbD 0) = false := by
      rw [← Bool.not_or, hg]; rfl
    have hb : ((Instr.uses i).any (useBusy (Instr.laneGuard i) (settle st0 s.now)) || (Instr.memOp i && !drained s.now (settle st0 s.now)
        (settle st0 s.now).hold)) = false := by rw [hu, hm]; rfl
    simp only [issue, h1, h2, hp, hi', hw, hl, hb, issued, served, current, maskOf, Bool.false_eq_true, if_false]
    rfl
  · exact absurd hc nofun

/-- A ready instruction whose body traps leaves the state that it found, but for its issue and the trap (R329). -/
theorem issue_ready_trap {i : Instr} {s : State} {st : Strand} {gang : Gang} {body : Strand → Gang → Lane → State → Res} {c sub : Nat}
    {v : Word} (hc : current s = some (st, gang)) (hr : ready i s = true) (hb : body st gang (maskOf i st) (issued i s) = .trap c sub v) :
    issue i (Instr.grd i) body s = .next (preciseTrap (s.setStrand s.cur st) (served s) st.pc c sub v) := by
  rw [issue_ready body hc hr, hb]
  rfl

/-- With no result owed, a trap is taken at once. -/
theorem preciseTrap_now {s0 s : State} {pc : BitVec 20} {c sub : Nat} {v : Word} (h : owesResults s0 s0.cur = false) :
    preciseTrap s0 s pc c sub v = takeTrap s s.cur (pc.setWidth 64) c sub v := by
  simp [preciseTrap, h, trapCur]

end Sys2Proof.Machine
end

