-- ==== Sys2Proof/Laws/Maps.lean ====
section
/-! SUPPORT. Laws of the sparse maps: reads after writes, and that every operation keeps the canonical form. -/

namespace Sys2Proof.Machine

/-! ### Maps of any data -/

theorem mget?_mset_same {α : Type} (m : SMap α) (k : Nat) (v : α) : mget? (mset m k v) k = some v := by
  induction m with
  | nil => simp [mset, mget?]
  | cons c t ih =>
    obtain ⟨j, x⟩ := c
    simp only [mset]
    split
    · simp [mget?]
    · split
      · simp [mget?]
      · next h => simp [mget?, Ne.symm h, ih]

theorem mget?_mset_other {α : Type} (m : SMap α) {k j : Nat} (v : α) (h : j ≠ k) : mget? (mset m k v) j = mget? m j := by
  induction m with
  | nil => simp [mset, mget?, Ne.symm h]
  | cons c t ih =>
    obtain ⟨i, x⟩ := c
    simp only [mset]
    split
    · simp [mget?, Ne.symm h]
    · split
      · next e => subst e; simp [mget?, Ne.symm h]
      · simp [mget?, ih]

theorem mget?_merase_same {α : Type} (m : SMap α) (k : Nat) : mget? (merase m k) k = none := by
  induction m with
  | nil => rfl
  | cons c t ih =>
    obtain ⟨i, x⟩ := c
    by_cases e : i = k
    · simpa [merase, e] using ih
    · simpa [merase, e, mget?] using ih

theorem mget?_merase_other {α : Type} (m : SMap α) {k j : Nat} (h : j ≠ k) : mget? (merase m k) j = mget? m j := by
  induction m with
  | nil => rfl
  | cons c t ih =>
    obtain ⟨i, x⟩ := c
    by_cases e : i = k
    · subst e; simpa [merase, mget?, Ne.symm h] using ih
    · by_cases e' : i = j
      · simp [merase, e', mget?, h]
      · simpa [merase, e, e', mget?] using ih

/-! ### Maps of cells -/

theorem cwfFrom_mono {w : Nat} {a b : Nat} (m : CMap w) (h : a ≤ b) (hw : cwfFrom b m = true) : cwfFrom a m = true := by
  cases m with
  | nil => rfl
  | cons c t =>
    simp only [cwfFrom, Bool.and_eq_true, decide_eq_true_eq] at hw ⊢
    exact ⟨⟨by omega, hw.1.2⟩, hw.2⟩

/-- A key below every listed key reads as 0. -/
theorem cget_below {w : Nat} (m : CMap w) {lo k : Nat} (hw : cwfFrom lo m = true) (h : k < lo) : cget m k = 0 := by
  induction m generalizing lo with
  | nil => rfl
  | cons c t ih =>
    simp only [cwfFrom, Bool.and_eq_true, decide_eq_true_eq] at hw
    have : c.1 ≠ k := by omega
    simp only [cget, this, if_false]
    exact ih hw.2 (by omega)

/-- A cell map read as the map of its entries. -/
theorem cget_eq {w : Nat} (m : CMap w) (k : Nat) : cget m k = (mget? m k).getD 0 := by
  induction m with
  | nil => rfl
  | cons c t ih => simp only [cget, mget?]; split <;> simp_all

theorem cget_cset_other {w : Nat} (m : CMap w) {k j : Nat} (v : BitVec w) (h : j ≠ k) : cget (cset m k v) j = cget m j := by
  unfold cset
  split <;> simp [cget_eq, mget?_merase_other, mget?_mset_other, h]

theorem cget_cset_same {w : Nat} (m : CMap w) (k : Nat) (v : BitVec w) : cget (cset m k v) k = v := by
  unfold cset
  split <;> simp_all [cget_eq, mget?_merase_same, mget?_mset_same]

theorem mset_wfFrom {w : Nat} (m : CMap w) {lo : Nat} (k : Nat) (v : BitVec w) (hv : v ≠ 0) (h : lo ≤ k) (hw : cwfFrom lo m = true) :
    cwfFrom lo (mset m k v) = true := by
  induction m generalizing lo with
  | nil => simp only [mset, cwfFrom, Bool.and_eq_true, decide_eq_true_eq, bne_iff_ne]; exact ⟨⟨h, hv⟩, trivial⟩
  | cons c t ih =>
    obtain ⟨i, x⟩ := c
    simp only [cwfFrom, Bool.and_eq_true, decide_eq_true_eq, bne_iff_ne] at hw
    unfold mset
    split
    · next hk => simp only [cwfFrom, Bool.and_eq_true, decide_eq_true_eq, bne_iff_ne]; exact ⟨⟨h, hv⟩, ⟨by omega, hw.1.2⟩, hw.2⟩
    · split
      · next e => subst e; simp only [cwfFrom, Bool.and_eq_true, decide_eq_true_eq, bne_iff_ne]; exact ⟨⟨h, hv⟩, hw.2⟩
      · next h1 h2 =>
        simp only [cwfFrom, Bool.and_eq_true, decide_eq_true_eq, bne_iff_ne]
        exact ⟨hw.1, ih (show i + 1 ≤ k by omega) hw.2⟩

theorem filter_wf {w : Nat} (m : CMap w) (p : Nat × BitVec w → Bool) (hw : Memory.wf m = true) :
    Memory.wf (m.filter p) = true := by
  unfold Memory.wf at *
  generalize 0 = lo at hw ⊢
  induction m generalizing lo with
  | nil => rfl
  | cons c t ih =>
    simp only [cwfFrom, Bool.and_eq_true, decide_eq_true_eq] at hw
    by_cases h : p c = true
    · rw [List.filter_cons_of_pos h]
      simp only [cwfFrom, Bool.and_eq_true, decide_eq_true_eq]
      exact ⟨hw.1, ih _ hw.2⟩
    · rw [List.filter_cons_of_neg h]; exact cwfFrom_mono _ (by omega) (ih _ hw.2)

/-- A write keeps the canonical form. -/
theorem cset_wf {w : Nat} (m : CMap w) (k : Nat) (v : BitVec w) (hw : Memory.wf m = true) : Memory.wf (cset m k v) = true := by
  unfold cset
  split
  · exact filter_wf m _ hw
  · next hv => exact mset_wfFrom m k v hv (Nat.zero_le k) hw

/-- Writing a string of cells keeps the canonical form. -/
theorem csetN_wf {w : Nat} (m : CMap w) (k : Nat) (l : List (BitVec w)) (hw : Memory.wf m = true) :
    Memory.wf (csetN m k l) = true := by
  induction l generalizing m k with
  | nil => exact hw
  | cons v t ih => exact ih _ _ (cset_wf m k v hw)

/-- Clearing a range keeps the canonical form. -/
theorem cclear_wf {w : Nat} (m : CMap w) (lo hi : Nat) (hw : Memory.wf m = true) : Memory.wf (cclear m lo hi) = true :=
  filter_wf m _ hw

/-- Pasting a slice keeps the canonical form, whatever the slice. -/
theorem cpaste_wf {w : Nat} (m : CMap w) (base : Nat) (sl : CMap w) (hw : Memory.wf m = true) :
    Memory.wf (cpaste m base sl) = true := by
  unfold cpaste
  induction sl generalizing m with
  | nil => exact hw
  | cons c t ih => exact ih _ (cset_wf m _ _ hw)

/-- A read outside a written string of cells. -/
theorem cget_csetN_other {w : Nat} (m : CMap w) (k a : Nat) (l : List (BitVec w)) (h : a < k ∨ k + l.length ≤ a) :
    cget (csetN m k l) a = cget m a := by
  induction l generalizing m k with
  | nil => rfl
  | cons v t ih =>
    simp only [List.length_cons] at h
    rw [csetN, ih _ _ (by omega), cget_cset_other m v (show a ≠ k by omega)]

/-- Reading back a written string of cells. -/
theorem cgetN_csetN {w : Nat} (m : CMap w) (k : Nat) (l : List (BitVec w)) :
    cgetN (csetN m k l) k l.length = l := by
  induction l generalizing m k with
  | nil => rfl
  | cons v t ih =>
    rw [List.length_cons, cgetN, csetN, ih, cget_csetN_other _ _ _ _ (Or.inl (Nat.lt_succ_self k)), cget_cset_same]

end Sys2Proof.Machine
end

