-- ==== Sys2Proof/Laws/PerInstr.lean ====
section
/-! SUPPORT. Every instruction reads back from the fields it encodes to: one lemma per constructor. -/

namespace Sys2Proof.Laws.Reads

/-- The fields that an instruction encodes to read as that instruction (R60 to R72) and have nothing above its length. -/
def Statement (i : Instr) : Prop := ∀ f, encodeFields i = some f → rawDecode f = some i ∧ f.canonical

/-- A step of the device has no encoding. -/
theorem none_of {i : Instr} (h : encodeFields i = none) : Statement i := fun f q => by rw [h] at q; exact absurd q nofun

theorem nop (g : Guard) : Statement (.nop g) := by
  intro fs h
  cases h
  exact ⟨congrArg some (congrArg Instr.nop (Guard.ofCode_code _)), .inl ⟨rfl, rfl⟩⟩

theorem add (g : Guard) (d : SReg) (a : SReg) (b : Src) : Statement (.add g d a b) := by
  intro fs h
  match b, h with
  | .reg r_b, h => cases h; exact ⟨congrArg some (congr (congr (congr (congrArg Instr.add (Guard.ofCode_code _)) (sOf_r6 _)) (sOf_r6 _)) (congrArg Src.reg (sOf_r6 _))), .inl ⟨rfl, rfl⟩⟩
  | .imm32 i_b, h => cases h; exact ⟨congrArg some (congr (congr (congr (congrArg Instr.add (Guard.ofCode_code _)) (sOf_r6 _)) (sOf_r6 _)) (congrArg Src.imm32 (rt32 _))), .inr (.inl ⟨rfl, lt32 _⟩)⟩
  | .imm64 i_b, h => cases h; exact ⟨congrArg some (congr (congr (congr (congrArg Instr.add (Guard.ofCode_code _)) (sOf_r6 _)) (sOf_r6 _)) (congrArg Src.imm64 (rfl))), .inr (.inr rfl)⟩

theorem sub (g : Guard) (d : SReg) (a : SReg) (b : Src) : Statement (.sub g d a b) := by
  intro fs h
  match b, h with
  | .reg r_b, h => cases h; exact ⟨congrArg some (congr (congr (congr (congrArg Instr.sub (Guard.ofCode_code _)) (sOf_r6 _)) (sOf_r6 _)) (congrArg Src.reg (sOf_r6 _))), .inl ⟨rfl, rfl⟩⟩
  | .imm32 i_b, h => cases h; exact ⟨congrArg some (congr (congr (congr (congrArg Instr.sub (Guard.ofCode_code _)) (sOf_r6 _)) (sOf_r6 _)) (congrArg Src.imm32 (rt32 _))), .inr (.inl ⟨rfl, lt32 _⟩)⟩
  | .imm64 i_b, h => cases h; exact ⟨congrArg some (congr (congr (congr (congrArg Instr.sub (Guard.ofCode_code _)) (sOf_r6 _)) (sOf_r6 _)) (congrArg Src.imm64 (rfl))), .inr (.inr rfl)⟩

theorem mul (g : Guard) (d : SReg) (a : SReg) (b : Src) : Statement (.mul g d a b) := by
  intro fs h
  match b, h with
  | .reg r_b, h => cases h; exact ⟨congrArg some (congr (congr (congr (congrArg Instr.mul (Guard.ofCode_code _)) (sOf_r6 _)) (sOf_r6 _)) (congrArg Src.reg (sOf_r6 _))), .inl ⟨rfl, rfl⟩⟩
  | .imm32 i_b, h => cases h; exact ⟨congrArg some (congr (congr (congr (congrArg Instr.mul (Guard.ofCode_code _)) (sOf_r6 _)) (sOf_r6 _)) (congrArg Src.imm32 (rt32 _))), .inr (.inl ⟨rfl, lt32 _⟩)⟩
  | .imm64 i_b, h => cases h; exact ⟨congrArg some (congr (congr (congr (congrArg Instr.mul (Guard.ofCode_code _)) (sOf_r6 _)) (sOf_r6 _)) (congrArg Src.imm64 (rfl))), .inr (.inr rfl)⟩

theorem mulh (g : Guard) (k : MulhKind) (d : SReg) (a : SReg) (b : Src) : Statement (.mulh g k d a b) := by
  intro fs h
  match b, h with
  | .reg r_b, h => cases h; exact ⟨congrArg some (congr (congr (congr (congr (congrArg Instr.mulh (Guard.ofCode_code _)) (by first | (exact MulhKind.ofCode_fn _) | (cases k <;> rfl))) (sOf_r6 _)) (sOf_r6 _)) (congrArg Src.reg (sOf_r6 _))), .inl ⟨rfl, rfl⟩⟩
  | .imm32 i_b, h => cases h; exact ⟨congrArg some (congr (congr (congr (congr (congrArg Instr.mulh (Guard.ofCode_code _)) (by first | (exact MulhKind.ofCode_fn _) | (cases k <;> rfl))) (sOf_r6 _)) (sOf_r6 _)) (congrArg Src.imm32 (rt32 _))), .inr (.inl ⟨rfl, lt32 _⟩)⟩
  | .imm64 i_b, h => cases h; exact ⟨congrArg some (congr (congr (congr (congr (congrArg Instr.mulh (Guard.ofCode_code _)) (by first | (exact MulhKind.ofCode_fn _) | (cases k <;> rfl))) (sOf_r6 _)) (sOf_r6 _)) (congrArg Src.imm64 (rfl))), .inr (.inr rfl)⟩

theorem div (g : Guard) (u : Bool) (d : SReg) (a : SReg) (b : Src) : Statement (.div g u d a b) := by
  intro fs h
  match b, h with
  | .reg r_b, h => cases h; exact ⟨congrArg some (congr (congr (congr (congr (congrArg Instr.div (Guard.ofCode_code _)) (fnBool _)) (sOf_r6 _)) (sOf_r6 _)) (congrArg Src.reg (sOf_r6 _))), .inl ⟨rfl, rfl⟩⟩
  | .imm32 i_b, h => cases h; exact ⟨congrArg some (congr (congr (congr (congr (congrArg Instr.div (Guard.ofCode_code _)) (fnBool _)) (sOf_r6 _)) (sOf_r6 _)) (congrArg Src.imm32 (rt32 _))), .inr (.inl ⟨rfl, lt32 _⟩)⟩
  | .imm64 i_b, h => cases h; exact ⟨congrArg some (congr (congr (congr (congr (congrArg Instr.div (Guard.ofCode_code _)) (fnBool _)) (sOf_r6 _)) (sOf_r6 _)) (congrArg Src.imm64 (rfl))), .inr (.inr rfl)⟩

theorem rem (g : Guard) (u : Bool) (d : SReg) (a : SReg) (b : Src) : Statement (.rem g u d a b) := by
  intro fs h
  match b, h with
  | .reg r_b, h => cases h; exact ⟨congrArg some (congr (congr (congr (congr (congrArg Instr.rem (Guard.ofCode_code _)) (fnBool _)) (sOf_r6 _)) (sOf_r6 _)) (congrArg Src.reg (sOf_r6 _))), .inl ⟨rfl, rfl⟩⟩
  | .imm32 i_b, h => cases h; exact ⟨congrArg some (congr (congr (congr (congr (congrArg Instr.rem (Guard.ofCode_code _)) (fnBool _)) (sOf_r6 _)) (sOf_r6 _)) (congrArg Src.imm32 (rt32 _))), .inr (.inl ⟨rfl, lt32 _⟩)⟩
  | .imm64 i_b, h => cases h; exact ⟨congrArg some (congr (congr (congr (congr (congrArg Instr.rem (Guard.ofCode_code _)) (fnBool _)) (sOf_r6 _)) (sOf_r6 _)) (congrArg Src.imm64 (rfl))), .inr (.inr rfl)⟩

theorem and (g : Guard) (d : SReg) (a : SReg) (b : Src) : Statement (.and g d a b) := by
  intro fs h
  match b, h with
  | .reg r_b, h => cases h; exact ⟨congrArg some (congr (congr (congr (congrArg Instr.and (Guard.ofCode_code _)) (sOf_r6 _)) (sOf_r6 _)) (congrArg Src.reg (sOf_r6 _))), .inl ⟨rfl, rfl⟩⟩
  | .imm32 i_b, h => cases h; exact ⟨congrArg some (congr (congr (congr (congrArg Instr.and (Guard.ofCode_code _)) (sOf_r6 _)) (sOf_r6 _)) (congrArg Src.imm32 (rt32 _))), .inr (.inl ⟨rfl, lt32 _⟩)⟩
  | .imm64 i_b, h => cases h; exact ⟨congrArg some (congr (congr (congr (congrArg Instr.and (Guard.ofCode_code _)) (sOf_r6 _)) (sOf_r6 _)) (congrArg Src.imm64 (rfl))), .inr (.inr rfl)⟩

theorem or (g : Guard) (d : SReg) (a : SReg) (b : Src) : Statement (.or g d a b) := by
  intro fs h
  match b, h with
  | .reg r_b, h => cases h; exact ⟨congrArg some (congr (congr (congr (congrArg Instr.or (Guard.ofCode_code _)) (sOf_r6 _)) (sOf_r6 _)) (congrArg Src.reg (sOf_r6 _))), .inl ⟨rfl, rfl⟩⟩
  | .imm32 i_b, h => cases h; exact ⟨congrArg some (congr (congr (congr (congrArg Instr.or (Guard.ofCode_code _)) (sOf_r6 _)) (sOf_r6 _)) (congrArg Src.imm32 (rt32 _))), .inr (.inl ⟨rfl, lt32 _⟩)⟩
  | .imm64 i_b, h => cases h; exact ⟨congrArg some (congr (congr (congr (congrArg Instr.or (Guard.ofCode_code _)) (sOf_r6 _)) (sOf_r6 _)) (congrArg Src.imm64 (rfl))), .inr (.inr rfl)⟩

theorem xor (g : Guard) (d : SReg) (a : SReg) (b : Src) : Statement (.xor g d a b) := by
  intro fs h
  match b, h with
  | .reg r_b, h => cases h; exact ⟨congrArg some (congr (congr (congr (congrArg Instr.xor (Guard.ofCode_code _)) (sOf_r6 _)) (sOf_r6 _)) (congrArg Src.reg (sOf_r6 _))), .inl ⟨rfl, rfl⟩⟩
  | .imm32 i_b, h => cases h; exact ⟨congrArg some (congr (congr (congr (congrArg Instr.xor (Guard.ofCode_code _)) (sOf_r6 _)) (sOf_r6 _)) (congrArg Src.imm32 (rt32 _))), .inr (.inl ⟨rfl, lt32 _⟩)⟩
  | .imm64 i_b, h => cases h; exact ⟨congrArg some (congr (congr (congr (congrArg Instr.xor (Guard.ofCode_code _)) (sOf_r6 _)) (sOf_r6 _)) (congrArg Src.imm64 (rfl))), .inr (.inr rfl)⟩

theorem andn (g : Guard) (d : SReg) (a : SReg) (b : Src) : Statement (.andn g d a b) := by
  intro fs h
  match b, h with
  | .reg r_b, h => cases h; exact ⟨congrArg some (congr (congr (congr (congrArg Instr.andn (Guard.ofCode_code _)) (sOf_r6 _)) (sOf_r6 _)) (congrArg Src.reg (sOf_r6 _))), .inl ⟨rfl, rfl⟩⟩
  | .imm32 i_b, h => cases h; exact ⟨congrArg some (congr (congr (congr (congrArg Instr.andn (Guard.ofCode_code _)) (sOf_r6 _)) (sOf_r6 _)) (congrArg Src.imm32 (rt32 _))), .inr (.inl ⟨rfl, lt32 _⟩)⟩
  | .imm64 i_b, h => cases h; exact ⟨congrArg some (congr (congr (congr (congrArg Instr.andn (Guard.ofCode_code _)) (sOf_r6 _)) (sOf_r6 _)) (congrArg Src.imm64 (rfl))), .inr (.inr rfl)⟩

theorem shl (g : Guard) (d : SReg) (a : SReg) (b : Src) : Statement (.shl g d a b) := by
  intro fs h
  match b, h with
  | .reg r_b, h => cases h; exact ⟨congrArg some (congr (congr (congr (congrArg Instr.shl (Guard.ofCode_code _)) (sOf_r6 _)) (sOf_r6 _)) (congrArg Src.reg (sOf_r6 _))), .inl ⟨rfl, rfl⟩⟩
  | .imm32 i_b, h => cases h; exact ⟨congrArg some (congr (congr (congr (congrArg Instr.shl (Guard.ofCode_code _)) (sOf_r6 _)) (sOf_r6 _)) (congrArg Src.imm32 (rt32 _))), .inr (.inl ⟨rfl, lt32 _⟩)⟩
  | .imm64 i_b, h => cases h; exact ⟨congrArg some (congr (congr (congr (congrArg Instr.shl (Guard.ofCode_code _)) (sOf_r6 _)) (sOf_r6 _)) (congrArg Src.imm64 (rfl))), .inr (.inr rfl)⟩

theorem shr (g : Guard) (d : SReg) (a : SReg) (b : Src) : Statement (.shr g d a b) := by
  intro fs h
  match b, h with
  | .reg r_b, h => cases h; exact ⟨congrArg some (congr (congr (congr (congrArg Instr.shr (Guard.ofCode_code _)) (sOf_r6 _)) (sOf_r6 _)) (congrArg Src.reg (sOf_r6 _))), .inl ⟨rfl, rfl⟩⟩
  | .imm32 i_b, h => cases h; exact ⟨congrArg some (congr (congr (congr (congrArg Instr.shr (Guard.ofCode_code _)) (sOf_r6 _)) (sOf_r6 _)) (congrArg Src.imm32 (rt32 _))), .inr (.inl ⟨rfl, lt32 _⟩)⟩
  | .imm64 i_b, h => cases h; exact ⟨congrArg some (congr (congr (congr (congrArg Instr.shr (Guard.ofCode_code _)) (sOf_r6 _)) (sOf_r6 _)) (congrArg Src.imm64 (rfl))), .inr (.inr rfl)⟩

theorem sar (g : Guard) (d : SReg) (a : SReg) (b : Src) : Statement (.sar g d a b) := by
  intro fs h
  match b, h with
  | .reg r_b, h => cases h; exact ⟨congrArg some (congr (congr (congr (congrArg Instr.sar (Guard.ofCode_code _)) (sOf_r6 _)) (sOf_r6 _)) (congrArg Src.reg (sOf_r6 _))), .inl ⟨rfl, rfl⟩⟩
  | .imm32 i_b, h => cases h; exact ⟨congrArg some (congr (congr (congr (congrArg Instr.sar (Guard.ofCode_code _)) (sOf_r6 _)) (sOf_r6 _)) (congrArg Src.imm32 (rt32 _))), .inr (.inl ⟨rfl, lt32 _⟩)⟩
  | .imm64 i_b, h => cases h; exact ⟨congrArg some (congr (congr (congr (congrArg Instr.sar (Guard.ofCode_code _)) (sOf_r6 _)) (sOf_r6 _)) (congrArg Src.imm64 (rfl))), .inr (.inr rfl)⟩

theorem rotl (g : Guard) (d : SReg) (a : SReg) (b : Src) : Statement (.rotl g d a b) := by
  intro fs h
  match b, h with
  | .reg r_b, h => cases h; exact ⟨congrArg some (congr (congr (congr (congrArg Instr.rotl (Guard.ofCode_code _)) (sOf_r6 _)) (sOf_r6 _)) (congrArg Src.reg (sOf_r6 _))), .inl ⟨rfl, rfl⟩⟩
  | .imm32 i_b, h => cases h; exact ⟨congrArg some (congr (congr (congr (congrArg Instr.rotl (Guard.ofCode_code _)) (sOf_r6 _)) (sOf_r6 _)) (congrArg Src.imm32 (rt32 _))), .inr (.inl ⟨rfl, lt32 _⟩)⟩
  | .imm64 i_b, h => cases h; exact ⟨congrArg some (congr (congr (congr (congrArg Instr.rotl (Guard.ofCode_code _)) (sOf_r6 _)) (sOf_r6 _)) (congrArg Src.imm64 (rfl))), .inr (.inr rfl)⟩

theorem min (g : Guard) (u : Bool) (d : SReg) (a : SReg) (b : Src) : Statement (.min g u d a b) := by
  intro fs h
  match b, h with
  | .reg r_b, h => cases h; exact ⟨congrArg some (congr (congr (congr (congr (congrArg Instr.min (Guard.ofCode_code _)) (fnBool _)) (sOf_r6 _)) (sOf_r6 _)) (congrArg Src.reg (sOf_r6 _))), .inl ⟨rfl, rfl⟩⟩
  | .imm32 i_b, h => cases h; exact ⟨congrArg some (congr (congr (congr (congr (congrArg Instr.min (Guard.ofCode_code _)) (fnBool _)) (sOf_r6 _)) (sOf_r6 _)) (congrArg Src.imm32 (rt32 _))), .inr (.inl ⟨rfl, lt32 _⟩)⟩
  | .imm64 i_b, h => cases h; exact ⟨congrArg some (congr (congr (congr (congr (congrArg Instr.min (Guard.ofCode_code _)) (fnBool _)) (sOf_r6 _)) (sOf_r6 _)) (congrArg Src.imm64 (rfl))), .inr (.inr rfl)⟩

theorem max (g : Guard) (u : Bool) (d : SReg) (a : SReg) (b : Src) : Statement (.max g u d a b) := by
  intro fs h
  match b, h with
  | .reg r_b, h => cases h; exact ⟨congrArg some (congr (congr (congr (congr (congrArg Instr.max (Guard.ofCode_code _)) (fnBool _)) (sOf_r6 _)) (sOf_r6 _)) (congrArg Src.reg (sOf_r6 _))), .inl ⟨rfl, rfl⟩⟩
  | .imm32 i_b, h => cases h; exact ⟨congrArg some (congr (congr (congr (congr (congrArg Instr.max (Guard.ofCode_code _)) (fnBool _)) (sOf_r6 _)) (sOf_r6 _)) (congrArg Src.imm32 (rt32 _))), .inr (.inl ⟨rfl, lt32 _⟩)⟩
  | .imm64 i_b, h => cases h; exact ⟨congrArg some (congr (congr (congr (congr (congrArg Instr.max (Guard.ofCode_code _)) (fnBool _)) (sOf_r6 _)) (sOf_r6 _)) (congrArg Src.imm64 (rfl))), .inr (.inr rfl)⟩

theorem clz (g : Guard) (d : SReg) (a : SReg) : Statement (.clz g d a) := by
  intro fs h
  cases h
  exact ⟨congrArg some (congr (congr (congrArg Instr.clz (Guard.ofCode_code _)) (sOf_r6 _)) (sOf_r6 _)), .inl ⟨rfl, rfl⟩⟩

theorem ctz (g : Guard) (d : SReg) (a : SReg) : Statement (.ctz g d a) := by
  intro fs h
  cases h
  exact ⟨congrArg some (congr (congr (congrArg Instr.ctz (Guard.ofCode_code _)) (sOf_r6 _)) (sOf_r6 _)), .inl ⟨rfl, rfl⟩⟩

theorem popc (g : Guard) (d : SReg) (a : SReg) : Statement (.popc g d a) := by
  intro fs h
  cases h
  exact ⟨congrArg some (congr (congr (congrArg Instr.popc (Guard.ofCode_code _)) (sOf_r6 _)) (sOf_r6 _)), .inl ⟨rfl, rfl⟩⟩

theorem ext (g : Guard) (signed : Bool) (d : SReg) (a : SReg) (f : FieldSpec) : Statement (.ext g signed d a f) := by
  intro fs h
  match f, h with
  | .reg b_f, h => cases h; exact ⟨congrArg some (congr (congr (congr (congr (congrArg Instr.ext (Guard.ofCode_code _)) (fnBool _)) (sOf_r6 _)) (sOf_r6 _)) (congrArg FieldSpec.reg (sOf_r6 _))), .inl ⟨rfl, rfl⟩⟩
  | .imm pos_f len_f, h => cases h; exact ⟨congrArg some (congr (congr (congr (congr (congrArg Instr.ext (Guard.ofCode_code _)) (fnBool _)) (sOf_r6 _)) (sOf_r6 _)) (congr (congrArg FieldSpec.imm (field_pos _ _)) (field_len _ _))), .inr (.inl ⟨rfl, lt32_field _ _⟩)⟩

theorem ins (g : Guard) (d : SReg) (a : SReg) (f : FieldSpec) : Statement (.ins g d a f) := by
  intro fs h
  match f, h with
  | .reg b_f, h => cases h; exact ⟨congrArg some (congr (congr (congr (congrArg Instr.ins (Guard.ofCode_code _)) (sOf_r6 _)) (sOf_r6 _)) (congrArg FieldSpec.reg (sOf_r6 _))), .inl ⟨rfl, rfl⟩⟩
  | .imm pos_f len_f, h => cases h; exact ⟨congrArg some (congr (congr (congr (congrArg Instr.ins (Guard.ofCode_code _)) (sOf_r6 _)) (sOf_r6 _)) (congr (congrArg FieldSpec.imm (field_pos _ _)) (field_len _ _))), .inr (.inl ⟨rfl, lt32_field _ _⟩)⟩

theorem sel (g : Guard) (d : SReg) (p : PReg) (a : SReg) (b : Src) : Statement (.sel g d p a b) := by
  intro fs h
  match b, h with
  | .reg r_b, h => cases h; exact ⟨congrArg some (congr (congr (congr (congr (congrArg Instr.sel (Guard.ofCode_code _)) (sOf_r6 _)) (pOf_r6 _)) (sOf_r6 _)) (congrArg Src.reg (sOf_r6 _))), .inl ⟨rfl, rfl⟩⟩
  | .imm32 i_b, h => cases h; exact ⟨congrArg some (congr (congr (congr (congr (congrArg Instr.sel (Guard.ofCode_code _)) (sOf_r6 _)) (pOf_r6 _)) (sOf_r6 _)) (congrArg Src.imm32 (rt32 _))), .inr (.inl ⟨rfl, lt32 _⟩)⟩
  | .imm64 i_b, h => cases h; exact ⟨congrArg some (congr (congr (congr (congr (congrArg Instr.sel (Guard.ofCode_code _)) (sOf_r6 _)) (pOf_r6 _)) (sOf_r6 _)) (congrArg Src.imm64 (rfl))), .inr (.inr rfl)⟩

theorem mov (g : Guard) (d : SReg) (b : Src) : Statement (.mov g d b) := by
  intro fs h
  match b, h with
  | .reg r_b, h => cases h; exact ⟨congrArg some (congr (congr (congrArg Instr.mov (Guard.ofCode_code _)) (sOf_r6 _)) (congrArg Src.reg (sOf_r6 _))), .inl ⟨rfl, rfl⟩⟩
  | .imm32 i_b, h => cases h; exact ⟨congrArg some (congr (congr (congrArg Instr.mov (Guard.ofCode_code _)) (sOf_r6 _)) (congrArg Src.imm32 (rt32 _))), .inr (.inl ⟨rfl, lt32 _⟩)⟩
  | .imm64 i_b, h => cases h; exact ⟨congrArg some (congr (congr (congrArg Instr.mov (Guard.ofCode_code _)) (sOf_r6 _)) (congrArg Src.imm64 (rfl))), .inr (.inr rfl)⟩

theorem cmp (g : Guard) (c : Cond) (d : PReg) (a : SReg) (b : Src) : Statement (.cmp g c d a b) := by
  intro fs h
  match b, h with
  | .reg r_b, h => cases h; exact ⟨congrArg some (congr (congr (congr (congr (congrArg Instr.cmp (Guard.ofCode_code _)) (by first | (exact Cond.ofCode_fn _) | (cases c <;> rfl))) (pOf_r6 _)) (sOf_r6 _)) (congrArg Src.reg (sOf_r6 _))), .inl ⟨rfl, rfl⟩⟩
  | .imm32 i_b, h => cases h; exact ⟨congrArg some (congr (congr (congr (congr (congrArg Instr.cmp (Guard.ofCode_code _)) (by first | (exact Cond.ofCode_fn _) | (cases c <;> rfl))) (pOf_r6 _)) (sOf_r6 _)) (congrArg Src.imm32 (rt32 _))), .inr (.inl ⟨rfl, lt32 _⟩)⟩
  | .imm64 i_b, h => cases h; exact ⟨congrArg some (congr (congr (congr (congr (congrArg Instr.cmp (Guard.ofCode_code _)) (by first | (exact Cond.ofCode_fn _) | (cases c <;> rfl))) (pOf_r6 _)) (sOf_r6 _)) (congrArg Src.imm64 (rfl))), .inr (.inr rfl)⟩

theorem plog (g : Guard) (d : PReg) (x : PlogArg) : Statement (.plog g d x) := by
  intro fs h
  match x, h with
  | .two op_x a_x b_x, h => cases op_x <;> (cases h; exact ⟨congrArg some (congr (congr (congrArg Instr.plog (Guard.ofCode_code _)) (pOf_r6 _)) (congr (congr (congrArg PlogArg.two (rfl)) (pOf_r6 _)) (pOf_r6 _))), .inl ⟨rfl, rfl⟩⟩)
  | .twoImm op_x a_x i_x, h => cases op_x <;> (cases h; exact ⟨congrArg some (congr (congr (congrArg Instr.plog (Guard.ofCode_code _)) (pOf_r6 _)) (congr (congr (congrArg PlogArg.twoImm (rfl)) (pOf_r6 _)) (rt32 _))), .inr (.inl ⟨rfl, lt32 _⟩)⟩)
  | .not a_x, h => cases h; exact ⟨congrArg some (congr (congr (congrArg Instr.plog (Guard.ofCode_code _)) (pOf_r6 _)) (congrArg PlogArg.not (pOf_r6 _))), .inl ⟨rfl, rfl⟩⟩

theorem pmov (g : Guard) (d : PReg) (a : Src96) : Statement (.pmov g d a) := by
  intro fs h
  match a, h with
  | .reg r_a, h => cases h; exact ⟨congrArg some (congr (congr (congrArg Instr.pmov (Guard.ofCode_code _)) (pOf_r6 _)) (congrArg Src96.reg (sOf_r6 _))), .inl ⟨rfl, rfl⟩⟩
  | .imm i_a, h => cases h; exact ⟨congrArg some (congr (congr (congrArg Instr.pmov (Guard.ofCode_code _)) (pOf_r6 _)) (congrArg Src96.imm (rt32 _))), .inr (.inl ⟨rfl, lt32 _⟩)⟩

theorem pmovS (g : Guard) (d : SReg) (a : PReg) : Statement (.pmovS g d a) := by
  intro fs h
  cases h
  exact ⟨congrArg some (congr (congr (congrArg Instr.pmovS (Guard.ofCode_code _)) (sOf_r6 _)) (pOf_r6 _)), .inl ⟨rfl, rfl⟩⟩

theorem pmovB (g : Guard) (d : PReg) (a : SReg) : Statement (.pmovB g d a) := by
  intro fs h
  cases h
  exact ⟨congrArg some (congr (congr (congrArg Instr.pmovB (Guard.ofCode_code _)) (pOf_r6 _)) (sOf_r6 _)), .inl ⟨rfl, rfl⟩⟩

theorem fadd (g : Guard) (sub : Bool) (rm : Rm) (d : SReg) (a : SReg) (b : Src96) : Statement (.fadd g sub rm d a b) := by
  intro fs h
  match b, h with
  | .reg r_b, h => cases h; exact ⟨congrArg some (congr (congr (congr (congr (congr (congrArg Instr.fadd (Guard.ofCode_code _)) (fnBool _)) (rmOf_modRm _ _)) (sOf_r6 _)) (sOf_r6 _)) (congrArg Src96.reg (sOf_r6 _))), .inl ⟨rfl, rfl⟩⟩
  | .imm i_b, h => cases h; exact ⟨congrArg some (congr (congr (congr (congr (congr (congrArg Instr.fadd (Guard.ofCode_code _)) (fnBool _)) (rmOf_modRm _ _)) (sOf_r6 _)) (sOf_r6 _)) (congrArg Src96.imm (rt32 _))), .inr (.inl ⟨rfl, lt32 _⟩)⟩

theorem fmul (g : Guard) (rm : Rm) (d : SReg) (a : SReg) (b : Src96) : Statement (.fmul g rm d a b) := by
  intro fs h
  match b, h with
  | .reg r_b, h => cases h; exact ⟨congrArg some (congr (congr (congr (congr (congrArg Instr.fmul (Guard.ofCode_code _)) (rmOf_modRm _ _)) (sOf_r6 _)) (sOf_r6 _)) (congrArg Src96.reg (sOf_r6 _))), .inl ⟨rfl, rfl⟩⟩
  | .imm i_b, h => cases h; exact ⟨congrArg some (congr (congr (congr (congr (congrArg Instr.fmul (Guard.ofCode_code _)) (rmOf_modRm _ _)) (sOf_r6 _)) (sOf_r6 _)) (congrArg Src96.imm (rt32 _))), .inr (.inl ⟨rfl, lt32 _⟩)⟩

theorem ffma (g : Guard) (rm : Rm) (d : SReg) (a : SReg) (b : Src96) (c : SReg) : Statement (.ffma g rm d a b c) := by
  intro fs h
  match b, h with
  | .reg r_b, h => cases h; exact ⟨congrArg some (congr (congr (congr (congr (congr (congrArg Instr.ffma (Guard.ofCode_code _)) (rmOf_modRm _ _)) (sOf_r6 _)) (sOf_r6 _)) (congrArg Src96.reg (sOf_r6 _))) (sOf_r6 _)), .inl ⟨rfl, rfl⟩⟩
  | .imm i_b, h => cases h; exact ⟨congrArg some (congr (congr (congr (congr (congr (congrArg Instr.ffma (Guard.ofCode_code _)) (rmOf_modRm _ _)) (sOf_r6 _)) (sOf_r6 _)) (congrArg Src96.imm (rt32 _))) (sOf_r6 _)), .inr (.inl ⟨rfl, lt32 _⟩)⟩

theorem fminmax (g : Guard) (max : Bool) (d : SReg) (a : SReg) (b : Src96) : Statement (.fminmax g max d a b) := by
  intro fs h
  match b, h with
  | .reg r_b, h => cases h; exact ⟨congrArg some (congr (congr (congr (congr (congrArg Instr.fminmax (Guard.ofCode_code _)) (fnBool _)) (sOf_r6 _)) (sOf_r6 _)) (congrArg Src96.reg (sOf_r6 _))), .inl ⟨rfl, rfl⟩⟩
  | .imm i_b, h => cases h; exact ⟨congrArg some (congr (congr (congr (congr (congrArg Instr.fminmax (Guard.ofCode_code _)) (fnBool _)) (sOf_r6 _)) (sOf_r6 _)) (congrArg Src96.imm (rt32 _))), .inr (.inl ⟨rfl, lt32 _⟩)⟩

theorem fcmp (g : Guard) (c : FCond) (d : PReg) (a : SReg) (b : Src96) : Statement (.fcmp g c d a b) := by
  intro fs h
  match b, h with
  | .reg r_b, h => cases h; exact ⟨congrArg some (congr (congr (congr (congr (congrArg Instr.fcmp (Guard.ofCode_code _)) (by first | (exact FCond.ofCode_fn _) | (cases c <;> rfl))) (pOf_r6 _)) (sOf_r6 _)) (congrArg Src96.reg (sOf_r6 _))), .inl ⟨rfl, rfl⟩⟩
  | .imm i_b, h => cases h; exact ⟨congrArg some (congr (congr (congr (congr (congrArg Instr.fcmp (Guard.ofCode_code _)) (by first | (exact FCond.ofCode_fn _) | (cases c <;> rfl))) (pOf_r6 _)) (sOf_r6 _)) (congrArg Src96.imm (rt32 _))), .inr (.inl ⟨rfl, lt32 _⟩)⟩

theorem fcvt (g : Guard) (u : Bool) (sat : Bool) (rm : Rm) (dst : Fmt) (src : Fmt) (d : SReg) (a : SReg) : Statement (.fcvt g u sat rm dst src d a) := by
  intro fs h
  cases h
  exact ⟨congrArg some (congr (congr (congr (congr (congr (congr (congr (congrArg Instr.fcvt (Guard.ofCode_code _)) (fnBool _)) (satOf_modRm _ _)) (rmOf_modRm _ _)) (Fmt.ofCode_fn _)) (Fmt.ofCode_fn _)) (sOf_r6 _)) (sOf_r6 _)), .inl ⟨rfl, rfl⟩⟩

theorem mkfa (g : Guard) (d : SReg) (a : SReg) (off : Src96) (k : BitVec 3) : Statement (.mkfa g d a off k) := by
  intro fs h
  match off, h with
  | .reg r_off, h => cases h; exact ⟨congrArg some (congr (congr (congr (congr (congrArg Instr.mkfa (Guard.ofCode_code _)) (sOf_r6 _)) (sOf_r6 _)) (congrArg Src96.reg (sOf_r6 _))) (rt3 _)), .inl ⟨rfl, rfl⟩⟩
  | .imm i_off, h => cases h; exact ⟨congrArg some (congr (congr (congr (congr (congrArg Instr.mkfa (Guard.ofCode_code _)) (sOf_r6 _)) (sOf_r6 _)) (congrArg Src96.imm (rt32 _))) (rt3 _)), .inr (.inl ⟨rfl, lt32 _⟩)⟩

theorem fafld (g : Guard) (f : FaField) (d : SReg) (a : SReg) : Statement (.fafld g f d a) := by
  intro fs h
  cases h
  exact ⟨congrArg some (congr (congr (congr (congrArg Instr.fafld (Guard.ofCode_code _)) (by first | (exact FaField.ofCode_fn _) | (cases f <;> rfl))) (sOf_r6 _)) (sOf_r6 _)), .inl ⟨rfl, rfl⟩⟩

theorem br (g : Guard) (c : BrCond) (a : SReg) (b : SReg) (disp : BitVec 32) : Statement (.br g c a b disp) := by
  intro fs h
  cases h
  exact ⟨congrArg some (congr (congr (congr (congr (congrArg Instr.br (Guard.ofCode_code _)) (by first | (exact BrCond.ofCode_fn _) | (cases c <;> rfl))) (sOf_r6 _)) (sOf_r6 _)) (rt32 _)), .inr (.inl ⟨rfl, lt32 _⟩)⟩

theorem jmp (g : Guard) (disp : BitVec 32) : Statement (.jmp g disp) := by
  intro fs h
  cases h
  exact ⟨congrArg some (congr (congrArg Instr.jmp (Guard.ofCode_code _)) (rt32 _)), .inr (.inl ⟨rfl, lt32 _⟩)⟩

theorem call (g : Guard) (d : SReg) (disp : BitVec 32) : Statement (.call g d disp) := by
  intro fs h
  cases h
  exact ⟨congrArg some (congr (congr (congrArg Instr.call (Guard.ofCode_code _)) (sOf_r6 _)) (rt32 _)), .inr (.inl ⟨rfl, lt32 _⟩)⟩

theorem callr (g : Guard) (d : SReg) (a : SReg) : Statement (.callr g d a) := by
  intro fs h
  cases h
  exact ⟨congrArg some (congr (congr (congrArg Instr.callr (Guard.ofCode_code _)) (sOf_r6 _)) (sOf_r6 _)), .inl ⟨rfl, rfl⟩⟩

theorem ret (g : Guard) (a : SReg) : Statement (.ret g a) := by
  intro fs h
  cases h
  exact ⟨congrArg some (congr (congrArg Instr.ret (Guard.ofCode_code _)) (sOf_r6 _)), .inl ⟨rfl, rfl⟩⟩

theorem loop (g : Guard) (d : SReg) (disp : BitVec 32) : Statement (.loop g d disp) := by
  intro fs h
  cases h
  exact ⟨congrArg some (congr (congr (congrArg Instr.loop (Guard.ofCode_code _)) (sOf_r6 _)) (rt32 _)), .inr (.inl ⟨rfl, lt32 _⟩)⟩

theorem exit (g : Guard) : Statement (.exit g) := by
  intro fs h
  cases h
  exact ⟨congrArg some (congrArg Instr.exit (Guard.ofCode_code _)), .inl ⟨rfl, rfl⟩⟩

theorem yield (g : Guard) : Statement (.yield g) := by
  intro fs h
  cases h
  exact ⟨congrArg some (congrArg Instr.yield (Guard.ofCode_code _)), .inl ⟨rfl, rfl⟩⟩

theorem mfc (g : Guard) (d : SReg) (n : BitVec 12) : Statement (.mfc g d n) := by
  intro fs h
  cases h
  exact ⟨congrArg some (congr (congr (congrArg Instr.mfc (Guard.ofCode_code _)) (sOf_r6 _)) (rt12 _)), .inr (.inl ⟨rfl, lt32 _⟩)⟩

theorem mtc (g : Guard) (n : BitVec 12) (a : SReg) : Statement (.mtc g n a) := by
  intro fs h
  cases h
  exact ⟨congrArg some (congr (congr (congrArg Instr.mtc (Guard.ofCode_code _)) (rt12 _)) (sOf_r6 _)), .inr (.inl ⟨rfl, lt32 _⟩)⟩

theorem trap (g : Guard) (a : Src96) : Statement (.trap g a) := by
  intro fs h
  match a, h with
  | .reg r_a, h => cases h; exact ⟨congrArg some (congr (congrArg Instr.trap (Guard.ofCode_code _)) (congrArg Src96.reg (sOf_r6 _))), .inl ⟨rfl, rfl⟩⟩
  | .imm i_a, h => cases h; exact ⟨congrArg some (congr (congrArg Instr.trap (Guard.ofCode_code _)) (congrArg Src96.imm (rt32 _))), .inr (.inl ⟨rfl, lt32 _⟩)⟩

theorem trapSys (g : Guard) (i : BitVec 32) : Statement (.trapSys g i) := by
  intro fs h
  cases h
  exact ⟨congrArg some (congr (congrArg Instr.trapSys (Guard.ofCode_code _)) (rt32 _)), .inr (.inl ⟨rfl, lt32 _⟩)⟩

theorem rte (g : Guard) : Statement (.rte g) := by
  intro fs h
  cases h
  exact ⟨congrArg some (congrArg Instr.rte (Guard.ofCode_code _)), .inl ⟨rfl, rfl⟩⟩

theorem flare (g : Guard) : Statement (.flare g) := by
  intro fs h
  cases h
  exact ⟨congrArg some (congrArg Instr.flare (Guard.ofCode_code _)), .inl ⟨rfl, rfl⟩⟩

theorem park (g : Guard) : Statement (.park g) := by
  intro fs h
  cases h
  exact ⟨congrArg some (congrArg Instr.park (Guard.ofCode_code _)), .inl ⟨rfl, rfl⟩⟩

theorem halt (g : Guard) : Statement (.halt g) := by
  intro fs h
  cases h
  exact ⟨congrArg some (congrArg Instr.halt (Guard.ofCode_code _)), .inl ⟨rfl, rfl⟩⟩

theorem ld (g : Guard) (w : LdW) (m : Mode) (acq : Bool) (d : SReg) (a : SReg) (off : Off) : Statement (.ld g w m acq d a off) := by
  intro fs h
  match off, h with
  | .none, h => cases h; exact ⟨congrArg some (congr (congr (congr (congr (congr (congr (congrArg Instr.ld (Guard.ofCode_code _)) (ldw_low _)) (acq_mode _ _)) (acq_read _ _)) (sOf_r6 _)) (sOf_r6 _)) (rfl)), .inl ⟨rfl, rfl⟩⟩
  | .imm32 i_off po_off, h => cases h; exact ⟨congrArg some (congr (congr (congr (congr (congr (congr (congrArg Instr.ld (Guard.ofCode_code _)) (ldw_p _ _)) (acq_mode _ _)) (acq_read _ _)) (sOf_r6 _)) (sOf_r6 _)) (congr (congrArg Off.imm32 (rt32 _)) (p_ldw _ _))), .inr (.inl ⟨rfl, lt32 _⟩)⟩
  | .imm64 i_off po_off, h => cases h; exact ⟨congrArg some (congr (congr (congr (congr (congr (congr (congrArg Instr.ld (Guard.ofCode_code _)) (ldw_p _ _)) (acq_mode _ _)) (acq_read _ _)) (sOf_r6 _)) (sOf_r6 _)) (congr (congrArg Off.imm64 (rfl)) (p_ldw _ _))), .inr (.inr rfl)⟩

theorem st (g : Guard) (w : StW) (m : Mode) (rel : Bool) (a : SReg) (off : Off) (c : SReg) : Statement (.st g w m rel a off c) := by
  intro fs h
  match off, h with
  | .none, h => cases h; exact ⟨congrArg some (congr (congr (congr (congr (congr (congr (congrArg Instr.st (Guard.ofCode_code _)) (stw_low _)) (rel_mode _ _)) (rel_read _ _)) (sOf_r6 _)) (rfl)) (sOf_r6 _)), .inl ⟨rfl, rfl⟩⟩
  | .imm32 i_off po_off, h => cases h; exact ⟨congrArg some (congr (congr (congr (congr (congr (congr (congrArg Instr.st (Guard.ofCode_code _)) (stw_p _ _)) (rel_mode _ _)) (rel_read _ _)) (sOf_r6 _)) (congr (congrArg Off.imm32 (rt32 _)) (p_stw _ _))) (sOf_r6 _)), .inr (.inl ⟨rfl, lt32 _⟩)⟩
  | .imm64 i_off po_off, h => cases h; exact ⟨congrArg some (congr (congr (congr (congr (congr (congr (congrArg Instr.st (Guard.ofCode_code _)) (stw_p _ _)) (rel_mode _ _)) (rel_read _ _)) (sOf_r6 _)) (congr (congrArg Off.imm64 (rfl)) (p_stw _ _))) (sOf_r6 _)), .inr (.inr rfl)⟩

theorem ldv (g : Guard) (m : Mode) (d : VReg) (a : SReg) (off : Off) : Statement (.ldv g m d a off) := by
  intro fs h
  match off, h with
  | .none, h => cases h; exact ⟨congrArg some (congr (congr (congr (congr (congrArg Instr.ldv (Guard.ofCode_code _)) (modeOf_modMem _ _)) (sOf_r6 _)) (sOf_r6 _)) (rfl)), .inl ⟨rfl, rfl⟩⟩
  | .imm32 i_off po_off, h => cases h; exact ⟨congrArg some (congr (congr (congr (congr (congrArg Instr.ldv (Guard.ofCode_code _)) (modeOf_modMem _ _)) (sOf_r6 _)) (sOf_r6 _)) (congr (congrArg Off.imm32 (rt32 _)) (p_v _))), .inr (.inl ⟨rfl, lt32 _⟩)⟩
  | .imm64 i_off po_off, h => cases h; exact ⟨congrArg some (congr (congr (congr (congr (congrArg Instr.ldv (Guard.ofCode_code _)) (modeOf_modMem _ _)) (sOf_r6 _)) (sOf_r6 _)) (congr (congrArg Off.imm64 (rfl)) (p_v _))), .inr (.inr rfl)⟩

theorem stv (g : Guard) (m : Mode) (a : SReg) (off : Off) (c : VReg) : Statement (.stv g m a off c) := by
  intro fs h
  match off, h with
  | .none, h => cases h; exact ⟨congrArg some (congr (congr (congr (congr (congrArg Instr.stv (Guard.ofCode_code _)) (modeOf_modMem _ _)) (sOf_r6 _)) (rfl)) (sOf_r6 _)), .inl ⟨rfl, rfl⟩⟩
  | .imm32 i_off po_off, h => cases h; exact ⟨congrArg some (congr (congr (congr (congr (congrArg Instr.stv (Guard.ofCode_code _)) (modeOf_modMem _ _)) (sOf_r6 _)) (congr (congrArg Off.imm32 (rt32 _)) (p_v _))) (sOf_r6 _)), .inr (.inl ⟨rfl, lt32 _⟩)⟩
  | .imm64 i_off po_off, h => cases h; exact ⟨congrArg some (congr (congr (congr (congr (congrArg Instr.stv (Guard.ofCode_code _)) (modeOf_modMem _ _)) (sOf_r6 _)) (congr (congrArg Off.imm64 (rfl)) (p_v _))) (sOf_r6 _)), .inr (.inr rfl)⟩

theorem amo (g : Guard) (op : AmoOp) (dw : Bool) (m : Mode) (o : Order) (d : SReg) (a : SReg) (off : Off96) (b : SReg) : Statement (.amo g op dw m o d a off b) := by
  intro fs h
  match off, h with
  | .none, h => cases h; exact ⟨congrArg some (congr (congr (congr (congr (congr (congr (congr (congr (congrArg Instr.amo (Guard.ofCode_code _)) (amo_op _ _)) (amo_dw _ _)) (modeOf_modMem _ _)) (orderOf_modMem _ _)) (sOf_r6 _)) (sOf_r6 _)) (rfl)) (sOf_r6 _)), .inl ⟨rfl, rfl⟩⟩
  | .imm i_off, h => cases h; exact ⟨congrArg some (congr (congr (congr (congr (congr (congr (congr (congr (congrArg Instr.amo (Guard.ofCode_code _)) (amo_op _ _)) (amo_dw _ _)) (modeOf_modMem _ _)) (orderOf_modMem _ _)) (sOf_r6 _)) (sOf_r6 _)) (congrArg Off96.imm (rt32 _))) (sOf_r6 _)), .inr (.inl ⟨rfl, lt32 _⟩)⟩

theorem cas (g : Guard) (dw : Bool) (m : Mode) (o : Order) (d : SReg) (a : SReg) (off : Off96) (b : SReg) (c : SReg) : Statement (.cas g dw m o d a off b c) := by
  intro fs h
  match off, h with
  | .none, h => cases h; exact ⟨congrArg some (congr (congr (congr (congr (congr (congr (congr (congr (congrArg Instr.cas (Guard.ofCode_code _)) (fnBool _)) (modeOf_modMem _ _)) (orderOf_modMem _ _)) (sOf_r6 _)) (sOf_r6 _)) (rfl)) (sOf_r6 _)) (sOf_r6 _)), .inl ⟨rfl, rfl⟩⟩
  | .imm i_off, h => cases h; exact ⟨congrArg some (congr (congr (congr (congr (congr (congr (congr (congr (congrArg Instr.cas (Guard.ofCode_code _)) (fnBool _)) (modeOf_modMem _ _)) (orderOf_modMem _ _)) (sOf_r6 _)) (sOf_r6 _)) (congrArg Off96.imm (rt32 _))) (sOf_r6 _)) (sOf_r6 _)), .inr (.inl ⟨rfl, lt32 _⟩)⟩

theorem taglk (g : Guard) (d : SReg) (a : SReg) : Statement (.taglk g d a) := by
  intro fs h
  cases h
  exact ⟨congrArg some (congr (congr (congrArg Instr.taglk (Guard.ofCode_code _)) (sOf_r6 _)) (sOf_r6 _)), .inl ⟨rfl, rfl⟩⟩

theorem tagset (g : Guard) (d : SReg) (a : SReg) (b : SReg) : Statement (.tagset g d a b) := by
  intro fs h
  cases h
  exact ⟨congrArg some (congr (congr (congr (congrArg Instr.tagset (Guard.ofCode_code _)) (sOf_r6 _)) (sOf_r6 _)) (sOf_r6 _)), .inl ⟨rfl, rfl⟩⟩

theorem tagclr (g : Guard) (d : SReg) (a : SReg) : Statement (.tagclr g d a) := by
  intro fs h
  cases h
  exact ⟨congrArg some (congr (congr (congrArg Instr.tagclr (Guard.ofCode_code _)) (sOf_r6 _)) (sOf_r6 _)), .inl ⟨rfl, rfl⟩⟩

theorem copyIn (g : Guard) (m : Mode) (d : SReg) (a : SReg) (b : SReg) (c : SReg) (rowb : BitVec 32) (rows : BitVec 20) : Statement (.copyIn g m d a b c rowb rows) := by
  intro fs h
  cases h
  exact ⟨congrArg some (congr (congr (congr (congr (congr (congr (congr (congrArg Instr.copyIn (Guard.ofCode_code _)) (modeOf_modMem _ _)) (sOf_r6 _)) (sOf_r6 _)) (sOf_r6 _)) (sOf_r6 _)) (rows_low _ _)) (rows_high _ _)), .inr (.inr rfl)⟩

theorem copyOut (g : Guard) (m : Mode) (d : SReg) (a : SReg) (b : SReg) (c : SReg) (rowb : BitVec 32) (rows : BitVec 20) : Statement (.copyOut g m d a b c rowb rows) := by
  intro fs h
  cases h
  exact ⟨congrArg some (congr (congr (congr (congr (congr (congr (congr (congrArg Instr.copyOut (Guard.ofCode_code _)) (modeOf_modMem _ _)) (sOf_r6 _)) (sOf_r6 _)) (sOf_r6 _)) (sOf_r6 _)) (rows_low _ _)) (rows_high _ _)), .inr (.inr rfl)⟩

theorem copyst (g : Guard) (d : SReg) (a : SReg) : Statement (.copyst g d a) := by
  intro fs h
  cases h
  exact ⟨congrArg some (congr (congr (congrArg Instr.copyst (Guard.ofCode_code _)) (sOf_r6 _)) (sOf_r6 _)), .inl ⟨rfl, rfl⟩⟩

theorem waitt (g : Guard) (a : SReg) : Statement (.waitt g a) := by
  intro fs h
  cases h
  exact ⟨congrArg some (congr (congrArg Instr.waitt (Guard.ofCode_code _)) (sOf_r6 _)), .inl ⟨rfl, rfl⟩⟩

theorem testc (g : Guard) (d : SReg) (a : SReg) : Statement (.testc g d a) := by
  intro fs h
  cases h
  exact ⟨congrArg some (congr (congr (congrArg Instr.testc (Guard.ofCode_code _)) (sOf_r6 _)) (sOf_r6 _)), .inl ⟨rfl, rfl⟩⟩

theorem phase (g : Guard) (sc : Scope) : Statement (.phase g sc) := by
  intro fs h
  cases h
  exact ⟨congrArg some (congr (congrArg Instr.phase (Guard.ofCode_code _)) (by first | (exact Scope.ofCode_fn _) | (cases sc <;> rfl))), .inl ⟨rfl, rfl⟩⟩

theorem xfence (g : Guard) (src : Path) (dst : Path) : Statement (.xfence g src dst) := by
  intro fs h
  cases h
  exact ⟨congrArg some (congr (congr (congrArg Instr.xfence (Guard.ofCode_code _)) (path_src _ _)) (path_dst _ _)), .inl ⟨rfl, rfl⟩⟩

theorem send (g : Guard) (rel : Bool) (a : SReg) (v : SendVal) : Statement (.send g rel a v) := by
  intro fs h
  cases v <;> cases h
  · exact ⟨by simp [rawDecode, rawMemory, dab, Fields.base, Fields.withImm, Fields.imm], .inl ⟨rfl, rfl⟩⟩
  · exact ⟨by simp [rawDecode, rawMemory, dab, Fields.base, Fields.withImm, Fields.imm], .inl ⟨rfl, rfl⟩⟩
  · exact ⟨by simp [rawDecode, rawMemory, dab, Fields.base, Fields.withImm, Fields.imm], .inr (.inl ⟨rfl, lt32 _⟩)⟩

theorem sendC (g : Guard) (rel : Bool) (d : SReg) (a : SReg) (v : SendVal) : Statement (.sendC g rel d a v) := by
  intro fs h
  cases v <;> cases h
  · exact ⟨by simp [rawDecode, rawMemory, dab, Fields.base, Fields.withImm, Fields.imm], .inl ⟨rfl, rfl⟩⟩
  · exact ⟨by simp [rawDecode, rawMemory, dab, Fields.base, Fields.withImm, Fields.imm], .inl ⟨rfl, rfl⟩⟩
  · exact ⟨by simp [rawDecode, rawMemory, dab, Fields.base, Fields.withImm, Fields.imm], .inr (.inl ⟨rfl, lt32 _⟩)⟩

theorem sendn (g : Guard) (dir : Dir) (r : SendnRegs) : Statement (.sendn g dir r) := by
  intro fs h
  match r, h with
  | .s d_r a_r, h => cases h; exact ⟨congrArg some (congr (congr (congrArg Instr.sendn (Guard.ofCode_code _)) (dir_low _)) (sendn_s _ _ _)), .inl ⟨rfl, rfl⟩⟩
  | .v d_r a_r, h => cases h; exact ⟨congrArg some (congr (congr (congrArg Instr.sendn (Guard.ofCode_code _)) (dir_high _)) (sendn_v _ _ _)), .inl ⟨rfl, rfl⟩⟩

theorem sendm (g : Guard) (k : Fin 8) (a : SV) : Statement (.sendm g k a) := by
  intro fs h
  match a, h with
  | .s r_a, h => cases h; exact ⟨congrArg some (congr (congr (congrArg Instr.sendm (Guard.ofCode_code _)) (slot_k _ _)) (slot_sv k (.s _))), .inl ⟨rfl, rfl⟩⟩
  | .v r_a, h => cases h; exact ⟨congrArg some (congr (congr (congrArg Instr.sendm (Guard.ofCode_code _)) (slot_k _ _)) (slot_sv k (.v _))), .inl ⟨rfl, rfl⟩⟩

theorem expect (g : Guard) (x : ExpectArg) : Statement (.expect g x) := by
  intro fs h
  match x, h with
  | .s r_x, h => cases h; exact ⟨congrArg some (congr (congrArg Instr.expect (Guard.ofCode_code _)) (congrArg ExpectArg.s (sOf_r6 _))), .inl ⟨rfl, rfl⟩⟩
  | .v r_x, h => cases h; exact ⟨congrArg some (congr (congrArg Instr.expect (Guard.ofCode_code _)) (congrArg ExpectArg.v (sOf_r6 _))), .inl ⟨rfl, rfl⟩⟩
  | .sMask m_x, h => cases h; exact ⟨congrArg some (congr (congrArg Instr.expect (Guard.ofCode_code _)) (congrArg ExpectArg.sMask (rt32 _))), .inr (.inl ⟨rfl, lt32 _⟩)⟩
  | .vMask m_x, h => cases h; exact ⟨congrArg some (congr (congrArg Instr.expect (Guard.ofCode_code _)) (congrArg ExpectArg.vMask (rt32 _))), .inr (.inl ⟨rfl, lt32 _⟩)⟩

theorem capmk (g : Guard) (d : SReg) (f : CapForm) (vec : Bool) (reg : Fin 32) : Statement (.capmk g d f vec reg) := by
  intro fs h
  match f, h with
  | .idx a_f, h => cases h; exact ⟨congrArg some (congr (congr (congr (congr (congrArg Instr.capmk (Guard.ofCode_code _)) (sOf_r6 _)) (cap_idx _ _ _ _ _)) (fnBit _)) (sOf_r6 _)), .inl ⟨rfl, rfl⟩⟩
  | .idxImm i_f, h => cases h; exact ⟨congrArg some (congr (congr (congr (congr (congrArg Instr.capmk (Guard.ofCode_code _)) (sOf_r6 _)) (cap_imm _ _)) (fnBit _)) (sOf_r6 _)), .inr (.inr rfl)⟩
  | .other a_f b_f, h => cases h; exact ⟨congrArg some (congr (congr (congr (congr (congrArg Instr.capmk (Guard.ofCode_code _)) (sOf_r6 _)) (cap_other _ _ _ _ _)) (two_bit _)) (sOf_r6 _)), .inl ⟨rfl, rfl⟩⟩

theorem wput (g : Guard) (m : Mode) (k : Fin 4) (a : SReg) (b : SReg) (c : SReg) (len : BitVec 32) : Statement (.wput g m k a b c len) := by
  intro fs h
  cases h
  exact ⟨congrArg some (congr (congr (congr (congr (congr (congr (congrArg Instr.wput (Guard.ofCode_code _)) (modeOf_modMem _ _)) (aOf_r6 _)) (sOf_r6 _)) (sOf_r6 _)) (sOf_r6 _)) (rt32 _)), .inr (.inr rfl)⟩

theorem wwait (g : Guard) (d : SReg) (k : Fin 4) (b : Src96) : Statement (.wwait g d k b) := by
  intro fs h
  match b, h with
  | .reg r_b, h => cases h; exact ⟨congrArg some (congr (congr (congr (congrArg Instr.wwait (Guard.ofCode_code _)) (sOf_r6 _)) (aOf_r6 _)) (congrArg Src96.reg (sOf_r6 _))), .inl ⟨rfl, rfl⟩⟩
  | .imm i_b, h => cases h; exact ⟨congrArg some (congr (congr (congr (congrArg Instr.wwait (Guard.ofCode_code _)) (sOf_r6 _)) (aOf_r6 _)) (congrArg Src96.imm (rt32 _))), .inr (.inl ⟨rfl, lt32 _⟩)⟩

theorem wwaitR (g : Guard) (d : SReg) (a : SReg) (b : Src96) : Statement (.wwaitR g d a b) := by
  intro fs h
  match b, h with
  | .reg r_b, h => cases h; exact ⟨congrArg some (congr (congr (congr (congrArg Instr.wwaitR (Guard.ofCode_code _)) (sOf_r6 _)) (sOf_r6 _)) (congrArg Src96.reg (sOf_r6 _))), .inl ⟨rfl, rfl⟩⟩
  | .imm i_b, h => cases h; exact ⟨congrArg some (congr (congr (congr (congrArg Instr.wwaitR (Guard.ofCode_code _)) (sOf_r6 _)) (sOf_r6 _)) (congrArg Src96.imm (rt32 _))), .inr (.inl ⟨rfl, lt32 _⟩)⟩

theorem wcnt (g : Guard) (d : SReg) (k : Fin 4) : Statement (.wcnt g d k) := by
  intro fs h
  cases h
  exact ⟨congrArg some (congr (congr (congrArg Instr.wcnt (Guard.ofCode_code _)) (sOf_r6 _)) (aOf_r6 _)), .inl ⟨rfl, rfl⟩⟩

theorem wcntR (g : Guard) (d : SReg) (a : SReg) : Statement (.wcntR g d a) := by
  intro fs h
  cases h
  exact ⟨congrArg some (congr (congr (congrArg Instr.wcntR (Guard.ofCode_code _)) (sOf_r6 _)) (sOf_r6 _)), .inl ⟨rfl, rfl⟩⟩

theorem wcntClr (g : Guard) (d : SReg) (k : Fin 4) : Statement (.wcntClr g d k) := by
  intro fs h
  cases h
  exact ⟨congrArg some (congr (congr (congrArg Instr.wcntClr (Guard.ofCode_code _)) (sOf_r6 _)) (aOf_r6 _)), .inl ⟨rfl, rfl⟩⟩

theorem put (g : Guard) (d : SReg) (a : SReg) (b : SV) : Statement (.put g d a b) := by
  intro fs h
  match b, h with
  | .s r_b, h => cases h; exact ⟨congrArg some (congr (congr (congr (congrArg Instr.put (Guard.ofCode_code _)) (sOf_r6 _)) (sOf_r6 _)) (sv_read (.s _))), .inl ⟨rfl, rfl⟩⟩
  | .v r_b, h => cases h; exact ⟨congrArg some (congr (congr (congr (congrArg Instr.put (Guard.ofCode_code _)) (sOf_r6 _)) (sOf_r6 _)) (sv_read (.v _))), .inl ⟨rfl, rfl⟩⟩

theorem get (g : Guard) (d : SV) (a : SReg) (c : SReg) : Statement (.get g d a c) := by
  intro fs h
  match d, h with
  | .s r_d, h => cases h; exact ⟨congrArg some (congr (congr (congr (congrArg Instr.get (Guard.ofCode_code _)) (sv_read (.s _))) (sOf_r6 _)) (sOf_r6 _)), .inl ⟨rfl, rfl⟩⟩
  | .v r_d, h => cases h; exact ⟨congrArg some (congr (congr (congr (congrArg Instr.get (Guard.ofCode_code _)) (sv_read (.v _))) (sOf_r6 _)) (sOf_r6 _)), .inl ⟨rfl, rfl⟩⟩

theorem putd (g : Guard) (d : SReg) (a : SReg) (b : SV) (c : SReg) : Statement (.putd g d a b c) := by
  intro fs h
  match b, h with
  | .s r_b, h => cases h; exact ⟨congrArg some (congr (congr (congr (congr (congrArg Instr.putd (Guard.ofCode_code _)) (sOf_r6 _)) (sOf_r6 _)) (sv_read (.s _))) (sOf_r6 _)), .inl ⟨rfl, rfl⟩⟩
  | .v r_b, h => cases h; exact ⟨congrArg some (congr (congr (congr (congr (congrArg Instr.putd (Guard.ofCode_code _)) (sOf_r6 _)) (sOf_r6 _)) (sv_read (.v _))) (sOf_r6 _)), .inl ⟨rfl, rfl⟩⟩

theorem getd (g : Guard) (d : SV) (a : SReg) (b : SReg) (c : SReg) : Statement (.getd g d a b c) := by
  intro fs h
  match d, h with
  | .s r_d, h => cases h; exact ⟨congrArg some (congr (congr (congr (congr (congrArg Instr.getd (Guard.ofCode_code _)) (sv_read (.s _))) (sOf_r6 _)) (sOf_r6 _)) (sOf_r6 _)), .inl ⟨rfl, rfl⟩⟩
  | .v r_d, h => cases h; exact ⟨congrArg some (congr (congr (congr (congr (congrArg Instr.getd (Guard.ofCode_code _)) (sv_read (.v _))) (sOf_r6 _)) (sOf_r6 _)) (sOf_r6 _)), .inl ⟨rfl, rfl⟩⟩

theorem getany (g : Guard) (d : SV) (a : SReg) (m : MaskSrc) (c : SReg) : Statement (.getany g d a m c) := by
  intro fs h
  match d, m, h with
  | .s r_d, .reg b_m, h => cases h; exact ⟨congrArg some (congr (congr (congr (congr (congrArg Instr.getany (Guard.ofCode_code _)) (sv_read (.s _))) (sOf_r6 _)) (congrArg MaskSrc.reg (sOf_r6 _))) (sOf_r6 _)), .inl ⟨rfl, rfl⟩⟩
  | .s r_d, .imm m_m, h => cases h; exact ⟨congrArg some (congr (congr (congr (congr (congrArg Instr.getany (Guard.ofCode_code _)) (sv_read (.s _))) (sOf_r6 _)) (congrArg MaskSrc.imm (by first | exact rt8 _ | exact rt8w _))) (sOf_r6 _)), .inr (.inl ⟨rfl, lt32 _⟩)⟩
  | .v r_d, .reg b_m, h => cases h; exact ⟨congrArg some (congr (congr (congr (congr (congrArg Instr.getany (Guard.ofCode_code _)) (sv_read (.v _))) (sOf_r6 _)) (congrArg MaskSrc.reg (sOf_r6 _))) (sOf_r6 _)), .inl ⟨rfl, rfl⟩⟩
  | .v r_d, .imm m_m, h => cases h; exact ⟨congrArg some (congr (congr (congr (congr (congrArg Instr.getany (Guard.ofCode_code _)) (sv_read (.v _))) (sOf_r6 _)) (congrArg MaskSrc.imm (by first | exact rt8 _ | exact rt8w _))) (sOf_r6 _)), .inr (.inl ⟨rfl, lt32 _⟩)⟩

theorem close (g : Guard) (d : SReg) (a : SReg) : Statement (.close g d a) := by
  intro fs h
  cases h
  exact ⟨congrArg some (congr (congr (congrArg Instr.close (Guard.ofCode_code _)) (sOf_r6 _)) (sOf_r6 _)), .inl ⟨rfl, rfl⟩⟩

theorem bar (g : Guard) : Statement (.bar g) := by
  intro fs h
  cases h
  exact ⟨congrArg some (congrArg Instr.bar (Guard.ofCode_code _)), .inl ⟨rfl, rfl⟩⟩

theorem conld (g : Guard) (d : SReg) (a : SReg) : Statement (.conld g d a) := by
  intro fs h
  cases h
  exact ⟨congrArg some (congr (congr (congrArg Instr.conld (Guard.ofCode_code _)) (sOf_r6 _)) (sOf_r6 _)), .inl ⟨rfl, rfl⟩⟩

theorem conul (g : Guard) (d : SReg) (a : SReg) : Statement (.conul g d a) := by
  intro fs h
  cases h
  exact ⟨congrArg some (congr (congr (congrArg Instr.conul (Guard.ofCode_code _)) (sOf_r6 _)) (sOf_r6 _)), .inl ⟨rfl, rfl⟩⟩

theorem tqpush (g : Guard) (d : SReg) (a : SReg) (b : VReg) : Statement (.tqpush g d a b) := by
  intro fs h
  cases h
  exact ⟨congrArg some (congr (congr (congr (congrArg Instr.tqpush (Guard.ofCode_code _)) (sOf_r6 _)) (sOf_r6 _)) (sOf_r6 _)), .inl ⟨rfl, rfl⟩⟩

theorem tqpushP (g : Guard) (d : SReg) (a : SReg) (b : VReg) : Statement (.tqpushP g d a b) := by
  intro fs h
  cases h
  exact ⟨congrArg some (congr (congr (congr (congrArg Instr.tqpushP (Guard.ofCode_code _)) (sOf_r6 _)) (sOf_r6 _)) (sOf_r6 _)), .inl ⟨rfl, rfl⟩⟩

theorem tqpushRsv (g : Guard) (d : SReg) (a : SReg) (c : SReg) : Statement (.tqpushRsv g d a c) := by
  intro fs h
  cases h
  exact ⟨congrArg some (congr (congr (congr (congrArg Instr.tqpushRsv (Guard.ofCode_code _)) (sOf_r6 _)) (sOf_r6 _)) (sOf_r6 _)), .inl ⟨rfl, rfl⟩⟩

theorem tqpushRel (g : Guard) (d : SReg) (a : SReg) (c : SReg) : Statement (.tqpushRel g d a c) := by
  intro fs h
  cases h
  exact ⟨congrArg some (congr (congr (congr (congrArg Instr.tqpushRel (Guard.ofCode_code _)) (sOf_r6 _)) (sOf_r6 _)) (sOf_r6 _)), .inl ⟨rfl, rfl⟩⟩

theorem tqpop (g : Guard) (d : SReg) (v : VReg) (a : SReg) : Statement (.tqpop g d v a) := by
  intro fs h
  cases h
  exact ⟨congrArg some (congr (congr (congr (congrArg Instr.tqpop (Guard.ofCode_code _)) (sOf_r6 _)) (sOf_r6 _)) (sOf_r6 _)), .inl ⟨rfl, rfl⟩⟩

theorem tqpopTry (g : Guard) (d : SReg) (v : VReg) (a : SReg) : Statement (.tqpopTry g d v a) := by
  intro fs h
  cases h
  exact ⟨congrArg some (congr (congr (congr (congrArg Instr.tqpopTry (Guard.ofCode_code _)) (sOf_r6 _)) (sOf_r6 _)) (sOf_r6 _)), .inl ⟨rfl, rfl⟩⟩

theorem join (g : Guard) (m : Mode) (d : SReg) (a : SReg) (b : SReg) (c : VReg) : Statement (.join g m d a b c) := by
  intro fs h
  cases h
  exact ⟨congrArg some (congr (congr (congr (congr (congr (congrArg Instr.join (Guard.ofCode_code _)) (modeOf_modMem _ _)) (sOf_r6 _)) (sOf_r6 _)) (sOf_r6 _)) (sOf_r6 _)), .inl ⟨rfl, rfl⟩⟩

theorem joinP (g : Guard) (m : Mode) (d : SReg) (a : SReg) (b : SReg) (c : VReg) : Statement (.joinP g m d a b c) := by
  intro fs h
  cases h
  exact ⟨congrArg some (congr (congr (congr (congr (congr (congrArg Instr.joinP (Guard.ofCode_code _)) (modeOf_modMem _ _)) (sOf_r6 _)) (sOf_r6 _)) (sOf_r6 _)) (sOf_r6 _)), .inl ⟨rfl, rfl⟩⟩

theorem tlsig (g : Guard) (d : SReg) (a : SReg) (b : Src96) : Statement (.tlsig g d a b) := by
  intro fs h
  match b, h with
  | .reg r_b, h => cases h; exact ⟨congrArg some (congr (congr (congr (congrArg Instr.tlsig (Guard.ofCode_code _)) (sOf_r6 _)) (sOf_r6 _)) (congrArg Src96.reg (sOf_r6 _))), .inl ⟨rfl, rfl⟩⟩
  | .imm i_b, h => cases h; exact ⟨congrArg some (congr (congr (congr (congrArg Instr.tlsig (Guard.ofCode_code _)) (sOf_r6 _)) (sOf_r6 _)) (congrArg Src96.imm (rt32 _))), .inr (.inl ⟨rfl, lt32 _⟩)⟩

theorem tlwait (g : Guard) (d : SReg) (a : SReg) (b : Src128) : Statement (.tlwait g d a b) := by
  intro fs h
  match b, h with
  | .reg r_b, h => cases h; exact ⟨congrArg some (congr (congr (congr (congrArg Instr.tlwait (Guard.ofCode_code _)) (sOf_r6 _)) (sOf_r6 _)) (congrArg Src128.reg (sOf_r6 _))), .inl ⟨rfl, rfl⟩⟩
  | .imm i_b, h => cases h; exact ⟨congrArg some (congr (congr (congr (congrArg Instr.tlwait (Guard.ofCode_code _)) (sOf_r6 _)) (sOf_r6 _)) (congrArg Src128.imm (rfl))), .inr (.inr rfl)⟩

theorem tlrd (g : Guard) (d : SReg) (a : SReg) : Statement (.tlrd g d a) := by
  intro fs h
  cases h
  exact ⟨congrArg some (congr (congr (congrArg Instr.tlrd (Guard.ofCode_code _)) (sOf_r6 _)) (sOf_r6 _)), .inl ⟨rfl, rfl⟩⟩

theorem tlrdSet (g : Guard) (d : SReg) (a : SReg) (b : SReg) : Statement (.tlrdSet g d a b) := by
  intro fs h
  cases h
  exact ⟨congrArg some (congr (congr (congr (congrArg Instr.tlrdSet (Guard.ofCode_code _)) (sOf_r6 _)) (sOf_r6 _)) (sOf_r6 _)), .inl ⟨rfl, rfl⟩⟩

theorem launch (g : Guard) (m : Mode) (d : SReg) (a : SReg) : Statement (.launch g m d a) := by
  intro fs h
  cases h
  exact ⟨congrArg some (congr (congr (congr (congrArg Instr.launch (Guard.ofCode_code _)) (modeOf_modMem _ _)) (sOf_r6 _)) (sOf_r6 _)), .inl ⟨rfl, rfl⟩⟩

theorem vadd (g : Guard) (t : Fmt) (rm : Rm) (sati : Bool) (d : VReg) (a : VOp) (b : VSrc) : Statement (.vadd g t rm sati d a b) := by
  intro fs h
  match b, h with
  | .reg o_b, h => cases h; exact ⟨congrArg some (congr (congr (congr (congr (congr (congr (congrArg Instr.vadd (Guard.ofCode_code _)) (fmt_low _)) (rmOf_modRm _ _)) (satOf_modRm _ _)) (sOf_r6 _)) (VOp.read _)) (congrArg VSrc.reg (VOp.read _))), .inl ⟨rfl, rfl⟩⟩
  | .imm i_b, h => cases h; exact ⟨congrArg some (congr (congr (congr (congr (congr (congr (congrArg Instr.vadd (Guard.ofCode_code _)) (fmt_low _)) (rmOf_modRm _ _)) (satOf_modRm _ _)) (sOf_r6 _)) (VOp.read _)) (congrArg VSrc.imm (rt32 _))), .inr (.inl ⟨rfl, lt32 _⟩)⟩

theorem vsub (g : Guard) (t : Fmt) (rm : Rm) (sati : Bool) (d : VReg) (a : VOp) (b : VSrc) : Statement (.vsub g t rm sati d a b) := by
  intro fs h
  match b, h with
  | .reg o_b, h => cases h; exact ⟨congrArg some (congr (congr (congr (congr (congr (congr (congrArg Instr.vsub (Guard.ofCode_code _)) (fmt_low _)) (rmOf_modRm _ _)) (satOf_modRm _ _)) (sOf_r6 _)) (VOp.read _)) (congrArg VSrc.reg (VOp.read _))), .inl ⟨rfl, rfl⟩⟩
  | .imm i_b, h => cases h; exact ⟨congrArg some (congr (congr (congr (congr (congr (congr (congrArg Instr.vsub (Guard.ofCode_code _)) (fmt_low _)) (rmOf_modRm _ _)) (satOf_modRm _ _)) (sOf_r6 _)) (VOp.read _)) (congrArg VSrc.imm (rt32 _))), .inr (.inl ⟨rfl, lt32 _⟩)⟩

theorem vmul (g : Guard) (t : Fmt) (rm : Rm) (sati : Bool) (d : VReg) (a : VOp) (b : VSrc) : Statement (.vmul g t rm sati d a b) := by
  intro fs h
  match b, h with
  | .reg o_b, h => cases h; exact ⟨congrArg some (congr (congr (congr (congr (congr (congr (congrArg Instr.vmul (Guard.ofCode_code _)) (fmt_low _)) (rmOf_modRm _ _)) (satOf_modRm _ _)) (sOf_r6 _)) (VOp.read _)) (congrArg VSrc.reg (VOp.read _))), .inl ⟨rfl, rfl⟩⟩
  | .imm i_b, h => cases h; exact ⟨congrArg some (congr (congr (congr (congr (congr (congr (congrArg Instr.vmul (Guard.ofCode_code _)) (fmt_low _)) (rmOf_modRm _ _)) (satOf_modRm _ _)) (sOf_r6 _)) (VOp.read _)) (congrArg VSrc.imm (rt32 _))), .inr (.inl ⟨rfl, lt32 _⟩)⟩

theorem vfma (g : Guard) (t : Fmt) (w : Wide) (rm : Rm) (sati : Bool) (d : VReg) (a : VOp) (b : VSrc) (c : VReg) : Statement (.vfma g t w rm sati d a b c) := by
  intro fs h
  match b, h with
  | .reg o_b, h => cases h; exact ⟨congrArg some (congr (congr (congr (congr (congr (congr (congr (congr (congrArg Instr.vfma (Guard.ofCode_code _)) (fmt_w _ _)) (w_fmt _ _)) (rmOf_modRm _ _)) (satOf_modRm _ _)) (sOf_r6 _)) (VOp.read _)) (congrArg VSrc.reg (VOp.read _))) (sOf_r6 _)), .inl ⟨rfl, rfl⟩⟩
  | .imm i_b, h => cases h; exact ⟨congrArg some (congr (congr (congr (congr (congr (congr (congr (congr (congrArg Instr.vfma (Guard.ofCode_code _)) (fmt_w _ _)) (w_fmt _ _)) (rmOf_modRm _ _)) (satOf_modRm _ _)) (sOf_r6 _)) (VOp.read _)) (congrArg VSrc.imm (rt32 _))) (sOf_r6 _)), .inr (.inl ⟨rfl, lt32 _⟩)⟩

theorem vmin (g : Guard) (t : Fmt) (u : Bool) (d : VReg) (a : VOp) (b : VSrc) : Statement (.vmin g t u d a b) := by
  intro fs h
  match b, h with
  | .reg o_b, h => cases h; exact ⟨congrArg some (congr (congr (congr (congr (congr (congrArg Instr.vmin (Guard.ofCode_code _)) (fmt_u _ _)) (u_fmt _ _)) (sOf_r6 _)) (VOp.read _)) (congrArg VSrc.reg (VOp.read _))), .inl ⟨rfl, rfl⟩⟩
  | .imm i_b, h => cases h; exact ⟨congrArg some (congr (congr (congr (congr (congr (congrArg Instr.vmin (Guard.ofCode_code _)) (fmt_u _ _)) (u_fmt _ _)) (sOf_r6 _)) (VOp.read _)) (congrArg VSrc.imm (rt32 _))), .inr (.inl ⟨rfl, lt32 _⟩)⟩

theorem vmax (g : Guard) (t : Fmt) (u : Bool) (d : VReg) (a : VOp) (b : VSrc) : Statement (.vmax g t u d a b) := by
  intro fs h
  match b, h with
  | .reg o_b, h => cases h; exact ⟨congrArg some (congr (congr (congr (congr (congr (congrArg Instr.vmax (Guard.ofCode_code _)) (fmt_u _ _)) (u_fmt _ _)) (sOf_r6 _)) (VOp.read _)) (congrArg VSrc.reg (VOp.read _))), .inl ⟨rfl, rfl⟩⟩
  | .imm i_b, h => cases h; exact ⟨congrArg some (congr (congr (congr (congr (congr (congrArg Instr.vmax (Guard.ofCode_code _)) (fmt_u _ _)) (u_fmt _ _)) (sOf_r6 _)) (VOp.read _)) (congrArg VSrc.imm (rt32 _))), .inr (.inl ⟨rfl, lt32 _⟩)⟩

theorem vabs (g : Guard) (t : Fmt) (sati : Bool) (d : VReg) (a : VOp) : Statement (.vabs g t sati d a) := by
  intro fs h
  cases h
  exact ⟨congrArg some (congr (congr (congr (congr (congrArg Instr.vabs (Guard.ofCode_code _)) (fmt_low _)) (satOf_modRm _ _)) (sOf_r6 _)) (VOp.read _)), .inl ⟨rfl, rfl⟩⟩

theorem vneg (g : Guard) (t : Fmt) (sati : Bool) (d : VReg) (a : VOp) : Statement (.vneg g t sati d a) := by
  intro fs h
  cases h
  exact ⟨congrArg some (congr (congr (congr (congr (congrArg Instr.vneg (Guard.ofCode_code _)) (fmt_low _)) (satOf_modRm _ _)) (sOf_r6 _)) (VOp.read _)), .inl ⟨rfl, rfl⟩⟩

theorem vand (g : Guard) (d : VReg) (a : VOp) (b : VSrc) : Statement (.vand g d a b) := by
  intro fs h
  match b, h with
  | .reg o_b, h => cases h; exact ⟨congrArg some (congr (congr (congr (congrArg Instr.vand (Guard.ofCode_code _)) (sOf_r6 _)) (VOp.read _)) (congrArg VSrc.reg (VOp.read _))), .inl ⟨rfl, rfl⟩⟩
  | .imm i_b, h => cases h; exact ⟨congrArg some (congr (congr (congr (congrArg Instr.vand (Guard.ofCode_code _)) (sOf_r6 _)) (VOp.read _)) (congrArg VSrc.imm (rt32 _))), .inr (.inl ⟨rfl, lt32 _⟩)⟩

theorem vor (g : Guard) (d : VReg) (a : VOp) (b : VSrc) : Statement (.vor g d a b) := by
  intro fs h
  match b, h with
  | .reg o_b, h => cases h; exact ⟨congrArg some (congr (congr (congr (congrArg Instr.vor (Guard.ofCode_code _)) (sOf_r6 _)) (VOp.read _)) (congrArg VSrc.reg (VOp.read _))), .inl ⟨rfl, rfl⟩⟩
  | .imm i_b, h => cases h; exact ⟨congrArg some (congr (congr (congr (congrArg Instr.vor (Guard.ofCode_code _)) (sOf_r6 _)) (VOp.read _)) (congrArg VSrc.imm (rt32 _))), .inr (.inl ⟨rfl, lt32 _⟩)⟩

theorem vxor (g : Guard) (d : VReg) (a : VOp) (b : VSrc) : Statement (.vxor g d a b) := by
  intro fs h
  match b, h with
  | .reg o_b, h => cases h; exact ⟨congrArg some (congr (congr (congr (congrArg Instr.vxor (Guard.ofCode_code _)) (sOf_r6 _)) (VOp.read _)) (congrArg VSrc.reg (VOp.read _))), .inl ⟨rfl, rfl⟩⟩
  | .imm i_b, h => cases h; exact ⟨congrArg some (congr (congr (congr (congrArg Instr.vxor (Guard.ofCode_code _)) (sOf_r6 _)) (VOp.read _)) (congrArg VSrc.imm (rt32 _))), .inr (.inl ⟨rfl, lt32 _⟩)⟩

theorem vshl (g : Guard) (t : Fmt) (d : VReg) (a : VOp) (b : VSrc) : Statement (.vshl g t d a b) := by
  intro fs h
  match b, h with
  | .reg o_b, h => cases h; exact ⟨congrArg some (congr (congr (congr (congr (congrArg Instr.vshl (Guard.ofCode_code _)) (fmt_low _)) (sOf_r6 _)) (VOp.read _)) (congrArg VSrc.reg (VOp.read _))), .inl ⟨rfl, rfl⟩⟩
  | .imm i_b, h => cases h; exact ⟨congrArg some (congr (congr (congr (congr (congrArg Instr.vshl (Guard.ofCode_code _)) (fmt_low _)) (sOf_r6 _)) (VOp.read _)) (congrArg VSrc.imm (rt32 _))), .inr (.inl ⟨rfl, lt32 _⟩)⟩

theorem vshr (g : Guard) (t : Fmt) (u : Bool) (d : VReg) (a : VOp) (b : VSrc) : Statement (.vshr g t u d a b) := by
  intro fs h
  match b, h with
  | .reg o_b, h => cases h; exact ⟨congrArg some (congr (congr (congr (congr (congr (congrArg Instr.vshr (Guard.ofCode_code _)) (fmt_u _ _)) (u_fmt _ _)) (sOf_r6 _)) (VOp.read _)) (congrArg VSrc.reg (VOp.read _))), .inl ⟨rfl, rfl⟩⟩
  | .imm i_b, h => cases h; exact ⟨congrArg some (congr (congr (congr (congr (congr (congrArg Instr.vshr (Guard.ofCode_code _)) (fmt_u _ _)) (u_fmt _ _)) (sOf_r6 _)) (VOp.read _)) (congrArg VSrc.imm (rt32 _))), .inr (.inl ⟨rfl, lt32 _⟩)⟩

theorem vcmp (g : Guard) (t : Fmt) (u : Bool) (c : VCond) (d : PReg) (a : VOp) (b : VSrc) : Statement (.vcmp g t u c d a b) := by
  intro fs h
  match b, h with
  | .reg o_b, h => cases h; exact ⟨congrArg some (congr (congr (congr (congr (congr (congr (congrArg Instr.vcmp (Guard.ofCode_code _)) (fmt_u _ _)) (u_fmt _ _)) (by first | (exact VCond.ofCode_fn _) | (cases c <;> rfl) | (cases c <;> cases t <;> rfl) | (cases c <;> cases u <;> rfl) | (cases c <;> cases t <;> cases u <;> rfl))) (pOf_r6 _)) (VOp.read _)) (congrArg VSrc.reg (VOp.read _))), .inl ⟨rfl, rfl⟩⟩
  | .imm i_b, h => cases h; exact ⟨congrArg some (congr (congr (congr (congr (congr (congr (congrArg Instr.vcmp (Guard.ofCode_code _)) (fmt_u _ _)) (u_fmt _ _)) (by first | (exact VCond.ofCode_fn _) | (cases c <;> rfl) | (cases c <;> cases t <;> rfl) | (cases c <;> cases u <;> rfl) | (cases c <;> cases t <;> cases u <;> rfl))) (pOf_r6 _)) (VOp.read _)) (congrArg VSrc.imm (rt32 _))), .inr (.inl ⟨rfl, lt32 _⟩)⟩

theorem vsel (g : Guard) (d : VReg) (p : PReg) (a : VOp) (b : VOp) : Statement (.vsel g d p a b) := by
  intro fs h
  cases h
  exact ⟨congrArg some (congr (congr (congr (congr (congrArg Instr.vsel (Guard.ofCode_code _)) (sOf_r6 _)) (pOf_r6 _)) (VOp.read _)) (VOp.read _)), .inl ⟨rfl, rfl⟩⟩

theorem vmov (g : Guard) (d : VReg) (x : VMovSrc) : Statement (.vmov g d x) := by
  intro fs h
  match x, h with
  | .v o_x, h => cases h; exact ⟨congrArg some (congr (congr (congrArg Instr.vmov (Guard.ofCode_code _)) (sOf_r6 _)) (congrArg VMovSrc.v (VOp.read _))), .inl ⟨rfl, rfl⟩⟩
  | .imm i_x, h => cases h; exact ⟨congrArg some (congr (congr (congrArg Instr.vmov (Guard.ofCode_code _)) (sOf_r6 _)) (congrArg VMovSrc.imm (rt32 _))), .inr (.inl ⟨rfl, lt32 _⟩)⟩
  | .s r_x, h => cases h; exact ⟨congrArg some (congr (congr (congrArg Instr.vmov (Guard.ofCode_code _)) (sOf_r6 _)) (congrArg VMovSrc.s (sOf_r6 _))), .inl ⟨rfl, rfl⟩⟩

theorem vext (g : Guard) (signed : Bool) (d : SReg) (a : VOp) (k : LaneSel) : Statement (.vext g signed d a k) := by
  intro fs h
  match k, h with
  | .imm k_k, h => cases h; exact ⟨congrArg some (congr (congr (congr (congr (congrArg Instr.vext (Guard.ofCode_code _)) (fnBit _)) (sOf_r6 _)) (VOp.read _)) (lane_imm _ _ _)), .inl ⟨rfl, rfl⟩⟩
  | .reg b_k, h => cases h; exact ⟨congrArg some (congr (congr (congr (congr (congrArg Instr.vext (Guard.ofCode_code _)) (bit_two _)) (sOf_r6 _)) (VOp.read _)) (lane_reg _ _ _)), .inl ⟨rfl, rfl⟩⟩

theorem vins (g : Guard) (d : VReg) (a : SReg) (k : LaneSel) : Statement (.vins g d a k) := by
  intro fs h
  match k, h with
  | .imm k_k, h => cases h; exact ⟨congrArg some (congr (congr (congr (congrArg Instr.vins (Guard.ofCode_code _)) (sOf_r6 _)) (sOf_r6 _)) (vins_imm _ _)), .inl ⟨rfl, rfl⟩⟩
  | .reg b_k, h => cases h; exact ⟨congrArg some (congr (congr (congr (congrArg Instr.vins (Guard.ofCode_code _)) (sOf_r6 _)) (sOf_r6 _)) (vins_reg _ _)), .inl ⟨rfl, rfl⟩⟩

theorem vperm (g : Guard) (d : VReg) (a : VOp) (b : VOp) (c : Option VReg) : Statement (.vperm g d a b c) := by
  intro fs h
  match c, h with
  | .none, h => cases h; exact ⟨congrArg some (congr (congr (congr (congr (congrArg Instr.vperm (Guard.ofCode_code _)) (sOf_r6 _)) (VOp.read _)) (VOp.read _)) (rfl)), .inl ⟨rfl, rfl⟩⟩
  | .some r_c, h => cases h; exact ⟨congrArg some (congr (congr (congr (congr (congrArg Instr.vperm (Guard.ofCode_code _)) (sOf_r6 _)) (VOp.read _)) (VOp.read _)) (congrArg Option.some (sOf_r6 _))), .inl ⟨rfl, rfl⟩⟩

theorem vcvt (g : Guard) (u : Bool) (part : BitVec 2) (sat : Bool) (rm : Rm) (dst : Fmt) (src : Fmt) (d : VReg) (a : VOp) : Statement (.vcvt g u part sat rm dst src d a) := by
  intro fs h
  cases h
  exact ⟨congrArg some (congr (congr (congr (congr (congr (congr (congr (congr (congrArg Instr.vcvt (Guard.ofCode_code _)) (part_u _ _)) (part_low _ _)) (satOf_modRm _ _)) (rmOf_modRm _ _)) (Fmt.ofCode_fn _)) (Fmt.ofCode_fn _)) (sOf_r6 _)) (VOp.read _)), .inl ⟨rfl, rfl⟩⟩

theorem vpack (g : Guard) (t : Fmt) (sat : Bool) (rm : Rm) (d : VReg) (a : VOp) (k : Fin 8) (c : SReg) : Statement (.vpack g t sat rm d a k c) := by
  intro fs h
  cases h
  exact ⟨congrArg some (congr (congr (congr (congr (congr (congr (congr (congrArg Instr.vpack (Guard.ofCode_code _)) (fmt_low _)) (satOf_modRm _ _)) (rmOf_modRm _ _)) (sOf_r6 _)) (VOp.read _)) (pOf_r6 _)) (sOf_r6 _)), .inl ⟨rfl, rfl⟩⟩

theorem vunpk (g : Guard) (t : Fmt) (d : VReg) (a : VOp) (k : Fin 8) (c : SReg) : Statement (.vunpk g t d a k c) := by
  intro fs h
  cases h
  exact ⟨congrArg some (congr (congr (congr (congr (congr (congrArg Instr.vunpk (Guard.ofCode_code _)) (fmt_low _)) (sOf_r6 _)) (VOp.read _)) (pOf_r6 _)) (sOf_r6 _)), .inl ⟨rfl, rfl⟩⟩

theorem vdot (g : Guard) (t : Fmt) (rm : Rm) (sati : Bool) (d : VReg) (a : VOp) (b : VOp) : Statement (.vdot g t rm sati d a b) := by
  intro fs h
  cases h
  exact ⟨congrArg some (congr (congr (congr (congr (congr (congr (congrArg Instr.vdot (Guard.ofCode_code _)) (fmt_low _)) (rmOf_modRm _ _)) (satOf_modRm _ _)) (sOf_r6 _)) (VOp.read _)) (VOp.read _)), .inl ⟨rfl, rfl⟩⟩

theorem vred (g : Guard) (op : RedOp) (t : Fmt) (rm : Rm) (sati : Bool) (d : SReg) (a : VOp) : Statement (.vred g op t rm sati d a) := by
  intro fs h
  cases h
  exact ⟨congrArg some (congr (congr (congr (congr (congr (congr (congrArg Instr.vred (Guard.ofCode_code _)) (o_fmt _ _)) (fmt_o _ _)) (rmOf_modRm _ _)) (satOf_modRm _ _)) (sOf_r6 _)) (VOp.read _)), .inl ⟨rfl, rfl⟩⟩

theorem vscan (g : Guard) (op : RedOp) (t : Fmt) (rm : Rm) (sati : Bool) (d : VReg) (a : VOp) : Statement (.vscan g op t rm sati d a) := by
  intro fs h
  cases h
  exact ⟨congrArg some (congr (congr (congr (congr (congr (congr (congrArg Instr.vscan (Guard.ofCode_code _)) (o_fmt _ _)) (fmt_o _ _)) (rmOf_modRm _ _)) (satOf_modRm _ _)) (sOf_r6 _)) (VOp.read _)), .inl ⟨rfl, rfl⟩⟩

theorem vscana (g : Guard) (rm : Rm) (d : VReg) (a : VOp) (b : VOp) : Statement (.vscana g rm d a b) := by
  intro fs h
  cases h
  exact ⟨congrArg some (congr (congr (congr (congr (congrArg Instr.vscana (Guard.ofCode_code _)) (rmOf_modRm _ _)) (sOf_r6 _)) (VOp.read _)) (VOp.read _)), .inl ⟨rfl, rfl⟩⟩

theorem vrcp (g : Guard) (d : VReg) (a : VOp) : Statement (.vrcp g d a) := by
  intro fs h
  cases h
  exact ⟨congrArg some (congr (congr (congrArg Instr.vrcp (Guard.ofCode_code _)) (sOf_r6 _)) (VOp.read _)), .inl ⟨rfl, rfl⟩⟩

theorem vrsq (g : Guard) (d : VReg) (a : VOp) : Statement (.vrsq g d a) := by
  intro fs h
  cases h
  exact ⟨congrArg some (congr (congr (congrArg Instr.vrsq (Guard.ofCode_code _)) (sOf_r6 _)) (VOp.read _)), .inl ⟨rfl, rfl⟩⟩

theorem vsqrt (g : Guard) (rm : Rm) (d : VReg) (a : VOp) : Statement (.vsqrt g rm d a) := by
  intro fs h
  cases h
  exact ⟨congrArg some (congr (congr (congr (congrArg Instr.vsqrt (Guard.ofCode_code _)) (rmOf_modRm _ _)) (sOf_r6 _)) (VOp.read _)), .inl ⟨rfl, rfl⟩⟩

theorem vexp2 (g : Guard) (d : VReg) (a : VOp) : Statement (.vexp2 g d a) := by
  intro fs h
  cases h
  exact ⟨congrArg some (congr (congr (congrArg Instr.vexp2 (Guard.ofCode_code _)) (sOf_r6 _)) (VOp.read _)), .inl ⟨rfl, rfl⟩⟩

theorem vlog2 (g : Guard) (d : VReg) (a : VOp) : Statement (.vlog2 g d a) := by
  intro fs h
  cases h
  exact ⟨congrArg some (congr (congr (congrArg Instr.vlog2 (Guard.ofCode_code _)) (sOf_r6 _)) (VOp.read _)), .inl ⟨rfl, rfl⟩⟩

theorem vsin (g : Guard) (d : VReg) (a : VOp) : Statement (.vsin g d a) := by
  intro fs h
  cases h
  exact ⟨congrArg some (congr (congr (congrArg Instr.vsin (Guard.ofCode_code _)) (sOf_r6 _)) (VOp.read _)), .inl ⟨rfl, rfl⟩⟩

theorem vcos (g : Guard) (d : VReg) (a : VOp) : Statement (.vcos g d a) := by
  intro fs h
  cases h
  exact ⟨congrArg some (congr (congr (congrArg Instr.vcos (Guard.ofCode_code _)) (sOf_r6 _)) (VOp.read _)), .inl ⟨rfl, rfl⟩⟩

theorem vtanh (g : Guard) (d : VReg) (a : VOp) : Statement (.vtanh g d a) := by
  intro fs h
  cases h
  exact ⟨congrArg some (congr (congr (congrArg Instr.vtanh (Guard.ofCode_code _)) (sOf_r6 _)) (VOp.read _)), .inl ⟨rfl, rfl⟩⟩

theorem vrng (g : Guard) (f32 : Bool) (d : VReg) : Statement (.vrng g f32 d) := by
  intro fs h
  cases h
  exact ⟨congrArg some (congr (congr (congrArg Instr.vrng (Guard.ofCode_code _)) (fnBool _)) (sOf_r6 _)), .inl ⟨rfl, rfl⟩⟩

theorem rngskip (g : Guard) (x : SkipSrc) : Statement (.rngskip g x) := by
  intro fs h
  match x, h with
  | .regs a_x b_x, h => cases h; exact ⟨congrArg some (congr (congrArg Instr.rngskip (Guard.ofCode_code _)) (congr (congrArg SkipSrc.regs (sOf_r6 _)) (sOf_r6 _))), .inl ⟨rfl, rfl⟩⟩
  | .imm i_x hi_x, h => cases h; exact ⟨congrArg some (congr (congrArg Instr.rngskip (Guard.ofCode_code _)) (congr (congrArg SkipSrc.imm (rfl)) (fnBool _))), .inr (.inr rfl)⟩

theorem vsort (g : Guard) (t : Fmt) (dn : Bool) (d : VReg) (a : VOp) (b : Option VOp) : Statement (.vsort g t dn d a b) := by
  intro fs h
  match b, h with
  | .none, h => cases h; exact ⟨congrArg some (congr (congr (congr (congr (congr (congrArg Instr.vsort (Guard.ofCode_code _)) (fmt_u _ _)) (u_fmt _ _)) (sOf_r6 _)) (VOp.read _)) (one_run _ _ _)), .inl ⟨rfl, rfl⟩⟩
  | .some o_b, h => cases h; exact ⟨congrArg some (congr (congr (congr (congr (congr (congrArg Instr.vsort (Guard.ofCode_code _)) (fmt_u2 _ _)) (u2_fmt _ _)) (sOf_r6 _)) (VOp.read _)) (two_runs _ _ _)), .inl ⟨rfl, rfl⟩⟩

theorem tld (g : Guard) (d : Tile) (a : SReg) (b : SReg) (j : Option SReg) : Statement (.tld g d a b j) := by
  intro fs h
  match j, h with
  | .none, h => cases h; exact ⟨congrArg some (congr (congr (congr (congr (congrArg Instr.tld (Guard.ofCode_code _)) (tOf_r6 _)) (sOf_r6 _)) (sOf_r6 _)) (rfl)), .inl ⟨rfl, rfl⟩⟩
  | .some r_j, h => cases h; exact ⟨congrArg some (congr (congr (congr (congr (congrArg Instr.tld (Guard.ofCode_code _)) (tOf_r6 _)) (sOf_r6 _)) (sOf_r6 _)) (congrArg Option.some (job_read _))), .inr (.inl ⟨rfl, lt32_job _⟩)⟩

theorem tst (g : Guard) (d : Tile) (a : SReg) (b : SReg) (j : Option SReg) : Statement (.tst g d a b j) := by
  intro fs h
  match j, h with
  | .none, h => cases h; exact ⟨congrArg some (congr (congr (congr (congr (congrArg Instr.tst (Guard.ofCode_code _)) (tOf_r6 _)) (sOf_r6 _)) (sOf_r6 _)) (rfl)), .inl ⟨rfl, rfl⟩⟩
  | .some r_j, h => cases h; exact ⟨congrArg some (congr (congr (congr (congr (congrArg Instr.tst (Guard.ofCode_code _)) (tOf_r6 _)) (sOf_r6 _)) (sOf_r6 _)) (congrArg Option.some (job_read _))), .inr (.inl ⟨rfl, lt32_job _⟩)⟩

theorem tzero (g : Guard) (d : Tile) (j : Option SReg) : Statement (.tzero g d j) := by
  intro fs h
  match j, h with
  | .none, h => cases h; exact ⟨congrArg some (congr (congr (congrArg Instr.tzero (Guard.ofCode_code _)) (tOf_r6 _)) (rfl)), .inl ⟨rfl, rfl⟩⟩
  | .some r_j, h => cases h; exact ⟨congrArg some (congr (congr (congrArg Instr.tzero (Guard.ofCode_code _)) (tOf_r6 _)) (congrArg Option.some (job_read _))), .inr (.inl ⟨rfl, lt32_job _⟩)⟩

theorem accz (g : Guard) (d : Acc) (j : Option SReg) : Statement (.accz g d j) := by
  intro fs h
  match j, h with
  | .none, h => cases h; exact ⟨congrArg some (congr (congr (congrArg Instr.accz (Guard.ofCode_code _)) (aOf_r6 _)) (rfl)), .inl ⟨rfl, rfl⟩⟩
  | .some r_j, h => cases h; exact ⟨congrArg some (congr (congr (congrArg Instr.accz (Guard.ofCode_code _)) (aOf_r6 _)) (congrArg Option.some (job_read _))), .inr (.inl ⟨rfl, lt32_job _⟩)⟩

theorem accld (g : Guard) (d : Acc) (a : SReg) (b : SReg) (c : SReg) (j : Option SReg) : Statement (.accld g d a b c j) := by
  intro fs h
  match j, h with
  | .none, h => cases h; exact ⟨congrArg some (congr (congr (congr (congr (congr (congrArg Instr.accld (Guard.ofCode_code _)) (aOf_r6 _)) (sOf_r6 _)) (sOf_r6 _)) (sOf_r6 _)) (rfl)), .inl ⟨rfl, rfl⟩⟩
  | .some r_j, h => cases h; exact ⟨congrArg some (congr (congr (congr (congr (congr (congrArg Instr.accld (Guard.ofCode_code _)) (aOf_r6 _)) (sOf_r6 _)) (sOf_r6 _)) (sOf_r6 _)) (congrArg Option.some (job_read _))), .inr (.inl ⟨rfl, lt32_job _⟩)⟩

theorem accst (g : Guard) (d : Acc) (a : SReg) (b : SReg) (c : SReg) (j : Option SReg) : Statement (.accst g d a b c j) := by
  intro fs h
  match j, h with
  | .none, h => cases h; exact ⟨congrArg some (congr (congr (congr (congr (congr (congrArg Instr.accst (Guard.ofCode_code _)) (aOf_r6 _)) (sOf_r6 _)) (sOf_r6 _)) (sOf_r6 _)) (rfl)), .inl ⟨rfl, rfl⟩⟩
  | .some r_j, h => cases h; exact ⟨congrArg some (congr (congr (congr (congr (congr (congrArg Instr.accst (Guard.ofCode_code _)) (aOf_r6 _)) (sOf_r6 _)) (sOf_r6 _)) (sOf_r6 _)) (congrArg Option.some (job_read _))), .inr (.inl ⟨rfl, lt32_job _⟩)⟩

theorem mma (g : Guard) (z : Bool) (d : Acc) (a : Tile) (b : Tile) (j : Option SReg) : Statement (.mma g z d a b j) := by
  intro fs h
  match j, h with
  | .none, h => cases h; exact ⟨congrArg some (congr (congr (congr (congr (congr (congrArg Instr.mma (Guard.ofCode_code _)) (fnBool _)) (aOf_r6 _)) (tOf_r6 _)) (tOf_r6 _)) (rfl)), .inl ⟨rfl, rfl⟩⟩
  | .some r_j, h => cases h; exact ⟨congrArg some (congr (congr (congr (congr (congr (congrArg Instr.mma (Guard.ofCode_code _)) (fnBool _)) (aOf_r6 _)) (tOf_r6 _)) (tOf_r6 _)) (congrArg Option.some (job_read _))), .inr (.inl ⟨rfl, lt32_job _⟩)⟩

theorem mmas (g : Guard) (z : Bool) (d : Acc) (a : Tile) (b : Tile) (c : VReg) (x : Option (SReg × SReg)) : Statement (.mmas g z d a b c x) := by
  intro fs h
  match x, h with
  | .none, h => cases h; exact ⟨congrArg some (congr (congr (congr (congr (congr (congr (congrArg Instr.mmas (Guard.ofCode_code _)) (fnBool _)) (aOf_r6 _)) (tOf_r6 _)) (tOf_r6 _)) (sOf_r6 _)) (rfl)), .inl ⟨rfl, rfl⟩⟩
  | .some x_x, h => cases h; exact ⟨congrArg some (congr (congr (congr (congr (congr (congr (congrArg Instr.mmas (Guard.ofCode_code _)) (fnBool _)) (aOf_r6 _)) (tOf_r6 _)) (tOf_r6 _)) (sOf_r6 _)) (congrArg Option.some (sbj_read _))), .inr (.inl ⟨rfl, lt32_sbj _⟩)⟩

theorem accvRd (g : Guard) (d : VReg) (a : Acc) (b : SReg) : Statement (.accvRd g d a b) := by
  intro fs h
  cases h
  exact ⟨congrArg some (congr (congr (congr (congrArg Instr.accvRd (Guard.ofCode_code _)) (sOf_r6 _)) (aOf_r6 _)) (sOf_r6 _)), .inl ⟨rfl, rfl⟩⟩

theorem accvWr (g : Guard) (d : Acc) (a : VReg) (b : SReg) : Statement (.accvWr g d a b) := by
  intro fs h
  cases h
  exact ⟨congrArg some (congr (congr (congr (congrArg Instr.accvWr (Guard.ofCode_code _)) (aOf_r6 _)) (sOf_r6 _)) (sOf_r6 _)), .inl ⟨rfl, rfl⟩⟩

theorem accvCvt (g : Guard) (rm : Rm) (sat : Bool) (d : Tile) (a : Acc) (j : Option SReg) : Statement (.accvCvt g rm sat d a j) := by
  intro fs h
  match j, h with
  | .none, h => cases h; exact ⟨congrArg some (congr (congr (congr (congr (congr (congrArg Instr.accvCvt (Guard.ofCode_code _)) (rmOf_modRm _ _)) (satOf_modRm _ _)) (tOf_r6 _)) (aOf_r6 _)) (rfl)), .inl ⟨rfl, rfl⟩⟩
  | .some r_j, h => cases h; exact ⟨congrArg some (congr (congr (congr (congr (congr (congrArg Instr.accvCvt (Guard.ofCode_code _)) (rmOf_modRm _ _)) (satOf_modRm _ _)) (tOf_r6 _)) (aOf_r6 _)) (congrArg Option.some (job_read _))), .inr (.inl ⟨rfl, lt32_job _⟩)⟩

theorem accvCvti (g : Guard) (sat : Bool) (d : Tile) (a : Acc) (j : Option SReg) : Statement (.accvCvti g sat d a j) := by
  intro fs h
  match j, h with
  | .none, h => cases h; exact ⟨congrArg some (congr (congr (congr (congr (congrArg Instr.accvCvti (Guard.ofCode_code _)) (satOf_modRm _ _)) (tOf_r6 _)) (aOf_r6 _)) (rfl)), .inl ⟨rfl, rfl⟩⟩
  | .some r_j, h => cases h; exact ⟨congrArg some (congr (congr (congr (congr (congrArg Instr.accvCvti (Guard.ofCode_code _)) (satOf_modRm _ _)) (tOf_r6 _)) (aOf_r6 _)) (congrArg Option.some (job_read _))), .inr (.inl ⟨rfl, lt32_job _⟩)⟩

theorem mxwait (g : Guard) (d : SReg) (a : SReg) : Statement (.mxwait g d a) := by
  intro fs h
  cases h
  exact ⟨congrArg some (congr (congr (congrArg Instr.mxwait (Guard.ofCode_code _)) (sOf_r6 _)) (sOf_r6 _)), .inl ⟨rfl, rfl⟩⟩

theorem mxtest (g : Guard) (d : SReg) (a : SReg) : Statement (.mxtest g d a) := by
  intro fs h
  cases h
  exact ⟨congrArg some (congr (congr (congrArg Instr.mxtest (Guard.ofCode_code _)) (sOf_r6 _)) (sOf_r6 _)), .inl ⟨rfl, rfl⟩⟩

theorem plank (g : Guard) (d : Tile) (a : Tile) (b : SReg) (j : Option SReg) : Statement (.plank g d a b j) := by
  intro fs h
  match j, h with
  | .none, h => cases h; exact ⟨congrArg some (congr (congr (congr (congr (congrArg Instr.plank (Guard.ofCode_code _)) (tOf_r6 _)) (tOf_r6 _)) (sOf_r6 _)) (rfl)), .inl ⟨rfl, rfl⟩⟩
  | .some r_j, h => cases h; exact ⟨congrArg some (congr (congr (congr (congr (congrArg Instr.plank (Guard.ofCode_code _)) (tOf_r6 _)) (tOf_r6 _)) (sOf_r6 _)) (congrArg Option.some (job_read _))), .inr (.inl ⟨rfl, lt32_job _⟩)⟩

theorem planm (g : Guard) (r : PlanReg) (c : Bool) (a : VReg) (j : Option SReg) : Statement (.planm g r c a j) := by
  intro fs h
  match j, h with
  | .none, h => cases h; exact ⟨congrArg some (congr (congr (congr (congr (congrArg Instr.planm (Guard.ofCode_code _)) (plan_reg _ _)) (plan_ctx _ _)) (sOf_r6 _)) (rfl)), .inl ⟨rfl, rfl⟩⟩
  | .some r_j, h => cases h; exact ⟨congrArg some (congr (congr (congr (congr (congrArg Instr.planm (Guard.ofCode_code _)) (plan_reg _ _)) (plan_ctx _ _)) (sOf_r6 _)) (congrArg Option.some (job_read _))), .inr (.inl ⟨rfl, lt32_job _⟩)⟩

theorem balance (g : Guard) (c : Bool) (a : Tile) (j : Option SReg) : Statement (.balance g c a j) := by
  intro fs h
  match j, h with
  | .none, h => cases h; exact ⟨congrArg some (congr (congr (congr (congrArg Instr.balance (Guard.ofCode_code _)) (fnBit _)) (tOf_r6 _)) (rfl)), .inl ⟨rfl, rfl⟩⟩
  | .some r_j, h => cases h; exact ⟨congrArg some (congr (congr (congr (congrArg Instr.balance (Guard.ofCode_code _)) (fnBit _)) (tOf_r6 _)) (congrArg Option.some (job_read _))), .inr (.inl ⟨rfl, lt32_job _⟩)⟩

theorem planx (g : Guard) (c : Bool) (d : Tile) (a : Tile) (j : Option SReg) : Statement (.planx g c d a j) := by
  intro fs h
  match j, h with
  | .none, h => cases h; exact ⟨congrArg some (congr (congr (congr (congr (congrArg Instr.planx (Guard.ofCode_code _)) (fnBit _)) (tOf_r6 _)) (tOf_r6 _)) (rfl)), .inl ⟨rfl, rfl⟩⟩
  | .some r_j, h => cases h; exact ⟨congrArg some (congr (congr (congr (congr (congrArg Instr.planx (Guard.ofCode_code _)) (fnBit _)) (tOf_r6 _)) (tOf_r6 _)) (congrArg Option.some (job_read _))), .inr (.inl ⟨rfl, lt32_job _⟩)⟩

theorem plandot (g : Guard) (c : Bool) (a : Tile) (b : Tile) (j : Option SReg) : Statement (.plandot g c a b j) := by
  intro fs h
  match j, h with
  | .none, h => cases h; exact ⟨congrArg some (congr (congr (congr (congr (congrArg Instr.plandot (Guard.ofCode_code _)) (fnBit _)) (tOf_r6 _)) (tOf_r6 _)) (rfl)), .inl ⟨rfl, rfl⟩⟩
  | .some r_j, h => cases h; exact ⟨congrArg some (congr (congr (congr (congr (congrArg Instr.plandot (Guard.ofCode_code _)) (fnBit _)) (tOf_r6 _)) (tOf_r6 _)) (congrArg Option.some (job_read _))), .inr (.inl ⟨rfl, lt32_job _⟩)⟩

theorem planlse (g : Guard) (col : Bool) (c : Bool) (d : Acc) (a : Tile) (j : Option SReg) : Statement (.planlse g col c d a j) := by
  intro fs h
  match j, h with
  | .none, h => cases h; exact ⟨congrArg some (congr (congr (congr (congr (congr (congrArg Instr.planlse (Guard.ofCode_code _)) (lse_col _ _)) (lse_ctx _ _)) (aOf_r6 _)) (tOf_r6 _)) (rfl)), .inl ⟨rfl, rfl⟩⟩
  | .some r_j, h => cases h; exact ⟨congrArg some (congr (congr (congr (congr (congr (congrArg Instr.planlse (Guard.ofCode_code _)) (lse_col _ _)) (lse_ctx _ _)) (aOf_r6 _)) (tOf_r6 _)) (congrArg Option.some (job_read _))), .inr (.inl ⟨rfl, lt32_job _⟩)⟩

theorem planrd (g : Guard) (c : Bool) (x : PlanRd) : Statement (.planrd g c x) := by
  intro fs h
  cases x with
  | vec r d => cases c <;> cases r <;> (cases h; exact ⟨by simp [rawDecode, rawMatrix, Fields.base, b2n, PlanReg.code, PlanReg.ofCode], .inl ⟨rfl, rfl⟩⟩)
  | st d => cases c <;> (cases h; exact ⟨by simp [rawDecode, rawMatrix, Fields.base, b2n], .inl ⟨rfl, rfl⟩⟩)
  | res d => cases c <;> (cases h; exact ⟨by simp [rawDecode, rawMatrix, Fields.base, b2n], .inl ⟨rfl, rfl⟩⟩)
  | dot d => cases c <;> (cases h; exact ⟨by simp [rawDecode, rawMatrix, Fields.base, b2n], .inl ⟨rfl, rfl⟩⟩)

theorem red (g : Guard) (op : RedOp) (t : Fmt) (m : Mode) (d : SReg) (a : SReg) (len : Src96) (grp : Grp) : Statement (.red g op t m d a len grp) := by
  intro fs h
  match len, h with
  | .reg r_len, h => cases h; exact ⟨congrArg some (congr (congr (congr (congr (congr (congr (congr (congrArg Instr.red (Guard.ofCode_code _)) (o_fmt _ _)) (fmt_o _ _)) (modeOf_modMem _ _)) (sOf_r6 _)) (sOf_r6 _)) (congrArg Src96.reg (sOf_r6 _))) (Grp.ofCode_code _)), .inl ⟨rfl, rfl⟩⟩
  | .imm i_len, h => cases h; exact ⟨congrArg some (congr (congr (congr (congr (congr (congr (congr (congrArg Instr.red (Guard.ofCode_code _)) (o_fmt _ _)) (fmt_o _ _)) (modeOf_modMem _ _)) (sOf_r6 _)) (sOf_r6 _)) (congrArg Src96.imm (rt32 _))) (Grp.ofCode_code _)), .inr (.inl ⟨rfl, lt32 _⟩)⟩

theorem redw (g : Guard) (d : SReg) (a : SReg) : Statement (.redw g d a) := by
  intro fs h
  cases h
  exact ⟨congrArg some (congr (congr (congrArg Instr.redw (Guard.ofCode_code _)) (sOf_r6 _)) (sOf_r6 _)), .inl ⟨rfl, rfl⟩⟩

theorem topk (g : Guard) (thr : Bool) (d : VReg) (a : VReg) (k : Src96) (grp : Grp) : Statement (.topk g thr d a k grp) := by
  intro fs h
  match k, h with
  | .reg r_k, h => cases h; exact ⟨congrArg some (congr (congr (congr (congr (congr (congrArg Instr.topk (Guard.ofCode_code _)) (fnBool _)) (sOf_r6 _)) (sOf_r6 _)) (congrArg Src96.reg (sOf_r6 _))) (Grp.ofCode_code _)), .inl ⟨rfl, rfl⟩⟩
  | .imm i_k, h => cases h; exact ⟨congrArg some (congr (congr (congr (congr (congr (congrArg Instr.topk (Guard.ofCode_code _)) (fnBool _)) (sOf_r6 _)) (sOf_r6 _)) (congrArg Src96.imm (rt32 _))) (Grp.ofCode_code _)), .inr (.inl ⟨rfl, lt32 _⟩)⟩

theorem mcast (g : Guard) (k : Fin 8) (vec : Bool) (m : Mode) (d : SReg) (a : SReg) (b : SReg) : Statement (.mcast g k vec m d a b) := by
  intro fs h
  cases h
  exact ⟨congrArg some (congr (congr (congr (congr (congr (congr (congrArg Instr.mcast (Guard.ofCode_code _)) (mcast_k _ _)) (mcast_v _ _)) (modeOf_modMem _ _)) (sOf_r6 _)) (sOf_r6 _)) (sOf_r6 _)), .inl ⟨rfl, rfl⟩⟩

theorem pfetch (g : Guard) (pin : Bool) (d : SReg) (a : SReg) (b : Src96) : Statement (.pfetch g pin d a b) := by
  intro fs h
  match b, h with
  | .reg r_b, h => cases h; exact ⟨congrArg some (congr (congr (congr (congr (congrArg Instr.pfetch (Guard.ofCode_code _)) (fnBool _)) (sOf_r6 _)) (sOf_r6 _)) (congrArg Src96.reg (sOf_r6 _))), .inl ⟨rfl, rfl⟩⟩
  | .imm i_b, h => cases h; exact ⟨congrArg some (congr (congr (congr (congr (congrArg Instr.pfetch (Guard.ofCode_code _)) (fnBool _)) (sOf_r6 _)) (sOf_r6 _)) (congrArg Src96.imm (rt32 _))), .inr (.inl ⟨rfl, lt32 _⟩)⟩

theorem tlbinvPage (g : Guard) (d : SReg) (a : SReg) : Statement (.tlbinvPage g d a) := by
  intro fs h
  cases h
  exact ⟨congrArg some (congr (congr (congrArg Instr.tlbinvPage (Guard.ofCode_code _)) (sOf_r6 _)) (sOf_r6 _)), .inl ⟨rfl, rfl⟩⟩

theorem tlbinvAs (g : Guard) (d : SReg) : Statement (.tlbinvAs g d) := by
  intro fs h
  cases h
  exact ⟨congrArg some (congr (congrArg Instr.tlbinvAs (Guard.ofCode_code _)) (sOf_r6 _)), .inl ⟨rfl, rfl⟩⟩

theorem tlbinvAsid (g : Guard) (d : SReg) (a : SReg) : Statement (.tlbinvAsid g d a) := by
  intro fs h
  cases h
  exact ⟨congrArg some (congr (congr (congrArg Instr.tlbinvAsid (Guard.ofCode_code _)) (sOf_r6 _)) (sOf_r6 _)), .inl ⟨rfl, rfl⟩⟩

theorem tlbinvAll (g : Guard) (d : SReg) : Statement (.tlbinvAll g d) := by
  intro fs h
  cases h
  exact ⟨congrArg some (congr (congrArg Instr.tlbinvAll (Guard.ofCode_code _)) (sOf_r6 _)), .inl ⟨rfl, rfl⟩⟩

theorem tlbinvComplete (w : InvalFor) (c : Cover) : Statement (.tlbinvComplete w c) := none_of rfl
theorem overwrite (key : Nat) : Statement (.overwrite key) := none_of rfl
theorem preempt (key : Nat) : Statement (.preempt key) := none_of rfl
theorem machine (gid : Nat) (src : BitVec 8) (quad : Nat) (which : BitVec 8) (addr : Word) : Statement (.machine gid src quad which addr) := none_of rfl
theorem launchAccept (w : LaunchFrom) (asid : BitVec 8) (rec : BitVec 512) : Statement (.launchAccept w asid rec) := none_of rfl
theorem dispatchStep : Statement (.dispatchStep) := none_of rfl
theorem priorityAging (grid : Nat) : Statement (.priorityAging grid) := none_of rfl
theorem quantumExpiry (grid : Nat) (start : Nat) : Statement (.quantumExpiry grid start) := none_of rfl
theorem connectorImageLoad (grid : Nat) (va : Nat) : Statement (.connectorImageLoad grid va) := none_of rfl
theorem gangStart (gid : Nat) : Statement (.gangStart gid) := none_of rfl
theorem gridWedged (grid : Nat) : Statement (.gridWedged grid) := none_of rfl
theorem gangEnd (gid : Nat) : Statement (.gangEnd gid) := none_of rfl
theorem doneSignal (grid : Nat) (cap : Word) (inc : Word) : Statement (.doneSignal grid cap inc) := none_of rfl
theorem quadClearDone (quad : Nat) : Statement (.quadClearDone quad) := none_of rfl
theorem saveRoutineStart (gid : Nat) (quad : Nat) (core : Nat) : Statement (.saveRoutineStart gid quad core) := none_of rfl
theorem saveAcknowledgement (gid : Nat) (quad : Nat) (core : Nat) : Statement (.saveAcknowledgement gid quad core) := none_of rfl
theorem drainComplete (gid : Nat) : Statement (.drainComplete gid) := none_of rfl
theorem contextDmaDone (gid : Nat) (ok : Bool) : Statement (.contextDmaDone gid ok) := none_of rfl
theorem parkedReady (gid : Nat) : Statement (.parkedReady gid) := none_of rfl
theorem restoreDmaDone (gid : Nat) : Statement (.restoreDmaDone gid) := none_of rfl
theorem restoreRoutineEnd (gid : Nat) : Statement (.restoreRoutineEnd gid) := none_of rfl
theorem suspend (gid : Nat) (lantern : Nat) : Statement (.suspend gid lantern) := none_of rfl
theorem offerArrival (offer : Nat) : Statement (.offerArrival offer) := none_of rfl
theorem lanternDecision (lantern : Nat) : Statement (.lanternDecision lantern) := none_of rfl
theorem completionDelivery (offer : Nat) (key : Nat) (st : BitVec 64) (item : Option Item) : Statement (.completionDelivery offer key st item) := none_of rfl
theorem deadlineWithdrawal (offer : Nat) : Statement (.deadlineWithdrawal offer) := none_of rfl
theorem closeArrival (asid : Nat) (va : Nat) (fifo : Nat) (ovf : Bool) (key : Nat) (d : SReg) (back : Nat) : Statement (.closeArrival asid va fifo ovf key d back) := none_of rfl
theorem closedEmptyCompletion (offer : Nat) (port : Nat) : Statement (.closedEmptyCompletion offer port) := none_of rfl
theorem fifoItemArrival (asid : Nat) (va : Nat) (fifo : Nat) (ovf : Bool) (item : Option Item) : Statement (.fifoItemArrival asid va fifo ovf item) := none_of rfl
theorem permitReturn (asid : Nat) (va : Nat) (fifo : Nat) (ovf : Bool) : Statement (.permitReturn asid va fifo ovf) := none_of rfl
theorem sendArrival (m : SendMsg) : Statement (.sendArrival m) := none_of rfl
theorem sendStatusReturn (key : Nat) (d : Option SReg) (report : Bool) (st : BitVec 8) : Statement (.sendStatusReturn key d report st) := none_of rfl
theorem sendnArrival (key : Nat) (reg : Fin 32) (val : Item) (sender : Nat) : Statement (.sendnArrival key reg val sender) := none_of rfl
theorem remoteStorePublish (w : RemoteWrite) : Statement (.remoteStorePublish w) := none_of rfl
theorem remoteAcknowledgement (key : Nat) : Statement (.remoteAcknowledgement key) := none_of rfl
theorem remoteLoadResponse (r : RemoteRead) : Statement (.remoteLoadResponse r) := none_of rfl
theorem timelineOperation (op : TlOp) : Statement (.timelineOperation op) := none_of rfl
theorem taskQueueOperation (op : TqOp) : Statement (.taskQueueOperation op) := none_of rfl
theorem copyAccept (quad : Nat) (ticket : Nat) : Statement (.copyAccept quad ticket) := none_of rfl
theorem lineMove (quad : Nat) (ticket : Nat) : Statement (.lineMove quad ticket) := none_of rfl
theorem copyComplete (quad : Nat) (ticket : Nat) (ok : Bool) : Statement (.copyComplete quad ticket ok) := none_of rfl
theorem waittWake (key : Nat) : Statement (.waittWake key) := none_of rfl
theorem storageReadSend (pte : Nat) : Statement (.storageReadSend pte) := none_of rfl
theorem storageReadComplete (pte : Nat) : Statement (.storageReadComplete pte) := none_of rfl
theorem storageReadFail (pte : Nat) : Statement (.storageReadFail pte) := none_of rfl
theorem sweepStep : Statement (.sweepStep) := none_of rfl
theorem writebackComplete (pte : Nat) : Statement (.writebackComplete pte) := none_of rfl
theorem writebackFail (pte : Nat) : Statement (.writebackFail pte) := none_of rfl
theorem nvmeFlush : Statement .nvmeFlush := none_of rfl
theorem wputRemoteWrite (m : PutMsg) : Statement (.wputRemoteWrite m) := none_of rfl
theorem wputAcknowledgement (key : Nat) (k : Fin 4) (quad : Nat) (ticket : Nat) (err : BitVec 8) : Statement (.wputAcknowledgement key k quad ticket err) := none_of rfl
theorem jobStart (quad : Nat) (id : Nat) : Statement (.jobStart quad id) := none_of rfl
theorem jobComplete (quad : Nat) (id : Nat) : Statement (.jobComplete quad id) := none_of rfl
theorem episodeDecision (ep : Nat) : Statement (.episodeDecision ep) := none_of rfl
theorem reductionComplete (ep : Nat) (rank : Nat) : Statement (.reductionComplete ep rank) := none_of rfl
theorem rmaRead (tag : RmaTag) (die : Fin 4) (asid : BitVec 8) (va : Nat) (n : Nat) : Statement (.rmaRead tag die asid va n) := none_of rfl
theorem rmaWrite (tag : RmaTag) (die : Fin 4) (asid : BitVec 8) (va : Nat) (bytes : List Byte) : Statement (.rmaWrite tag die asid va bytes) := none_of rfl
theorem storageEvict (root : Nat) (lo : Nat) (hi : Nat) : Statement (.storageEvict root lo hi) := none_of rfl
theorem sncycMatch : Statement (.sncycMatch) := none_of rfl
theorem sppush (pa : Word) : Statement (.sppush pa) := none_of rfl
theorem spcmdFlush (val : Word) : Statement (.spcmdFlush val) := none_of rfl
theorem registerWrite (quad : Nat) (space : Nat) (off : Nat) (val : Word) : Statement (.registerWrite quad space off val) := none_of rfl
theorem thermalGateRaise : Statement (.thermalGateRaise) := none_of rfl
theorem thermalReset : Statement (.thermalReset) := none_of rfl
theorem linkStop (quad : Nat) (dir : Dir) : Statement (.linkStop quad dir) := none_of rfl
theorem fault (f : FaultMsg) : Statement (.fault f) := none_of rfl
theorem flushResponse (key : Nat) (endpoint : Nat) : Statement (.flushResponse key endpoint) := none_of rfl
theorem lightshipCfgrd (addr : Word) : Statement (.lightshipCfgrd addr) := none_of rfl
theorem lightshipCfgwr (addr : Word) (val : Word) : Statement (.lightshipCfgwr addr val) := none_of rfl
theorem lightshipHalt (grid : Nat) : Statement (.lightshipHalt grid) := none_of rfl
theorem lightshipRelease (grid : Nat) : Statement (.lightshipRelease grid) := none_of rfl
theorem lightshipEnd (grid : Nat) : Statement (.lightshipEnd grid) := none_of rfl
theorem snapshotRead (quad : Nat) : Statement (.snapshotRead quad) := none_of rfl
theorem firmwareUpdate (image : List Byte) : Statement (.firmwareUpdate image) := none_of rfl
theorem attest (nonce : BitVec 256) : Statement (.attest nonce) := none_of rfl
theorem nvmeAdmin (op : NvmeOp) : Statement (.nvmeAdmin op) := none_of rfl
theorem flitCrcRetry (quad : Nat) (dir : Dir) : Statement (.flitCrcRetry quad dir) := none_of rfl
theorem packetPromotion (p : Promo) : Statement (.packetPromotion p) := none_of rfl
theorem peerUnreachable (dev : Nat) : Statement (.peerUnreachable dev) := none_of rfl
theorem hostLaunch (c : HostCmd) : Statement (.hostLaunch c) := none_of rfl
theorem hostTlsig (c : HostCmd) : Statement (.hostTlsig c) := none_of rfl
theorem hostTlrd (c : HostCmd) : Statement (.hostTlrd c) := none_of rfl
theorem cfgwr (c : HostCmd) : Statement (.cfgwr c) := none_of rfl
theorem cfgrd (c : HostCmd) : Statement (.cfgrd c) := none_of rfl
theorem hostHalt (c : HostCmd) : Statement (.hostHalt c) := none_of rfl
theorem hostRelease (c : HostCmd) : Statement (.hostRelease c) := none_of rfl
theorem hostEnd (c : HostCmd) : Statement (.hostEnd c) := none_of rfl
theorem flush (c : HostCmd) : Statement (.flush c) := none_of rfl
theorem inval (c : HostCmd) : Statement (.inval c) := none_of rfl
theorem lightshipInval (c : Cover) : Statement (.lightshipInval c) := none_of rfl
theorem unsupportedPacket : Statement (.unsupportedPacket) := none_of rfl
theorem reset : Statement (.reset) := none_of rfl
theorem boot : Statement (.boot) := none_of rfl
theorem lightshipFlare : Statement (.lightshipFlare) := none_of rfl
end Sys2Proof.Laws.Reads
end

