-- ==== Sys2Proof/Laws/State.lean ====
section
/-! SUPPORT. What each basic update of the state leaves in each field: one lemma per field per update. -/

namespace Sys2Proof.Machine

/-! ### setStrand -/

@[simp] theorem setStrand_now (s : State) (k : Nat) (x : Strand) : (s.setStrand k x).now = s.now := rfl
@[simp] theorem setStrand_cycBase (s : State) (k : Nat) (x : Strand) : (s.setStrand k x).cycBase = s.cycBase := rfl
@[simp] theorem setStrand_agenda (s : State) (k : Nat) (x : Strand) : (s.setStrand k x).agenda = s.agenda := rfl
@[simp] theorem setStrand_cur (s : State) (k : Nat) (x : Strand) : (s.setStrand k x).cur = s.cur := rfl
@[simp] theorem setStrand_free (s : State) (k : Nat) (x : Strand) : (s.setStrand k x).free = s.free := rfl
@[simp] theorem setStrand_opSeq (s : State) (k : Nat) (x : Strand) : (s.setStrand k x).opSeq = s.opSeq := rfl
@[simp] theorem setStrand_booted (s : State) (k : Nat) (x : Strand) : (s.setStrand k x).booted = s.booted := rfl
@[simp] theorem setStrand_held (s : State) (k : Nat) (x : Strand) : (s.setStrand k x).held = s.held := rfl
@[simp] theorem setStrand_dev (s : State) (k : Nat) (x : Strand) : (s.setStrand k x).dev = s.dev := rfl
@[simp] theorem setStrand_domain (s : State) (k : Nat) (x : Strand) : (s.setStrand k x).domain = s.domain := rfl
@[simp] theorem setStrand_lost (s : State) (k : Nat) (x : Strand) : (s.setStrand k x).lost = s.lost := rfl
@[simp] theorem setStrand_flash (s : State) (k : Nat) (x : Strand) : (s.setStrand k x).flash = s.flash := rfl
@[simp] theorem setStrand_measure (s : State) (k : Nat) (x : Strand) : (s.setStrand k x).measure = s.measure := rfl
@[simp] theorem setStrand_drives (s : State) (k : Nat) (x : Strand) : (s.setStrand k x).drives = s.drives := rfl
@[simp] theorem setStrand_reports (s : State) (k : Nat) (x : Strand) : (s.setStrand k x).reports = s.reports := rfl
@[simp] theorem setStrand_ls (s : State) (k : Nat) (x : Strand) : (s.setStrand k x).ls = s.ls := rfl
@[simp] theorem setStrand_hbm (s : State) (k : Nat) (x : Strand) : (s.setStrand k x).hbm = s.hbm := rfl
@[simp] theorem setStrand_host (s : State) (k : Nat) (x : Strand) : (s.setStrand k x).host = s.host := rfl
@[simp] theorem setStrand_disk (s : State) (k : Nat) (x : Strand) : (s.setStrand k x).disk = s.disk := rfl
@[simp] theorem setStrand_diskPi (s : State) (k : Nat) (x : Strand) : (s.setStrand k x).diskPi = s.diskPi := rfl
@[simp] theorem setStrand_durable (s : State) (k : Nat) (x : Strand) : (s.setStrand k x).durable = s.durable := rfl
@[simp] theorem setStrand_hbmBad (s : State) (k : Nat) (x : Strand) : (s.setStrand k x).hbmBad = s.hbmBad := rfl
@[simp] theorem setStrand_tiles (s : State) (k : Nat) (x : Strand) : (s.setStrand k x).tiles = s.tiles := rfl
@[simp] theorem setStrand_acc (s : State) (k : Nat) (x : Strand) : (s.setStrand k x).acc = s.acc := rfl
@[simp] theorem setStrand_unf (s : State) (k : Nat) (x : Strand) : (s.setStrand k x).unf = s.unf := rfl
@[simp] theorem setStrand_quads (s : State) (k : Nat) (x : Strand) : (s.setStrand k x).quads = s.quads := rfl
@[simp] theorem setStrand_gangs (s : State) (k : Nat) (x : Strand) : (s.setStrand k x).gangs = s.gangs := rfl
@[simp] theorem setStrand_gens (s : State) (k : Nat) (x : Strand) : (s.setStrand k x).gens = s.gens := rfl
@[simp] theorem setStrand_grids (s : State) (k : Nat) (x : Strand) : (s.setStrand k x).grids = s.grids := rfl
@[simp] theorem setStrand_nextSeq (s : State) (k : Nat) (x : Strand) : (s.setStrand k x).nextSeq = s.nextSeq := rfl
@[simp] theorem setStrand_dscfg (s : State) (k : Nat) (x : Strand) : (s.setStrand k x).dscfg = s.dscfg := rfl
@[simp] theorem setStrand_spcfg (s : State) (k : Nat) (x : Strand) : (s.setStrand k x).spcfg = s.spcfg := rfl
@[simp] theorem setStrand_nccfg (s : State) (k : Nat) (x : Strand) : (s.setStrand k x).nccfg = s.nccfg := rfl
@[simp] theorem setStrand_sncfg (s : State) (k : Nat) (x : Strand) : (s.setStrand k x).sncfg = s.sncfg := rfl
@[simp] theorem setStrand_sncyc (s : State) (k : Nat) (x : Strand) : (s.setStrand k x).sncyc = s.sncyc := rfl
@[simp] theorem setStrand_pwcfg (s : State) (k : Nat) (x : Strand) : (s.setStrand k x).pwcfg = s.pwcfg := rfl
@[simp] theorem setStrand_spErr (s : State) (k : Nat) (x : Strand) : (s.setStrand k x).spErr = s.spErr := rfl
@[simp] theorem setStrand_badCmd (s : State) (k : Nat) (x : Strand) : (s.setStrand k x).badCmd = s.badCmd := rfl
@[simp] theorem setStrand_unsup (s : State) (k : Nat) (x : Strand) : (s.setStrand k x).unsup = s.unsup := rfl
@[simp] theorem setStrand_lnStarve (s : State) (k : Nat) (x : Strand) : (s.setStrand k x).lnStarve = s.lnStarve := rfl
@[simp] theorem setStrand_astab (s : State) (k : Nat) (x : Strand) : (s.setStrand k x).astab = s.astab := rfl
@[simp] theorem setStrand_domtab (s : State) (k : Nat) (x : Strand) : (s.setStrand k x).domtab = s.domtab := rfl
@[simp] theorem setStrand_timelines (s : State) (k : Nat) (x : Strand) : (s.setStrand k x).timelines = s.timelines := rfl
@[simp] theorem setStrand_queues (s : State) (k : Nat) (x : Strand) : (s.setStrand k x).queues = s.queues := rfl
@[simp] theorem setStrand_windows (s : State) (k : Nat) (x : Strand) : (s.setStrand k x).windows = s.windows := rfl
@[simp] theorem setStrand_images (s : State) (k : Nat) (x : Strand) : (s.setStrand k x).images = s.images := rfl
@[simp] theorem setStrand_offers (s : State) (k : Nat) (x : Strand) : (s.setStrand k x).offers = s.offers := rfl
@[simp] theorem setStrand_nextOffer (s : State) (k : Nat) (x : Strand) : (s.setStrand k x).nextOffer = s.nextOffer := rfl
@[simp] theorem setStrand_episodes (s : State) (k : Nat) (x : Strand) : (s.setStrand k x).episodes = s.episodes := rfl
@[simp] theorem setStrand_aborted (s : State) (k : Nat) (x : Strand) : (s.setStrand k x).aborted = s.aborted := rfl
@[simp] theorem setStrand_wcache (s : State) (k : Nat) (x : Strand) : (s.setStrand k x).wcache = s.wcache := rfl
@[simp] theorem setStrand_invals (s : State) (k : Nat) (x : Strand) : (s.setStrand k x).invals = s.invals := rfl
@[simp] theorem setStrand_awayPuts (s : State) (k : Nat) (x : Strand) : (s.setStrand k x).awayPuts = s.awayPuts := rfl
@[simp] theorem setStrand_pool (s : State) (k : Nat) (x : Strand) : (s.setStrand k x).pool = s.pool := rfl
@[simp] theorem setStrand_pages (s : State) (k : Nat) (x : Strand) : (s.setStrand k x).pages = s.pages := rfl
@[simp] theorem setStrand_waiting (s : State) (k : Nat) (x : Strand) : (s.setStrand k x).waiting = s.waiting := rfl
@[simp] theorem setStrand_sweepAt (s : State) (k : Nat) (x : Strand) : (s.setStrand k x).sweepAt = s.sweepAt := rfl
@[simp] theorem setStrand_sweeping (s : State) (k : Nat) (x : Strand) : (s.setStrand k x).sweeping = s.sweeping := rfl
@[simp] theorem setStrand_flushing (s : State) (k : Nat) (x : Strand) : (s.setStrand k x).flushing = s.flushing := rfl
@[simp] theorem setStrand_flushAsks (s : State) (k : Nat) (x : Strand) : (s.setStrand k x).flushAsks = s.flushAsks := rfl
@[simp] theorem setStrand_evicts (s : State) (k : Nat) (x : Strand) : (s.setStrand k x).evicts = s.evicts := rfl
@[simp] theorem setStrand_retries (s : State) (k : Nat) (x : Strand) : (s.setStrand k x).retries = s.retries := rfl
@[simp] theorem setStrand_stopped (s : State) (k : Nat) (x : Strand) : (s.setStrand k x).stopped = s.stopped := rfl
@[simp] theorem setStrand_packets (s : State) (k : Nat) (x : Strand) : (s.setStrand k x).packets = s.packets := rfl
@[simp] theorem setStrand_replies (s : State) (k : Nat) (x : Strand) : (s.setStrand k x).replies = s.replies := rfl
@[simp] theorem setStrand_late (s : State) (k : Nat) (x : Strand) : (s.setStrand k x).late = s.late := rfl
@[simp] theorem setStrand_deferred (s : State) (k : Nat) (x : Strand) : (s.setStrand k x).deferred = s.deferred := rfl
@[simp] theorem setStrand_rmaPending (s : State) (k : Nat) (x : Strand) : (s.setStrand k x).rmaPending = s.rmaPending := rfl
@[simp] theorem setStrand_records (s : State) (k : Nat) (x : Strand) : (s.setStrand k x).records = s.records := rfl
@[simp] theorem setStrand_completions (s : State) (k : Nat) (x : Strand) : (s.setStrand k x).completions = s.completions := rfl
@[simp] theorem setStrand_answers (s : State) (k : Nat) (x : Strand) : (s.setStrand k x).answers = s.answers := rfl
@[simp] theorem setStrand_strands (s : State) (k : Nat) (x : Strand) : (s.setStrand k x).strands = mset s.strands k x := rfl

/-! ### setQuad -/

@[simp] theorem setQuad_now (s : State) (q : Nat) (x : Quad) : (s.setQuad q x).now = s.now := rfl
@[simp] theorem setQuad_cycBase (s : State) (q : Nat) (x : Quad) : (s.setQuad q x).cycBase = s.cycBase := rfl
@[simp] theorem setQuad_agenda (s : State) (q : Nat) (x : Quad) : (s.setQuad q x).agenda = s.agenda := rfl
@[simp] theorem setQuad_cur (s : State) (q : Nat) (x : Quad) : (s.setQuad q x).cur = s.cur := rfl
@[simp] theorem setQuad_free (s : State) (q : Nat) (x : Quad) : (s.setQuad q x).free = s.free := rfl
@[simp] theorem setQuad_opSeq (s : State) (q : Nat) (x : Quad) : (s.setQuad q x).opSeq = s.opSeq := rfl
@[simp] theorem setQuad_booted (s : State) (q : Nat) (x : Quad) : (s.setQuad q x).booted = s.booted := rfl
@[simp] theorem setQuad_held (s : State) (q : Nat) (x : Quad) : (s.setQuad q x).held = s.held := rfl
@[simp] theorem setQuad_dev (s : State) (q : Nat) (x : Quad) : (s.setQuad q x).dev = s.dev := rfl
@[simp] theorem setQuad_domain (s : State) (q : Nat) (x : Quad) : (s.setQuad q x).domain = s.domain := rfl
@[simp] theorem setQuad_lost (s : State) (q : Nat) (x : Quad) : (s.setQuad q x).lost = s.lost := rfl
@[simp] theorem setQuad_flash (s : State) (q : Nat) (x : Quad) : (s.setQuad q x).flash = s.flash := rfl
@[simp] theorem setQuad_measure (s : State) (q : Nat) (x : Quad) : (s.setQuad q x).measure = s.measure := rfl
@[simp] theorem setQuad_drives (s : State) (q : Nat) (x : Quad) : (s.setQuad q x).drives = s.drives := rfl
@[simp] theorem setQuad_reports (s : State) (q : Nat) (x : Quad) : (s.setQuad q x).reports = s.reports := rfl
@[simp] theorem setQuad_ls (s : State) (q : Nat) (x : Quad) : (s.setQuad q x).ls = s.ls := rfl
@[simp] theorem setQuad_hbm (s : State) (q : Nat) (x : Quad) : (s.setQuad q x).hbm = s.hbm := rfl
@[simp] theorem setQuad_host (s : State) (q : Nat) (x : Quad) : (s.setQuad q x).host = s.host := rfl
@[simp] theorem setQuad_disk (s : State) (q : Nat) (x : Quad) : (s.setQuad q x).disk = s.disk := rfl
@[simp] theorem setQuad_diskPi (s : State) (q : Nat) (x : Quad) : (s.setQuad q x).diskPi = s.diskPi := rfl
@[simp] theorem setQuad_durable (s : State) (q : Nat) (x : Quad) : (s.setQuad q x).durable = s.durable := rfl
@[simp] theorem setQuad_hbmBad (s : State) (q : Nat) (x : Quad) : (s.setQuad q x).hbmBad = s.hbmBad := rfl
@[simp] theorem setQuad_tiles (s : State) (q : Nat) (x : Quad) : (s.setQuad q x).tiles = s.tiles := rfl
@[simp] theorem setQuad_acc (s : State) (q : Nat) (x : Quad) : (s.setQuad q x).acc = s.acc := rfl
@[simp] theorem setQuad_unf (s : State) (q : Nat) (x : Quad) : (s.setQuad q x).unf = s.unf := rfl
@[simp] theorem setQuad_strands (s : State) (q : Nat) (x : Quad) : (s.setQuad q x).strands = s.strands := rfl
@[simp] theorem setQuad_gangs (s : State) (q : Nat) (x : Quad) : (s.setQuad q x).gangs = s.gangs := rfl
@[simp] theorem setQuad_gens (s : State) (q : Nat) (x : Quad) : (s.setQuad q x).gens = s.gens := rfl
@[simp] theorem setQuad_grids (s : State) (q : Nat) (x : Quad) : (s.setQuad q x).grids = s.grids := rfl
@[simp] theorem setQuad_nextSeq (s : State) (q : Nat) (x : Quad) : (s.setQuad q x).nextSeq = s.nextSeq := rfl
@[simp] theorem setQuad_dscfg (s : State) (q : Nat) (x : Quad) : (s.setQuad q x).dscfg = s.dscfg := rfl
@[simp] theorem setQuad_spcfg (s : State) (q : Nat) (x : Quad) : (s.setQuad q x).spcfg = s.spcfg := rfl
@[simp] theorem setQuad_nccfg (s : State) (q : Nat) (x : Quad) : (s.setQuad q x).nccfg = s.nccfg := rfl
@[simp] theorem setQuad_sncfg (s : State) (q : Nat) (x : Quad) : (s.setQuad q x).sncfg = s.sncfg := rfl
@[simp] theorem setQuad_sncyc (s : State) (q : Nat) (x : Quad) : (s.setQuad q x).sncyc = s.sncyc := rfl
@[simp] theorem setQuad_pwcfg (s : State) (q : Nat) (x : Quad) : (s.setQuad q x).pwcfg = s.pwcfg := rfl
@[simp] theorem setQuad_spErr (s : State) (q : Nat) (x : Quad) : (s.setQuad q x).spErr = s.spErr := rfl
@[simp] theorem setQuad_badCmd (s : State) (q : Nat) (x : Quad) : (s.setQuad q x).badCmd = s.badCmd := rfl
@[simp] theorem setQuad_unsup (s : State) (q : Nat) (x : Quad) : (s.setQuad q x).unsup = s.unsup := rfl
@[simp] theorem setQuad_lnStarve (s : State) (q : Nat) (x : Quad) : (s.setQuad q x).lnStarve = s.lnStarve := rfl
@[simp] theorem setQuad_astab (s : State) (q : Nat) (x : Quad) : (s.setQuad q x).astab = s.astab := rfl
@[simp] theorem setQuad_domtab (s : State) (q : Nat) (x : Quad) : (s.setQuad q x).domtab = s.domtab := rfl
@[simp] theorem setQuad_timelines (s : State) (q : Nat) (x : Quad) : (s.setQuad q x).timelines = s.timelines := rfl
@[simp] theorem setQuad_queues (s : State) (q : Nat) (x : Quad) : (s.setQuad q x).queues = s.queues := rfl
@[simp] theorem setQuad_windows (s : State) (q : Nat) (x : Quad) : (s.setQuad q x).windows = s.windows := rfl
@[simp] theorem setQuad_images (s : State) (q : Nat) (x : Quad) : (s.setQuad q x).images = s.images := rfl
@[simp] theorem setQuad_offers (s : State) (q : Nat) (x : Quad) : (s.setQuad q x).offers = s.offers := rfl
@[simp] theorem setQuad_nextOffer (s : State) (q : Nat) (x : Quad) : (s.setQuad q x).nextOffer = s.nextOffer := rfl
@[simp] theorem setQuad_episodes (s : State) (q : Nat) (x : Quad) : (s.setQuad q x).episodes = s.episodes := rfl
@[simp] theorem setQuad_aborted (s : State) (q : Nat) (x : Quad) : (s.setQuad q x).aborted = s.aborted := rfl
@[simp] theorem setQuad_wcache (s : State) (q : Nat) (x : Quad) : (s.setQuad q x).wcache = s.wcache := rfl
@[simp] theorem setQuad_invals (s : State) (q : Nat) (x : Quad) : (s.setQuad q x).invals = s.invals := rfl
@[simp] theorem setQuad_awayPuts (s : State) (q : Nat) (x : Quad) : (s.setQuad q x).awayPuts = s.awayPuts := rfl
@[simp] theorem setQuad_pool (s : State) (q : Nat) (x : Quad) : (s.setQuad q x).pool = s.pool := rfl
@[simp] theorem setQuad_pages (s : State) (q : Nat) (x : Quad) : (s.setQuad q x).pages = s.pages := rfl
@[simp] theorem setQuad_waiting (s : State) (q : Nat) (x : Quad) : (s.setQuad q x).waiting = s.waiting := rfl
@[simp] theorem setQuad_sweepAt (s : State) (q : Nat) (x : Quad) : (s.setQuad q x).sweepAt = s.sweepAt := rfl
@[simp] theorem setQuad_sweeping (s : State) (q : Nat) (x : Quad) : (s.setQuad q x).sweeping = s.sweeping := rfl
@[simp] theorem setQuad_flushing (s : State) (q : Nat) (x : Quad) : (s.setQuad q x).flushing = s.flushing := rfl
@[simp] theorem setQuad_flushAsks (s : State) (q : Nat) (x : Quad) : (s.setQuad q x).flushAsks = s.flushAsks := rfl
@[simp] theorem setQuad_evicts (s : State) (q : Nat) (x : Quad) : (s.setQuad q x).evicts = s.evicts := rfl
@[simp] theorem setQuad_retries (s : State) (q : Nat) (x : Quad) : (s.setQuad q x).retries = s.retries := rfl
@[simp] theorem setQuad_stopped (s : State) (q : Nat) (x : Quad) : (s.setQuad q x).stopped = s.stopped := rfl
@[simp] theorem setQuad_packets (s : State) (q : Nat) (x : Quad) : (s.setQuad q x).packets = s.packets := rfl
@[simp] theorem setQuad_replies (s : State) (q : Nat) (x : Quad) : (s.setQuad q x).replies = s.replies := rfl
@[simp] theorem setQuad_late (s : State) (q : Nat) (x : Quad) : (s.setQuad q x).late = s.late := rfl
@[simp] theorem setQuad_deferred (s : State) (q : Nat) (x : Quad) : (s.setQuad q x).deferred = s.deferred := rfl
@[simp] theorem setQuad_rmaPending (s : State) (q : Nat) (x : Quad) : (s.setQuad q x).rmaPending = s.rmaPending := rfl
@[simp] theorem setQuad_records (s : State) (q : Nat) (x : Quad) : (s.setQuad q x).records = s.records := rfl
@[simp] theorem setQuad_completions (s : State) (q : Nat) (x : Quad) : (s.setQuad q x).completions = s.completions := rfl
@[simp] theorem setQuad_answers (s : State) (q : Nat) (x : Quad) : (s.setQuad q x).answers = s.answers := rfl
@[simp] theorem setQuad_quads (s : State) (q : Nat) (x : Quad) : (s.setQuad q x).quads = mset s.quads q x := rfl

/-! ### setGang -/

@[simp] theorem setGang_now (s : State) (n : Nat) (x : Gang) : (s.setGang n x).now = s.now := rfl
@[simp] theorem setGang_cycBase (s : State) (n : Nat) (x : Gang) : (s.setGang n x).cycBase = s.cycBase := rfl
@[simp] theorem setGang_agenda (s : State) (n : Nat) (x : Gang) : (s.setGang n x).agenda = s.agenda := rfl
@[simp] theorem setGang_cur (s : State) (n : Nat) (x : Gang) : (s.setGang n x).cur = s.cur := rfl
@[simp] theorem setGang_free (s : State) (n : Nat) (x : Gang) : (s.setGang n x).free = s.free := rfl
@[simp] theorem setGang_opSeq (s : State) (n : Nat) (x : Gang) : (s.setGang n x).opSeq = s.opSeq := rfl
@[simp] theorem setGang_booted (s : State) (n : Nat) (x : Gang) : (s.setGang n x).booted = s.booted := rfl
@[simp] theorem setGang_held (s : State) (n : Nat) (x : Gang) : (s.setGang n x).held = s.held := rfl
@[simp] theorem setGang_dev (s : State) (n : Nat) (x : Gang) : (s.setGang n x).dev = s.dev := rfl
@[simp] theorem setGang_domain (s : State) (n : Nat) (x : Gang) : (s.setGang n x).domain = s.domain := rfl
@[simp] theorem setGang_lost (s : State) (n : Nat) (x : Gang) : (s.setGang n x).lost = s.lost := rfl
@[simp] theorem setGang_flash (s : State) (n : Nat) (x : Gang) : (s.setGang n x).flash = s.flash := rfl
@[simp] theorem setGang_measure (s : State) (n : Nat) (x : Gang) : (s.setGang n x).measure = s.measure := rfl
@[simp] theorem setGang_drives (s : State) (n : Nat) (x : Gang) : (s.setGang n x).drives = s.drives := rfl
@[simp] theorem setGang_reports (s : State) (n : Nat) (x : Gang) : (s.setGang n x).reports = s.reports := rfl
@[simp] theorem setGang_ls (s : State) (n : Nat) (x : Gang) : (s.setGang n x).ls = s.ls := rfl
@[simp] theorem setGang_hbm (s : State) (n : Nat) (x : Gang) : (s.setGang n x).hbm = s.hbm := rfl
@[simp] theorem setGang_host (s : State) (n : Nat) (x : Gang) : (s.setGang n x).host = s.host := rfl
@[simp] theorem setGang_disk (s : State) (n : Nat) (x : Gang) : (s.setGang n x).disk = s.disk := rfl
@[simp] theorem setGang_diskPi (s : State) (n : Nat) (x : Gang) : (s.setGang n x).diskPi = s.diskPi := rfl
@[simp] theorem setGang_durable (s : State) (n : Nat) (x : Gang) : (s.setGang n x).durable = s.durable := rfl
@[simp] theorem setGang_hbmBad (s : State) (n : Nat) (x : Gang) : (s.setGang n x).hbmBad = s.hbmBad := rfl
@[simp] theorem setGang_tiles (s : State) (n : Nat) (x : Gang) : (s.setGang n x).tiles = s.tiles := rfl
@[simp] theorem setGang_acc (s : State) (n : Nat) (x : Gang) : (s.setGang n x).acc = s.acc := rfl
@[simp] theorem setGang_unf (s : State) (n : Nat) (x : Gang) : (s.setGang n x).unf = s.unf := rfl
@[simp] theorem setGang_strands (s : State) (n : Nat) (x : Gang) : (s.setGang n x).strands = s.strands := rfl
@[simp] theorem setGang_quads (s : State) (n : Nat) (x : Gang) : (s.setGang n x).quads = s.quads := rfl
@[simp] theorem setGang_gens (s : State) (n : Nat) (x : Gang) : (s.setGang n x).gens = s.gens := rfl
@[simp] theorem setGang_grids (s : State) (n : Nat) (x : Gang) : (s.setGang n x).grids = s.grids := rfl
@[simp] theorem setGang_nextSeq (s : State) (n : Nat) (x : Gang) : (s.setGang n x).nextSeq = s.nextSeq := rfl
@[simp] theorem setGang_dscfg (s : State) (n : Nat) (x : Gang) : (s.setGang n x).dscfg = s.dscfg := rfl
@[simp] theorem setGang_spcfg (s : State) (n : Nat) (x : Gang) : (s.setGang n x).spcfg = s.spcfg := rfl
@[simp] theorem setGang_nccfg (s : State) (n : Nat) (x : Gang) : (s.setGang n x).nccfg = s.nccfg := rfl
@[simp] theorem setGang_sncfg (s : State) (n : Nat) (x : Gang) : (s.setGang n x).sncfg = s.sncfg := rfl
@[simp] theorem setGang_sncyc (s : State) (n : Nat) (x : Gang) : (s.setGang n x).sncyc = s.sncyc := rfl
@[simp] theorem setGang_pwcfg (s : State) (n : Nat) (x : Gang) : (s.setGang n x).pwcfg = s.pwcfg := rfl
@[simp] theorem setGang_spErr (s : State) (n : Nat) (x : Gang) : (s.setGang n x).spErr = s.spErr := rfl
@[simp] theorem setGang_badCmd (s : State) (n : Nat) (x : Gang) : (s.setGang n x).badCmd = s.badCmd := rfl
@[simp] theorem setGang_unsup (s : State) (n : Nat) (x : Gang) : (s.setGang n x).unsup = s.unsup := rfl
@[simp] theorem setGang_lnStarve (s : State) (n : Nat) (x : Gang) : (s.setGang n x).lnStarve = s.lnStarve := rfl
@[simp] theorem setGang_astab (s : State) (n : Nat) (x : Gang) : (s.setGang n x).astab = s.astab := rfl
@[simp] theorem setGang_domtab (s : State) (n : Nat) (x : Gang) : (s.setGang n x).domtab = s.domtab := rfl
@[simp] theorem setGang_timelines (s : State) (n : Nat) (x : Gang) : (s.setGang n x).timelines = s.timelines := rfl
@[simp] theorem setGang_queues (s : State) (n : Nat) (x : Gang) : (s.setGang n x).queues = s.queues := rfl
@[simp] theorem setGang_windows (s : State) (n : Nat) (x : Gang) : (s.setGang n x).windows = s.windows := rfl
@[simp] theorem setGang_images (s : State) (n : Nat) (x : Gang) : (s.setGang n x).images = s.images := rfl
@[simp] theorem setGang_offers (s : State) (n : Nat) (x : Gang) : (s.setGang n x).offers = s.offers := rfl
@[simp] theorem setGang_nextOffer (s : State) (n : Nat) (x : Gang) : (s.setGang n x).nextOffer = s.nextOffer := rfl
@[simp] theorem setGang_episodes (s : State) (n : Nat) (x : Gang) : (s.setGang n x).episodes = s.episodes := rfl
@[simp] theorem setGang_aborted (s : State) (n : Nat) (x : Gang) : (s.setGang n x).aborted = s.aborted := rfl
@[simp] theorem setGang_wcache (s : State) (n : Nat) (x : Gang) : (s.setGang n x).wcache = s.wcache := rfl
@[simp] theorem setGang_invals (s : State) (n : Nat) (x : Gang) : (s.setGang n x).invals = s.invals := rfl
@[simp] theorem setGang_awayPuts (s : State) (n : Nat) (x : Gang) : (s.setGang n x).awayPuts = s.awayPuts := rfl
@[simp] theorem setGang_pool (s : State) (n : Nat) (x : Gang) : (s.setGang n x).pool = s.pool := rfl
@[simp] theorem setGang_pages (s : State) (n : Nat) (x : Gang) : (s.setGang n x).pages = s.pages := rfl
@[simp] theorem setGang_waiting (s : State) (n : Nat) (x : Gang) : (s.setGang n x).waiting = s.waiting := rfl
@[simp] theorem setGang_sweepAt (s : State) (n : Nat) (x : Gang) : (s.setGang n x).sweepAt = s.sweepAt := rfl
@[simp] theorem setGang_sweeping (s : State) (n : Nat) (x : Gang) : (s.setGang n x).sweeping = s.sweeping := rfl
@[simp] theorem setGang_flushing (s : State) (n : Nat) (x : Gang) : (s.setGang n x).flushing = s.flushing := rfl
@[simp] theorem setGang_flushAsks (s : State) (n : Nat) (x : Gang) : (s.setGang n x).flushAsks = s.flushAsks := rfl
@[simp] theorem setGang_evicts (s : State) (n : Nat) (x : Gang) : (s.setGang n x).evicts = s.evicts := rfl
@[simp] theorem setGang_retries (s : State) (n : Nat) (x : Gang) : (s.setGang n x).retries = s.retries := rfl
@[simp] theorem setGang_stopped (s : State) (n : Nat) (x : Gang) : (s.setGang n x).stopped = s.stopped := rfl
@[simp] theorem setGang_packets (s : State) (n : Nat) (x : Gang) : (s.setGang n x).packets = s.packets := rfl
@[simp] theorem setGang_replies (s : State) (n : Nat) (x : Gang) : (s.setGang n x).replies = s.replies := rfl
@[simp] theorem setGang_late (s : State) (n : Nat) (x : Gang) : (s.setGang n x).late = s.late := rfl
@[simp] theorem setGang_deferred (s : State) (n : Nat) (x : Gang) : (s.setGang n x).deferred = s.deferred := rfl
@[simp] theorem setGang_rmaPending (s : State) (n : Nat) (x : Gang) : (s.setGang n x).rmaPending = s.rmaPending := rfl
@[simp] theorem setGang_records (s : State) (n : Nat) (x : Gang) : (s.setGang n x).records = s.records := rfl
@[simp] theorem setGang_completions (s : State) (n : Nat) (x : Gang) : (s.setGang n x).completions = s.completions := rfl
@[simp] theorem setGang_answers (s : State) (n : Nat) (x : Gang) : (s.setGang n x).answers = s.answers := rfl
@[simp] theorem setGang_gangs (s : State) (n : Nat) (x : Gang) : (s.setGang n x).gangs = mset s.gangs n x := rfl

/-! ### setGrid -/

@[simp] theorem setGrid_now (s : State) (n : Nat) (x : Grid) : (s.setGrid n x).now = s.now := rfl
@[simp] theorem setGrid_cycBase (s : State) (n : Nat) (x : Grid) : (s.setGrid n x).cycBase = s.cycBase := rfl
@[simp] theorem setGrid_agenda (s : State) (n : Nat) (x : Grid) : (s.setGrid n x).agenda = s.agenda := rfl
@[simp] theorem setGrid_cur (s : State) (n : Nat) (x : Grid) : (s.setGrid n x).cur = s.cur := rfl
@[simp] theorem setGrid_free (s : State) (n : Nat) (x : Grid) : (s.setGrid n x).free = s.free := rfl
@[simp] theorem setGrid_opSeq (s : State) (n : Nat) (x : Grid) : (s.setGrid n x).opSeq = s.opSeq := rfl
@[simp] theorem setGrid_booted (s : State) (n : Nat) (x : Grid) : (s.setGrid n x).booted = s.booted := rfl
@[simp] theorem setGrid_held (s : State) (n : Nat) (x : Grid) : (s.setGrid n x).held = s.held := rfl
@[simp] theorem setGrid_dev (s : State) (n : Nat) (x : Grid) : (s.setGrid n x).dev = s.dev := rfl
@[simp] theorem setGrid_domain (s : State) (n : Nat) (x : Grid) : (s.setGrid n x).domain = s.domain := rfl
@[simp] theorem setGrid_lost (s : State) (n : Nat) (x : Grid) : (s.setGrid n x).lost = s.lost := rfl
@[simp] theorem setGrid_flash (s : State) (n : Nat) (x : Grid) : (s.setGrid n x).flash = s.flash := rfl
@[simp] theorem setGrid_measure (s : State) (n : Nat) (x : Grid) : (s.setGrid n x).measure = s.measure := rfl
@[simp] theorem setGrid_drives (s : State) (n : Nat) (x : Grid) : (s.setGrid n x).drives = s.drives := rfl
@[simp] theorem setGrid_reports (s : State) (n : Nat) (x : Grid) : (s.setGrid n x).reports = s.reports := rfl
@[simp] theorem setGrid_ls (s : State) (n : Nat) (x : Grid) : (s.setGrid n x).ls = s.ls := rfl
@[simp] theorem setGrid_hbm (s : State) (n : Nat) (x : Grid) : (s.setGrid n x).hbm = s.hbm := rfl
@[simp] theorem setGrid_host (s : State) (n : Nat) (x : Grid) : (s.setGrid n x).host = s.host := rfl
@[simp] theorem setGrid_disk (s : State) (n : Nat) (x : Grid) : (s.setGrid n x).disk = s.disk := rfl
@[simp] theorem setGrid_diskPi (s : State) (n : Nat) (x : Grid) : (s.setGrid n x).diskPi = s.diskPi := rfl
@[simp] theorem setGrid_durable (s : State) (n : Nat) (x : Grid) : (s.setGrid n x).durable = s.durable := rfl
@[simp] theorem setGrid_hbmBad (s : State) (n : Nat) (x : Grid) : (s.setGrid n x).hbmBad = s.hbmBad := rfl
@[simp] theorem setGrid_tiles (s : State) (n : Nat) (x : Grid) : (s.setGrid n x).tiles = s.tiles := rfl
@[simp] theorem setGrid_acc (s : State) (n : Nat) (x : Grid) : (s.setGrid n x).acc = s.acc := rfl
@[simp] theorem setGrid_unf (s : State) (n : Nat) (x : Grid) : (s.setGrid n x).unf = s.unf := rfl
@[simp] theorem setGrid_strands (s : State) (n : Nat) (x : Grid) : (s.setGrid n x).strands = s.strands := rfl
@[simp] theorem setGrid_quads (s : State) (n : Nat) (x : Grid) : (s.setGrid n x).quads = s.quads := rfl
@[simp] theorem setGrid_gangs (s : State) (n : Nat) (x : Grid) : (s.setGrid n x).gangs = s.gangs := rfl
@[simp] theorem setGrid_gens (s : State) (n : Nat) (x : Grid) : (s.setGrid n x).gens = s.gens := rfl
@[simp] theorem setGrid_nextSeq (s : State) (n : Nat) (x : Grid) : (s.setGrid n x).nextSeq = s.nextSeq := rfl
@[simp] theorem setGrid_dscfg (s : State) (n : Nat) (x : Grid) : (s.setGrid n x).dscfg = s.dscfg := rfl
@[simp] theorem setGrid_spcfg (s : State) (n : Nat) (x : Grid) : (s.setGrid n x).spcfg = s.spcfg := rfl
@[simp] theorem setGrid_nccfg (s : State) (n : Nat) (x : Grid) : (s.setGrid n x).nccfg = s.nccfg := rfl
@[simp] theorem setGrid_sncfg (s : State) (n : Nat) (x : Grid) : (s.setGrid n x).sncfg = s.sncfg := rfl
@[simp] theorem setGrid_sncyc (s : State) (n : Nat) (x : Grid) : (s.setGrid n x).sncyc = s.sncyc := rfl
@[simp] theorem setGrid_pwcfg (s : State) (n : Nat) (x : Grid) : (s.setGrid n x).pwcfg = s.pwcfg := rfl
@[simp] theorem setGrid_spErr (s : State) (n : Nat) (x : Grid) : (s.setGrid n x).spErr = s.spErr := rfl
@[simp] theorem setGrid_badCmd (s : State) (n : Nat) (x : Grid) : (s.setGrid n x).badCmd = s.badCmd := rfl
@[simp] theorem setGrid_unsup (s : State) (n : Nat) (x : Grid) : (s.setGrid n x).unsup = s.unsup := rfl
@[simp] theorem setGrid_lnStarve (s : State) (n : Nat) (x : Grid) : (s.setGrid n x).lnStarve = s.lnStarve := rfl
@[simp] theorem setGrid_astab (s : State) (n : Nat) (x : Grid) : (s.setGrid n x).astab = s.astab := rfl
@[simp] theorem setGrid_domtab (s : State) (n : Nat) (x : Grid) : (s.setGrid n x).domtab = s.domtab := rfl
@[simp] theorem setGrid_timelines (s : State) (n : Nat) (x : Grid) : (s.setGrid n x).timelines = s.timelines := rfl
@[simp] theorem setGrid_queues (s : State) (n : Nat) (x : Grid) : (s.setGrid n x).queues = s.queues := rfl
@[simp] theorem setGrid_windows (s : State) (n : Nat) (x : Grid) : (s.setGrid n x).windows = s.windows := rfl
@[simp] theorem setGrid_images (s : State) (n : Nat) (x : Grid) : (s.setGrid n x).images = s.images := rfl
@[simp] theorem setGrid_offers (s : State) (n : Nat) (x : Grid) : (s.setGrid n x).offers = s.offers := rfl
@[simp] theorem setGrid_nextOffer (s : State) (n : Nat) (x : Grid) : (s.setGrid n x).nextOffer = s.nextOffer := rfl
@[simp] theorem setGrid_episodes (s : State) (n : Nat) (x : Grid) : (s.setGrid n x).episodes = s.episodes := rfl
@[simp] theorem setGrid_aborted (s : State) (n : Nat) (x : Grid) : (s.setGrid n x).aborted = s.aborted := rfl
@[simp] theorem setGrid_wcache (s : State) (n : Nat) (x : Grid) : (s.setGrid n x).wcache = s.wcache := rfl
@[simp] theorem setGrid_invals (s : State) (n : Nat) (x : Grid) : (s.setGrid n x).invals = s.invals := rfl
@[simp] theorem setGrid_awayPuts (s : State) (n : Nat) (x : Grid) : (s.setGrid n x).awayPuts = s.awayPuts := rfl
@[simp] theorem setGrid_pool (s : State) (n : Nat) (x : Grid) : (s.setGrid n x).pool = s.pool := rfl
@[simp] theorem setGrid_pages (s : State) (n : Nat) (x : Grid) : (s.setGrid n x).pages = s.pages := rfl
@[simp] theorem setGrid_waiting (s : State) (n : Nat) (x : Grid) : (s.setGrid n x).waiting = s.waiting := rfl
@[simp] theorem setGrid_sweepAt (s : State) (n : Nat) (x : Grid) : (s.setGrid n x).sweepAt = s.sweepAt := rfl
@[simp] theorem setGrid_sweeping (s : State) (n : Nat) (x : Grid) : (s.setGrid n x).sweeping = s.sweeping := rfl
@[simp] theorem setGrid_flushing (s : State) (n : Nat) (x : Grid) : (s.setGrid n x).flushing = s.flushing := rfl
@[simp] theorem setGrid_flushAsks (s : State) (n : Nat) (x : Grid) : (s.setGrid n x).flushAsks = s.flushAsks := rfl
@[simp] theorem setGrid_evicts (s : State) (n : Nat) (x : Grid) : (s.setGrid n x).evicts = s.evicts := rfl
@[simp] theorem setGrid_retries (s : State) (n : Nat) (x : Grid) : (s.setGrid n x).retries = s.retries := rfl
@[simp] theorem setGrid_stopped (s : State) (n : Nat) (x : Grid) : (s.setGrid n x).stopped = s.stopped := rfl
@[simp] theorem setGrid_packets (s : State) (n : Nat) (x : Grid) : (s.setGrid n x).packets = s.packets := rfl
@[simp] theorem setGrid_replies (s : State) (n : Nat) (x : Grid) : (s.setGrid n x).replies = s.replies := rfl
@[simp] theorem setGrid_late (s : State) (n : Nat) (x : Grid) : (s.setGrid n x).late = s.late := rfl
@[simp] theorem setGrid_deferred (s : State) (n : Nat) (x : Grid) : (s.setGrid n x).deferred = s.deferred := rfl
@[simp] theorem setGrid_rmaPending (s : State) (n : Nat) (x : Grid) : (s.setGrid n x).rmaPending = s.rmaPending := rfl
@[simp] theorem setGrid_records (s : State) (n : Nat) (x : Grid) : (s.setGrid n x).records = s.records := rfl
@[simp] theorem setGrid_completions (s : State) (n : Nat) (x : Grid) : (s.setGrid n x).completions = s.completions := rfl
@[simp] theorem setGrid_answers (s : State) (n : Nat) (x : Grid) : (s.setGrid n x).answers = s.answers := rfl
@[simp] theorem setGrid_grids (s : State) (n : Nat) (x : Grid) : (s.setGrid n x).grids = mset s.grids n x := rfl

/-! ### post -/

@[simp] theorem post_now (s : State) (due prio : Nat) (ev : Instr) : (s.post due prio ev).now = s.now := rfl
@[simp] theorem post_cycBase (s : State) (due prio : Nat) (ev : Instr) : (s.post due prio ev).cycBase = s.cycBase := rfl
@[simp] theorem post_cur (s : State) (due prio : Nat) (ev : Instr) : (s.post due prio ev).cur = s.cur := rfl
@[simp] theorem post_free (s : State) (due prio : Nat) (ev : Instr) : (s.post due prio ev).free = s.free := rfl
@[simp] theorem post_opSeq (s : State) (due prio : Nat) (ev : Instr) : (s.post due prio ev).opSeq = s.opSeq := rfl
@[simp] theorem post_booted (s : State) (due prio : Nat) (ev : Instr) : (s.post due prio ev).booted = s.booted := rfl
@[simp] theorem post_held (s : State) (due prio : Nat) (ev : Instr) : (s.post due prio ev).held = s.held := rfl
@[simp] theorem post_dev (s : State) (due prio : Nat) (ev : Instr) : (s.post due prio ev).dev = s.dev := rfl
@[simp] theorem post_domain (s : State) (due prio : Nat) (ev : Instr) : (s.post due prio ev).domain = s.domain := rfl
@[simp] theorem post_lost (s : State) (due prio : Nat) (ev : Instr) : (s.post due prio ev).lost = s.lost := rfl
@[simp] theorem post_flash (s : State) (due prio : Nat) (ev : Instr) : (s.post due prio ev).flash = s.flash := rfl
@[simp] theorem post_measure (s : State) (due prio : Nat) (ev : Instr) : (s.post due prio ev).measure = s.measure := rfl
@[simp] theorem post_drives (s : State) (due prio : Nat) (ev : Instr) : (s.post due prio ev).drives = s.drives := rfl
@[simp] theorem post_reports (s : State) (due prio : Nat) (ev : Instr) : (s.post due prio ev).reports = s.reports := rfl
@[simp] theorem post_ls (s : State) (due prio : Nat) (ev : Instr) : (s.post due prio ev).ls = s.ls := rfl
@[simp] theorem post_hbm (s : State) (due prio : Nat) (ev : Instr) : (s.post due prio ev).hbm = s.hbm := rfl
@[simp] theorem post_host (s : State) (due prio : Nat) (ev : Instr) : (s.post due prio ev).host = s.host := rfl
@[simp] theorem post_disk (s : State) (due prio : Nat) (ev : Instr) : (s.post due prio ev).disk = s.disk := rfl
@[simp] theorem post_diskPi (s : State) (due prio : Nat) (ev : Instr) : (s.post due prio ev).diskPi = s.diskPi := rfl
@[simp] theorem post_durable (s : State) (due prio : Nat) (ev : Instr) : (s.post due prio ev).durable = s.durable := rfl
@[simp] theorem post_hbmBad (s : State) (due prio : Nat) (ev : Instr) : (s.post due prio ev).hbmBad = s.hbmBad := rfl
@[simp] theorem post_tiles (s : State) (due prio : Nat) (ev : Instr) : (s.post due prio ev).tiles = s.tiles := rfl
@[simp] theorem post_acc (s : State) (due prio : Nat) (ev : Instr) : (s.post due prio ev).acc = s.acc := rfl
@[simp] theorem post_unf (s : State) (due prio : Nat) (ev : Instr) : (s.post due prio ev).unf = s.unf := rfl
@[simp] theorem post_strands (s : State) (due prio : Nat) (ev : Instr) : (s.post due prio ev).strands = s.strands := rfl
@[simp] theorem post_quads (s : State) (due prio : Nat) (ev : Instr) : (s.post due prio ev).quads = s.quads := rfl
@[simp] theorem post_gangs (s : State) (due prio : Nat) (ev : Instr) : (s.post due prio ev).gangs = s.gangs := rfl
@[simp] theorem post_gens (s : State) (due prio : Nat) (ev : Instr) : (s.post due prio ev).gens = s.gens := rfl
@[simp] theorem post_grids (s : State) (due prio : Nat) (ev : Instr) : (s.post due prio ev).grids = s.grids := rfl
@[simp] theorem post_nextSeq (s : State) (due prio : Nat) (ev : Instr) : (s.post due prio ev).nextSeq = s.nextSeq := rfl
@[simp] theorem post_dscfg (s : State) (due prio : Nat) (ev : Instr) : (s.post due prio ev).dscfg = s.dscfg := rfl
@[simp] theorem post_spcfg (s : State) (due prio : Nat) (ev : Instr) : (s.post due prio ev).spcfg = s.spcfg := rfl
@[simp] theorem post_nccfg (s : State) (due prio : Nat) (ev : Instr) : (s.post due prio ev).nccfg = s.nccfg := rfl
@[simp] theorem post_sncfg (s : State) (due prio : Nat) (ev : Instr) : (s.post due prio ev).sncfg = s.sncfg := rfl
@[simp] theorem post_sncyc (s : State) (due prio : Nat) (ev : Instr) : (s.post due prio ev).sncyc = s.sncyc := rfl
@[simp] theorem post_pwcfg (s : State) (due prio : Nat) (ev : Instr) : (s.post due prio ev).pwcfg = s.pwcfg := rfl
@[simp] theorem post_spErr (s : State) (due prio : Nat) (ev : Instr) : (s.post due prio ev).spErr = s.spErr := rfl
@[simp] theorem post_badCmd (s : State) (due prio : Nat) (ev : Instr) : (s.post due prio ev).badCmd = s.badCmd := rfl
@[simp] theorem post_unsup (s : State) (due prio : Nat) (ev : Instr) : (s.post due prio ev).unsup = s.unsup := rfl
@[simp] theorem post_lnStarve (s : State) (due prio : Nat) (ev : Instr) : (s.post due prio ev).lnStarve = s.lnStarve := rfl
@[simp] theorem post_astab (s : State) (due prio : Nat) (ev : Instr) : (s.post due prio ev).astab = s.astab := rfl
@[simp] theorem post_domtab (s : State) (due prio : Nat) (ev : Instr) : (s.post due prio ev).domtab = s.domtab := rfl
@[simp] theorem post_timelines (s : State) (due prio : Nat) (ev : Instr) : (s.post due prio ev).timelines = s.timelines := rfl
@[simp] theorem post_queues (s : State) (due prio : Nat) (ev : Instr) : (s.post due prio ev).queues = s.queues := rfl
@[simp] theorem post_windows (s : State) (due prio : Nat) (ev : Instr) : (s.post due prio ev).windows = s.windows := rfl
@[simp] theorem post_images (s : State) (due prio : Nat) (ev : Instr) : (s.post due prio ev).images = s.images := rfl
@[simp] theorem post_offers (s : State) (due prio : Nat) (ev : Instr) : (s.post due prio ev).offers = s.offers := rfl
@[simp] theorem post_nextOffer (s : State) (due prio : Nat) (ev : Instr) : (s.post due prio ev).nextOffer = s.nextOffer := rfl
@[simp] theorem post_episodes (s : State) (due prio : Nat) (ev : Instr) : (s.post due prio ev).episodes = s.episodes := rfl
@[simp] theorem post_aborted (s : State) (due prio : Nat) (ev : Instr) : (s.post due prio ev).aborted = s.aborted := rfl
@[simp] theorem post_wcache (s : State) (due prio : Nat) (ev : Instr) : (s.post due prio ev).wcache = s.wcache := rfl
@[simp] theorem post_invals (s : State) (due prio : Nat) (ev : Instr) : (s.post due prio ev).invals = s.invals := rfl
@[simp] theorem post_awayPuts (s : State) (due prio : Nat) (ev : Instr) : (s.post due prio ev).awayPuts = s.awayPuts := rfl
@[simp] theorem post_pool (s : State) (due prio : Nat) (ev : Instr) : (s.post due prio ev).pool = s.pool := rfl
@[simp] theorem post_pages (s : State) (due prio : Nat) (ev : Instr) : (s.post due prio ev).pages = s.pages := rfl
@[simp] theorem post_waiting (s : State) (due prio : Nat) (ev : Instr) : (s.post due prio ev).waiting = s.waiting := rfl
@[simp] theorem post_sweepAt (s : State) (due prio : Nat) (ev : Instr) : (s.post due prio ev).sweepAt = s.sweepAt := rfl
@[simp] theorem post_sweeping (s : State) (due prio : Nat) (ev : Instr) : (s.post due prio ev).sweeping = s.sweeping := rfl
@[simp] theorem post_flushing (s : State) (due prio : Nat) (ev : Instr) : (s.post due prio ev).flushing = s.flushing := rfl
@[simp] theorem post_flushAsks (s : State) (due prio : Nat) (ev : Instr) : (s.post due prio ev).flushAsks = s.flushAsks := rfl
@[simp] theorem post_evicts (s : State) (due prio : Nat) (ev : Instr) : (s.post due prio ev).evicts = s.evicts := rfl
@[simp] theorem post_retries (s : State) (due prio : Nat) (ev : Instr) : (s.post due prio ev).retries = s.retries := rfl
@[simp] theorem post_stopped (s : State) (due prio : Nat) (ev : Instr) : (s.post due prio ev).stopped = s.stopped := rfl
@[simp] theorem post_packets (s : State) (due prio : Nat) (ev : Instr) : (s.post due prio ev).packets = s.packets := rfl
@[simp] theorem post_replies (s : State) (due prio : Nat) (ev : Instr) : (s.post due prio ev).replies = s.replies := rfl
@[simp] theorem post_late (s : State) (due prio : Nat) (ev : Instr) : (s.post due prio ev).late = s.late := rfl
@[simp] theorem post_deferred (s : State) (due prio : Nat) (ev : Instr) : (s.post due prio ev).deferred = s.deferred := rfl
@[simp] theorem post_rmaPending (s : State) (due prio : Nat) (ev : Instr) : (s.post due prio ev).rmaPending = s.rmaPending := rfl
@[simp] theorem post_records (s : State) (due prio : Nat) (ev : Instr) : (s.post due prio ev).records = s.records := rfl
@[simp] theorem post_completions (s : State) (due prio : Nat) (ev : Instr) : (s.post due prio ev).completions = s.completions := rfl
@[simp] theorem post_answers (s : State) (due prio : Nat) (ev : Instr) : (s.post due prio ev).answers = s.answers := rfl
@[simp] theorem post_agenda (s : State) (due prio : Nat) (ev : Instr) : (s.post due prio ev).agenda = insertDue ⟨due, prio, ev⟩ s.agenda := rfl

/-! ### tick1 -/

@[simp] theorem tick1_now (s : State) : (s.tick1).now = s.now := rfl
@[simp] theorem tick1_cycBase (s : State) : (s.tick1).cycBase = s.cycBase := rfl
@[simp] theorem tick1_agenda (s : State) : (s.tick1).agenda = s.agenda := rfl
@[simp] theorem tick1_cur (s : State) : (s.tick1).cur = s.cur := rfl
@[simp] theorem tick1_opSeq (s : State) : (s.tick1).opSeq = s.opSeq := rfl
@[simp] theorem tick1_booted (s : State) : (s.tick1).booted = s.booted := rfl
@[simp] theorem tick1_held (s : State) : (s.tick1).held = s.held := rfl
@[simp] theorem tick1_dev (s : State) : (s.tick1).dev = s.dev := rfl
@[simp] theorem tick1_domain (s : State) : (s.tick1).domain = s.domain := rfl
@[simp] theorem tick1_lost (s : State) : (s.tick1).lost = s.lost := rfl
@[simp] theorem tick1_flash (s : State) : (s.tick1).flash = s.flash := rfl
@[simp] theorem tick1_measure (s : State) : (s.tick1).measure = s.measure := rfl
@[simp] theorem tick1_drives (s : State) : (s.tick1).drives = s.drives := rfl
@[simp] theorem tick1_reports (s : State) : (s.tick1).reports = s.reports := rfl
@[simp] theorem tick1_ls (s : State) : (s.tick1).ls = s.ls := rfl
@[simp] theorem tick1_hbm (s : State) : (s.tick1).hbm = s.hbm := rfl
@[simp] theorem tick1_host (s : State) : (s.tick1).host = s.host := rfl
@[simp] theorem tick1_disk (s : State) : (s.tick1).disk = s.disk := rfl
@[simp] theorem tick1_diskPi (s : State) : (s.tick1).diskPi = s.diskPi := rfl
@[simp] theorem tick1_durable (s : State) : (s.tick1).durable = s.durable := rfl
@[simp] theorem tick1_hbmBad (s : State) : (s.tick1).hbmBad = s.hbmBad := rfl
@[simp] theorem tick1_tiles (s : State) : (s.tick1).tiles = s.tiles := rfl
@[simp] theorem tick1_acc (s : State) : (s.tick1).acc = s.acc := rfl
@[simp] theorem tick1_unf (s : State) : (s.tick1).unf = s.unf := rfl
@[simp] theorem tick1_strands (s : State) : (s.tick1).strands = s.strands := rfl
@[simp] theorem tick1_quads (s : State) : (s.tick1).quads = s.quads := rfl
@[simp] theorem tick1_gangs (s : State) : (s.tick1).gangs = s.gangs := rfl
@[simp] theorem tick1_gens (s : State) : (s.tick1).gens = s.gens := rfl
@[simp] theorem tick1_grids (s : State) : (s.tick1).grids = s.grids := rfl
@[simp] theorem tick1_nextSeq (s : State) : (s.tick1).nextSeq = s.nextSeq := rfl
@[simp] theorem tick1_dscfg (s : State) : (s.tick1).dscfg = s.dscfg := rfl
@[simp] theorem tick1_spcfg (s : State) : (s.tick1).spcfg = s.spcfg := rfl
@[simp] theorem tick1_nccfg (s : State) : (s.tick1).nccfg = s.nccfg := rfl
@[simp] theorem tick1_sncfg (s : State) : (s.tick1).sncfg = s.sncfg := rfl
@[simp] theorem tick1_sncyc (s : State) : (s.tick1).sncyc = s.sncyc := rfl
@[simp] theorem tick1_pwcfg (s : State) : (s.tick1).pwcfg = s.pwcfg := rfl
@[simp] theorem tick1_spErr (s : State) : (s.tick1).spErr = s.spErr := rfl
@[simp] theorem tick1_badCmd (s : State) : (s.tick1).badCmd = s.badCmd := rfl
@[simp] theorem tick1_unsup (s : State) : (s.tick1).unsup = s.unsup := rfl
@[simp] theorem tick1_lnStarve (s : State) : (s.tick1).lnStarve = s.lnStarve := rfl
@[simp] theorem tick1_astab (s : State) : (s.tick1).astab = s.astab := rfl
@[simp] theorem tick1_domtab (s : State) : (s.tick1).domtab = s.domtab := rfl
@[simp] theorem tick1_timelines (s : State) : (s.tick1).timelines = s.timelines := rfl
@[simp] theorem tick1_queues (s : State) : (s.tick1).queues = s.queues := rfl
@[simp] theorem tick1_windows (s : State) : (s.tick1).windows = s.windows := rfl
@[simp] theorem tick1_images (s : State) : (s.tick1).images = s.images := rfl
@[simp] theorem tick1_offers (s : State) : (s.tick1).offers = s.offers := rfl
@[simp] theorem tick1_nextOffer (s : State) : (s.tick1).nextOffer = s.nextOffer := rfl
@[simp] theorem tick1_episodes (s : State) : (s.tick1).episodes = s.episodes := rfl
@[simp] theorem tick1_aborted (s : State) : (s.tick1).aborted = s.aborted := rfl
@[simp] theorem tick1_wcache (s : State) : (s.tick1).wcache = s.wcache := rfl
@[simp] theorem tick1_invals (s : State) : (s.tick1).invals = s.invals := rfl
@[simp] theorem tick1_awayPuts (s : State) : (s.tick1).awayPuts = s.awayPuts := rfl
@[simp] theorem tick1_pool (s : State) : (s.tick1).pool = s.pool := rfl
@[simp] theorem tick1_pages (s : State) : (s.tick1).pages = s.pages := rfl
@[simp] theorem tick1_waiting (s : State) : (s.tick1).waiting = s.waiting := rfl
@[simp] theorem tick1_sweepAt (s : State) : (s.tick1).sweepAt = s.sweepAt := rfl
@[simp] theorem tick1_sweeping (s : State) : (s.tick1).sweeping = s.sweeping := rfl
@[simp] theorem tick1_flushing (s : State) : (s.tick1).flushing = s.flushing := rfl
@[simp] theorem tick1_flushAsks (s : State) : (s.tick1).flushAsks = s.flushAsks := rfl
@[simp] theorem tick1_evicts (s : State) : (s.tick1).evicts = s.evicts := rfl
@[simp] theorem tick1_retries (s : State) : (s.tick1).retries = s.retries := rfl
@[simp] theorem tick1_stopped (s : State) : (s.tick1).stopped = s.stopped := rfl
@[simp] theorem tick1_packets (s : State) : (s.tick1).packets = s.packets := rfl
@[simp] theorem tick1_replies (s : State) : (s.tick1).replies = s.replies := rfl
@[simp] theorem tick1_late (s : State) : (s.tick1).late = s.late := rfl
@[simp] theorem tick1_deferred (s : State) : (s.tick1).deferred = s.deferred := rfl
@[simp] theorem tick1_rmaPending (s : State) : (s.tick1).rmaPending = s.rmaPending := rfl
@[simp] theorem tick1_records (s : State) : (s.tick1).records = s.records := rfl
@[simp] theorem tick1_completions (s : State) : (s.tick1).completions = s.completions := rfl
@[simp] theorem tick1_answers (s : State) : (s.tick1).answers = s.answers := rfl
@[simp] theorem tick1_free (s : State) : (s.tick1).free = s.free + 1 := rfl

/-! ### modStrand -/

@[simp] theorem modStrand_now (s : State) (k : Nat) (f : Strand → Strand) : (s.modStrand k f).now = s.now := by unfold State.modStrand; split <;> rfl
@[simp] theorem modStrand_cycBase (s : State) (k : Nat) (f : Strand → Strand) : (s.modStrand k f).cycBase = s.cycBase := by unfold State.modStrand; split <;> rfl
@[simp] theorem modStrand_agenda (s : State) (k : Nat) (f : Strand → Strand) : (s.modStrand k f).agenda = s.agenda := by unfold State.modStrand; split <;> rfl
@[simp] theorem modStrand_cur (s : State) (k : Nat) (f : Strand → Strand) : (s.modStrand k f).cur = s.cur := by unfold State.modStrand; split <;> rfl
@[simp] theorem modStrand_free (s : State) (k : Nat) (f : Strand → Strand) : (s.modStrand k f).free = s.free := by unfold State.modStrand; split <;> rfl
@[simp] theorem modStrand_opSeq (s : State) (k : Nat) (f : Strand → Strand) : (s.modStrand k f).opSeq = s.opSeq := by unfold State.modStrand; split <;> rfl
@[simp] theorem modStrand_booted (s : State) (k : Nat) (f : Strand → Strand) : (s.modStrand k f).booted = s.booted := by unfold State.modStrand; split <;> rfl
@[simp] theorem modStrand_held (s : State) (k : Nat) (f : Strand → Strand) : (s.modStrand k f).held = s.held := by unfold State.modStrand; split <;> rfl
@[simp] theorem modStrand_dev (s : State) (k : Nat) (f : Strand → Strand) : (s.modStrand k f).dev = s.dev := by unfold State.modStrand; split <;> rfl
@[simp] theorem modStrand_domain (s : State) (k : Nat) (f : Strand → Strand) : (s.modStrand k f).domain = s.domain := by unfold State.modStrand; split <;> rfl
@[simp] theorem modStrand_lost (s : State) (k : Nat) (f : Strand → Strand) : (s.modStrand k f).lost = s.lost := by unfold State.modStrand; split <;> rfl
@[simp] theorem modStrand_flash (s : State) (k : Nat) (f : Strand → Strand) : (s.modStrand k f).flash = s.flash := by unfold State.modStrand; split <;> rfl
@[simp] theorem modStrand_measure (s : State) (k : Nat) (f : Strand → Strand) : (s.modStrand k f).measure = s.measure := by unfold State.modStrand; split <;> rfl
@[simp] theorem modStrand_drives (s : State) (k : Nat) (f : Strand → Strand) : (s.modStrand k f).drives = s.drives := by unfold State.modStrand; split <;> rfl
@[simp] theorem modStrand_reports (s : State) (k : Nat) (f : Strand → Strand) : (s.modStrand k f).reports = s.reports := by unfold State.modStrand; split <;> rfl
@[simp] theorem modStrand_ls (s : State) (k : Nat) (f : Strand → Strand) : (s.modStrand k f).ls = s.ls := by unfold State.modStrand; split <;> rfl
@[simp] theorem modStrand_hbm (s : State) (k : Nat) (f : Strand → Strand) : (s.modStrand k f).hbm = s.hbm := by unfold State.modStrand; split <;> rfl
@[simp] theorem modStrand_host (s : State) (k : Nat) (f : Strand → Strand) : (s.modStrand k f).host = s.host := by unfold State.modStrand; split <;> rfl
@[simp] theorem modStrand_disk (s : State) (k : Nat) (f : Strand → Strand) : (s.modStrand k f).disk = s.disk := by unfold State.modStrand; split <;> rfl
@[simp] theorem modStrand_diskPi (s : State) (k : Nat) (f : Strand → Strand) : (s.modStrand k f).diskPi = s.diskPi := by unfold State.modStrand; split <;> rfl
@[simp] theorem modStrand_durable (s : State) (k : Nat) (f : Strand → Strand) : (s.modStrand k f).durable = s.durable := by unfold State.modStrand; split <;> rfl
@[simp] theorem modStrand_hbmBad (s : State) (k : Nat) (f : Strand → Strand) : (s.modStrand k f).hbmBad = s.hbmBad := by unfold State.modStrand; split <;> rfl
@[simp] theorem modStrand_tiles (s : State) (k : Nat) (f : Strand → Strand) : (s.modStrand k f).tiles = s.tiles := by unfold State.modStrand; split <;> rfl
@[simp] theorem modStrand_acc (s : State) (k : Nat) (f : Strand → Strand) : (s.modStrand k f).acc = s.acc := by unfold State.modStrand; split <;> rfl
@[simp] theorem modStrand_unf (s : State) (k : Nat) (f : Strand → Strand) : (s.modStrand k f).unf = s.unf := by unfold State.modStrand; split <;> rfl
@[simp] theorem modStrand_quads (s : State) (k : Nat) (f : Strand → Strand) : (s.modStrand k f).quads = s.quads := by unfold State.modStrand; split <;> rfl
@[simp] theorem modStrand_gangs (s : State) (k : Nat) (f : Strand → Strand) : (s.modStrand k f).gangs = s.gangs := by unfold State.modStrand; split <;> rfl
@[simp] theorem modStrand_gens (s : State) (k : Nat) (f : Strand → Strand) : (s.modStrand k f).gens = s.gens := by unfold State.modStrand; split <;> rfl
@[simp] theorem modStrand_grids (s : State) (k : Nat) (f : Strand → Strand) : (s.modStrand k f).grids = s.grids := by unfold State.modStrand; split <;> rfl
@[simp] theorem modStrand_nextSeq (s : State) (k : Nat) (f : Strand → Strand) : (s.modStrand k f).nextSeq = s.nextSeq := by unfold State.modStrand; split <;> rfl
@[simp] theorem modStrand_dscfg (s : State) (k : Nat) (f : Strand → Strand) : (s.modStrand k f).dscfg = s.dscfg := by unfold State.modStrand; split <;> rfl
@[simp] theorem modStrand_spcfg (s : State) (k : Nat) (f : Strand → Strand) : (s.modStrand k f).spcfg = s.spcfg := by unfold State.modStrand; split <;> rfl
@[simp] theorem modStrand_nccfg (s : State) (k : Nat) (f : Strand → Strand) : (s.modStrand k f).nccfg = s.nccfg := by unfold State.modStrand; split <;> rfl
@[simp] theorem modStrand_sncfg (s : State) (k : Nat) (f : Strand → Strand) : (s.modStrand k f).sncfg = s.sncfg := by unfold State.modStrand; split <;> rfl
@[simp] theorem modStrand_sncyc (s : State) (k : Nat) (f : Strand → Strand) : (s.modStrand k f).sncyc = s.sncyc := by unfold State.modStrand; split <;> rfl
@[simp] theorem modStrand_pwcfg (s : State) (k : Nat) (f : Strand → Strand) : (s.modStrand k f).pwcfg = s.pwcfg := by unfold State.modStrand; split <;> rfl
@[simp] theorem modStrand_spErr (s : State) (k : Nat) (f : Strand → Strand) : (s.modStrand k f).spErr = s.spErr := by unfold State.modStrand; split <;> rfl
@[simp] theorem modStrand_badCmd (s : State) (k : Nat) (f : Strand → Strand) : (s.modStrand k f).badCmd = s.badCmd := by unfold State.modStrand; split <;> rfl
@[simp] theorem modStrand_unsup (s : State) (k : Nat) (f : Strand → Strand) : (s.modStrand k f).unsup = s.unsup := by unfold State.modStrand; split <;> rfl
@[simp] theorem modStrand_lnStarve (s : State) (k : Nat) (f : Strand → Strand) : (s.modStrand k f).lnStarve = s.lnStarve := by unfold State.modStrand; split <;> rfl
@[simp] theorem modStrand_astab (s : State) (k : Nat) (f : Strand → Strand) : (s.modStrand k f).astab = s.astab := by unfold State.modStrand; split <;> rfl
@[simp] theorem modStrand_domtab (s : State) (k : Nat) (f : Strand → Strand) : (s.modStrand k f).domtab = s.domtab := by unfold State.modStrand; split <;> rfl
@[simp] theorem modStrand_timelines (s : State) (k : Nat) (f : Strand → Strand) : (s.modStrand k f).timelines = s.timelines := by unfold State.modStrand; split <;> rfl
@[simp] theorem modStrand_queues (s : State) (k : Nat) (f : Strand → Strand) : (s.modStrand k f).queues = s.queues := by unfold State.modStrand; split <;> rfl
@[simp] theorem modStrand_windows (s : State) (k : Nat) (f : Strand → Strand) : (s.modStrand k f).windows = s.windows := by unfold State.modStrand; split <;> rfl
@[simp] theorem modStrand_images (s : State) (k : Nat) (f : Strand → Strand) : (s.modStrand k f).images = s.images := by unfold State.modStrand; split <;> rfl
@[simp] theorem modStrand_offers (s : State) (k : Nat) (f : Strand → Strand) : (s.modStrand k f).offers = s.offers := by unfold State.modStrand; split <;> rfl
@[simp] theorem modStrand_nextOffer (s : State) (k : Nat) (f : Strand → Strand) : (s.modStrand k f).nextOffer = s.nextOffer := by unfold State.modStrand; split <;> rfl
@[simp] theorem modStrand_episodes (s : State) (k : Nat) (f : Strand → Strand) : (s.modStrand k f).episodes = s.episodes := by unfold State.modStrand; split <;> rfl
@[simp] theorem modStrand_aborted (s : State) (k : Nat) (f : Strand → Strand) : (s.modStrand k f).aborted = s.aborted := by unfold State.modStrand; split <;> rfl
@[simp] theorem modStrand_wcache (s : State) (k : Nat) (f : Strand → Strand) : (s.modStrand k f).wcache = s.wcache := by unfold State.modStrand; split <;> rfl
@[simp] theorem modStrand_invals (s : State) (k : Nat) (f : Strand → Strand) : (s.modStrand k f).invals = s.invals := by unfold State.modStrand; split <;> rfl
@[simp] theorem modStrand_awayPuts (s : State) (k : Nat) (f : Strand → Strand) : (s.modStrand k f).awayPuts = s.awayPuts := by unfold State.modStrand; split <;> rfl
@[simp] theorem modStrand_pool (s : State) (k : Nat) (f : Strand → Strand) : (s.modStrand k f).pool = s.pool := by unfold State.modStrand; split <;> rfl
@[simp] theorem modStrand_pages (s : State) (k : Nat) (f : Strand → Strand) : (s.modStrand k f).pages = s.pages := by unfold State.modStrand; split <;> rfl
@[simp] theorem modStrand_waiting (s : State) (k : Nat) (f : Strand → Strand) : (s.modStrand k f).waiting = s.waiting := by unfold State.modStrand; split <;> rfl
@[simp] theorem modStrand_sweepAt (s : State) (k : Nat) (f : Strand → Strand) : (s.modStrand k f).sweepAt = s.sweepAt := by unfold State.modStrand; split <;> rfl
@[simp] theorem modStrand_sweeping (s : State) (k : Nat) (f : Strand → Strand) : (s.modStrand k f).sweeping = s.sweeping := by unfold State.modStrand; split <;> rfl
@[simp] theorem modStrand_flushing (s : State) (k : Nat) (f : Strand → Strand) : (s.modStrand k f).flushing = s.flushing := by unfold State.modStrand; split <;> rfl
@[simp] theorem modStrand_flushAsks (s : State) (k : Nat) (f : Strand → Strand) : (s.modStrand k f).flushAsks = s.flushAsks := by unfold State.modStrand; split <;> rfl
@[simp] theorem modStrand_evicts (s : State) (k : Nat) (f : Strand → Strand) : (s.modStrand k f).evicts = s.evicts := by unfold State.modStrand; split <;> rfl
@[simp] theorem modStrand_retries (s : State) (k : Nat) (f : Strand → Strand) : (s.modStrand k f).retries = s.retries := by unfold State.modStrand; split <;> rfl
@[simp] theorem modStrand_stopped (s : State) (k : Nat) (f : Strand → Strand) : (s.modStrand k f).stopped = s.stopped := by unfold State.modStrand; split <;> rfl
@[simp] theorem modStrand_packets (s : State) (k : Nat) (f : Strand → Strand) : (s.modStrand k f).packets = s.packets := by unfold State.modStrand; split <;> rfl
@[simp] theorem modStrand_replies (s : State) (k : Nat) (f : Strand → Strand) : (s.modStrand k f).replies = s.replies := by unfold State.modStrand; split <;> rfl
@[simp] theorem modStrand_late (s : State) (k : Nat) (f : Strand → Strand) : (s.modStrand k f).late = s.late := by unfold State.modStrand; split <;> rfl
@[simp] theorem modStrand_deferred (s : State) (k : Nat) (f : Strand → Strand) : (s.modStrand k f).deferred = s.deferred := by unfold State.modStrand; split <;> rfl
@[simp] theorem modStrand_rmaPending (s : State) (k : Nat) (f : Strand → Strand) : (s.modStrand k f).rmaPending = s.rmaPending := by unfold State.modStrand; split <;> rfl
@[simp] theorem modStrand_records (s : State) (k : Nat) (f : Strand → Strand) : (s.modStrand k f).records = s.records := by unfold State.modStrand; split <;> rfl
@[simp] theorem modStrand_completions (s : State) (k : Nat) (f : Strand → Strand) : (s.modStrand k f).completions = s.completions := by unfold State.modStrand; split <;> rfl
@[simp] theorem modStrand_answers (s : State) (k : Nat) (f : Strand → Strand) : (s.modStrand k f).answers = s.answers := by unfold State.modStrand; split <;> rfl

/-! ### modGang -/

@[simp] theorem modGang_now (s : State) (k : Nat) (f : Gang → Gang) : (s.modGang k f).now = s.now := by unfold State.modGang; split <;> rfl
@[simp] theorem modGang_cycBase (s : State) (k : Nat) (f : Gang → Gang) : (s.modGang k f).cycBase = s.cycBase := by unfold State.modGang; split <;> rfl
@[simp] theorem modGang_agenda (s : State) (k : Nat) (f : Gang → Gang) : (s.modGang k f).agenda = s.agenda := by unfold State.modGang; split <;> rfl
@[simp] theorem modGang_cur (s : State) (k : Nat) (f : Gang → Gang) : (s.modGang k f).cur = s.cur := by unfold State.modGang; split <;> rfl
@[simp] theorem modGang_free (s : State) (k : Nat) (f : Gang → Gang) : (s.modGang k f).free = s.free := by unfold State.modGang; split <;> rfl
@[simp] theorem modGang_opSeq (s : State) (k : Nat) (f : Gang → Gang) : (s.modGang k f).opSeq = s.opSeq := by unfold State.modGang; split <;> rfl
@[simp] theorem modGang_booted (s : State) (k : Nat) (f : Gang → Gang) : (s.modGang k f).booted = s.booted := by unfold State.modGang; split <;> rfl
@[simp] theorem modGang_held (s : State) (k : Nat) (f : Gang → Gang) : (s.modGang k f).held = s.held := by unfold State.modGang; split <;> rfl
@[simp] theorem modGang_dev (s : State) (k : Nat) (f : Gang → Gang) : (s.modGang k f).dev = s.dev := by unfold State.modGang; split <;> rfl
@[simp] theorem modGang_domain (s : State) (k : Nat) (f : Gang → Gang) : (s.modGang k f).domain = s.domain := by unfold State.modGang; split <;> rfl
@[simp] theorem modGang_lost (s : State) (k : Nat) (f : Gang → Gang) : (s.modGang k f).lost = s.lost := by unfold State.modGang; split <;> rfl
@[simp] theorem modGang_flash (s : State) (k : Nat) (f : Gang → Gang) : (s.modGang k f).flash = s.flash := by unfold State.modGang; split <;> rfl
@[simp] theorem modGang_measure (s : State) (k : Nat) (f : Gang → Gang) : (s.modGang k f).measure = s.measure := by unfold State.modGang; split <;> rfl
@[simp] theorem modGang_drives (s : State) (k : Nat) (f : Gang → Gang) : (s.modGang k f).drives = s.drives := by unfold State.modGang; split <;> rfl
@[simp] theorem modGang_reports (s : State) (k : Nat) (f : Gang → Gang) : (s.modGang k f).reports = s.reports := by unfold State.modGang; split <;> rfl
@[simp] theorem modGang_ls (s : State) (k : Nat) (f : Gang → Gang) : (s.modGang k f).ls = s.ls := by unfold State.modGang; split <;> rfl
@[simp] theorem modGang_hbm (s : State) (k : Nat) (f : Gang → Gang) : (s.modGang k f).hbm = s.hbm := by unfold State.modGang; split <;> rfl
@[simp] theorem modGang_host (s : State) (k : Nat) (f : Gang → Gang) : (s.modGang k f).host = s.host := by unfold State.modGang; split <;> rfl
@[simp] theorem modGang_disk (s : State) (k : Nat) (f : Gang → Gang) : (s.modGang k f).disk = s.disk := by unfold State.modGang; split <;> rfl
@[simp] theorem modGang_diskPi (s : State) (k : Nat) (f : Gang → Gang) : (s.modGang k f).diskPi = s.diskPi := by unfold State.modGang; split <;> rfl
@[simp] theorem modGang_durable (s : State) (k : Nat) (f : Gang → Gang) : (s.modGang k f).durable = s.durable := by unfold State.modGang; split <;> rfl
@[simp] theorem modGang_hbmBad (s : State) (k : Nat) (f : Gang → Gang) : (s.modGang k f).hbmBad = s.hbmBad := by unfold State.modGang; split <;> rfl
@[simp] theorem modGang_tiles (s : State) (k : Nat) (f : Gang → Gang) : (s.modGang k f).tiles = s.tiles := by unfold State.modGang; split <;> rfl
@[simp] theorem modGang_acc (s : State) (k : Nat) (f : Gang → Gang) : (s.modGang k f).acc = s.acc := by unfold State.modGang; split <;> rfl
@[simp] theorem modGang_unf (s : State) (k : Nat) (f : Gang → Gang) : (s.modGang k f).unf = s.unf := by unfold State.modGang; split <;> rfl
@[simp] theorem modGang_strands (s : State) (k : Nat) (f : Gang → Gang) : (s.modGang k f).strands = s.strands := by unfold State.modGang; split <;> rfl
@[simp] theorem modGang_quads (s : State) (k : Nat) (f : Gang → Gang) : (s.modGang k f).quads = s.quads := by unfold State.modGang; split <;> rfl
@[simp] theorem modGang_gens (s : State) (k : Nat) (f : Gang → Gang) : (s.modGang k f).gens = s.gens := by unfold State.modGang; split <;> rfl
@[simp] theorem modGang_grids (s : State) (k : Nat) (f : Gang → Gang) : (s.modGang k f).grids = s.grids := by unfold State.modGang; split <;> rfl
@[simp] theorem modGang_nextSeq (s : State) (k : Nat) (f : Gang → Gang) : (s.modGang k f).nextSeq = s.nextSeq := by unfold State.modGang; split <;> rfl
@[simp] theorem modGang_dscfg (s : State) (k : Nat) (f : Gang → Gang) : (s.modGang k f).dscfg = s.dscfg := by unfold State.modGang; split <;> rfl
@[simp] theorem modGang_spcfg (s : State) (k : Nat) (f : Gang → Gang) : (s.modGang k f).spcfg = s.spcfg := by unfold State.modGang; split <;> rfl
@[simp] theorem modGang_nccfg (s : State) (k : Nat) (f : Gang → Gang) : (s.modGang k f).nccfg = s.nccfg := by unfold State.modGang; split <;> rfl
@[simp] theorem modGang_sncfg (s : State) (k : Nat) (f : Gang → Gang) : (s.modGang k f).sncfg = s.sncfg := by unfold State.modGang; split <;> rfl
@[simp] theorem modGang_sncyc (s : State) (k : Nat) (f : Gang → Gang) : (s.modGang k f).sncyc = s.sncyc := by unfold State.modGang; split <;> rfl
@[simp] theorem modGang_pwcfg (s : State) (k : Nat) (f : Gang → Gang) : (s.modGang k f).pwcfg = s.pwcfg := by unfold State.modGang; split <;> rfl
@[simp] theorem modGang_spErr (s : State) (k : Nat) (f : Gang → Gang) : (s.modGang k f).spErr = s.spErr := by unfold State.modGang; split <;> rfl
@[simp] theorem modGang_badCmd (s : State) (k : Nat) (f : Gang → Gang) : (s.modGang k f).badCmd = s.badCmd := by unfold State.modGang; split <;> rfl
@[simp] theorem modGang_unsup (s : State) (k : Nat) (f : Gang → Gang) : (s.modGang k f).unsup = s.unsup := by unfold State.modGang; split <;> rfl
@[simp] theorem modGang_lnStarve (s : State) (k : Nat) (f : Gang → Gang) : (s.modGang k f).lnStarve = s.lnStarve := by unfold State.modGang; split <;> rfl
@[simp] theorem modGang_astab (s : State) (k : Nat) (f : Gang → Gang) : (s.modGang k f).astab = s.astab := by unfold State.modGang; split <;> rfl
@[simp] theorem modGang_domtab (s : State) (k : Nat) (f : Gang → Gang) : (s.modGang k f).domtab = s.domtab := by unfold State.modGang; split <;> rfl
@[simp] theorem modGang_timelines (s : State) (k : Nat) (f : Gang → Gang) : (s.modGang k f).timelines = s.timelines := by unfold State.modGang; split <;> rfl
@[simp] theorem modGang_queues (s : State) (k : Nat) (f : Gang → Gang) : (s.modGang k f).queues = s.queues := by unfold State.modGang; split <;> rfl
@[simp] theorem modGang_windows (s : State) (k : Nat) (f : Gang → Gang) : (s.modGang k f).windows = s.windows := by unfold State.modGang; split <;> rfl
@[simp] theorem modGang_images (s : State) (k : Nat) (f : Gang → Gang) : (s.modGang k f).images = s.images := by unfold State.modGang; split <;> rfl
@[simp] theorem modGang_offers (s : State) (k : Nat) (f : Gang → Gang) : (s.modGang k f).offers = s.offers := by unfold State.modGang; split <;> rfl
@[simp] theorem modGang_nextOffer (s : State) (k : Nat) (f : Gang → Gang) : (s.modGang k f).nextOffer = s.nextOffer := by unfold State.modGang; split <;> rfl
@[simp] theorem modGang_episodes (s : State) (k : Nat) (f : Gang → Gang) : (s.modGang k f).episodes = s.episodes := by unfold State.modGang; split <;> rfl
@[simp] theorem modGang_aborted (s : State) (k : Nat) (f : Gang → Gang) : (s.modGang k f).aborted = s.aborted := by unfold State.modGang; split <;> rfl
@[simp] theorem modGang_wcache (s : State) (k : Nat) (f : Gang → Gang) : (s.modGang k f).wcache = s.wcache := by unfold State.modGang; split <;> rfl
@[simp] theorem modGang_invals (s : State) (k : Nat) (f : Gang → Gang) : (s.modGang k f).invals = s.invals := by unfold State.modGang; split <;> rfl
@[simp] theorem modGang_awayPuts (s : State) (k : Nat) (f : Gang → Gang) : (s.modGang k f).awayPuts = s.awayPuts := by unfold State.modGang; split <;> rfl
@[simp] theorem modGang_pool (s : State) (k : Nat) (f : Gang → Gang) : (s.modGang k f).pool = s.pool := by unfold State.modGang; split <;> rfl
@[simp] theorem modGang_pages (s : State) (k : Nat) (f : Gang → Gang) : (s.modGang k f).pages = s.pages := by unfold State.modGang; split <;> rfl
@[simp] theorem modGang_waiting (s : State) (k : Nat) (f : Gang → Gang) : (s.modGang k f).waiting = s.waiting := by unfold State.modGang; split <;> rfl
@[simp] theorem modGang_sweepAt (s : State) (k : Nat) (f : Gang → Gang) : (s.modGang k f).sweepAt = s.sweepAt := by unfold State.modGang; split <;> rfl
@[simp] theorem modGang_sweeping (s : State) (k : Nat) (f : Gang → Gang) : (s.modGang k f).sweeping = s.sweeping := by unfold State.modGang; split <;> rfl
@[simp] theorem modGang_flushing (s : State) (k : Nat) (f : Gang → Gang) : (s.modGang k f).flushing = s.flushing := by unfold State.modGang; split <;> rfl
@[simp] theorem modGang_flushAsks (s : State) (k : Nat) (f : Gang → Gang) : (s.modGang k f).flushAsks = s.flushAsks := by unfold State.modGang; split <;> rfl
@[simp] theorem modGang_evicts (s : State) (k : Nat) (f : Gang → Gang) : (s.modGang k f).evicts = s.evicts := by unfold State.modGang; split <;> rfl
@[simp] theorem modGang_retries (s : State) (k : Nat) (f : Gang → Gang) : (s.modGang k f).retries = s.retries := by unfold State.modGang; split <;> rfl
@[simp] theorem modGang_stopped (s : State) (k : Nat) (f : Gang → Gang) : (s.modGang k f).stopped = s.stopped := by unfold State.modGang; split <;> rfl
@[simp] theorem modGang_packets (s : State) (k : Nat) (f : Gang → Gang) : (s.modGang k f).packets = s.packets := by unfold State.modGang; split <;> rfl
@[simp] theorem modGang_replies (s : State) (k : Nat) (f : Gang → Gang) : (s.modGang k f).replies = s.replies := by unfold State.modGang; split <;> rfl
@[simp] theorem modGang_late (s : State) (k : Nat) (f : Gang → Gang) : (s.modGang k f).late = s.late := by unfold State.modGang; split <;> rfl
@[simp] theorem modGang_deferred (s : State) (k : Nat) (f : Gang → Gang) : (s.modGang k f).deferred = s.deferred := by unfold State.modGang; split <;> rfl
@[simp] theorem modGang_rmaPending (s : State) (k : Nat) (f : Gang → Gang) : (s.modGang k f).rmaPending = s.rmaPending := by unfold State.modGang; split <;> rfl
@[simp] theorem modGang_records (s : State) (k : Nat) (f : Gang → Gang) : (s.modGang k f).records = s.records := by unfold State.modGang; split <;> rfl
@[simp] theorem modGang_completions (s : State) (k : Nat) (f : Gang → Gang) : (s.modGang k f).completions = s.completions := by unfold State.modGang; split <;> rfl
@[simp] theorem modGang_answers (s : State) (k : Nat) (f : Gang → Gang) : (s.modGang k f).answers = s.answers := by unfold State.modGang; split <;> rfl

/-! ### modGrid -/

@[simp] theorem modGrid_now (s : State) (k : Nat) (f : Grid → Grid) : (s.modGrid k f).now = s.now := by unfold State.modGrid; split <;> rfl
@[simp] theorem modGrid_cycBase (s : State) (k : Nat) (f : Grid → Grid) : (s.modGrid k f).cycBase = s.cycBase := by unfold State.modGrid; split <;> rfl
@[simp] theorem modGrid_agenda (s : State) (k : Nat) (f : Grid → Grid) : (s.modGrid k f).agenda = s.agenda := by unfold State.modGrid; split <;> rfl
@[simp] theorem modGrid_cur (s : State) (k : Nat) (f : Grid → Grid) : (s.modGrid k f).cur = s.cur := by unfold State.modGrid; split <;> rfl
@[simp] theorem modGrid_free (s : State) (k : Nat) (f : Grid → Grid) : (s.modGrid k f).free = s.free := by unfold State.modGrid; split <;> rfl
@[simp] theorem modGrid_opSeq (s : State) (k : Nat) (f : Grid → Grid) : (s.modGrid k f).opSeq = s.opSeq := by unfold State.modGrid; split <;> rfl
@[simp] theorem modGrid_booted (s : State) (k : Nat) (f : Grid → Grid) : (s.modGrid k f).booted = s.booted := by unfold State.modGrid; split <;> rfl
@[simp] theorem modGrid_held (s : State) (k : Nat) (f : Grid → Grid) : (s.modGrid k f).held = s.held := by unfold State.modGrid; split <;> rfl
@[simp] theorem modGrid_dev (s : State) (k : Nat) (f : Grid → Grid) : (s.modGrid k f).dev = s.dev := by unfold State.modGrid; split <;> rfl
@[simp] theorem modGrid_domain (s : State) (k : Nat) (f : Grid → Grid) : (s.modGrid k f).domain = s.domain := by unfold State.modGrid; split <;> rfl
@[simp] theorem modGrid_lost (s : State) (k : Nat) (f : Grid → Grid) : (s.modGrid k f).lost = s.lost := by unfold State.modGrid; split <;> rfl
@[simp] theorem modGrid_flash (s : State) (k : Nat) (f : Grid → Grid) : (s.modGrid k f).flash = s.flash := by unfold State.modGrid; split <;> rfl
@[simp] theorem modGrid_measure (s : State) (k : Nat) (f : Grid → Grid) : (s.modGrid k f).measure = s.measure := by unfold State.modGrid; split <;> rfl
@[simp] theorem modGrid_drives (s : State) (k : Nat) (f : Grid → Grid) : (s.modGrid k f).drives = s.drives := by unfold State.modGrid; split <;> rfl
@[simp] theorem modGrid_reports (s : State) (k : Nat) (f : Grid → Grid) : (s.modGrid k f).reports = s.reports := by unfold State.modGrid; split <;> rfl
@[simp] theorem modGrid_ls (s : State) (k : Nat) (f : Grid → Grid) : (s.modGrid k f).ls = s.ls := by unfold State.modGrid; split <;> rfl
@[simp] theorem modGrid_hbm (s : State) (k : Nat) (f : Grid → Grid) : (s.modGrid k f).hbm = s.hbm := by unfold State.modGrid; split <;> rfl
@[simp] theorem modGrid_host (s : State) (k : Nat) (f : Grid → Grid) : (s.modGrid k f).host = s.host := by unfold State.modGrid; split <;> rfl
@[simp] theorem modGrid_disk (s : State) (k : Nat) (f : Grid → Grid) : (s.modGrid k f).disk = s.disk := by unfold State.modGrid; split <;> rfl
@[simp] theorem modGrid_diskPi (s : State) (k : Nat) (f : Grid → Grid) : (s.modGrid k f).diskPi = s.diskPi := by unfold State.modGrid; split <;> rfl
@[simp] theorem modGrid_durable (s : State) (k : Nat) (f : Grid → Grid) : (s.modGrid k f).durable = s.durable := by unfold State.modGrid; split <;> rfl
@[simp] theorem modGrid_hbmBad (s : State) (k : Nat) (f : Grid → Grid) : (s.modGrid k f).hbmBad = s.hbmBad := by unfold State.modGrid; split <;> rfl
@[simp] theorem modGrid_tiles (s : State) (k : Nat) (f : Grid → Grid) : (s.modGrid k f).tiles = s.tiles := by unfold State.modGrid; split <;> rfl
@[simp] theorem modGrid_acc (s : State) (k : Nat) (f : Grid → Grid) : (s.modGrid k f).acc = s.acc := by unfold State.modGrid; split <;> rfl
@[simp] theorem modGrid_unf (s : State) (k : Nat) (f : Grid → Grid) : (s.modGrid k f).unf = s.unf := by unfold State.modGrid; split <;> rfl
@[simp] theorem modGrid_strands (s : State) (k : Nat) (f : Grid → Grid) : (s.modGrid k f).strands = s.strands := by unfold State.modGrid; split <;> rfl
@[simp] theorem modGrid_quads (s : State) (k : Nat) (f : Grid → Grid) : (s.modGrid k f).quads = s.quads := by unfold State.modGrid; split <;> rfl
@[simp] theorem modGrid_gangs (s : State) (k : Nat) (f : Grid → Grid) : (s.modGrid k f).gangs = s.gangs := by unfold State.modGrid; split <;> rfl
@[simp] theorem modGrid_gens (s : State) (k : Nat) (f : Grid → Grid) : (s.modGrid k f).gens = s.gens := by unfold State.modGrid; split <;> rfl
@[simp] theorem modGrid_nextSeq (s : State) (k : Nat) (f : Grid → Grid) : (s.modGrid k f).nextSeq = s.nextSeq := by unfold State.modGrid; split <;> rfl
@[simp] theorem modGrid_dscfg (s : State) (k : Nat) (f : Grid → Grid) : (s.modGrid k f).dscfg = s.dscfg := by unfold State.modGrid; split <;> rfl
@[simp] theorem modGrid_spcfg (s : State) (k : Nat) (f : Grid → Grid) : (s.modGrid k f).spcfg = s.spcfg := by unfold State.modGrid; split <;> rfl
@[simp] theorem modGrid_nccfg (s : State) (k : Nat) (f : Grid → Grid) : (s.modGrid k f).nccfg = s.nccfg := by unfold State.modGrid; split <;> rfl
@[simp] theorem modGrid_sncfg (s : State) (k : Nat) (f : Grid → Grid) : (s.modGrid k f).sncfg = s.sncfg := by unfold State.modGrid; split <;> rfl
@[simp] theorem modGrid_sncyc (s : State) (k : Nat) (f : Grid → Grid) : (s.modGrid k f).sncyc = s.sncyc := by unfold State.modGrid; split <;> rfl
@[simp] theorem modGrid_pwcfg (s : State) (k : Nat) (f : Grid → Grid) : (s.modGrid k f).pwcfg = s.pwcfg := by unfold State.modGrid; split <;> rfl
@[simp] theorem modGrid_spErr (s : State) (k : Nat) (f : Grid → Grid) : (s.modGrid k f).spErr = s.spErr := by unfold State.modGrid; split <;> rfl
@[simp] theorem modGrid_badCmd (s : State) (k : Nat) (f : Grid → Grid) : (s.modGrid k f).badCmd = s.badCmd := by unfold State.modGrid; split <;> rfl
@[simp] theorem modGrid_unsup (s : State) (k : Nat) (f : Grid → Grid) : (s.modGrid k f).unsup = s.unsup := by unfold State.modGrid; split <;> rfl
@[simp] theorem modGrid_lnStarve (s : State) (k : Nat) (f : Grid → Grid) : (s.modGrid k f).lnStarve = s.lnStarve := by unfold State.modGrid; split <;> rfl
@[simp] theorem modGrid_astab (s : State) (k : Nat) (f : Grid → Grid) : (s.modGrid k f).astab = s.astab := by unfold State.modGrid; split <;> rfl
@[simp] theorem modGrid_domtab (s : State) (k : Nat) (f : Grid → Grid) : (s.modGrid k f).domtab = s.domtab := by unfold State.modGrid; split <;> rfl
@[simp] theorem modGrid_timelines (s : State) (k : Nat) (f : Grid → Grid) : (s.modGrid k f).timelines = s.timelines := by unfold State.modGrid; split <;> rfl
@[simp] theorem modGrid_queues (s : State) (k : Nat) (f : Grid → Grid) : (s.modGrid k f).queues = s.queues := by unfold State.modGrid; split <;> rfl
@[simp] theorem modGrid_windows (s : State) (k : Nat) (f : Grid → Grid) : (s.modGrid k f).windows = s.windows := by unfold State.modGrid; split <;> rfl
@[simp] theorem modGrid_images (s : State) (k : Nat) (f : Grid → Grid) : (s.modGrid k f).images = s.images := by unfold State.modGrid; split <;> rfl
@[simp] theorem modGrid_offers (s : State) (k : Nat) (f : Grid → Grid) : (s.modGrid k f).offers = s.offers := by unfold State.modGrid; split <;> rfl
@[simp] theorem modGrid_nextOffer (s : State) (k : Nat) (f : Grid → Grid) : (s.modGrid k f).nextOffer = s.nextOffer := by unfold State.modGrid; split <;> rfl
@[simp] theorem modGrid_episodes (s : State) (k : Nat) (f : Grid → Grid) : (s.modGrid k f).episodes = s.episodes := by unfold State.modGrid; split <;> rfl
@[simp] theorem modGrid_aborted (s : State) (k : Nat) (f : Grid → Grid) : (s.modGrid k f).aborted = s.aborted := by unfold State.modGrid; split <;> rfl
@[simp] theorem modGrid_wcache (s : State) (k : Nat) (f : Grid → Grid) : (s.modGrid k f).wcache = s.wcache := by unfold State.modGrid; split <;> rfl
@[simp] theorem modGrid_invals (s : State) (k : Nat) (f : Grid → Grid) : (s.modGrid k f).invals = s.invals := by unfold State.modGrid; split <;> rfl
@[simp] theorem modGrid_awayPuts (s : State) (k : Nat) (f : Grid → Grid) : (s.modGrid k f).awayPuts = s.awayPuts := by unfold State.modGrid; split <;> rfl
@[simp] theorem modGrid_pool (s : State) (k : Nat) (f : Grid → Grid) : (s.modGrid k f).pool = s.pool := by unfold State.modGrid; split <;> rfl
@[simp] theorem modGrid_pages (s : State) (k : Nat) (f : Grid → Grid) : (s.modGrid k f).pages = s.pages := by unfold State.modGrid; split <;> rfl
@[simp] theorem modGrid_waiting (s : State) (k : Nat) (f : Grid → Grid) : (s.modGrid k f).waiting = s.waiting := by unfold State.modGrid; split <;> rfl
@[simp] theorem modGrid_sweepAt (s : State) (k : Nat) (f : Grid → Grid) : (s.modGrid k f).sweepAt = s.sweepAt := by unfold State.modGrid; split <;> rfl
@[simp] theorem modGrid_sweeping (s : State) (k : Nat) (f : Grid → Grid) : (s.modGrid k f).sweeping = s.sweeping := by unfold State.modGrid; split <;> rfl
@[simp] theorem modGrid_flushing (s : State) (k : Nat) (f : Grid → Grid) : (s.modGrid k f).flushing = s.flushing := by unfold State.modGrid; split <;> rfl
@[simp] theorem modGrid_flushAsks (s : State) (k : Nat) (f : Grid → Grid) : (s.modGrid k f).flushAsks = s.flushAsks := by unfold State.modGrid; split <;> rfl
@[simp] theorem modGrid_evicts (s : State) (k : Nat) (f : Grid → Grid) : (s.modGrid k f).evicts = s.evicts := by unfold State.modGrid; split <;> rfl
@[simp] theorem modGrid_retries (s : State) (k : Nat) (f : Grid → Grid) : (s.modGrid k f).retries = s.retries := by unfold State.modGrid; split <;> rfl
@[simp] theorem modGrid_stopped (s : State) (k : Nat) (f : Grid → Grid) : (s.modGrid k f).stopped = s.stopped := by unfold State.modGrid; split <;> rfl
@[simp] theorem modGrid_packets (s : State) (k : Nat) (f : Grid → Grid) : (s.modGrid k f).packets = s.packets := by unfold State.modGrid; split <;> rfl
@[simp] theorem modGrid_replies (s : State) (k : Nat) (f : Grid → Grid) : (s.modGrid k f).replies = s.replies := by unfold State.modGrid; split <;> rfl
@[simp] theorem modGrid_late (s : State) (k : Nat) (f : Grid → Grid) : (s.modGrid k f).late = s.late := by unfold State.modGrid; split <;> rfl
@[simp] theorem modGrid_deferred (s : State) (k : Nat) (f : Grid → Grid) : (s.modGrid k f).deferred = s.deferred := by unfold State.modGrid; split <;> rfl
@[simp] theorem modGrid_rmaPending (s : State) (k : Nat) (f : Grid → Grid) : (s.modGrid k f).rmaPending = s.rmaPending := by unfold State.modGrid; split <;> rfl
@[simp] theorem modGrid_records (s : State) (k : Nat) (f : Grid → Grid) : (s.modGrid k f).records = s.records := by unfold State.modGrid; split <;> rfl
@[simp] theorem modGrid_completions (s : State) (k : Nat) (f : Grid → Grid) : (s.modGrid k f).completions = s.completions := by unfold State.modGrid; split <;> rfl
@[simp] theorem modGrid_answers (s : State) (k : Nat) (f : Grid → Grid) : (s.modGrid k f).answers = s.answers := by unfold State.modGrid; split <;> rfl

/-! ### modQuad -/

@[simp] theorem modQuad_now (s : State) (q : Nat) (f : Quad → Quad) : (s.modQuad q f).now = s.now := rfl
@[simp] theorem modQuad_cycBase (s : State) (q : Nat) (f : Quad → Quad) : (s.modQuad q f).cycBase = s.cycBase := rfl
@[simp] theorem modQuad_agenda (s : State) (q : Nat) (f : Quad → Quad) : (s.modQuad q f).agenda = s.agenda := rfl
@[simp] theorem modQuad_cur (s : State) (q : Nat) (f : Quad → Quad) : (s.modQuad q f).cur = s.cur := rfl
@[simp] theorem modQuad_free (s : State) (q : Nat) (f : Quad → Quad) : (s.modQuad q f).free = s.free := rfl
@[simp] theorem modQuad_opSeq (s : State) (q : Nat) (f : Quad → Quad) : (s.modQuad q f).opSeq = s.opSeq := rfl
@[simp] theorem modQuad_booted (s : State) (q : Nat) (f : Quad → Quad) : (s.modQuad q f).booted = s.booted := rfl
@[simp] theorem modQuad_held (s : State) (q : Nat) (f : Quad → Quad) : (s.modQuad q f).held = s.held := rfl
@[simp] theorem modQuad_dev (s : State) (q : Nat) (f : Quad → Quad) : (s.modQuad q f).dev = s.dev := rfl
@[simp] theorem modQuad_domain (s : State) (q : Nat) (f : Quad → Quad) : (s.modQuad q f).domain = s.domain := rfl
@[simp] theorem modQuad_lost (s : State) (q : Nat) (f : Quad → Quad) : (s.modQuad q f).lost = s.lost := rfl
@[simp] theorem modQuad_flash (s : State) (q : Nat) (f : Quad → Quad) : (s.modQuad q f).flash = s.flash := rfl
@[simp] theorem modQuad_measure (s : State) (q : Nat) (f : Quad → Quad) : (s.modQuad q f).measure = s.measure := rfl
@[simp] theorem modQuad_drives (s : State) (q : Nat) (f : Quad → Quad) : (s.modQuad q f).drives = s.drives := rfl
@[simp] theorem modQuad_reports (s : State) (q : Nat) (f : Quad → Quad) : (s.modQuad q f).reports = s.reports := rfl
@[simp] theorem modQuad_ls (s : State) (q : Nat) (f : Quad → Quad) : (s.modQuad q f).ls = s.ls := rfl
@[simp] theorem modQuad_hbm (s : State) (q : Nat) (f : Quad → Quad) : (s.modQuad q f).hbm = s.hbm := rfl
@[simp] theorem modQuad_host (s : State) (q : Nat) (f : Quad → Quad) : (s.modQuad q f).host = s.host := rfl
@[simp] theorem modQuad_disk (s : State) (q : Nat) (f : Quad → Quad) : (s.modQuad q f).disk = s.disk := rfl
@[simp] theorem modQuad_diskPi (s : State) (q : Nat) (f : Quad → Quad) : (s.modQuad q f).diskPi = s.diskPi := rfl
@[simp] theorem modQuad_durable (s : State) (q : Nat) (f : Quad → Quad) : (s.modQuad q f).durable = s.durable := rfl
@[simp] theorem modQuad_hbmBad (s : State) (q : Nat) (f : Quad → Quad) : (s.modQuad q f).hbmBad = s.hbmBad := rfl
@[simp] theorem modQuad_tiles (s : State) (q : Nat) (f : Quad → Quad) : (s.modQuad q f).tiles = s.tiles := rfl
@[simp] theorem modQuad_acc (s : State) (q : Nat) (f : Quad → Quad) : (s.modQuad q f).acc = s.acc := rfl
@[simp] theorem modQuad_unf (s : State) (q : Nat) (f : Quad → Quad) : (s.modQuad q f).unf = s.unf := rfl
@[simp] theorem modQuad_strands (s : State) (q : Nat) (f : Quad → Quad) : (s.modQuad q f).strands = s.strands := rfl
@[simp] theorem modQuad_gangs (s : State) (q : Nat) (f : Quad → Quad) : (s.modQuad q f).gangs = s.gangs := rfl
@[simp] theorem modQuad_gens (s : State) (q : Nat) (f : Quad → Quad) : (s.modQuad q f).gens = s.gens := rfl
@[simp] theorem modQuad_grids (s : State) (q : Nat) (f : Quad → Quad) : (s.modQuad q f).grids = s.grids := rfl
@[simp] theorem modQuad_nextSeq (s : State) (q : Nat) (f : Quad → Quad) : (s.modQuad q f).nextSeq = s.nextSeq := rfl
@[simp] theorem modQuad_dscfg (s : State) (q : Nat) (f : Quad → Quad) : (s.modQuad q f).dscfg = s.dscfg := rfl
@[simp] theorem modQuad_spcfg (s : State) (q : Nat) (f : Quad → Quad) : (s.modQuad q f).spcfg = s.spcfg := rfl
@[simp] theorem modQuad_nccfg (s : State) (q : Nat) (f : Quad → Quad) : (s.modQuad q f).nccfg = s.nccfg := rfl
@[simp] theorem modQuad_sncfg (s : State) (q : Nat) (f : Quad → Quad) : (s.modQuad q f).sncfg = s.sncfg := rfl
@[simp] theorem modQuad_sncyc (s : State) (q : Nat) (f : Quad → Quad) : (s.modQuad q f).sncyc = s.sncyc := rfl
@[simp] theorem modQuad_pwcfg (s : State) (q : Nat) (f : Quad → Quad) : (s.modQuad q f).pwcfg = s.pwcfg := rfl
@[simp] theorem modQuad_spErr (s : State) (q : Nat) (f : Quad → Quad) : (s.modQuad q f).spErr = s.spErr := rfl
@[simp] theorem modQuad_badCmd (s : State) (q : Nat) (f : Quad → Quad) : (s.modQuad q f).badCmd = s.badCmd := rfl
@[simp] theorem modQuad_unsup (s : State) (q : Nat) (f : Quad → Quad) : (s.modQuad q f).unsup = s.unsup := rfl
@[simp] theorem modQuad_lnStarve (s : State) (q : Nat) (f : Quad → Quad) : (s.modQuad q f).lnStarve = s.lnStarve := rfl
@[simp] theorem modQuad_astab (s : State) (q : Nat) (f : Quad → Quad) : (s.modQuad q f).astab = s.astab := rfl
@[simp] theorem modQuad_domtab (s : State) (q : Nat) (f : Quad → Quad) : (s.modQuad q f).domtab = s.domtab := rfl
@[simp] theorem modQuad_timelines (s : State) (q : Nat) (f : Quad → Quad) : (s.modQuad q f).timelines = s.timelines := rfl
@[simp] theorem modQuad_queues (s : State) (q : Nat) (f : Quad → Quad) : (s.modQuad q f).queues = s.queues := rfl
@[simp] theorem modQuad_windows (s : State) (q : Nat) (f : Quad → Quad) : (s.modQuad q f).windows = s.windows := rfl
@[simp] theorem modQuad_images (s : State) (q : Nat) (f : Quad → Quad) : (s.modQuad q f).images = s.images := rfl
@[simp] theorem modQuad_offers (s : State) (q : Nat) (f : Quad → Quad) : (s.modQuad q f).offers = s.offers := rfl
@[simp] theorem modQuad_nextOffer (s : State) (q : Nat) (f : Quad → Quad) : (s.modQuad q f).nextOffer = s.nextOffer := rfl
@[simp] theorem modQuad_episodes (s : State) (q : Nat) (f : Quad → Quad) : (s.modQuad q f).episodes = s.episodes := rfl
@[simp] theorem modQuad_aborted (s : State) (q : Nat) (f : Quad → Quad) : (s.modQuad q f).aborted = s.aborted := rfl
@[simp] theorem modQuad_wcache (s : State) (q : Nat) (f : Quad → Quad) : (s.modQuad q f).wcache = s.wcache := rfl
@[simp] theorem modQuad_invals (s : State) (q : Nat) (f : Quad → Quad) : (s.modQuad q f).invals = s.invals := rfl
@[simp] theorem modQuad_awayPuts (s : State) (q : Nat) (f : Quad → Quad) : (s.modQuad q f).awayPuts = s.awayPuts := rfl
@[simp] theorem modQuad_pool (s : State) (q : Nat) (f : Quad → Quad) : (s.modQuad q f).pool = s.pool := rfl
@[simp] theorem modQuad_pages (s : State) (q : Nat) (f : Quad → Quad) : (s.modQuad q f).pages = s.pages := rfl
@[simp] theorem modQuad_waiting (s : State) (q : Nat) (f : Quad → Quad) : (s.modQuad q f).waiting = s.waiting := rfl
@[simp] theorem modQuad_sweepAt (s : State) (q : Nat) (f : Quad → Quad) : (s.modQuad q f).sweepAt = s.sweepAt := rfl
@[simp] theorem modQuad_sweeping (s : State) (q : Nat) (f : Quad → Quad) : (s.modQuad q f).sweeping = s.sweeping := rfl
@[simp] theorem modQuad_flushing (s : State) (q : Nat) (f : Quad → Quad) : (s.modQuad q f).flushing = s.flushing := rfl
@[simp] theorem modQuad_flushAsks (s : State) (q : Nat) (f : Quad → Quad) : (s.modQuad q f).flushAsks = s.flushAsks := rfl
@[simp] theorem modQuad_evicts (s : State) (q : Nat) (f : Quad → Quad) : (s.modQuad q f).evicts = s.evicts := rfl
@[simp] theorem modQuad_retries (s : State) (q : Nat) (f : Quad → Quad) : (s.modQuad q f).retries = s.retries := rfl
@[simp] theorem modQuad_stopped (s : State) (q : Nat) (f : Quad → Quad) : (s.modQuad q f).stopped = s.stopped := rfl
@[simp] theorem modQuad_packets (s : State) (q : Nat) (f : Quad → Quad) : (s.modQuad q f).packets = s.packets := rfl
@[simp] theorem modQuad_replies (s : State) (q : Nat) (f : Quad → Quad) : (s.modQuad q f).replies = s.replies := rfl
@[simp] theorem modQuad_late (s : State) (q : Nat) (f : Quad → Quad) : (s.modQuad q f).late = s.late := rfl
@[simp] theorem modQuad_deferred (s : State) (q : Nat) (f : Quad → Quad) : (s.modQuad q f).deferred = s.deferred := rfl
@[simp] theorem modQuad_rmaPending (s : State) (q : Nat) (f : Quad → Quad) : (s.modQuad q f).rmaPending = s.rmaPending := rfl
@[simp] theorem modQuad_records (s : State) (q : Nat) (f : Quad → Quad) : (s.modQuad q f).records = s.records := rfl
@[simp] theorem modQuad_completions (s : State) (q : Nat) (f : Quad → Quad) : (s.modQuad q f).completions = s.completions := rfl
@[simp] theorem modQuad_answers (s : State) (q : Nat) (f : Quad → Quad) : (s.modQuad q f).answers = s.answers := rfl

/-! ### modCur -/

@[simp] theorem modCur_now (s : State) (f : Strand → Strand) : (s.modCur f).now = s.now := modStrand_now ..
@[simp] theorem modCur_cycBase (s : State) (f : Strand → Strand) : (s.modCur f).cycBase = s.cycBase := modStrand_cycBase ..
@[simp] theorem modCur_agenda (s : State) (f : Strand → Strand) : (s.modCur f).agenda = s.agenda := modStrand_agenda ..
@[simp] theorem modCur_cur (s : State) (f : Strand → Strand) : (s.modCur f).cur = s.cur := modStrand_cur ..
@[simp] theorem modCur_free (s : State) (f : Strand → Strand) : (s.modCur f).free = s.free := modStrand_free ..
@[simp] theorem modCur_opSeq (s : State) (f : Strand → Strand) : (s.modCur f).opSeq = s.opSeq := modStrand_opSeq ..
@[simp] theorem modCur_booted (s : State) (f : Strand → Strand) : (s.modCur f).booted = s.booted := modStrand_booted ..
@[simp] theorem modCur_held (s : State) (f : Strand → Strand) : (s.modCur f).held = s.held := modStrand_held ..
@[simp] theorem modCur_dev (s : State) (f : Strand → Strand) : (s.modCur f).dev = s.dev := modStrand_dev ..
@[simp] theorem modCur_domain (s : State) (f : Strand → Strand) : (s.modCur f).domain = s.domain := modStrand_domain ..
@[simp] theorem modCur_lost (s : State) (f : Strand → Strand) : (s.modCur f).lost = s.lost := modStrand_lost ..
@[simp] theorem modCur_flash (s : State) (f : Strand → Strand) : (s.modCur f).flash = s.flash := modStrand_flash ..
@[simp] theorem modCur_measure (s : State) (f : Strand → Strand) : (s.modCur f).measure = s.measure := modStrand_measure ..
@[simp] theorem modCur_drives (s : State) (f : Strand → Strand) : (s.modCur f).drives = s.drives := modStrand_drives ..
@[simp] theorem modCur_reports (s : State) (f : Strand → Strand) : (s.modCur f).reports = s.reports := modStrand_reports ..
@[simp] theorem modCur_ls (s : State) (f : Strand → Strand) : (s.modCur f).ls = s.ls := modStrand_ls ..
@[simp] theorem modCur_hbm (s : State) (f : Strand → Strand) : (s.modCur f).hbm = s.hbm := modStrand_hbm ..
@[simp] theorem modCur_host (s : State) (f : Strand → Strand) : (s.modCur f).host = s.host := modStrand_host ..
@[simp] theorem modCur_disk (s : State) (f : Strand → Strand) : (s.modCur f).disk = s.disk := modStrand_disk ..
@[simp] theorem modCur_diskPi (s : State) (f : Strand → Strand) : (s.modCur f).diskPi = s.diskPi := modStrand_diskPi ..
@[simp] theorem modCur_durable (s : State) (f : Strand → Strand) : (s.modCur f).durable = s.durable := modStrand_durable ..
@[simp] theorem modCur_hbmBad (s : State) (f : Strand → Strand) : (s.modCur f).hbmBad = s.hbmBad := modStrand_hbmBad ..
@[simp] theorem modCur_tiles (s : State) (f : Strand → Strand) : (s.modCur f).tiles = s.tiles := modStrand_tiles ..
@[simp] theorem modCur_acc (s : State) (f : Strand → Strand) : (s.modCur f).acc = s.acc := modStrand_acc ..
@[simp] theorem modCur_unf (s : State) (f : Strand → Strand) : (s.modCur f).unf = s.unf := modStrand_unf ..
@[simp] theorem modCur_quads (s : State) (f : Strand → Strand) : (s.modCur f).quads = s.quads := modStrand_quads ..
@[simp] theorem modCur_gangs (s : State) (f : Strand → Strand) : (s.modCur f).gangs = s.gangs := modStrand_gangs ..
@[simp] theorem modCur_gens (s : State) (f : Strand → Strand) : (s.modCur f).gens = s.gens := modStrand_gens ..
@[simp] theorem modCur_grids (s : State) (f : Strand → Strand) : (s.modCur f).grids = s.grids := modStrand_grids ..
@[simp] theorem modCur_nextSeq (s : State) (f : Strand → Strand) : (s.modCur f).nextSeq = s.nextSeq := modStrand_nextSeq ..
@[simp] theorem modCur_dscfg (s : State) (f : Strand → Strand) : (s.modCur f).dscfg = s.dscfg := modStrand_dscfg ..
@[simp] theorem modCur_spcfg (s : State) (f : Strand → Strand) : (s.modCur f).spcfg = s.spcfg := modStrand_spcfg ..
@[simp] theorem modCur_nccfg (s : State) (f : Strand → Strand) : (s.modCur f).nccfg = s.nccfg := modStrand_nccfg ..
@[simp] theorem modCur_sncfg (s : State) (f : Strand → Strand) : (s.modCur f).sncfg = s.sncfg := modStrand_sncfg ..
@[simp] theorem modCur_sncyc (s : State) (f : Strand → Strand) : (s.modCur f).sncyc = s.sncyc := modStrand_sncyc ..
@[simp] theorem modCur_pwcfg (s : State) (f : Strand → Strand) : (s.modCur f).pwcfg = s.pwcfg := modStrand_pwcfg ..
@[simp] theorem modCur_spErr (s : State) (f : Strand → Strand) : (s.modCur f).spErr = s.spErr := modStrand_spErr ..
@[simp] theorem modCur_badCmd (s : State) (f : Strand → Strand) : (s.modCur f).badCmd = s.badCmd := modStrand_badCmd ..
@[simp] theorem modCur_unsup (s : State) (f : Strand → Strand) : (s.modCur f).unsup = s.unsup := modStrand_unsup ..
@[simp] theorem modCur_lnStarve (s : State) (f : Strand → Strand) : (s.modCur f).lnStarve = s.lnStarve := modStrand_lnStarve ..
@[simp] theorem modCur_astab (s : State) (f : Strand → Strand) : (s.modCur f).astab = s.astab := modStrand_astab ..
@[simp] theorem modCur_domtab (s : State) (f : Strand → Strand) : (s.modCur f).domtab = s.domtab := modStrand_domtab ..
@[simp] theorem modCur_timelines (s : State) (f : Strand → Strand) : (s.modCur f).timelines = s.timelines := modStrand_timelines ..
@[simp] theorem modCur_queues (s : State) (f : Strand → Strand) : (s.modCur f).queues = s.queues := modStrand_queues ..
@[simp] theorem modCur_windows (s : State) (f : Strand → Strand) : (s.modCur f).windows = s.windows := modStrand_windows ..
@[simp] theorem modCur_images (s : State) (f : Strand → Strand) : (s.modCur f).images = s.images := modStrand_images ..
@[simp] theorem modCur_offers (s : State) (f : Strand → Strand) : (s.modCur f).offers = s.offers := modStrand_offers ..
@[simp] theorem modCur_nextOffer (s : State) (f : Strand → Strand) : (s.modCur f).nextOffer = s.nextOffer := modStrand_nextOffer ..
@[simp] theorem modCur_episodes (s : State) (f : Strand → Strand) : (s.modCur f).episodes = s.episodes := modStrand_episodes ..
@[simp] theorem modCur_aborted (s : State) (f : Strand → Strand) : (s.modCur f).aborted = s.aborted := modStrand_aborted ..
@[simp] theorem modCur_wcache (s : State) (f : Strand → Strand) : (s.modCur f).wcache = s.wcache := modStrand_wcache ..
@[simp] theorem modCur_invals (s : State) (f : Strand → Strand) : (s.modCur f).invals = s.invals := modStrand_invals ..
@[simp] theorem modCur_awayPuts (s : State) (f : Strand → Strand) : (s.modCur f).awayPuts = s.awayPuts := modStrand_awayPuts ..
@[simp] theorem modCur_pool (s : State) (f : Strand → Strand) : (s.modCur f).pool = s.pool := modStrand_pool ..
@[simp] theorem modCur_pages (s : State) (f : Strand → Strand) : (s.modCur f).pages = s.pages := modStrand_pages ..
@[simp] theorem modCur_waiting (s : State) (f : Strand → Strand) : (s.modCur f).waiting = s.waiting := modStrand_waiting ..
@[simp] theorem modCur_sweepAt (s : State) (f : Strand → Strand) : (s.modCur f).sweepAt = s.sweepAt := modStrand_sweepAt ..
@[simp] theorem modCur_sweeping (s : State) (f : Strand → Strand) : (s.modCur f).sweeping = s.sweeping := modStrand_sweeping ..
@[simp] theorem modCur_flushing (s : State) (f : Strand → Strand) : (s.modCur f).flushing = s.flushing := modStrand_flushing ..
@[simp] theorem modCur_flushAsks (s : State) (f : Strand → Strand) : (s.modCur f).flushAsks = s.flushAsks := modStrand_flushAsks ..
@[simp] theorem modCur_evicts (s : State) (f : Strand → Strand) : (s.modCur f).evicts = s.evicts := modStrand_evicts ..
@[simp] theorem modCur_retries (s : State) (f : Strand → Strand) : (s.modCur f).retries = s.retries := modStrand_retries ..
@[simp] theorem modCur_stopped (s : State) (f : Strand → Strand) : (s.modCur f).stopped = s.stopped := modStrand_stopped ..
@[simp] theorem modCur_packets (s : State) (f : Strand → Strand) : (s.modCur f).packets = s.packets := modStrand_packets ..
@[simp] theorem modCur_replies (s : State) (f : Strand → Strand) : (s.modCur f).replies = s.replies := modStrand_replies ..
@[simp] theorem modCur_late (s : State) (f : Strand → Strand) : (s.modCur f).late = s.late := modStrand_late ..
@[simp] theorem modCur_deferred (s : State) (f : Strand → Strand) : (s.modCur f).deferred = s.deferred := modStrand_deferred ..
@[simp] theorem modCur_rmaPending (s : State) (f : Strand → Strand) : (s.modCur f).rmaPending = s.rmaPending := modStrand_rmaPending ..
@[simp] theorem modCur_records (s : State) (f : Strand → Strand) : (s.modCur f).records = s.records := modStrand_records ..
@[simp] theorem modCur_completions (s : State) (f : Strand → Strand) : (s.modCur f).completions = s.completions := modStrand_completions ..
@[simp] theorem modCur_answers (s : State) (f : Strand → Strand) : (s.modCur f).answers = s.answers := modStrand_answers ..

/-! ### wr -/

@[simp] theorem wr_now (s : State) (l : Nat) (x : RegVal) : (s.wr l x).now = s.now := modStrand_now ..
@[simp] theorem wr_cycBase (s : State) (l : Nat) (x : RegVal) : (s.wr l x).cycBase = s.cycBase := modStrand_cycBase ..
@[simp] theorem wr_agenda (s : State) (l : Nat) (x : RegVal) : (s.wr l x).agenda = s.agenda := modStrand_agenda ..
@[simp] theorem wr_cur (s : State) (l : Nat) (x : RegVal) : (s.wr l x).cur = s.cur := modStrand_cur ..
@[simp] theorem wr_free (s : State) (l : Nat) (x : RegVal) : (s.wr l x).free = s.free := modStrand_free ..
@[simp] theorem wr_opSeq (s : State) (l : Nat) (x : RegVal) : (s.wr l x).opSeq = s.opSeq := modStrand_opSeq ..
@[simp] theorem wr_booted (s : State) (l : Nat) (x : RegVal) : (s.wr l x).booted = s.booted := modStrand_booted ..
@[simp] theorem wr_held (s : State) (l : Nat) (x : RegVal) : (s.wr l x).held = s.held := modStrand_held ..
@[simp] theorem wr_dev (s : State) (l : Nat) (x : RegVal) : (s.wr l x).dev = s.dev := modStrand_dev ..
@[simp] theorem wr_domain (s : State) (l : Nat) (x : RegVal) : (s.wr l x).domain = s.domain := modStrand_domain ..
@[simp] theorem wr_lost (s : State) (l : Nat) (x : RegVal) : (s.wr l x).lost = s.lost := modStrand_lost ..
@[simp] theorem wr_flash (s : State) (l : Nat) (x : RegVal) : (s.wr l x).flash = s.flash := modStrand_flash ..
@[simp] theorem wr_measure (s : State) (l : Nat) (x : RegVal) : (s.wr l x).measure = s.measure := modStrand_measure ..
@[simp] theorem wr_drives (s : State) (l : Nat) (x : RegVal) : (s.wr l x).drives = s.drives := modStrand_drives ..
@[simp] theorem wr_reports (s : State) (l : Nat) (x : RegVal) : (s.wr l x).reports = s.reports := modStrand_reports ..
@[simp] theorem wr_ls (s : State) (l : Nat) (x : RegVal) : (s.wr l x).ls = s.ls := modStrand_ls ..
@[simp] theorem wr_hbm (s : State) (l : Nat) (x : RegVal) : (s.wr l x).hbm = s.hbm := modStrand_hbm ..
@[simp] theorem wr_host (s : State) (l : Nat) (x : RegVal) : (s.wr l x).host = s.host := modStrand_host ..
@[simp] theorem wr_disk (s : State) (l : Nat) (x : RegVal) : (s.wr l x).disk = s.disk := modStrand_disk ..
@[simp] theorem wr_diskPi (s : State) (l : Nat) (x : RegVal) : (s.wr l x).diskPi = s.diskPi := modStrand_diskPi ..
@[simp] theorem wr_durable (s : State) (l : Nat) (x : RegVal) : (s.wr l x).durable = s.durable := modStrand_durable ..
@[simp] theorem wr_hbmBad (s : State) (l : Nat) (x : RegVal) : (s.wr l x).hbmBad = s.hbmBad := modStrand_hbmBad ..
@[simp] theorem wr_tiles (s : State) (l : Nat) (x : RegVal) : (s.wr l x).tiles = s.tiles := modStrand_tiles ..
@[simp] theorem wr_acc (s : State) (l : Nat) (x : RegVal) : (s.wr l x).acc = s.acc := modStrand_acc ..
@[simp] theorem wr_unf (s : State) (l : Nat) (x : RegVal) : (s.wr l x).unf = s.unf := modStrand_unf ..
@[simp] theorem wr_quads (s : State) (l : Nat) (x : RegVal) : (s.wr l x).quads = s.quads := modStrand_quads ..
@[simp] theorem wr_gangs (s : State) (l : Nat) (x : RegVal) : (s.wr l x).gangs = s.gangs := modStrand_gangs ..
@[simp] theorem wr_gens (s : State) (l : Nat) (x : RegVal) : (s.wr l x).gens = s.gens := modStrand_gens ..
@[simp] theorem wr_grids (s : State) (l : Nat) (x : RegVal) : (s.wr l x).grids = s.grids := modStrand_grids ..
@[simp] theorem wr_nextSeq (s : State) (l : Nat) (x : RegVal) : (s.wr l x).nextSeq = s.nextSeq := modStrand_nextSeq ..
@[simp] theorem wr_dscfg (s : State) (l : Nat) (x : RegVal) : (s.wr l x).dscfg = s.dscfg := modStrand_dscfg ..
@[simp] theorem wr_spcfg (s : State) (l : Nat) (x : RegVal) : (s.wr l x).spcfg = s.spcfg := modStrand_spcfg ..
@[simp] theorem wr_nccfg (s : State) (l : Nat) (x : RegVal) : (s.wr l x).nccfg = s.nccfg := modStrand_nccfg ..
@[simp] theorem wr_sncfg (s : State) (l : Nat) (x : RegVal) : (s.wr l x).sncfg = s.sncfg := modStrand_sncfg ..
@[simp] theorem wr_sncyc (s : State) (l : Nat) (x : RegVal) : (s.wr l x).sncyc = s.sncyc := modStrand_sncyc ..
@[simp] theorem wr_pwcfg (s : State) (l : Nat) (x : RegVal) : (s.wr l x).pwcfg = s.pwcfg := modStrand_pwcfg ..
@[simp] theorem wr_spErr (s : State) (l : Nat) (x : RegVal) : (s.wr l x).spErr = s.spErr := modStrand_spErr ..
@[simp] theorem wr_badCmd (s : State) (l : Nat) (x : RegVal) : (s.wr l x).badCmd = s.badCmd := modStrand_badCmd ..
@[simp] theorem wr_unsup (s : State) (l : Nat) (x : RegVal) : (s.wr l x).unsup = s.unsup := modStrand_unsup ..
@[simp] theorem wr_lnStarve (s : State) (l : Nat) (x : RegVal) : (s.wr l x).lnStarve = s.lnStarve := modStrand_lnStarve ..
@[simp] theorem wr_astab (s : State) (l : Nat) (x : RegVal) : (s.wr l x).astab = s.astab := modStrand_astab ..
@[simp] theorem wr_domtab (s : State) (l : Nat) (x : RegVal) : (s.wr l x).domtab = s.domtab := modStrand_domtab ..
@[simp] theorem wr_timelines (s : State) (l : Nat) (x : RegVal) : (s.wr l x).timelines = s.timelines := modStrand_timelines ..
@[simp] theorem wr_queues (s : State) (l : Nat) (x : RegVal) : (s.wr l x).queues = s.queues := modStrand_queues ..
@[simp] theorem wr_windows (s : State) (l : Nat) (x : RegVal) : (s.wr l x).windows = s.windows := modStrand_windows ..
@[simp] theorem wr_images (s : State) (l : Nat) (x : RegVal) : (s.wr l x).images = s.images := modStrand_images ..
@[simp] theorem wr_offers (s : State) (l : Nat) (x : RegVal) : (s.wr l x).offers = s.offers := modStrand_offers ..
@[simp] theorem wr_nextOffer (s : State) (l : Nat) (x : RegVal) : (s.wr l x).nextOffer = s.nextOffer := modStrand_nextOffer ..
@[simp] theorem wr_episodes (s : State) (l : Nat) (x : RegVal) : (s.wr l x).episodes = s.episodes := modStrand_episodes ..
@[simp] theorem wr_aborted (s : State) (l : Nat) (x : RegVal) : (s.wr l x).aborted = s.aborted := modStrand_aborted ..
@[simp] theorem wr_wcache (s : State) (l : Nat) (x : RegVal) : (s.wr l x).wcache = s.wcache := modStrand_wcache ..
@[simp] theorem wr_invals (s : State) (l : Nat) (x : RegVal) : (s.wr l x).invals = s.invals := modStrand_invals ..
@[simp] theorem wr_awayPuts (s : State) (l : Nat) (x : RegVal) : (s.wr l x).awayPuts = s.awayPuts := modStrand_awayPuts ..
@[simp] theorem wr_pool (s : State) (l : Nat) (x : RegVal) : (s.wr l x).pool = s.pool := modStrand_pool ..
@[simp] theorem wr_pages (s : State) (l : Nat) (x : RegVal) : (s.wr l x).pages = s.pages := modStrand_pages ..
@[simp] theorem wr_waiting (s : State) (l : Nat) (x : RegVal) : (s.wr l x).waiting = s.waiting := modStrand_waiting ..
@[simp] theorem wr_sweepAt (s : State) (l : Nat) (x : RegVal) : (s.wr l x).sweepAt = s.sweepAt := modStrand_sweepAt ..
@[simp] theorem wr_sweeping (s : State) (l : Nat) (x : RegVal) : (s.wr l x).sweeping = s.sweeping := modStrand_sweeping ..
@[simp] theorem wr_flushing (s : State) (l : Nat) (x : RegVal) : (s.wr l x).flushing = s.flushing := modStrand_flushing ..
@[simp] theorem wr_flushAsks (s : State) (l : Nat) (x : RegVal) : (s.wr l x).flushAsks = s.flushAsks := modStrand_flushAsks ..
@[simp] theorem wr_evicts (s : State) (l : Nat) (x : RegVal) : (s.wr l x).evicts = s.evicts := modStrand_evicts ..
@[simp] theorem wr_retries (s : State) (l : Nat) (x : RegVal) : (s.wr l x).retries = s.retries := modStrand_retries ..
@[simp] theorem wr_stopped (s : State) (l : Nat) (x : RegVal) : (s.wr l x).stopped = s.stopped := modStrand_stopped ..
@[simp] theorem wr_packets (s : State) (l : Nat) (x : RegVal) : (s.wr l x).packets = s.packets := modStrand_packets ..
@[simp] theorem wr_replies (s : State) (l : Nat) (x : RegVal) : (s.wr l x).replies = s.replies := modStrand_replies ..
@[simp] theorem wr_late (s : State) (l : Nat) (x : RegVal) : (s.wr l x).late = s.late := modStrand_late ..
@[simp] theorem wr_deferred (s : State) (l : Nat) (x : RegVal) : (s.wr l x).deferred = s.deferred := modStrand_deferred ..
@[simp] theorem wr_rmaPending (s : State) (l : Nat) (x : RegVal) : (s.wr l x).rmaPending = s.rmaPending := modStrand_rmaPending ..
@[simp] theorem wr_records (s : State) (l : Nat) (x : RegVal) : (s.wr l x).records = s.records := modStrand_records ..
@[simp] theorem wr_completions (s : State) (l : Nat) (x : RegVal) : (s.wr l x).completions = s.completions := modStrand_completions ..
@[simp] theorem wr_answers (s : State) (l : Nat) (x : RegVal) : (s.wr l x).answers = s.answers := modStrand_answers ..

/-! ### flags -/

@[simp] theorem flags_now (s : State) (c : Bool) (l : Nat) (x : Flags) : (s.flags c l x).now = s.now := modStrand_now ..
@[simp] theorem flags_cycBase (s : State) (c : Bool) (l : Nat) (x : Flags) : (s.flags c l x).cycBase = s.cycBase := modStrand_cycBase ..
@[simp] theorem flags_agenda (s : State) (c : Bool) (l : Nat) (x : Flags) : (s.flags c l x).agenda = s.agenda := modStrand_agenda ..
@[simp] theorem flags_cur (s : State) (c : Bool) (l : Nat) (x : Flags) : (s.flags c l x).cur = s.cur := modStrand_cur ..
@[simp] theorem flags_free (s : State) (c : Bool) (l : Nat) (x : Flags) : (s.flags c l x).free = s.free := modStrand_free ..
@[simp] theorem flags_opSeq (s : State) (c : Bool) (l : Nat) (x : Flags) : (s.flags c l x).opSeq = s.opSeq := modStrand_opSeq ..
@[simp] theorem flags_booted (s : State) (c : Bool) (l : Nat) (x : Flags) : (s.flags c l x).booted = s.booted := modStrand_booted ..
@[simp] theorem flags_held (s : State) (c : Bool) (l : Nat) (x : Flags) : (s.flags c l x).held = s.held := modStrand_held ..
@[simp] theorem flags_dev (s : State) (c : Bool) (l : Nat) (x : Flags) : (s.flags c l x).dev = s.dev := modStrand_dev ..
@[simp] theorem flags_domain (s : State) (c : Bool) (l : Nat) (x : Flags) : (s.flags c l x).domain = s.domain := modStrand_domain ..
@[simp] theorem flags_lost (s : State) (c : Bool) (l : Nat) (x : Flags) : (s.flags c l x).lost = s.lost := modStrand_lost ..
@[simp] theorem flags_flash (s : State) (c : Bool) (l : Nat) (x : Flags) : (s.flags c l x).flash = s.flash := modStrand_flash ..
@[simp] theorem flags_measure (s : State) (c : Bool) (l : Nat) (x : Flags) : (s.flags c l x).measure = s.measure := modStrand_measure ..
@[simp] theorem flags_drives (s : State) (c : Bool) (l : Nat) (x : Flags) : (s.flags c l x).drives = s.drives := modStrand_drives ..
@[simp] theorem flags_reports (s : State) (c : Bool) (l : Nat) (x : Flags) : (s.flags c l x).reports = s.reports := modStrand_reports ..
@[simp] theorem flags_ls (s : State) (c : Bool) (l : Nat) (x : Flags) : (s.flags c l x).ls = s.ls := modStrand_ls ..
@[simp] theorem flags_hbm (s : State) (c : Bool) (l : Nat) (x : Flags) : (s.flags c l x).hbm = s.hbm := modStrand_hbm ..
@[simp] theorem flags_host (s : State) (c : Bool) (l : Nat) (x : Flags) : (s.flags c l x).host = s.host := modStrand_host ..
@[simp] theorem flags_disk (s : State) (c : Bool) (l : Nat) (x : Flags) : (s.flags c l x).disk = s.disk := modStrand_disk ..
@[simp] theorem flags_diskPi (s : State) (c : Bool) (l : Nat) (x : Flags) : (s.flags c l x).diskPi = s.diskPi := modStrand_diskPi ..
@[simp] theorem flags_durable (s : State) (c : Bool) (l : Nat) (x : Flags) : (s.flags c l x).durable = s.durable := modStrand_durable ..
@[simp] theorem flags_hbmBad (s : State) (c : Bool) (l : Nat) (x : Flags) : (s.flags c l x).hbmBad = s.hbmBad := modStrand_hbmBad ..
@[simp] theorem flags_tiles (s : State) (c : Bool) (l : Nat) (x : Flags) : (s.flags c l x).tiles = s.tiles := modStrand_tiles ..
@[simp] theorem flags_acc (s : State) (c : Bool) (l : Nat) (x : Flags) : (s.flags c l x).acc = s.acc := modStrand_acc ..
@[simp] theorem flags_unf (s : State) (c : Bool) (l : Nat) (x : Flags) : (s.flags c l x).unf = s.unf := modStrand_unf ..
@[simp] theorem flags_quads (s : State) (c : Bool) (l : Nat) (x : Flags) : (s.flags c l x).quads = s.quads := modStrand_quads ..
@[simp] theorem flags_gangs (s : State) (c : Bool) (l : Nat) (x : Flags) : (s.flags c l x).gangs = s.gangs := modStrand_gangs ..
@[simp] theorem flags_gens (s : State) (c : Bool) (l : Nat) (x : Flags) : (s.flags c l x).gens = s.gens := modStrand_gens ..
@[simp] theorem flags_grids (s : State) (c : Bool) (l : Nat) (x : Flags) : (s.flags c l x).grids = s.grids := modStrand_grids ..
@[simp] theorem flags_nextSeq (s : State) (c : Bool) (l : Nat) (x : Flags) : (s.flags c l x).nextSeq = s.nextSeq := modStrand_nextSeq ..
@[simp] theorem flags_dscfg (s : State) (c : Bool) (l : Nat) (x : Flags) : (s.flags c l x).dscfg = s.dscfg := modStrand_dscfg ..
@[simp] theorem flags_spcfg (s : State) (c : Bool) (l : Nat) (x : Flags) : (s.flags c l x).spcfg = s.spcfg := modStrand_spcfg ..
@[simp] theorem flags_nccfg (s : State) (c : Bool) (l : Nat) (x : Flags) : (s.flags c l x).nccfg = s.nccfg := modStrand_nccfg ..
@[simp] theorem flags_sncfg (s : State) (c : Bool) (l : Nat) (x : Flags) : (s.flags c l x).sncfg = s.sncfg := modStrand_sncfg ..
@[simp] theorem flags_sncyc (s : State) (c : Bool) (l : Nat) (x : Flags) : (s.flags c l x).sncyc = s.sncyc := modStrand_sncyc ..
@[simp] theorem flags_pwcfg (s : State) (c : Bool) (l : Nat) (x : Flags) : (s.flags c l x).pwcfg = s.pwcfg := modStrand_pwcfg ..
@[simp] theorem flags_spErr (s : State) (c : Bool) (l : Nat) (x : Flags) : (s.flags c l x).spErr = s.spErr := modStrand_spErr ..
@[simp] theorem flags_badCmd (s : State) (c : Bool) (l : Nat) (x : Flags) : (s.flags c l x).badCmd = s.badCmd := modStrand_badCmd ..
@[simp] theorem flags_unsup (s : State) (c : Bool) (l : Nat) (x : Flags) : (s.flags c l x).unsup = s.unsup := modStrand_unsup ..
@[simp] theorem flags_lnStarve (s : State) (c : Bool) (l : Nat) (x : Flags) : (s.flags c l x).lnStarve = s.lnStarve := modStrand_lnStarve ..
@[simp] theorem flags_astab (s : State) (c : Bool) (l : Nat) (x : Flags) : (s.flags c l x).astab = s.astab := modStrand_astab ..
@[simp] theorem flags_domtab (s : State) (c : Bool) (l : Nat) (x : Flags) : (s.flags c l x).domtab = s.domtab := modStrand_domtab ..
@[simp] theorem flags_timelines (s : State) (c : Bool) (l : Nat) (x : Flags) : (s.flags c l x).timelines = s.timelines := modStrand_timelines ..
@[simp] theorem flags_queues (s : State) (c : Bool) (l : Nat) (x : Flags) : (s.flags c l x).queues = s.queues := modStrand_queues ..
@[simp] theorem flags_windows (s : State) (c : Bool) (l : Nat) (x : Flags) : (s.flags c l x).windows = s.windows := modStrand_windows ..
@[simp] theorem flags_images (s : State) (c : Bool) (l : Nat) (x : Flags) : (s.flags c l x).images = s.images := modStrand_images ..
@[simp] theorem flags_offers (s : State) (c : Bool) (l : Nat) (x : Flags) : (s.flags c l x).offers = s.offers := modStrand_offers ..
@[simp] theorem flags_nextOffer (s : State) (c : Bool) (l : Nat) (x : Flags) : (s.flags c l x).nextOffer = s.nextOffer := modStrand_nextOffer ..
@[simp] theorem flags_episodes (s : State) (c : Bool) (l : Nat) (x : Flags) : (s.flags c l x).episodes = s.episodes := modStrand_episodes ..
@[simp] theorem flags_aborted (s : State) (c : Bool) (l : Nat) (x : Flags) : (s.flags c l x).aborted = s.aborted := modStrand_aborted ..
@[simp] theorem flags_wcache (s : State) (c : Bool) (l : Nat) (x : Flags) : (s.flags c l x).wcache = s.wcache := modStrand_wcache ..
@[simp] theorem flags_invals (s : State) (c : Bool) (l : Nat) (x : Flags) : (s.flags c l x).invals = s.invals := modStrand_invals ..
@[simp] theorem flags_awayPuts (s : State) (c : Bool) (l : Nat) (x : Flags) : (s.flags c l x).awayPuts = s.awayPuts := modStrand_awayPuts ..
@[simp] theorem flags_pool (s : State) (c : Bool) (l : Nat) (x : Flags) : (s.flags c l x).pool = s.pool := modStrand_pool ..
@[simp] theorem flags_pages (s : State) (c : Bool) (l : Nat) (x : Flags) : (s.flags c l x).pages = s.pages := modStrand_pages ..
@[simp] theorem flags_waiting (s : State) (c : Bool) (l : Nat) (x : Flags) : (s.flags c l x).waiting = s.waiting := modStrand_waiting ..
@[simp] theorem flags_sweepAt (s : State) (c : Bool) (l : Nat) (x : Flags) : (s.flags c l x).sweepAt = s.sweepAt := modStrand_sweepAt ..
@[simp] theorem flags_sweeping (s : State) (c : Bool) (l : Nat) (x : Flags) : (s.flags c l x).sweeping = s.sweeping := modStrand_sweeping ..
@[simp] theorem flags_flushing (s : State) (c : Bool) (l : Nat) (x : Flags) : (s.flags c l x).flushing = s.flushing := modStrand_flushing ..
@[simp] theorem flags_flushAsks (s : State) (c : Bool) (l : Nat) (x : Flags) : (s.flags c l x).flushAsks = s.flushAsks := modStrand_flushAsks ..
@[simp] theorem flags_evicts (s : State) (c : Bool) (l : Nat) (x : Flags) : (s.flags c l x).evicts = s.evicts := modStrand_evicts ..
@[simp] theorem flags_retries (s : State) (c : Bool) (l : Nat) (x : Flags) : (s.flags c l x).retries = s.retries := modStrand_retries ..
@[simp] theorem flags_stopped (s : State) (c : Bool) (l : Nat) (x : Flags) : (s.flags c l x).stopped = s.stopped := modStrand_stopped ..
@[simp] theorem flags_packets (s : State) (c : Bool) (l : Nat) (x : Flags) : (s.flags c l x).packets = s.packets := modStrand_packets ..
@[simp] theorem flags_replies (s : State) (c : Bool) (l : Nat) (x : Flags) : (s.flags c l x).replies = s.replies := modStrand_replies ..
@[simp] theorem flags_late (s : State) (c : Bool) (l : Nat) (x : Flags) : (s.flags c l x).late = s.late := modStrand_late ..
@[simp] theorem flags_deferred (s : State) (c : Bool) (l : Nat) (x : Flags) : (s.flags c l x).deferred = s.deferred := modStrand_deferred ..
@[simp] theorem flags_rmaPending (s : State) (c : Bool) (l : Nat) (x : Flags) : (s.flags c l x).rmaPending = s.rmaPending := modStrand_rmaPending ..
@[simp] theorem flags_records (s : State) (c : Bool) (l : Nat) (x : Flags) : (s.flags c l x).records = s.records := modStrand_records ..
@[simp] theorem flags_completions (s : State) (c : Bool) (l : Nat) (x : Flags) : (s.flags c l x).completions = s.completions := modStrand_completions ..
@[simp] theorem flags_answers (s : State) (c : Bool) (l : Nat) (x : Flags) : (s.flags c l x).answers = s.answers := modStrand_answers ..

/-! ### advance -/

@[simp] theorem advance_now (s : State) (n : Nat) : (advance s n).now = s.now := modStrand_now ..
@[simp] theorem advance_cycBase (s : State) (n : Nat) : (advance s n).cycBase = s.cycBase := modStrand_cycBase ..
@[simp] theorem advance_agenda (s : State) (n : Nat) : (advance s n).agenda = s.agenda := modStrand_agenda ..
@[simp] theorem advance_cur (s : State) (n : Nat) : (advance s n).cur = s.cur := modStrand_cur ..
@[simp] theorem advance_free (s : State) (n : Nat) : (advance s n).free = s.free := modStrand_free ..
@[simp] theorem advance_opSeq (s : State) (n : Nat) : (advance s n).opSeq = s.opSeq := modStrand_opSeq ..
@[simp] theorem advance_booted (s : State) (n : Nat) : (advance s n).booted = s.booted := modStrand_booted ..
@[simp] theorem advance_held (s : State) (n : Nat) : (advance s n).held = s.held := modStrand_held ..
@[simp] theorem advance_dev (s : State) (n : Nat) : (advance s n).dev = s.dev := modStrand_dev ..
@[simp] theorem advance_domain (s : State) (n : Nat) : (advance s n).domain = s.domain := modStrand_domain ..
@[simp] theorem advance_lost (s : State) (n : Nat) : (advance s n).lost = s.lost := modStrand_lost ..
@[simp] theorem advance_flash (s : State) (n : Nat) : (advance s n).flash = s.flash := modStrand_flash ..
@[simp] theorem advance_measure (s : State) (n : Nat) : (advance s n).measure = s.measure := modStrand_measure ..
@[simp] theorem advance_drives (s : State) (n : Nat) : (advance s n).drives = s.drives := modStrand_drives ..
@[simp] theorem advance_reports (s : State) (n : Nat) : (advance s n).reports = s.reports := modStrand_reports ..
@[simp] theorem advance_ls (s : State) (n : Nat) : (advance s n).ls = s.ls := modStrand_ls ..
@[simp] theorem advance_hbm (s : State) (n : Nat) : (advance s n).hbm = s.hbm := modStrand_hbm ..
@[simp] theorem advance_host (s : State) (n : Nat) : (advance s n).host = s.host := modStrand_host ..
@[simp] theorem advance_disk (s : State) (n : Nat) : (advance s n).disk = s.disk := modStrand_disk ..
@[simp] theorem advance_diskPi (s : State) (n : Nat) : (advance s n).diskPi = s.diskPi := modStrand_diskPi ..
@[simp] theorem advance_durable (s : State) (n : Nat) : (advance s n).durable = s.durable := modStrand_durable ..
@[simp] theorem advance_hbmBad (s : State) (n : Nat) : (advance s n).hbmBad = s.hbmBad := modStrand_hbmBad ..
@[simp] theorem advance_tiles (s : State) (n : Nat) : (advance s n).tiles = s.tiles := modStrand_tiles ..
@[simp] theorem advance_acc (s : State) (n : Nat) : (advance s n).acc = s.acc := modStrand_acc ..
@[simp] theorem advance_unf (s : State) (n : Nat) : (advance s n).unf = s.unf := modStrand_unf ..
@[simp] theorem advance_quads (s : State) (n : Nat) : (advance s n).quads = s.quads := modStrand_quads ..
@[simp] theorem advance_gangs (s : State) (n : Nat) : (advance s n).gangs = s.gangs := modStrand_gangs ..
@[simp] theorem advance_gens (s : State) (n : Nat) : (advance s n).gens = s.gens := modStrand_gens ..
@[simp] theorem advance_grids (s : State) (n : Nat) : (advance s n).grids = s.grids := modStrand_grids ..
@[simp] theorem advance_nextSeq (s : State) (n : Nat) : (advance s n).nextSeq = s.nextSeq := modStrand_nextSeq ..
@[simp] theorem advance_dscfg (s : State) (n : Nat) : (advance s n).dscfg = s.dscfg := modStrand_dscfg ..
@[simp] theorem advance_spcfg (s : State) (n : Nat) : (advance s n).spcfg = s.spcfg := modStrand_spcfg ..
@[simp] theorem advance_nccfg (s : State) (n : Nat) : (advance s n).nccfg = s.nccfg := modStrand_nccfg ..
@[simp] theorem advance_sncfg (s : State) (n : Nat) : (advance s n).sncfg = s.sncfg := modStrand_sncfg ..
@[simp] theorem advance_sncyc (s : State) (n : Nat) : (advance s n).sncyc = s.sncyc := modStrand_sncyc ..
@[simp] theorem advance_pwcfg (s : State) (n : Nat) : (advance s n).pwcfg = s.pwcfg := modStrand_pwcfg ..
@[simp] theorem advance_spErr (s : State) (n : Nat) : (advance s n).spErr = s.spErr := modStrand_spErr ..
@[simp] theorem advance_badCmd (s : State) (n : Nat) : (advance s n).badCmd = s.badCmd := modStrand_badCmd ..
@[simp] theorem advance_unsup (s : State) (n : Nat) : (advance s n).unsup = s.unsup := modStrand_unsup ..
@[simp] theorem advance_lnStarve (s : State) (n : Nat) : (advance s n).lnStarve = s.lnStarve := modStrand_lnStarve ..
@[simp] theorem advance_astab (s : State) (n : Nat) : (advance s n).astab = s.astab := modStrand_astab ..
@[simp] theorem advance_domtab (s : State) (n : Nat) : (advance s n).domtab = s.domtab := modStrand_domtab ..
@[simp] theorem advance_timelines (s : State) (n : Nat) : (advance s n).timelines = s.timelines := modStrand_timelines ..
@[simp] theorem advance_queues (s : State) (n : Nat) : (advance s n).queues = s.queues := modStrand_queues ..
@[simp] theorem advance_windows (s : State) (n : Nat) : (advance s n).windows = s.windows := modStrand_windows ..
@[simp] theorem advance_images (s : State) (n : Nat) : (advance s n).images = s.images := modStrand_images ..
@[simp] theorem advance_offers (s : State) (n : Nat) : (advance s n).offers = s.offers := modStrand_offers ..
@[simp] theorem advance_nextOffer (s : State) (n : Nat) : (advance s n).nextOffer = s.nextOffer := modStrand_nextOffer ..
@[simp] theorem advance_episodes (s : State) (n : Nat) : (advance s n).episodes = s.episodes := modStrand_episodes ..
@[simp] theorem advance_aborted (s : State) (n : Nat) : (advance s n).aborted = s.aborted := modStrand_aborted ..
@[simp] theorem advance_wcache (s : State) (n : Nat) : (advance s n).wcache = s.wcache := modStrand_wcache ..
@[simp] theorem advance_invals (s : State) (n : Nat) : (advance s n).invals = s.invals := modStrand_invals ..
@[simp] theorem advance_awayPuts (s : State) (n : Nat) : (advance s n).awayPuts = s.awayPuts := modStrand_awayPuts ..
@[simp] theorem advance_pool (s : State) (n : Nat) : (advance s n).pool = s.pool := modStrand_pool ..
@[simp] theorem advance_pages (s : State) (n : Nat) : (advance s n).pages = s.pages := modStrand_pages ..
@[simp] theorem advance_waiting (s : State) (n : Nat) : (advance s n).waiting = s.waiting := modStrand_waiting ..
@[simp] theorem advance_sweepAt (s : State) (n : Nat) : (advance s n).sweepAt = s.sweepAt := modStrand_sweepAt ..
@[simp] theorem advance_sweeping (s : State) (n : Nat) : (advance s n).sweeping = s.sweeping := modStrand_sweeping ..
@[simp] theorem advance_flushing (s : State) (n : Nat) : (advance s n).flushing = s.flushing := modStrand_flushing ..
@[simp] theorem advance_flushAsks (s : State) (n : Nat) : (advance s n).flushAsks = s.flushAsks := modStrand_flushAsks ..
@[simp] theorem advance_evicts (s : State) (n : Nat) : (advance s n).evicts = s.evicts := modStrand_evicts ..
@[simp] theorem advance_retries (s : State) (n : Nat) : (advance s n).retries = s.retries := modStrand_retries ..
@[simp] theorem advance_stopped (s : State) (n : Nat) : (advance s n).stopped = s.stopped := modStrand_stopped ..
@[simp] theorem advance_packets (s : State) (n : Nat) : (advance s n).packets = s.packets := modStrand_packets ..
@[simp] theorem advance_replies (s : State) (n : Nat) : (advance s n).replies = s.replies := modStrand_replies ..
@[simp] theorem advance_late (s : State) (n : Nat) : (advance s n).late = s.late := modStrand_late ..
@[simp] theorem advance_deferred (s : State) (n : Nat) : (advance s n).deferred = s.deferred := modStrand_deferred ..
@[simp] theorem advance_rmaPending (s : State) (n : Nat) : (advance s n).rmaPending = s.rmaPending := modStrand_rmaPending ..
@[simp] theorem advance_records (s : State) (n : Nat) : (advance s n).records = s.records := modStrand_records ..
@[simp] theorem advance_completions (s : State) (n : Nat) : (advance s n).completions = s.completions := modStrand_completions ..
@[simp] theorem advance_answers (s : State) (n : Nat) : (advance s n).answers = s.answers := modStrand_answers ..

end Sys2Proof.Machine
end

