-- ==== Sys2Proof/Laws/Registers.lean ====
section
/-! SUPPORT. What a result on its way changes of the values registers hold once every result is delivered (R66, R67, R144). -/

namespace Sys2Proof.Machine

/-- Results written one after the other. -/
def writeAll (ps : List (Nat × RegVal)) (st : Strand) : Strand := ps.foldl (fun a p => regWrite a p.2) st

/-- What one register class reads, as a function of the strand's stored registers alone. -/
theorem sreg_regWrite_other (st : Strand) (x : RegVal) (r : SReg) (h : x.ref ≠ .s r) : sreg (regWrite st x) r = sreg st r := by
  cases x with
  | s d w =>
    have hd : d ≠ r := fun e => h (by rw [e]; simp [RegVal.ref])
    have : d.val ≠ r.val := fun e => hd (Fin.ext e)
    simp only [regWrite]
    split
    · rfl
    · simp [sreg, this]
  | v d m y => rfl
  | p d m y => simp only [regWrite]; split <;> rfl

theorem sreg_regWrite_same (st : Strand) (r : SReg) (w : Word) : sreg (regWrite st (.s r w)) r = if r = 0 then 0 else w := by
  simp only [regWrite]
  split
  · next h => simp [sreg, h]
  · next h => simp [sreg, h]

theorem vreg_regWrite_other (st : Strand) (x : RegVal) (r : VReg) (h : x.ref ≠ .v r) : vreg (regWrite st x) r = vreg st r := by
  cases x with
  | v d m y =>
    have hd : d.val ≠ r.val := fun e => h (by rw [Fin.ext e]; rfl)
    simp [regWrite, vreg, hd]
  | s d w => simp only [regWrite]; split <;> rfl
  | p d m y => simp only [regWrite]; split <;> rfl

theorem vreg_regWrite_same (st : Strand) (r : VReg) (m : Lane) (y : VVal) :
    vreg (regWrite st (.v r m y)) r = blend m y (vreg st r) := by
  simp [regWrite, vreg]

theorem preg_regWrite_other (st : Strand) (x : RegVal) (r : PReg) (h : x.ref ≠ .p r) : preg (regWrite st x) r = preg st r := by
  cases x with
  | p d m y =>
    have hd : d.val ≠ r.val := fun e => h (by rw [Fin.ext e]; rfl)
    simp only [regWrite]
    split
    · rfl
    · simp [preg, hd]
  | s d w => simp only [regWrite]; split <;> rfl
  | v d m y => rfl

theorem preg_regWrite_same (st : Strand) (r : PReg) (m y : Lane) :
    preg (regWrite st (.p r m y)) r = if r = 0 then BitVec.allOnes 32 else (y &&& m) ||| (preg st r &&& ~~~m) := by
  simp only [regWrite]
  split
  · next h => simp [preg, h]
  · next h => simp [preg, h]

/-! ### Results one after the other -/

theorem sreg_writeAll_other (ps : List (Nat × RegVal)) (st : Strand) (r : SReg) (h : ∀ p ∈ ps, p.2.ref ≠ .s r) :
    sreg (writeAll ps st) r = sreg st r := by
  induction ps generalizing st with
  | nil => rfl
  | cons p t ih =>
    show sreg (writeAll t (regWrite st p.2)) r = _
    rw [ih _ (fun q hq => h q (List.mem_cons_of_mem _ hq)), sreg_regWrite_other _ _ _ (h p List.mem_cons_self)]

theorem vreg_writeAll_other (ps : List (Nat × RegVal)) (st : Strand) (r : VReg) (h : ∀ p ∈ ps, p.2.ref ≠ .v r) :
    vreg (writeAll ps st) r = vreg st r := by
  induction ps generalizing st with
  | nil => rfl
  | cons p t ih =>
    show vreg (writeAll t (regWrite st p.2)) r = _
    rw [ih _ (fun q hq => h q (List.mem_cons_of_mem _ hq)), vreg_regWrite_other _ _ _ (h p List.mem_cons_self)]

theorem preg_writeAll_other (ps : List (Nat × RegVal)) (st : Strand) (r : PReg) (h : ∀ p ∈ ps, p.2.ref ≠ .p r) :
    preg (writeAll ps st) r = preg st r := by
  induction ps generalizing st with
  | nil => rfl
  | cons p t ih =>
    show preg (writeAll t (regWrite st p.2)) r = _
    rw [ih _ (fun q hq => h q (List.mem_cons_of_mem _ hq)), preg_regWrite_other _ _ _ (h p List.mem_cons_self)]

theorem writeAll_append (ps qs : List (Nat × RegVal)) (st : Strand) : writeAll (ps ++ qs) st = writeAll qs (writeAll ps st) :=
  List.foldl_append

/-- What delivering everything reads. -/
theorem finalS_eq (st : Strand) (r : SReg) : finalS st r = sreg (writeAll st.pend st) r := rfl
theorem finalV_eq (st : Strand) (r : VReg) : finalV st r = vreg (writeAll st.pend st) r := rfl
theorem finalP_eq (st : Strand) (r : PReg) : finalP st r = preg (writeAll st.pend st) r := rfl

theorem sreg_regWrite_congr (a b : Strand) (x : RegVal) (r : SReg) (h : sreg a r = sreg b r) :
    sreg (regWrite a x) r = sreg (regWrite b x) r := by
  by_cases k : x.ref = .s r
  · cases x with
    | s d w =>
      have hd : d = r := by injection k
      subst hd
      exact (sreg_regWrite_same a d w).trans (sreg_regWrite_same b d w).symm
    | v d m y => exact absurd k nofun
    | p d m y => exact absurd k nofun
  · rw [sreg_regWrite_other _ _ _ k, sreg_regWrite_other _ _ _ k, h]

theorem sreg_writeAll_congr (ps : List (Nat × RegVal)) (a b : Strand) (r : SReg) (h : sreg a r = sreg b r) :
    sreg (writeAll ps a) r = sreg (writeAll ps b) r := by
  induction ps generalizing a b with
  | nil => exact h
  | cons p t ih => exact ih _ _ (sreg_regWrite_congr a b p.2 r h)

/-- Dropping the results of another register, from another strand that agrees on this one. -/
theorem sreg_writeAll_filter (ps : List (Nat × RegVal)) (ref : RegRef) (a b : Strand) (r : SReg) (hr : ref ≠ .s r)
    (h : sreg a r = sreg b r) :
    sreg (writeAll (ps.filter fun p => !(p.2.ref == ref)) a) r = sreg (writeAll ps b) r := by
  induction ps generalizing a b with
  | nil => exact h
  | cons p t ih =>
    by_cases e : p.2.ref = ref
    · rw [List.filter_cons_of_neg (by simp [e])]
      exact ih a (regWrite b p.2) (by rw [sreg_regWrite_other _ _ _ (by rw [e]; exact hr), h])
    · rw [List.filter_cons_of_pos (by simp [e])]
      exact ih (regWrite a p.2) (regWrite b p.2) (sreg_regWrite_congr a b p.2 r h)

/-- A result of another register changes nothing of this one. -/
theorem finalS_regLater_other (st : Strand) (now l : Nat) (x : RegVal) (r : SReg) (hr : x.ref ≠ .s r) :
    finalS (regLater st now l x) r = finalS st r := by
  have hw (a : Strand) : sreg (regWrite a x) r = sreg a r := sreg_regWrite_other _ _ _ hr
  have hp (a : Strand) : (regWrite a x).pend = a.pend := by cases x <;> simp only [regWrite] <;> (try split) <;> rfl
  unfold regLater
  split
  · rfl
  simp only [finalS_eq]
  split
  · split
    · rw [hp]; exact sreg_writeAll_filter _ _ _ _ _ hr (hw _)
    · rw [writeAll_append]; exact (hw _).trans (sreg_writeAll_filter _ _ _ _ _ hr rfl)
  · split
    · rw [hp]; exact sreg_writeAll_congr _ _ _ _ (hw _)
    · rw [writeAll_append]; exact (hw _).trans (sreg_writeAll_congr _ _ _ _ rfl)

theorem vreg_regWrite_congr (a b : Strand) (x : RegVal) (r : VReg) (h : vreg a r = vreg b r) :
    vreg (regWrite a x) r = vreg (regWrite b x) r := by
  by_cases k : x.ref = .v r
  · cases x with
    | s d w => exact absurd k nofun
    | v d m y =>
      have hd : d = r := by injection k
      subst hd
      exact (vreg_regWrite_same a d m y).trans (by rw [h]; exact (vreg_regWrite_same b d m y).symm)
    | p d m y => exact absurd k nofun
  · rw [vreg_regWrite_other _ _ _ k, vreg_regWrite_other _ _ _ k, h]

theorem vreg_writeAll_congr (ps : List (Nat × RegVal)) (a b : Strand) (r : VReg) (h : vreg a r = vreg b r) :
    vreg (writeAll ps a) r = vreg (writeAll ps b) r := by
  induction ps generalizing a b with
  | nil => exact h
  | cons p t ih => exact ih _ _ (vreg_regWrite_congr a b p.2 r h)

/-- Dropping the results of another register, from another strand that agrees on this one. -/
theorem vreg_writeAll_filter (ps : List (Nat × RegVal)) (ref : RegRef) (a b : Strand) (r : VReg) (hr : ref ≠ .v r)
    (h : vreg a r = vreg b r) :
    vreg (writeAll (ps.filter fun p => !(p.2.ref == ref)) a) r = vreg (writeAll ps b) r := by
  induction ps generalizing a b with
  | nil => exact h
  | cons p t ih =>
    by_cases e : p.2.ref = ref
    · rw [List.filter_cons_of_neg (by simp [e])]
      exact ih a (regWrite b p.2) (by rw [vreg_regWrite_other _ _ _ (by rw [e]; exact hr), h])
    · rw [List.filter_cons_of_pos (by simp [e])]
      exact ih (regWrite a p.2) (regWrite b p.2) (vreg_regWrite_congr a b p.2 r h)

/-- A result of another register changes nothing of this one. -/
theorem finalV_regLater_other (st : Strand) (now l : Nat) (x : RegVal) (r : VReg) (hr : x.ref ≠ .v r) :
    finalV (regLater st now l x) r = finalV st r := by
  have hw (a : Strand) : vreg (regWrite a x) r = vreg a r := vreg_regWrite_other _ _ _ hr
  have hp (a : Strand) : (regWrite a x).pend = a.pend := by cases x <;> simp only [regWrite] <;> (try split) <;> rfl
  unfold regLater
  split
  · rfl
  simp only [finalV_eq]
  split
  · split
    · rw [hp]; exact vreg_writeAll_filter _ _ _ _ _ hr (hw _)
    · rw [writeAll_append]; exact (hw _).trans (vreg_writeAll_filter _ _ _ _ _ hr rfl)
  · split
    · rw [hp]; exact vreg_writeAll_congr _ _ _ _ (hw _)
    · rw [writeAll_append]; exact (hw _).trans (vreg_writeAll_congr _ _ _ _ rfl)

theorem preg_regWrite_congr (a b : Strand) (x : RegVal) (r : PReg) (h : preg a r = preg b r) :
    preg (regWrite a x) r = preg (regWrite b x) r := by
  by_cases k : x.ref = .p r
  · cases x with
    | s d w => exact absurd k nofun
    | v d m y => exact absurd k nofun
    | p d m y =>
      have hd : d = r := by injection k
      subst hd
      exact (preg_regWrite_same a d m y).trans (by rw [h]; exact (preg_regWrite_same b d m y).symm)
  · rw [preg_regWrite_other _ _ _ k, preg_regWrite_other _ _ _ k, h]

theorem preg_writeAll_congr (ps : List (Nat × RegVal)) (a b : Strand) (r : PReg) (h : preg a r = preg b r) :
    preg (writeAll ps a) r = preg (writeAll ps b) r := by
  induction ps generalizing a b with
  | nil => exact h
  | cons p t ih => exact ih _ _ (preg_regWrite_congr a b p.2 r h)

/-- Dropping the results of another register, from another strand that agrees on this one. -/
theorem preg_writeAll_filter (ps : List (Nat × RegVal)) (ref : RegRef) (a b : Strand) (r : PReg) (hr : ref ≠ .p r)
    (h : preg a r = preg b r) :
    preg (writeAll (ps.filter fun p => !(p.2.ref == ref)) a) r = preg (writeAll ps b) r := by
  induction ps generalizing a b with
  | nil => exact h
  | cons p t ih =>
    by_cases e : p.2.ref = ref
    · rw [List.filter_cons_of_neg (by simp [e])]
      exact ih a (regWrite b p.2) (by rw [preg_regWrite_other _ _ _ (by rw [e]; exact hr), h])
    · rw [List.filter_cons_of_pos (by simp [e])]
      exact ih (regWrite a p.2) (regWrite b p.2) (preg_regWrite_congr a b p.2 r h)

/-- A result of another register changes nothing of this one. -/
theorem finalP_regLater_other (st : Strand) (now l : Nat) (x : RegVal) (r : PReg) (hr : x.ref ≠ .p r) :
    finalP (regLater st now l x) r = finalP st r := by
  have hw (a : Strand) : preg (regWrite a x) r = preg a r := preg_regWrite_other _ _ _ hr
  have hp (a : Strand) : (regWrite a x).pend = a.pend := by cases x <;> simp only [regWrite] <;> (try split) <;> rfl
  unfold regLater
  split
  · rfl
  simp only [finalP_eq]
  split
  · split
    · rw [hp]; exact preg_writeAll_filter _ _ _ _ _ hr (hw _)
    · rw [writeAll_append]; exact (hw _).trans (preg_writeAll_filter _ _ _ _ _ hr rfl)
  · split
    · rw [hp]; exact preg_writeAll_congr _ _ _ _ (hw _)
    · rw [writeAll_append]; exact (hw _).trans (preg_writeAll_congr _ _ _ _ rfl)

/-- A scalar result, once delivered. -/
theorem finalS_regLater_same (st : Strand) (now l : Nat) (d : SReg) (w : Word) :
    finalS (regLater st now l (.s d w)) d = if d = 0 then 0 else w := by
  have hp (a : Strand) : (regWrite a (.s d w)).pend = a.pend := by simp only [regWrite]; split <;> rfl
  unfold regLater
  split
  · next h =>
    have h : d = 0 := by simpa [RegVal.ref, RegRef.discards] using h
    simp [finalS_eq, h, sreg]
  simp only [finalS_eq, RegVal.whole, if_true]
  split
  · rw [hp, sreg_writeAll_other]
    · exact sreg_regWrite_same _ _ _
    · intro p hp; simpa [RegVal.ref] using (List.mem_filter.mp hp).2
  · rw [writeAll_append]; exact sreg_regWrite_same _ _ _

/-- A vector result under a lane mask, once delivered: masked-off lanes as they were to be. -/
theorem finalV_regLater_same (st : Strand) (now l : Nat) (d : VReg) (m : Lane) (y : VVal) :
    finalV (regLater st now l (.v d m y)) d = blend m y (finalV st d) := by
  have hall (a b : VVal) : blend (BitVec.allOnes 32) y a = blend (BitVec.allOnes 32) y b := by
    have h : ∀ i ∈ List.range 32, (if (BitVec.allOnes 32).getLsbD i then lane y i else lane a i) =
        (if (BitVec.allOnes 32).getLsbD i then lane y i else lane b i) := by
      intro i hi
      rw [BitVec.getLsbD_allOnes, decide_eq_true (List.mem_range.mp hi)]
      rfl
    unfold blend vmk
    simp only [List.map_congr_left h]
  have hno (a : Strand) (ps : List (Nat × RegVal)) (h : ∀ p ∈ ps, p.2.ref ≠ .v d) : vreg (writeAll ps a) d = vreg a d :=
    vreg_writeAll_other ps a d h
  unfold regLater
  rw [if_neg (by simp [RegVal.ref, RegRef.discards])]
  simp only [finalV_eq]
  split
  · next hm =>
    have hm : m = BitVec.allOnes 32 := by simpa [RegVal.whole] using hm
    subst hm
    split
    · rw [show (regWrite _ (.v d (BitVec.allOnes 32) y)).pend = _ from rfl, hno]
      · exact (vreg_regWrite_same _ _ _ _).trans (hall _ _)
      · intro p hp; simpa [RegVal.ref] using (List.mem_filter.mp hp).2
    · rw [writeAll_append]; exact (vreg_regWrite_same _ _ _ _).trans (hall _ _)
  · split
    · next hc =>
      have hc : ∀ p ∈ st.pend, p.2.ref ≠ .v d := by
        intro p hp e
        have := (Bool.and_eq_true _ _ ▸ hc).2
        simp only [Bool.not_eq_true', List.any_eq_false] at this
        exact this p hp (by rw [e]; simp [RegVal.ref])
      refine (hno _ _ hc).trans ?_
      rw [hno st st.pend hc]
      exact vreg_regWrite_same _ _ _ _
    · rw [writeAll_append]; exact (vreg_regWrite_same _ _ _ _).trans (congrArg _ (vreg_writeAll_congr _ _ _ _ rfl))

/-- A predicate result, once delivered. -/
theorem finalP_regLater_whole (st : Strand) (now l : Nat) (d : PReg) (y : Lane) :
    finalP (regLater st now l (.p d (BitVec.allOnes 32) y)) d = if d = 0 then BitVec.allOnes 32 else y := by
  have hp (a : Strand) : (regWrite a (.p d (BitVec.allOnes 32) y)).pend = a.pend := by simp only [regWrite]; split <;> rfl
  have hv (a : Strand) : preg (regWrite a (.p d (BitVec.allOnes 32) y)) d = if d = 0 then BitVec.allOnes 32 else y := by
    rw [preg_regWrite_same, BitVec.and_allOnes]; split
    · rfl
    · ext i; simp
  unfold regLater
  split
  · next h =>
    have h : d = 0 := by simpa [RegVal.ref, RegRef.discards] using h
    simp [finalP_eq, h, preg]
  simp only [finalP_eq, show (RegVal.p d (BitVec.allOnes 32) y).whole = true by simp [RegVal.whole], if_true]
  split
  · rw [hp, preg_writeAll_other]
    · exact hv _
    · intro p hp; simpa [RegVal.ref] using (List.mem_filter.mp hp).2
  · rw [writeAll_append]; exact hv _

end Sys2Proof.Machine
end

