-- ==== Sys2Proof/Tests/Slice0.lean ====
section
/-! SUPPORT. Tests: ill-formed terms are refused, words written out from the encodings decode to their instructions, results from
the manual's examples, and states that meet the hypotheses of the statements. Every expected value stands in the manual or is worked
out by hand from the rule a comment names. -/

namespace Sys2Proof.Tests

open Sys2Proof.Machine

/-- No guard, and the guard `!p0`, which R67 does not admit. -/
def gd : Guard := ⟨0, false⟩
def badG : Guard := ⟨0, true⟩
/-- A vector register without a pattern. -/
def vr (r : VReg) : VOp := ⟨r, .none⟩

/-! ### Ill-formed terms (one for each check) -/

/-- R67, R148, R155, R64, R164, R174, R182, R190, R200, R194, R204. -/
theorem test_wf_refuses_scalar_and_memory :
    ([.nop badG, .ext gd false 1 2 (.imm 0 0), .ext gd true 1 2 (.imm 60 5), .ins gd 1 2 (.imm 63 2), .fcvt gd false false .rne .i32 .i64 1 2,
      .fcvt gd false false .rne .f32 .f32 1 2, .fcvt gd true false .rne .f32 .f16 1 2, .fcvt gd false true .rne .f32 .f16 1 2,
      .fcvt gd false false .rne .i16 .f32 1 2, .br gd .eq 1 2 2, .jmp gd 1, .call gd 1 3, .loop gd 1 6, .mfc gd 1 0x005, .mtc gd 0x04C 1,
      .ld gd .w .loc false 4 4 (.imm32 8 true), .copyIn gd .loc 1 2 3 4 2 1, .copyIn gd .loc 1 2 3 4 6 1, .copyOut gd .loc 1 2 3 4 8 0,
      .copyOut gd .loc 1 2 3 4 0x100004 1, .xfence gd .copy .copy, .sendn gd .e (.s 0 1), .expect gd (.s 0), .expect gd (.sMask 1),
      .wput gd .loc 0 1 2 3 0, .wput gd .loc 0 1 2 3 65540] : List Instr).all (fun i => !i.wf) = true := by decide

/-- R229, R231, R236 to R241, R248, R295, R303, R319, R326. -/
theorem test_wf_refuses_vector_and_units :
    ([.vadd gd .i64 .rne false 1 (vr 2) (.reg (vr 3)), .vsub gd .i8 .rz false 1 (vr 2) (.reg (vr 3)),
      .vmul gd .f32 .rne true 1 (vr 2) (.reg (vr 3)), .vfma gd .f32 .lo .rne false 1 (vr 2) (.reg (vr 3)) 4,
      .vmin gd .i8 true 1 (vr 2) (.reg (vr 3)), .vmax gd .e4m3 false 1 (vr 2) (.reg (vr 3)), .vabs gd .ui8 false 1 (vr 2),
      .vneg gd .f16 true 1 (vr 2), .vshl gd .f32 1 (vr 2) (.reg (vr 3)), .vshr gd .i8 true 1 (vr 2) (.reg (vr 3)),
      .vcmp gd .i16 false .eq 1 (vr 2) (.reg (vr 3)), .vcmp gd .f32 true .eq 1 (vr 2) (.reg (vr 3)),
      .vcmp gd .i32 false .un 1 (vr 2) (.reg (vr 3)), .vcvt gd false 0 false .rne .f32 .f32 1 (vr 2), .vcvt gd false 2 false .rne .f32 .f16 1 (vr 2),
      .vcvt gd false 0 true .rne .f32 .f16 1 (vr 2), .vpack gd .mxe4m3 false .rne 1 (vr 2) 4 3, .vpack gd .e4m3 false .rne 1 (vr 2) 0 3,
      .vunpk gd .mxe5m2 1 (vr 2) 4 3, .vdot gd .i32 .rne false 1 (vr 2) (vr 3), .vred gd .add .f32 .sr false 1 (vr 2),
      .vred gd .max .i32 .rz false 1 (vr 2), .vscan gd .add .i16 .rne false 1 (vr 2), .vscana gd .rne 31 (vr 2) (vr 3),
      .vscana gd .sr 1 (vr 2) (vr 3), .vsqrt gd .sr 1 (vr 2), .vsort gd .i16 false 1 (vr 2) none, .vsort gd .i32 false 31 (vr 2) (some (vr 3)),
      .mmas gd false 0 1 2 29 none, .planm gd .f false 31 none, .planrd gd false (.vec .f 31), .red gd .add .f16 .loc 1 2 (.imm 64) (.gang 0),
      .red gd .add .f32 .loc 1 2 (.imm 96) (.gang 0), .red gd .add .f32 .loc 1 2 (.imm 4160) (.gang 0), .topk gd true 1 2 (.imm 3) (.gang 0),
      .topk gd false 1 2 (.imm 9) (.gang 0)] : List Instr).all (fun i => !i.wf) = true := by decide

/-- Terms at the edge of those checks are well formed. -/
theorem test_wf_admits_edges :
    ([.ext gd false 1 2 (.imm 0 64), .ins gd 1 2 (.imm 63 1), .mfc gd 1 0x04B, .mtc gd 0x106 1, .copyIn gd .loc 1 2 3 4 0x100000 1,
      .wput gd .loc 0 1 2 3 65536, .vscana gd .rup 30 (vr 2) (vr 3), .mmas gd false 0 1 2 28 none, .red gd .add .f32 .loc 1 2 (.imm 4096) (.gang 0),
      .topk gd false 1 2 (.imm 8) (.gang 0)] : List Instr).all Instr.wf = true := by decide

/-! ### Words written out from the encodings -/

/-- R63 to R71 with the examples of the encoding notes and of the entries: scalar, control, vector, ports. -/
theorem test_decode_scalar_vector :
    decode 0x0000000100000000000000000071800A = some (.sub gd 6 7 (.imm64 0x100000000)) ∧
    decode 0x00000000000000010000000000412805 = some (.add ⟨2, true⟩ 4 4 (.imm32 1)) ∧
    decode 0xA4 = some (.exit gd) ∧
    decode 0x0FC001432421020C = some (.vfma gd .f32 .no .rne false 4 ⟨2, .none⟩ (.reg ⟨9, .bcast 31⟩) 3) ∧
    decode 0x0C210180 = some (.put gd 4 2 (.s 3)) ∧ decode 0x198 = some (.bar gd) := by decide

/-- R293, R295, R303, R306, R310 (matrix and plan), R319, R322 (reduction). -/
theorem test_decode_matrix_reduction :
    decode 0x0000000000000005000000000800430D = some (.mma gd false 1 0 2 (some 5)) ∧
    decode 0x00000000000000403000014300614381 = some (.red gd .add .f32 .loc 5 6 (.imm 64) (.gang 3)) ∧
    decode 0x0051C384 = some (.redw gd 7 5) := by decide


/-- Bits [63:0] laid out as R63 says, with the extension above them: L, OP, G, D, A, B, C, FN, MOD, bits [127:64]. -/
def word (l op g d a b c fn md hi : Nat) : BitVec 128 :=
  BitVec.ofNat 128 (l + 2 ^ 2 * op + 2 ^ 10 * g + 2 ^ 14 * d + 2 ^ 20 * a + 2 ^ 26 * b + 2 ^ 32 * c + 2 ^ 38 * fn + 2 ^ 60 * md + 2 ^ 64 * hi)

/-- R145, R146, R149 to R153, R158, R163, R168, R72. -/
theorem test_decode_scalar_family :
    decode (word 0 0x04 0 1 2 3 0 1 0 0) = some (.mulh gd .uu 1 2 (.reg 3)) ∧
    decode (word 1 0x05 0 1 2 0 0 0 0 0xFFFFFFFE) = some (.div gd false 1 2 (.imm32 0xFFFFFFFE)) ∧
    decode (word 0 0x18 0 1 2 3 0 4 0 0) = some (.cmp gd .ltu 1 2 (.reg 3)) ∧
    decode (word 0 0x1B 0 1 2 3 0 1 4 0) = some (.fadd gd true .sr 1 2 (.reg 3)) ∧
    decode (word 1 0x23 0 0 2 3 0 1 0 0xFFFFFFF8) = some (.br gd .ne 2 3 0xFFFFFFF8) ∧
    decode (word 1 0x2B 0 1 0 0 0 0 0 0x102) = some (.mfc gd 1 0x102) ∧
    decode (word 1 0x2C 0 0 2 0 0 0 0 0x020) = some (.mtc gd 0x020 2) ∧ decode (word 0 0x2E 0 0 0 0 0 0 0 0) = some (.rte gd) := by decide

/-- R174, R182, R189, R192, R196, R200 (memory, copies, sends), R120, R135, R141 (controllers). -/
theorem test_decode_memory_family :
    decode (word 1 0x40 0 1 2 0 0 10 7 0xFFFFFFF8) = some (.ld gd .w .loc true 1 2 (.imm32 0xFFFFFFF8 true)) ∧
    decode (word 0 0x41 0 0 2 0 3 3 10 0) = some (.st gd .d .gang true 2 .none 3) ∧
    decode (word 2 0x49 0 1 2 3 4 1 1 (256 + 2 ^ 32 * 7)) = some (.copyOut gd .self 1 2 3 4 256 7) ∧
    decode (word 0 0x4F 0 5 2 3 0 3 8 0) = some (.sendC gd true 5 2 (.v 3)) ∧
    decode 0x024000A24D40 = some (.sendn ⟨3, false⟩ .e (.v 9 10)) ∧
    decode (word 0 0x69 0 1 2 3 0 1 0 0) = some (.tqpushP gd 1 2 3) ∧
    decode (word 2 0x6D 0 1 2 0 0 0 0 (2 ^ 40)) = some (.tlwait gd 1 2 (.imm (2 ^ 40))) ∧
    decode (word 0 0x6F 0 1 2 0 0 0 2 0) = some (.launch gd .gang 1 2) := by decide

set_option maxRecDepth 4000 in
/-- R236, R247 (vector), R306 (plan), R316, R352, R353 (collectives and translation). -/
theorem test_decode_units_family :
    decode (word 0 0x93 0 6 5 8 5 2 0 0) = some (.vcvt gd false 2 false .rne .f32 .e4m3 6 (vr 5)) ∧
    decode 0x1440028C = some (.rngskip gd (.regs 4 5)) ∧
    decode (word 0 0xE3 0 8 5 7 0 11 2 0) = some (.mcast gd 3 true .gang 8 5 7) ∧
    decode 0x40C394 = some (.tlbinvPage gd 3 4) ∧
    decode (word 1 0xE4 0 5 6 0 0 2 0 0x40000) = none ∧
    decode (0x40000 * 2 ^ 64 + 0x4000614391) = some (.pfetch gd true 5 6 (.imm 0x40000)) ∧
    decode (0x245 * 2 ^ 64 + 0x0000000C18400311) = some (.mmas gd false 0 4 6 12 (some (9, 5))) ∧
    decode (5 * 2 ^ 64 + 0x0000004000300335) = some (.balance gd true 3 (some 5)) := by decide

/-! ### States that meet the hypotheses of the statements -/

/-- One strand at pc 0 of a gang of one quad, nothing due, every register 0. -/
def rig (sup : Bool) : State := (State.reset.withFetchWord 64 0).modStrand 0 fun st => { st with sup := sup }
/-- The rig with its strand's scalar register and its instruction's next state. -/
def withS (s : State) (r : SReg) (v : Word) : State := s.modStrand 0 fun st => regWrite st (.s r v)
def nxt (i : Instr) (s : State) : State := (nextOf (exec i s)).getD s
def goes (i : Instr) (s : State) : Bool := (nextOf (exec i s)).isSome

/-- IssueChecks, ScalarIntegerResults, BitInstructions, PredicateResults, FabricAddresses, ScalarFloats, ControlTransfers, ScalarFrame,
ControlRegisterReads, ControlRegisterWrites, SystemInstructions: `ready` and `current` hold (RegisterWritesTakeEffect and
DecodesSpecWords have no hypothesis). -/
theorem test_ready_scalar :
    ([.nop gd, .add gd 1 2 (.reg 3), .sub gd 1 2 (.imm32 3), .mul gd 1 2 (.imm64 3), .mulh gd .su 1 2 (.reg 3), .div gd false 1 2 (.reg 3),
      .rem gd true 1 2 (.reg 3), .and gd 1 2 (.reg 3), .or gd 1 2 (.reg 3), .xor gd 1 2 (.reg 3), .andn gd 1 2 (.reg 3), .shl gd 1 2 (.reg 3),
      .shr gd 1 2 (.reg 3), .sar gd 1 2 (.reg 3), .rotl gd 1 2 (.reg 3), .min gd true 1 2 (.reg 3), .max gd false 1 2 (.reg 3), .clz gd 1 2,
      .ctz gd 1 2, .popc gd 1 2, .ext gd true 1 2 (.imm 8 8), .ins gd 1 2 (.reg 3), .sel gd 1 2 3 (.reg 4), .mov gd 1 (.reg 2),
      .cmp gd .lt 1 2 (.reg 3), .plog gd 1 (.not 2), .pmov gd 1 (.reg 2), .pmovS gd 1 2, .pmovB gd 1 2, .fadd gd true .sr 1 2 (.reg 3),
      .fmul gd .rne 1 2 (.reg 3), .ffma gd .rne 1 2 (.reg 3) 4, .fminmax gd true 1 2 (.reg 3), .fcmp gd .un 1 2 (.reg 3),
      .fcvt gd false false .rne .i32 .f32 1 2, .mkfa gd 1 2 (.reg 3) 1, .fafld gd .x 1 2, .br gd .eq 1 2 8, .jmp gd 8, .call gd 1 8,
      .callr gd 1 2, .ret gd 1, .loop gd 1 8, .exit gd, .yield gd, .mfc gd 1 0, .mtc gd 0x020 1, .trap gd (.reg 1), .trapSys gd 1, .rte gd,
      .flare gd, .add gd 0 2 (.reg 3), .cmp gd .eq 0 2 (.reg 3)] : List Instr).all (fun i => ready i (rig false)) = true ∧
    ([.halt gd, .park gd, .conld gd 1 2, .conul gd 1 2, .rte gd, .mtc gd 0x103 1, .mfc gd 1 0x104, .tlrdSet gd 1 2 3, .tlbinvPage gd 1 2, .tlbinvAs gd 1, .tlbinvAsid gd 1 2,
      .tlbinvAll gd 1] : List Instr).all (fun i => ready i (rig true)) = true := by decide

/-- LoadsComplete to ControllerInstructions. -/
theorem test_ready_memory :
    ([.ld gd .w .loc true 1 2 .none, .st gd .b .loc true 1 .none 2, .ldv gd .loc 1 2 .none, .stv gd .loc 1 .none 2,
      .amo gd .swap true .loc .ar 1 2 .none 3, .cas gd false .loc .plain 1 2 .none 3 4, .taglk gd 1 2, .tagset gd 1 2 3, .tagclr gd 1 2,
      .copyIn gd .loc 1 2 3 4 64 1, .copyOut gd .loc 1 2 3 4 64 1, .copyst gd 1 2, .waitt gd 1, .testc gd 1 2, .phase gd .device,
      .xfence gd .core .copy, .send gd false 1 (.s 2), .sendC gd false 1 2 (.imm 3), .sendn gd .e (.s 1 2), .sendm gd 0 (.s 1),
      .sendm gd 0 (.v 1), .expect gd (.s 1), .capmk gd 1 (.idx 2) false 3, .wput gd .loc 0 1 2 3 64, .wwait gd 1 0 (.reg 2),
      .wwaitR gd 1 2 (.reg 3), .wcnt gd 1 0, .wcntR gd 1 2, .wcntClr gd 1 0, .put gd 1 2 (.s 3), .get gd (.s 1) 2 3, .putd gd 1 2 (.s 3) 4,
      .getd gd (.v 1) 2 3 4, .getany gd (.s 1) 2 (.imm 3) 4, .close gd 1 2, .bar gd, .tqpush gd 1 2 3,
      .tqpushP gd 1 2 3, .tqpushRsv gd 1 2 3, .tqpushRel gd 1 2 3, .tqpop gd 1 2 3, .tqpopTry gd 1 2 3, .join gd .loc 1 2 3 4,
      .joinP gd .loc 1 2 3 4, .tlsig gd 1 2 (.reg 3), .tlwait gd 1 2 (.reg 3), .tlrd gd 1 2, .launch gd .loc 1 2] : List Instr).all
        (fun i => ready i (rig false)) = true := by decide

/-- VectorLaneResults to ReductionInstructions, TranslationInstructions. -/
theorem test_ready_vector_and_units :
    ([.vadd gd .f32 .sr false 1 (vr 2) (.reg (vr 3)), .vsub gd .i8 .rne true 1 (vr 2) (.imm 3), .vmul gd .bf16 .rne false 1 (vr 2) (.reg (vr 3)),
      .vfma gd .f16 .hi .rne false 1 (vr 2) (.reg (vr 3)) 4, .vmin gd .i32 true 1 (vr 2) (.reg (vr 3)), .vmax gd .f32 false 1 (vr 2) (.reg (vr 3)),
      .vabs gd .i16 false 1 (vr 2), .vneg gd .f16 false 1 (vr 2), .vand gd 1 (vr 2) (.reg (vr 3)), .vor gd 1 (vr 2) (.reg (vr 3)),
      .vxor gd 1 (vr 2) (.reg (vr 3)), .vshl gd .i8 1 (vr 2) (.reg (vr 3)), .vshr gd .i16 true 1 (vr 2) (.reg (vr 3)),
      .vcmp gd .f32 false .un 1 (vr 2) (.reg (vr 3)), .vsel gd 1 2 (vr 3) (vr 4), .vmov gd 1 (.s 2), .vext gd true 1 (vr 2) (.reg 3),
      .vins gd 1 2 (.imm 31), .vperm gd 1 (vr 2) (vr 3) (some 4), .vcvt gd false 1 false .rne .f16 .f32 1 (vr 2),
      .vpack gd .mxe2m1 false .rne 1 (vr 2) 7 3, .vunpk gd .mxe2m1 1 (vr 2) 7 3, .vdot gd .i8 .rne false 1 (vr 2) (vr 3),
      .vred gd .add .f32 .rne false 1 (vr 2), .vscan gd .max .i32 .rne false 1 (vr 2), .vscana gd .rne 1 (vr 3) (vr 4), .vrcp gd 1 (vr 2),
      .vrsq gd 1 (vr 2), .vsqrt gd .rup 1 (vr 2), .vexp2 gd 1 (vr 2), .vlog2 gd 1 (vr 2), .vsin gd 1 (vr 2), .vcos gd 1 (vr 2),
      .vtanh gd 1 (vr 2), .vrng gd false 1, .rngskip gd (.regs 1 2), .rngskip gd (.imm 1 true), .vsort gd .f32 true 1 (vr 3) (some (vr 4)),
      .tld gd 0 1 2 (some 3), .tst gd 0 1 2 none, .tzero gd 0 none, .accz gd 0 none, .accld gd 0 1 2 3 none, .accst gd 0 1 2 3 none,
      .mma gd true 0 0 1 none, .mmas gd true 0 0 1 4 (some (1, 2)), .accvRd gd 1 0 2, .accvWr gd 0 1 2, .accvCvt gd .sr true 0 1 (some 2),
      .accvCvti gd true 0 1 none, .mxwait gd 1 2, .mxtest gd 1 2, .plank gd 0 1 2 none, .planm gd .a false 4 none, .balance gd true 0 none,
      .planx gd true 0 1 none, .plandot gd true 0 1 none, .planlse gd true false 0 1 none, .planrd gd true (.vec .f 4), .planrd gd true (.st 1),
      .red gd .add .f32 .loc 1 2 (.imm 64) (.gang 0), .redw gd 1 2, .topk gd true 1 2 (.reg 3) (.gang 0), .mcast gd 0 false .loc 1 2 3,
      .pfetch gd true 1 2 (.imm 64)] : List Instr).all (fun i => ready i (rig false)) = true := by decide

/-- A fact of the rig's strand and gang. -/
def here (s : State) (p : Strand → Gang → Bool) : Bool := (current s).any fun x => p x.1 x.2
def memoryAt (off : Nat) (bs : List Byte) (s : State) : State := { s with ls := csetN s.ls (lsKey 0 off) bs }
def isErr {α : Type} (c : Nat) : Except Nat α → Bool
  | .error e => e == c
  | .ok _ => false
def isOk {α β : Type} : Except α β → Bool
  | .error _ => false
  | .ok _ => true

/-- EncodeDecodeRoundTrip, DecodeReadsOneInstruction; ReservedEncodingsAreIllegal at both ends of every gap of R72. -/
theorem witness_encoding :
    (encode (.sub gd 6 7 (.imm64 0x100000000))).isSome = true ∧
    [0x32, 0x3F, 0x57, 0x5F, 0x70, 0x7F, 0xA5, 0xBF, 0xD2, 0xDF, 0xE6, 0xFF].all (fun op => decode (word 0 op 0 0 0 0 0 0 0 0) == none) = true ∧
    [0x31, 0x40, 0x68, 0x6E, 0xA2, 0xD1, 0xE1].all (fun op => (decode (word 0 op 0 0 0 0 0 0 0 0)).isSome) = true ∧
    decode (word 0 0x01 8 1 2 3 0 0 0 0) = none := by decide

/-- StepRunsDecodedInstruction: NOP is fetched at pc 0; FetchTraps: every clause, at 0xFC000, at the end of the code region, with a
fill word, a word of length code 3, an instruction that crosses a block, an unassigned opcode; StepKeepsMemoriesCanonical. -/
theorem witness_fetch :
    (dueNow (rig false)).isNone = true ∧ pick (rig false) = some 0 ∧ here (rig false) (fun st g => !atFirmware (rig false) st &&
      g.place 0 == (0, 0, 0)) = true ∧ codeNat (rig false) 0 0 0 4 = 0 ∧ decode 0 = some (.nop gd) ∧
    (rig false).memoriesOk = true ∧ (nextOf (step (rig false))).isSome = true ∧
    fetchAt (rig false) false 0 0 1 0xFC000 = .trap 0xFC000 0x05 0xFC000 ∧ fetchAt (rig false) false 0 0 1 0x1000 = .trap 0x1000 0x07 0x1000 ∧
    fetchAt (memoryAt 0 [0xFF, 0xFF, 0xFF, 0xFF] (rig false)) false 0 0 2 0 = .ins 4 (.nop gd) ∧
    fetchAt (memoryAt 0 [0xFF, 0xFF, 0xFF, 0xFE] (rig false)) false 0 0 1 0 = .trap 0 0x01 0xFEFFFFFF ∧
    fetchAt (rig false) false 0 0 1 28 = .trap 28 0x01 0 ∧
    fetchAt (memoryAt 0 [0xC8, 0, 0, 0, 1] (rig false)) false 0 0 1 0 = .trap 0 0x01 0x1000000C8 := by decide

/-- StepRunsDecodedInstruction, second part: a due step. -/
theorem witness_due_step : dueNow ((rig false).post 0 2 .dispatchStep) ≠ none ∧
    (((rig false).post 0 2 .dispatchStep).agenda.head?).any (fun e => decide (e.due ≤ (rig false).now)) = true := by decide

/-- RegisterFile: a result of latency 3 at 10 is on its way until 12 and there from 13 (R144). -/
theorem witness_register_file :
    here (rig false) (fun st _ => let x := regLater st 10 3 (.s 1 7)
      onWay (settle x 12) (.s 1) && !onWay (settle x 13) (.s 1) && sreg (settle x 12) 1 == 0 && sreg (settle x 13) 1 == 7) = true := by decide

/-- IssueChecks: PRIV in user mode, ILLREG with eight scalar registers (TVAL as in R66), a false guard. -/
theorem witness_issue_checks :
    Instr.supOnly (.halt gd) = true ∧ here (rig false) (fun st _ => !st.sup) = true ∧
    (((rig false).modGrid 0 fun x => { x with hdr := { x.hdr with sreq := 8, vreq := 6 } }).headerOf 0).map
      (fun h => ((Instr.uses (.add gd 8 2 (.reg 9))).findSome? (illreg? h), (Instr.uses (.vabs gd .i32 false 6 (vr 1))).findSome? (illreg? h),
        (Instr.uses (.add gd 7 2 (.reg 3))).findSome? (illreg? h))) = some (some 8, some 0x106, none) ∧
    (encodeFields (.add ⟨1, false⟩ 1 2 (.reg 3))).isSome = true ∧ here (rig false) (fun st _ =>
      admitted (.add ⟨1, false⟩ 1 2 (.reg 3)) (rig false) st && !onWay st (.p 1) && !(guardMask st ⟨1, false⟩).getLsbD 0) = true ∧
    goes (.add ⟨1, false⟩ 1 2 (.reg 3)) (rig false) = true := by decide

/-- DivisionResults (a divisor of 0, the most negative number by -1, another pair), ControlTransfers (targets 8, 6 and 2^20). -/
theorem witness_division_and_transfers :
    dividerFree (rig false) = true ∧ ready (.div gd false 1 2 (.reg 3)) (withS (withS (rig false) 2 0x8000000000000000) 3 (-1)) = true ∧
    sOfStrand (nxt (.div gd false 1 2 (.reg 3)) (withS (withS (rig false) 2 0x8000000000000000) 3 (-1))) 0 1 = 0x8000000000000000 ∧
    sOfStrand (nxt (.rem gd false 1 2 (.reg 3)) (withS (rig false) 2 7)) 0 1 = 7 ∧
    sOfStrand (nxt (.div gd false 1 2 (.reg 3)) (withS (withS (rig false) 2 (-7)) 3 2)) 0 1 = -3 ∧
    ((nxt (.jmp gd 8) (rig false)).strand? 0).map Strand.pc = some 8 ∧
    ((nxt (.callr gd 1 2) (withS (rig false) 2 6)).strand? 0).map (fun st => (st.pc, st.tcause, st.tval)) = some (0xFC000, 4, 6) ∧
    ((nxt (.ret gd 2) (withS (rig false) 2 0x100000)).strand? 0).map (fun st => (st.pc, st.tcause, st.tval)) = some (0xFC000, 5, 0x100000) ∧
    sOfStrand (nxt (.loop gd 1 8) (withS (rig false) 1 1)) 0 1 = 0 := by decide

/-- ControlRegisterReads and Writes: the identity registers' hypotheses; FLARE with its source on and off; PARK of a resident gang. -/
theorem witness_control_registers :
    here (rig false) (fun st g => ((rig false).grid? g.grid).isSome && decide (st.sidx < g.count) && g.lw == 0 && g.spc == 1 &&
      decide (st.flagAt ≤ (rig false).now)) = true ∧ quadReg 0x050 ≠ none ∧ quadReg 0x020 = none ∧
    sOfStrand (nxt (.mfc gd 1 0x003) (rig false)) 0 1 = 0x20 ∧
    goes (.flare gd) { rig false with sncfg := 1 } = true ∧ (nxt (.flare gd) { rig false with sncfg := 1 }).sncfg = 0x11 ∧
    goes (.flare gd) (rig false) = true ∧ here (rig true) (fun _ g => g.phase == .resident) = true ∧
    ((nxt (.park gd) (rig true)).gang? 0).map (fun g => (g.phase, g.askAt)) = some (.resident, some 6) ∧
    ((nxt (.exit gd) (rig false)).strand? 0).map Strand.act = some .ended := by decide

/-- TrapEntry: to the supervisor with IH set, with no handler, with a cause that is not user-deliverable; to the handler at 0x100. -/
theorem witness_trap_entry :
    userCause 0x0D 0 = true ∧ userCause 0x03 0 = false ∧
    ((takeTrap (rig false) 0 8 0x0D 0 5).strand? 0).map (fun st => (st.sup, st.pc, st.tpc, st.tcause, st.tval)) =
      some (true, 0xFC000, 8, 0x0D, 5) ∧
    ((takeTrap ((rig false).modStrand 0 fun st => { st with tvec := 0x100 }) 0 8 0x0D 0 5).strand? 0).map
      (fun st => (st.sup, st.pc, st.tpc, st.tcause, st.tval)) = some (false, 0x100, 8, 0x1000D, 5) ∧
    ((takeTrap ((rig false).modStrand 0 fun st => { st with tvec := 0x100, tcause := 0x10000 }) 0 8 0x0D 0 5).strand? 0).map
      (fun st => (st.sup, st.pc, st.scause)) = some (true, 0xFC000, 0x10000) := by decide

/-- SupervisorTrapsEndTheGrid; ReturnsFromTrap: user mode, supervisor mode with K = 0, with K = 1 to an IPC of 0x40, a target of 2. -/
theorem witness_supervisor_traps_and_returns :
    here (rig true) (fun st _ => st.sup) = true ∧ ((rig true).grid? 0).map Grid.failed = some false ∧
    ((takeTrap (rig true) 0 8 0x04 0 5).strand? 0).map Strand.act = some (.asleep .firmware 0) ∧
    ((nxt (.rte gd) ((rig false).modStrand 0 fun st => { st with tpc := 0x20, tcause := 0x1000D })).strand? 0).map
      (fun st => (st.pc, st.tcause)) = some (0x20, 0x0D) ∧
    ((nxt (.rte gd) ((rig true).modStrand 0 fun st => { st with tpc := 0x20, tstat := 0, stpc := 4 })).strand? 0).map
      (fun st => (st.pc, st.sup, st.tpc)) = some (0x20, false, 4) ∧
    ((nxt (.rte gd) ((rig true).modStrand 0 fun st => { st with tpc := 0x20, tstat := 0x40 * 2 ^ 44 + 0x300 })).strand? 0).map
      (fun st => (st.pc, st.sup, st.tpc, st.tstat.getLsbD 8)) = some (0x40, true, 0x20, false) ∧
    ((nxt (.rte gd) ((rig false).modStrand 0 fun st => { st with tpc := 2 })).strand? 0).map Strand.tcause = some 4 := by decide

/-- AccessChecks to StoresComplete: an access at the first and last offset of the data region, PROTECT below and above, ALIGN, REMOTE;
a neighbour's bank as supervisor. -/
theorem witness_access :
    here (rig false) (fun st g => isOk (access (rig false) st g 0x1000 .loc 4 true) && isOk (access (rig false) st g 0xFBFFC .loc 4 true) &&
      isErr 5 (access (rig false) st g 0xFFC .loc 4 true) && isErr 5 (access (rig false) st g 0xFC000 .loc 4 false) &&
      isErr 4 (access (rig false) st g 0x1002 .loc 4 false) && isErr 6 (access (rig false) st g 0x80000000001000 .self 4 false)) = true ∧
    here (rig true) (fun st g => match access (rig true) st g 0x80000000001000 .self 4 false with
      | .ok l => l.quad == 1 && l.space == 0
      | .error _ => false) = true ∧ (rig false).unf = [] ∧ here (rig false) (fun st _ => drained 0 st 5 && st.remote == 0) = true := by decide

/-- LoadsComplete, StoresComplete, AtomicsComplete: results of one access each. -/
theorem witness_memory_results :
    sOfStrand (nxt (.ld gd .hs .loc false 1 2 (.imm32 4 true)) (withS (memoryAt 0x1000 [0xFE, 0xFF] (rig false)) 2 0x1000)) 0 1 = -2 ∧
    sOfStrand (nxt (.ld gd .hs .loc false 1 2 (.imm32 4 true)) (withS (memoryAt 0x1000 [0xFE, 0xFF] (rig false)) 2 0x1000)) 0 2 = 0x1004 ∧
    cgetN (nxt (.st gd .h .loc false 2 .none 3) (withS (withS (rig false) 2 0x1000) 3 0x11223344)).ls (lsKey 0 0x1000) 3 = [0x44, 0x33, 0] ∧
    cgetN (nxt (.amo gd .maxu false .loc .ar 1 2 .none 3) (withS (withS (memoryAt 0x1000 [5] (rig false)) 2 0x1000) 3 9)).ls (lsKey 0 0x1000) 4
      = [9, 0, 0, 0] ∧
    cgetN (nxt (.cas gd false .loc .plain 1 2 .none 3 4) (withS (withS (memoryAt 0x1000 [5] (rig false)) 2 0x1000) 3 9)).ls (lsKey 0 0x1000) 4
      = [5, 0, 0, 0] ∧ goes (.ldv gd .loc 1 2 .none) (withS (rig false) 2 0x1000) = true ∧
    goes (.stv gd .loc 2 .none 1) (withS (rig false) 2 0x1000) = true ∧
    goes (.remoteLoadResponse (.ld ⟨1, 0, 0x1000⟩ .w 0 1 5)) (rig true) = true ∧
    goes (.remoteLoadResponse (.ldv ⟨1, 0, 0x1000⟩ 1 0 1 5)) (rig true) = true ∧
    goes (.remoteStorePublish (.st ⟨1, 0, 0x1000⟩ 4 7 0)) (rig true) = true ∧ goes (.remoteAcknowledgement 0) (rig true) = true := by decide

/-- Tables of address space 0: pages 0 and 1 lead to HBM frames at 0x40000 and 0x50000, page 2 to a storage page that is not in. -/
def paged (sup : Bool) : State :=
  let s := { rig sup with astab := cset [] 0 0x10001 }
  let s := setHbmWord (setHbmWord s 0x10000 0x20001) 0x20000 0x30001
  setHbmWord (setHbmWord (setHbmWord s 0x30000 0x40032) 0x30010 0x50032) 0x30020 0x34
/-- A copy of 64 bytes from VA 0x40 to 0x1000, at issue, with its first translation done, with the translation of its page done. -/
def copySt (i : Instr) : State := nxt i (withS (withS (paged false) 2 0x1000) 3 0x40)
def later (n : Nat) (s : State) : State := { s with now := s.now + n }
/-- The copy engine moves a line in this cycle (which one it is free to choose). -/
def moves (s : State) : State := s.modQuad 0 fun x => { x with lineAt := s.now }
def accepted (i : Instr) : State := nxt (.copyAccept 0 1) (later 240 (nxt (.copyAccept 0 1) (later 4 (copySt i))))

/-- TagsArmingFences: a key that is there, one that is not with room; EXPECT of s1 and v2; PHASE and XFENCE; PHASE.system. -/
theorem witness_tags_arming_fences :
    sOfStrand (nxt (.taglk gd 1 2) ((rig false).modQuad 0 fun x => { x with tags := mset [] 3 ⟨true, 0, 7⟩ })) 0 1 = 7 ∧
    sOfStrand (nxt (.taglk gd 1 2) (rig false)) 0 1 = -1 ∧ sOfStrand (nxt (.tagset gd 1 2 3) (rig false)) 0 1 = 0 ∧
    sOfStrand (nxt (.tagset gd 1 2 3) ((rig false).modQuad 0 fun x => { x with tags := mset [] 3 ⟨true, 0, 7⟩ })) 0 1 = 1 ∧
    here (rig false) (fun st _ => st.loadsAt == 0 && st.flushes.isEmpty && !onWay st (.s 1) && drained 0 st 5) = true ∧
    ((nxt (.expect gd (.sMask 2)) (rig false)).strand? 0).map (fun st => st.sst[1]) = some .empty ∧
    ((nxt (.phase gd .gang) (rig false)).strand? 0).map Strand.hold = some 3 ∧ goes (.xfence gd .core .copy) (rig false) = true ∧
    ((nxt (.phase gd .system) ((rig false).modStrand 0 fun st => { st with flushes := [5] })).strand? 0).map Strand.act =
      some (.asleep (.flush [5]) 8) ∧
    goes (.flushResponse 0 5) (nxt (.phase gd .system) ((rig false).modStrand 0 fun st => { st with flushes := [5] })) = true := by decide

set_option maxRecDepth 8000 in
/-- TagsArmingFences: a full table, in which TAGSET changes nothing and gives 2. -/
theorem witness_full_tag_table :
    sOfStrand (nxt (.tagset gd 1 2 3) (withS ((rig false).modQuad 0 fun x =>
      { x with tags := (List.range 256).map fun i => (i, ⟨true, 9, 0⟩) }) 2 1)) 0 1 = 2 := by decide

/-- CopyInstructions and CopySteps: checks pass; the miss, the acceptance at 240 cycles, the move of the one line, the completion. -/
theorem witness_copies :
    here (withS (withS (paged false) 2 0x1000) 3 0x40) (fun st g => isOk (copyChecks (paged false) st g .loc true 0x1000 [0x1000, 0x40, 0, 0] 64) &&
      outstanding ((paged false).quad 0) == 0) = true ∧
    (mget? ((copySt (.copyIn gd .loc 1 2 3 4 64 1)).quad 0).copies 1).map (fun y => (y.st, y.xl.length, y.walking)) = some (.issued, 0, false) ∧
    (mget? ((nxt (.copyAccept 0 1) (copySt (.copyIn gd .loc 1 2 3 4 64 1))).quad 0).copies 1).map (fun y => (y.st, y.walking)) =
      some (.issued, true) ∧
    (mget? ((accepted (.copyIn gd .loc 1 2 3 4 64 1)).quad 0).copies 1).map (fun y => (y.st, y.lines)) =
      some (.flight, [⟨.hbm 0x40040, [(0, 0x1000, 64)], false⟩]) ∧
    (accepted (.copyIn gd .loc 1 2 3 4 64 1)).memoriesOk = true := by decide

set_option maxRecDepth 8000 in
/-- CopySteps: the line of COPY.in and of COPY.out moves; the completion and the fault settle the copy. -/
theorem witness_copy_lines :
    cgetN (nxt (.lineMove 0 1) (moves (setHbmWord (accepted (.copyIn gd .loc 1 2 3 4 64 1)) 0x40040 0x1122))).ls (lsKey 0 0x1000) 2 = [0x22, 0x11] ∧
    cgetN (nxt (.lineMove 0 1) (moves (memoryAt 0x1000 [7, 8] (accepted (.copyOut gd .loc 1 2 3 4 64 1))))).hbm 0x40040 2 = [7, 8] ∧
    (let bad : State := { moves (setHbmWord (accepted (.copyIn gd .loc 1 2 3 4 64 1)) 0x40040 0x1122) with hbmBad := [0x1001] }
     (nxt (.lineMove 0 1) bad).ls == bad.ls && bad.badAt (.hbm 0x40040) 64 false == some 0x1001) = true ∧
    (mget? ((nxt (.copyComplete 0 1 false) (accepted (.copyIn gd .loc 1 2 3 4 64 1))).quad 0).copies 1).map Copy.st = some .faulted := by decide

/-- CopyInstructions: COPYST, TESTC and WAITT of a copy in flight, of a completed one and of ticket 0 (R184, R187, R188). -/
theorem witness_promises :
    here (rig false) (fun st g => (ticketOf (rig false) st g 0).isNone) = true ∧
    (let s := (accepted (.copyIn gd .loc 1 2 3 4 64 1)).modStrand 0 fun st => { regWrite st (.s 5 1) with await := [] }
     here s (fun st g => (ticketOf s st g 1).isSome) && sOfStrand (nxt (.testc gd 6 5) s) 0 6 == 1 &&
     sOfStrand (nxt (.testc gd 6 5) (nxt (.copyComplete 0 1 true) s)) 0 6 == 0 &&
     sOfStrand (nxt (.testc gd 6 5) (nxt (.copyComplete 0 1 false) s)) 0 6 == 3) = true ∧
    passed (rig false) 0 = true ∧ passed (rig false) 1 = false ∧
    ((nxt (.waitt gd 2) (withS (rig false) 2 256)).strand? 0).map Strand.act = some (.asleep (.promise 256) 8) ∧
    ((nxt (.waittWake 0) (later 1 (nxt (.waitt gd 2) (withS (rig false) 2 256)))).strand? 0).map (fun st => (st.act, st.pc)) = some (.run, 8) ∧
    ((nxt (.waitt gd 5) ((later 9999 (accepted (.copyIn gd .loc 1 2 3 4 64 1))).modStrand 0 fun st =>
      { regWrite st (.s 5 1) with await := [] })).strand? 0).map (fun st => (st.tcause, st.tval)) = some (0x109, 1) := by decide

/-- A gang of two quads, strands 0 (core 0 of the first) and 4 (core 0 of the second). -/
def pair : State :=
  let s := (rig false).modGang 0 fun g => { g with lw := 1 }
  { s with strands := [(0, Strand.init 0 0 0 0), (4, Strand.init 0 4 0 0)], quads := mset s.quads 1 { Quad.init with xbp := 1 } }
/-- A register capability as R191 lays it out: s`r` of strand `k` of gang 0. -/
def cap (k r : Nat) : Word := BitVec.ofNat 64 (2 ^ 60 + 2 ^ 29 * k + 2 ^ 23 * r)

/-- SendInstructions: a capability and a word that is none, a neighbour and none, a multicast group of either class. -/
theorem witness_sends :
    capBad (rig false) (cap 0 5) false = false ∧ capBad (rig false) 0 false = true ∧
    sOfStrand (nxt (.capmk gd 1 (.idxImm 4) false 5) pair) 0 1 = cap 4 5 ∧
    goes (.send gd false 1 (.s 2)) (withS (rig false) 1 (cap 0 5)) = true ∧
    ((nxt (.send gd false 1 (.s 2)) (rig false)).strand? 0).map (fun st => (st.tcause, st.tval)) = some (0x0C, 0) ∧
    goes (.sendC gd false 3 1 (.imm 2)) (withS (rig false) 1 (cap 0 5)) = true ∧
    here pair (fun st g => neighbour g st.sidx .e == some 4 && (neighbour g st.sidx .n).isNone && !linkRival pair 0 0 .e) = true ∧
    ready (.sendn gd .e (.s 1 2)) pair = true ∧ goes (.sendn gd .e (.s 1 2)) pair = true ∧
    ((nxt (.sendn gd .n (.s 1 2)) pair).strand? 0).map (fun st => (st.tcause, st.tval)) = some (6, 0) ∧
    goes (.sendm gd 0 (.s 1)) (pair.modGang 0 fun g => { g with mcg := g.mcg.set 0 ⟨false, [(4, 5)]⟩ }) = true ∧
    goes (.sendm gd 0 (.v 1)) (pair.modGang 0 fun g => { g with mcg := g.mcg.set 0 ⟨true, [(4, 5)]⟩ }) = true := by decide

/-- SendArrivals: EMPTY becomes FULL, NORMAL raises OVERWRITE (R193, R195); a status returns; the OVERWRITE is taken. -/
theorem witness_arrivals :
    (let s := (rig false).modStrand 0 fun st => { st with sst := st.sst.set 5 .empty, wake := 9 }
     let m : SendMsg := { cap := cap 0 5, val := .scalar 7, sender := 0, status := some 6, report := true, back := 9 }
     !expectsNow s 0 false 5 && ((nxt (.sendnArrival 5 5 (.scalar 7) 0) pair).strand? 5).isNone &&
     ((nxt (.sendnArrival 0 5 (.scalar 7) 0) s).strand? 0).any (fun st => sreg st 5 == 7 && st.sst[5] == .full && st.ovw.isNone) &&
     ((nxt (.sendArrival m) s).strand? 0).any (fun st => sreg st 5 == 7 && st.sst[5] == .full) &&
     ((nxt (.sendnArrival 0 4 (.scalar 7) 0) s).strand? 0).any (fun st => sreg st 4 == 0 && st.ovw == some ⟨false, 4, 7⟩) &&
     sOfStrand (nxt (.sendStatusReturn 0 (some 6) true 2) s) 0 6 == 2 &&
     ((nxt (.sendStatusReturn 0 none true 1) s).strand? 0).map Strand.serr == some 0x10101) = true ∧
    ((nxt (.overwrite 0) ((rig false).modStrand 0 fun st => { st with ovw := some ⟨false, 4, 7⟩, tvec := 0x100 })).strand? 0).map
      (fun st => (st.pc, st.tcause, st.tval, st.ovw)) = some (0x100, 0x10008, 7, none) := by decide

/-- A window as R203 lays its capability out: number 3, generation 1, 64 bytes at VA 0x100. -/
def windowed (count : Word) : State := { paged false with windows := mset [] 3 ⟨1, 0, 0x100, 64, count⟩ }
def wcap (gen : Nat) : Word := BitVec.ofNat 64 (5 * 2 ^ 60 + 3 * 2 ^ 47 + gen)
def putMsg (gen off : Nat) : PutMsg := ⟨wcap gen, BitVec.ofNat 64 off, [1, 2, 3, 4], 0, 2, 0, 1⟩

/-- WindowsCount: puts at the end of the window (60), beyond it (64), of a stale generation; counters at and below a threshold. -/
theorem witness_windows :
    winWord (wcap 1) = true ∧ inDomain (windowed 0) 0 = true ∧ (ownWindow (windowed 0) (wcap 1)).isSome = true ∧
    goes (.wput gd .loc 2 1 2 3 64) (withS (withS (windowed 0) 1 (wcap 1)) 2 0x1000) = true ∧
    (mget? (nxt (.wputRemoteWrite (putMsg 1 60)) (later 1 (windowed 8))).windows 3).map Window.count = some 9 ∧
    cgetN (nxt (.wputRemoteWrite (putMsg 1 60)) (later 1 (windowed 8))).hbm 0x4013C 4 = [1, 2, 3, 4] ∧
    (mget? (nxt (.wputRemoteWrite (putMsg 1 64)) (windowed 8)).windows 3).map Window.count = some 8 ∧
    (mget? (nxt (.wputRemoteWrite (putMsg 2 0)) (windowed 8)).windows 3).map Window.count = some 8 ∧
    ((nxt (.wputAcknowledgement 0 2 0 1 0) (windowed 8)).strand? 0).map (fun st => st.wcnt[2]) = some 1 ∧
    sOfStrand (nxt (.wwait gd 1 2 (.imm 0)) (rig false)) 0 1 = 0 ∧
    ((nxt (.wwait gd 1 2 (.imm 1)) (rig false)).strand? 0).map Strand.act = some (.asleep (.putCount 2 1 1) 12) ∧
    sOfStrand (nxt (.wwaitR gd 1 2 (.imm 8)) (withS (windowed 8) 2 (wcap 1))) 0 1 = 8 ∧
    ((nxt (.wwaitR gd 1 2 (.imm 9)) (withS (windowed 8) 2 (wcap 1))).strand? 0).map Strand.act = some (.asleep (.window 3 9 1) 12) ∧
    sOfStrand (nxt (.wcntR gd 1 2) (withS (windowed 8) 2 (wcap 1))) 0 1 = 8 := by decide

/-- A grid with one connector at VA 0 whose image is loaded: put port 0, get port 1 behind fifo 0. -/
def connected : State :=
  let m : Image := { asid := 0, va := 0, refs := 2, ready := 0
                     ports := [⟨false, 0, none, none⟩, ⟨true, 1, none, none⟩]
                     regions := [⟨0, 0, []⟩, ⟨0, 0, []⟩]
                     fifos := [⟨0, 1, 1, none, ⟨[], 1, false, false⟩, ⟨[], 0, false, false⟩⟩], consts := [], nslots := [] }
  { (rig false).modGrid 0 (fun x => { x with hdr := { x.hdr with conns := [0] } }) with images := [m] }
/-- A port reference (R250): connector 0, port `p`. -/
def pref (p : Nat) : Word := BitVec.ofNat 64 (2 * 2 ^ 60 + p * 2 ^ 48)

/-- PortAndConnectorInstructions: a put, a get, a put at a get port (CONNECTOR 1), a word that is no reference, CLOSE, BAR, CONLD and
CONUL with two references, with one, with none. -/
theorem witness_ports :
    ((nxt (.put gd 1 2 (.s 3)) (withS connected 2 (pref 0))).strand? 0).map Strand.act = some (.asleep (.port 0) 8) ∧
    ((nxt (.getd gd (.v 1) 2 3 4) (withS connected 2 (pref 1))).strand? 0).map Strand.act = some (.asleep (.port 0) 8) ∧
    ((nxt (.put gd 1 2 (.s 3)) (withS connected 2 (pref 1))).strand? 0).map Strand.tcause = some 0x10A ∧
    ((nxt (.put gd 1 2 (.s 3)) connected).strand? 0).map (fun st => (st.tcause, st.tval)) = some (0x0C, 0) ∧
    goes (.close gd 1 2) (withS connected 2 (pref 1)) = true ∧ goes (.bar gd) (rig false) = true ∧
    (let s := connected.modStrand 0 fun st => { st with sup := true }
     sOfStrand (nxt (.conld gd 1 2) s) 0 1 == 1 && sOfStrand (nxt (.conul gd 1 2) s) 0 1 == 1 &&
     sOfStrand (nxt (.conul gd 1 2) { s with images := s.images.map fun m => { m with refs := 1 } }) 0 1 == 0 &&
     sOfStrand (nxt (.conul gd 1 2) { s with images := [] }) 0 1 == 2 &&
     ((nxt (.conul gd 1 2) (withS s 2 32)).strand? 0).map Strand.act == some (.asleep .firmware 0) &&
     goes (.conld gd 1 2) { paged true with images := [] }) = true := by decide

/-- OfferAndBufferSteps: an offer in time and late, its deadline, a decided put and get, an all-arrived barrier, the buffer's steps. -/
theorem witness_offers :
    (let s := nxt (.put gd 1 2 (.s 3)) (withS connected 2 (pref 0))
     let late (s : State) := { s with offers := s.offers.map fun x => (x.1, { x.2 with deadline := some 0 }) }
     let live (s : State) := { s with offers := s.offers.map fun x => (x.1, { x.2 with live := true }) }
     let fired (t : State) := (mget? t.offers 0).map Offer.fired == some true
     (mget? (nxt (.offerArrival 0) s).offers 0).map Offer.live == some true && fired (nxt (.offerArrival 0) (late s)) &&
     fired (nxt (.deadlineWithdrawal 0) (live (late s))) && suspendAt s 0 0 == none &&
     ((nxt (.completionDelivery 0 0 9 none) s).strand? 0).any (fun st => st.act == .run && st.pc == 8) &&
     (mget? (nxt (.suspend 0 0) (live s)).offers 0).map Offer.live == some false) = true ∧
    (let s := nxt (.get gd (.s 1) 2 3) (withS connected 2 (pref 1))
     sOfStrand (nxt (.completionDelivery 0 0 9 (some (.scalar 5))) s) 0 1 == 5 &&
     sOfStrand (nxt (.completionDelivery 0 0 9 (some (.scalar 5))) s) 0 3 == 9) = true ∧
    (let s := nxt (.bar gd) (rig false)
     let s := { s with offers := s.offers.map fun x => (x.1, { x.2 with live := true }), agenda := [] }
     (mget? (nxt (.lanternDecision 0) s).offers 0).map Offer.fired == some true && s.images.isEmpty) = true ∧
    (let buf (t : State) := (t.images.head?.bind fun m => m.fifos[0]?).map Fifo.buf
     (buf (nxt (.fifoItemArrival 0 0 0 false (some (.scalar 5))) connected)).map Buf.items == some [.scalar 5] &&
     (buf (nxt (.fifoItemArrival 0 0 0 false none) connected)).map Buf.closedDown == some true &&
     (buf (nxt (.permitReturn 0 0 0 false) connected)).map Buf.permits == some 2 &&
     sOfStrand (nxt (.closeArrival 0 0 0 false 0 1 9) connected) 0 1 == 0) = true := by decide

/-- OfferAndBufferSteps: a get at a closed and empty buffer ends with 4 (R263); a refused load ends the grid with 0x13. -/
theorem witness_closed_and_refused :
    (let s := nxt (.get gd (.s 1) 2 3) (withS connected 2 (pref 1))
     let s := { s with offers := s.offers.map fun x => (x.1, { x.2 with live := true })
                       images := s.images.map fun m => { m with fifos := m.fifos.map fun f => { f with buf := ⟨[], 1, true, true⟩ } } }
     ((mget? s.offers 0).bind fun o => closedPort s o) == some (0, 1) &&
     (mget? (nxt (.closedEmptyCompletion 0 1) s).offers 0).map Offer.fired == some true) = true ∧
    ((nxt (.connectorImageLoad 0 0) (connected.modGrid 0 fun x => { x with loading := [0] })).records.head?).map
      (fun r => r.fault.head?) = some (some 0x13) ∧
    (nextOf (exec (.connectorImageLoad 0 0) connected)).map State.records = some [] := by decide

/-- A timeline and a queue capability as R133 and R136 lay them out: number 3, generation 1. -/
def tcap : Word := BitVec.ofNat 64 (4 * 2 ^ 60 + 3 * 2 ^ 45 + 1)
def qcap : Word := BitVec.ofNat 64 (3 * 2 ^ 60 + 3 * 2 ^ 47 + 1)
/-- A timeline at a value and a queue of capacity 2 with some records. -/
def controlled (v : Word) (recs : List (List Lane)) : State :=
  { rig false with timelines := mset [] 3 ⟨some 1, v, []⟩, queues := mset [] 3 ⟨1, 2, recs, [], []⟩ }
def tl (s : State) : Option Word := (mget? s.timelines 3).map Timeline.val
def recsOf (s : State) : Option (List (List Lane)) := (mget? s.queues 3).map Queue.recs

/-- ControllerInstructions: capabilities that pass and one that does not; JOIN to a counter of 2 and of 1; LAUNCH. -/
theorem witness_controller_instructions :
    tlCheck (controlled 0 []) tcap = some 3 ∧ tlCheck (rig false) 0 = none ∧ tqWord (rig false) qcap = true ∧
    ((nxt (.tlsig gd 1 2 (.imm 5)) (withS (controlled 0 []) 2 tcap)).strand? 0).map Strand.act = some (.asleep .reply 12) ∧
    ((nxt (.tlwait gd 1 2 (.imm 5)) (withS (controlled 0 []) 2 tcap)).strand? 0).map Strand.act = some (.asleep (.timeline 1) 16) ∧
    ((nxt (.tlsig gd 1 2 (.imm 5)) (rig false)).strand? 0).map (fun st => (st.tcause, st.tval)) = some (0x0C, 0) ∧
    goes (.tlrd gd 1 2) (withS (controlled 0 []) 2 tcap) = true ∧
    goes (.tlrdSet gd 1 2 3) (withS ((controlled 0 []).modStrand 0 fun st => { st with sup := true }) 2 tcap) = true ∧
    [Instr.tqpush gd 1 2 3, .tqpushP gd 1 2 3, .tqpushRsv gd 1 2 3, .tqpushRel gd 1 2 3, .tqpopTry gd 1 2 3].all
      (fun i => goes i (withS (controlled 0 []) 2 qcap)) = true ∧
    ((nxt (.tqpop gd 1 2 3) (withS (controlled 0 []) 3 qcap)).strand? 0).map Strand.act = some (.asleep (.queue 1 2) 8) ∧
    (let s := withS (withS (memoryAt 0x1000 [2] (controlled 0 [])) 2 0x1000) 3 qcap
     cgetN (nxt (.join gd .loc 1 2 3 4) s).ls (lsKey 0 0x1000) 2 == [1, 0] && sOfStrand (nxt (.join gd .loc 1 2 3 4) s) 0 1 == 0 &&
     (nxt (.joinP gd .loc 1 2 3 4) (memoryAt 0x1000 [1] s)).agenda.length == 1 && s.memoriesOk) = true ∧
    (nxt (.launch gd .loc 1 2) (withS (rig false) 2 0x1000)).agenda.length = 1 := by decide

/-- ControllerSteps: an increment at the edge and beyond (R133), reads, sets, waits at and below; pushes into room and into a full
queue, by permit without one, reservations at the edge and beyond, releases, pops (R138 to R140). -/
theorem witness_controller_steps :
    tl (nxt (.timelineOperation (.sig 3 5 0 1 tcap 9)) (controlled (BitVec.ofNat 64 (2 ^ 64 - 6)) [])) = some (BitVec.ofNat 64 (2 ^ 64 - 1)) ∧
    tl (nxt (.timelineOperation (.sig 3 5 0 1 tcap 9)) (controlled (BitVec.ofNat 64 (2 ^ 64 - 3)) [])) = some (BitVec.ofNat 64 (2 ^ 64 - 1)) ∧
    tlYields (controlled 7 []) (.timelineOperation (.rd 3 0 1 9)) = false ∧ sOfStrand (nxt (.timelineOperation (.rd 3 0 1 9)) (controlled 7 [])) 0 1 = 7 ∧
    tl (nxt (.timelineOperation (.set 3 2 0 1 9)) (controlled 7 [])) = some 2 ∧
    (let s := (nxt (.tlwait gd 1 2 (.imm 5)) (withS (controlled 5 []) 2 tcap))
     ((nxt (.timelineOperation (.wait 3 5 0 1)) s).strand? 0).map Strand.act == some .run &&
     ((nxt (.timelineOperation (.wait 3 6 0 1)) s).strand? 0).map Strand.act == some (.asleep (.timeline 1) 16)) = true ∧
    (let push (s : State) (p : Bool) := nxt (.taskQueueOperation (.push qcap (vmk fun _ => 7) p 0 1 9)) s
     let r := List.replicate 8 (7 : Lane)
     recsOf (push (controlled 0 [r]) false) == some [r, r] && sOfStrand (push (controlled 0 [r, r]) false) 0 1 == 1 &&
     sOfStrand (push (controlled 0 []) true) 0 1 == 3 && sOfStrand (push (rig false) false) 0 1 == 2) = true ∧
    (let op (o : TqOp) (s : State) := sOfStrand (nxt (.taskQueueOperation o) s) 0 1
     op (.rsv qcap 2 0 1 9) (controlled 0 []) == 0 && op (.rsv qcap 3 0 1 9) (controlled 0 []) == 1 &&
     op (.rel qcap 1 0 1 9) (controlled 0 []) == 4 && op (.rel qcap 0 0 1 9) (controlled 0 []) == 0 &&
     op (.popTry qcap 0 1 2 9) (controlled 0 []) == 5 && op (.popTry qcap 0 1 2 9) (controlled 0 [List.replicate 8 0]) == 0) = true := by decide

/-- R138: the range [0, 100) with grain 16 is handed out as [0, 50), [50, 75), [75, 88), [88, 100). -/
theorem test_range_pops :
    (let rec' : List Lane := [0, 1, 0, 0, 100, 0, 16, 0]
     let pop (s : State) := nxt (.taskQueueOperation (.popTry qcap 0 1 2 9)) s
     let got (s : State) : Nat × Nat := (((s.strand? 0).map fun st => ((lane (finalV st 2) 2).toNat, (lane (finalV st 2) 4).toNat)).getD (0, 0))
     let s := controlled 0 [rec']
     got (pop s) == (0, 50) && got (pop (pop s)) == (50, 75) && got (pop (pop (pop s))) == (75, 88) &&
     got (pop (pop (pop (pop s)))) == (88, 100) && recsOf (pop (pop (pop (pop s)))) == some []) = true := by decide

/-- R237: VCVT's ui8 side is unsigned, its i8 side signed (R236); a lane pattern (R224). -/
theorem test_vector_results :
    (let s := (rig false).modStrand 0 fun st => regWrite st (.v 2 (BitVec.allOnes 32) (vmk fun k => BitVec.ofNat 32 (0x100 * k + 0x80)))
     let at' (i : Instr) (k : Nat) : Lane := lane (vOfStrand (nxt i s) 0 1) k
     (at' (.vcvt gd false 0 false .rne .i16 .i8 1 (vr 2)) 1, at' (.vcvt gd false 0 false .rne .i16 .ui8 1 (vr 2)) 1,
      at' (.vadd gd .i8 .rne true 1 (vr 2) (.imm 0x80808080)) 1, at' (.vmov gd 1 (.v ⟨2, .rot 1⟩)) 0,
      at' (.vsub gd .i32 .rne false 1 ⟨2, .rev⟩ (.reg (vr 2))) 0)) = (0x0001FF80, 0x00010080, 0x80808180, 0x1F80, 0x1F00) := by decide

/-- VectorMovesAndFolds, SpecialFunctionsRandomSort, VectorFrame: the units are free; a zero divisor; a table with one set bit; the counter. -/
theorem witness_vector_units :
    (coreNow (rig false)).sfuFree = 0 ∧ (coreNow (rig false)).sortFree = 0 ∧ sfuRule (.vrcp gd 1 (vr 2)) = some (.rcp, .rne, 1, vr 2) ∧
    vectorOnly (.vadd gd .f32 .sr false 1 (vr 2) (.reg (vr 3))) = true ∧ goes (.vadd gd .f32 .sr false 1 (vr 2) (.reg (vr 3))) (rig false) = true ∧
    lane (vOfStrand (nxt (.vrcp gd 1 (vr 2)) (rig false)) 0 1) 3 = 0x7F800000 ∧
    ((nxt (.vrng gd false 1) (rig false)).strand? 0).map Strand.rngc = some 8 ∧
    ((nxt (.rngskip gd (.imm 3 true)) (rig false)).strand? 0).map Strand.rngc = some 0x30000000000000000 ∧
    sOfStrand (nxt (.vred gd .add .i32 .rne false 1 (vr 2)) ((rig false).modStrand 0 fun st =>
      regWrite st (.v 2 (BitVec.allOnes 32) (vmk fun k => BitVec.ofNat 32 k)))) 0 1 = 496 ∧
    lane (vOfStrand (nxt (.vins gd 1 2 (.imm 31)) (withS (rig false) 2 5)) 0 1) 31 = 5 := by decide

/-- A quad's tile configurations: tiles 0 and 1 ordinary i8 of 1 row of 4 bytes, tile 2 a plan tile of 1 row of 1 (R283). -/
def tiled : State := (rig false).modQuad 0 fun x => { x with tc := ((x.tc.set 0 0x00040100).set 1 0x00040100).set 2 0x40010105 }
/-- A job of quad 0 with id 0, accepted at 0, started at a cycle or not. -/
def jobbed (op : JobOp) (start : Option Nat) (s : State) : State := { s.modQuad 0 fun x => { x with jobs := [⟨0, op, 0, start, 1, false⟩] } with now := 9 }

/-- MatrixJobs: a configuration that is not valid, one of each row of R283 at its ends, a region at its ends, a free slot. -/
theorem witness_matrix_jobs :
    cfgOk 0 = false ∧ cfgOk 0x00808000 = true ∧ cfgOk 0x00810100 = false ∧ cfgOk 0x00020106 = true ∧ cfgOk 0x00030106 = false ∧
    cfgOk 0x0044010E = true ∧ cfgOk 0x40404005 = true ∧ cfgOk 0x40414005 = false ∧
    here (withS tiled 1 0x1000) (fun st _ => (jobRule (rig false) st 0 (.mma gd true 0 0 1 none)).any (fun r => r.1.isSome) &&
      jobRule tiled st 0 (.mma gd true 0 0 1 none) == some (none, none, .mma true 0 0 1 0x00040100 0x00040100) &&
      (jobRule tiled st 0 (.tld gd 0 1 2 (some 3))).any (fun r => r.1 == none && r.2.1 == some 3) &&
      lsCheck tiled st 0 0x1000 64 128 128 == none && lsCheck tiled st 0 0x1000 32 128 128 != none && lsCheck tiled st 0 0xFBFC0 0 1 64 == none &&
      lsCheck tiled st 0 0xFBFC0 0 1 65 != none) = true ∧ jobSlot tiled 0 0 (.accz 0) = true ∧
    ((nxt (.mma gd true 0 0 1 (some 3)) tiled).quad 0).jobs.length = 1 ∧ ((nxt (.mma gd true 0 0 1 (some 3)) tiled).quad 0).nextJob = 1 ∧
    ((nxt (.mma gd true 0 0 1 none) (rig false)).strand? 0).map (fun st => (st.tcause, st.sup)) = some (1, true) := by decide

/-- MatrixAccess: a job that is complete and one that is not; ACCV.rd and PLANRD with no writer, ACCV.wr with no job. -/
theorem witness_matrix_access :
    jobDone ((rig false).quad 0) 0 = some ⟨0, 0, 0⟩ ∧ jobDone ((jobbed (.accz 0) none tiled).quad 0) 0 = none ∧
    ((nxt (.mxwait gd 1 2) (jobbed (.accz 0) none tiled)).strand? 0).map Strand.act = some (.asleep (.job 0 1) 8) ∧
    sOfStrand (nxt (.mxtest gd 1 2) (rig false)) 0 1 = 0x100 ∧ accWriters ((rig false).quad 0) 1 = [] ∧
    (let s := nxt (.accvWr gd 1 2 3) (withS ((rig false).modStrand 0 fun st => regWrite st (.v 2 (BitVec.allOnes 32) (vmk fun _ => 7))) 3 0x102)
     cgetN s.acc (accKey 0 1 2 32) 2 == [7, 7] && s.memoriesOk && cget s.acc (accKey 0 1 2 31) == 0) = true ∧
    goes (.accvRd gd 1 0 2) (rig false) = true ∧ goes (.planrd gd true (.vec .f 4)) (rig false) = true := by decide

set_option maxRecDepth 8000 in
/-- MatrixSteps: a startable job; a started one; TLD and TST of the 4 bytes of a row. -/
theorem witness_matrix_steps :
    startable ((jobbed (.accz 0) none tiled).quad 0) 9 = [0] ∧
    (nxt (.jobStart 0 0) (jobbed (.accz 0) none tiled)).agenda.length = 1 ∧
    (jobbed (.tzero 0) (some 2) tiled).memoriesOk = true ∧ ((jobbed (.tzero 0) (some 2) tiled).quad 0).jobs.find? (fun y => y.id == 0 && y.start.isSome) = ((jobbed (.tzero 0) (some 2) tiled).quad 0).jobs.head? ∧
    cgetN (nxt (.jobComplete 0 0) (jobbed (.tld 0 0x00040100 0x1000 64) (some 2) (memoryAt 0x1000 [1, 2, 3, 4, 5] tiled))).tiles
      (tileKey 0 0 0) 5 = [1, 2, 3, 4, 0] ∧
    cgetN (nxt (.jobComplete 0 0) (jobbed (.tst 1 0x00040100 0x1000 64) (some 2) { tiled with tiles := csetN [] (tileKey 0 1 0) [9, 8] })).ls
      (lsKey 0 0x1000) 2 = [9, 8] ∧
    ((nxt (.jobComplete 0 0) (jobbed (.accz 0) (some 2) ((rig false).modStrand 0 fun st =>
      { st with act := .asleep (.job 0 1) 8 }))).strand? 0).map (fun st => (st.act, st.pc)) = some (.run, 8) := by decide

/-- A gang of one strand in group 0 with one member, and its RED and TOPK joined. -/
def grouped (s : State) : State := s.modGang 0 fun g => { g with mcg := g.mcg.set 0 ⟨false, [(0, 5)]⟩ }
def redAt : State := nxt (.red gd .add .i32 .loc 1 2 (.imm 64) (.gang 0)) (withS (grouped (memoryAt 0x1000 [3] (rig false))) 2 0x1000)

/-- ReductionInstructions: a member and a strand that is none, tickets not issued, open and complete; the statuses of MCAST. -/
theorem witness_reductions :
    rankOf (groupMembers (grouped (rig false)) 0 (.gang 0)) 0 = some 0 ∧ rankOf (groupMembers (rig false) 0 (.gang 0)) 0 = none ∧
    redsOut ((rig false).quad 0) = 0 ∧ deadMember (grouped (rig false)) 0 (.gang 0) = false ∧
    (redAt.episodes.map fun e => (e.2.decided, e.2.parts.length)) = [(false, 1)] ∧ sOfStrand redAt 0 1 = 1 ∧
    ((nxt (.red gd .add .i32 .loc 1 2 (.imm 64) (.gang 0)) (withS (rig false) 2 0x1000)).strand? 0).map Strand.tcause = some 0x0C ∧
    ((nxt (.red gd .add .i32 .gang 1 2 (.imm 64) (.gang 0)) (withS pair 2 0x101000)).strand? 0).map Strand.tcause = some 0x06 ∧
    goes (.topk gd false 1 2 (.imm 3) (.gang 0)) (grouped (rig false)) = true ∧
    ((nxt (.redw gd 3 4) (withS redAt 4 1)).strand? 0).map Strand.act = some (.asleep (.reduction 1 3) 8) ∧
    sOfStrand (nxt (.redw gd 3 4) (rig false)) 0 3 = 0 := by decide

/-- ReductionInstructions: MCAST replaces group 1 (0), refuses 33 entries (1), a strand twice (2), an index beyond the gang (1); ReductionSteps: the decision
and completion of a RED of one member. -/
theorem witness_multicast_and_episodes :
    (let s (n : Word) (bs : List Byte) := withS (withS (memoryAt 0x1000 bs (rig false)) 2 0x1000) 3 n
     let r (n : Word) (bs : List Byte) := nxt (.mcast gd 1 false .loc 1 2 3) (s n bs)
     sOfStrand (r 1 [0, 5]) 0 1 == 0 && ((r 1 [0, 5]).gang? 0).map (fun g => g.mcg[1]) == some ⟨false, [(0, 5)]⟩ &&
     sOfStrand (r 33 [0, 5]) 0 1 == 1 && sOfStrand (r 2 [0, 5, 0, 0, 0, 5]) 0 1 == 2 && sOfStrand (r 1 [9, 5]) 0 1 == 1) = true ∧
    (let s := nxt (.episodeDecision 2) { redAt with agenda := [] }
     (s.episodes.map fun e => (e.2.decided, e.2.status, e.2.bytes.take 2)) == [(true, 0, [3, 0])] &&
     (let t := nxt (.reductionComplete 2 0) { s with ls := [] }
      cgetN t.ls (lsKey 0 0x1000) 2 == [3, 0] && ((mget? (t.quad 0).reds 1).map fun r => (r.done, r.code)) == some (true, 0))) = true := by decide

def pfetchAt (va : Word) : State := nxt (.pfetch gd false 1 2 (.imm 64)) (withS (paged false) 2 va)
/-- A page in the translation cache of quad 0. -/
def warm (va : Nat) : State := match missTrans (paged false) 0 0 va false with
  | .ok _ s => s
  | _ => paged false
def tlbinvs (d : SReg) : List Instr := [.tlbinvPage gd d 2, .tlbinvAs gd d, .tlbinvAsid gd d 3, .tlbinvAll gd d]

/-- TranslationInstructions: a walk that gives a translation and sets A, one that sets D too, one of page 3, which has none (R350);
PFETCH of a page that has one and of one that has none, which the walk of 240 cycles after the acceptance tells (R353, R355). -/
theorem witness_translation :
    (match walk (paged false) 0 0 0x10000 false with
     | .ok tr s => tr.tgt == .hbm 0x50000 && tr.rd && eA (hbmWord s 0x30010) && !eD (hbmWord s 0x30010)
     | _ => false) = true ∧
    (match walk (paged false) 0 0 0x10000 true with
     | .ok tr s => tr.wr && tr.dset && eD (hbmWord s 0x30010)
     | _ => false) = true ∧
    (match walk (paged false) 0 0 0x30000 false with
     | .bad _ => true
     | _ => false) = true ∧
    (let step (va : Word) (t : Nat) (s : State) : State := nxt (.copyAccept 0 (256 + (withS (paged false) 2 va).opSeq)) (later t s)
     let walked (va : Word) : State := step va 240 (step va 4 (pfetchAt va))
     (pfetchAt 0x10000).agenda.any (fun e => e.due == 4) && ((step 0x10000 4 (pfetchAt 0x10000)).agenda.any fun e => e.due == 244) &&
     ((step 0x10000 4 (pfetchAt 0x10000)).quad 0).tcache.isEmpty && ((walked 0x10000).quad 0).tcache.length == 1 &&
     ((walked 0x10000).quad 0).fetches.isEmpty && sOfStrand (walked 0x10000) 0 1 == 0 && sOfStrand (walked 0x30000) 0 1 == 1) = true ∧
    sOfStrand (nxt (.pfetch gd false 1 2 (.imm 0)) (paged false)) 0 1 = 0 := by decide

/-- TranslationInstructions: the four forms of TLBINV empty a quad's cache of the page and answer 300 cycles later (R352). -/
theorem witness_invalidation :
    (let s := (warm 0x10000).modStrand 0 fun st => { st with sup := true, await := [] }
     ((s.quad 0).tcache.length == 1) && ((tlbinvs 4).all fun i =>
       let t := nxt i (later 20 (withS s 2 0x10000))
       (t.quad 0).tcache.isEmpty && t.agenda.any (fun e => e.due == t.now + 300) && t.invals.length == 1) &&
     (let t := later 300 (nxt (.tlbinvAll gd 4) (later 20 s))
      (t.invals.all fun i => !i.waits t) && (nxt (.tlbinvComplete (.strand 0 4) .all) t).invals.isEmpty &&
      (nxt (.tlbinvComplete (.host 7) .all) { t with invals := t.invals.map fun i => { i with who := .host 7 } }).completions.length == 1)) =
      true := by decide

/-- A storage page whose entry is at 0x30020, with a frame at 0x60000; LOW = 2, HIGH = 4. -/
def inStorage (st : PageSt) (bits : Word) : State :=
  { setHbmWord (paged false) 0x30020 (0x60034 ||| bits) with
      pages := [⟨0x30020, 0, 0x20000, st, some 0x60000, false, 0, false, []⟩], spcfg := 0x0EA6000004000002 }
def pageSt (s : State) : Option PageSt := (pageOf? s 0x30020).map Page.st

/-- StorageSteps: a Read to send; a Read that failed; a write-back that failed (R355 to R358). -/
theorem witness_storage :
    (inStorage .reading 0).memoriesOk = true ∧ (inStorage .reading 0).pool = [] ∧ (inStorage .writeback 0x800).flushing = [] ∧
    (pageOf? (nxt (.storageReadSend 0x30020) (inStorage .reading 0)) 0x30020).map Page.sent = some true ∧
    pageSt (nxt (.storageReadFail 0x30020) (inStorage .reading 0)) = none ∧ (nxt (.storageReadFail 0x30020) (inStorage .reading 0)).spErr = 1 ∧
    pageSt (nxt (.writebackFail 0x30020) (inStorage .writeback 0x800)) = some .resident ∧
    eD (hbmWord (nxt (.writebackFail 0x30020) (inStorage .writeback 0x800)) 0x30020) = true ∧
    (cslice (inStorage .writeback 0x800).hbm 0x60000 0x70000).isEmpty = true := by decide

/-- StorageSteps: the sweep at a page with A, with D, with neither, the pool below LOW (R356); SPPUSH at its ends (R354); the Flush. -/
theorem witness_sweep :
    sweepWanted (inStorage .resident 0x800) = true ∧ pinned (inStorage .resident 0x800) 0x30020 = false ∧
    eA (hbmWord (nxt .sweepStep (inStorage .resident 0x900)) 0x30020) = false ∧ pageSt (nxt .sweepStep (inStorage .resident 0x900)) = some .resident ∧
    pageSt (nxt .sweepStep (inStorage .resident 0xA00)) = some .writeback ∧ pageSt (nxt .sweepStep (inStorage .resident 0x800)) = none ∧
    (nxt (.sppush 0x70000) (rig false)).pool = [0x70000] ∧ (nxt (.sppush 0x9FFFFF0000) (rig false)).pool = [0x9FFFFF0000] ∧
    (nxt (.sppush 0xA000000000) (rig false)).pool = [] ∧ (nxt (.sppush 0x70001) (rig false)).pool = [] ∧
    pageSt (nxt (.spcmdFlush 1) (inStorage .resident 0xA00)) = some .writeback ∧
    (nxt (.spcmdFlush 1) (inStorage .resident 0x800)).agenda.length = 1 := by decide

/-- A header as R115 lays it out (code of 4 bytes, 8 scalar registers, one strand a core, one segment) and its segment table, at VA
0x80 and 0; a launch record as R118 lays it out. -/
def headerBytes : List Byte :=
  [0, 0, 0, 0, 4, 0, 0, 0, 8, 8, 0, 0, 1, 0, 0, 0, 0, 0, 0, 0, 0, 1, 0, 0, 1, 0] ++ List.replicate 102 0
def loadable : State := { paged false with hbm := csetN (csetN (paged false).hbm 0x40080 headerBytes) 0x4000C [4] }
def record (hdr count flags : Nat) : BitVec 512 := BitVec.ofNat 512 (hdr + count * 2 ^ 128 + flags * 2 ^ 168)
def launched (r : BitVec 512) (s : State) : State := nxt (.launchAccept (.host 7) 0 r) s
/-- Of a completion (R376): bytes 8 to 15, the value; bytes 4 and 5, the status. -/
def cpl (c : BitVec 128) : Nat × Nat := (c.toNat / 2 ^ 32 % 2 ^ 16, c.toNat / 2 ^ 64)
def status (s : State) : Option Nat := s.completions.head?.map fun c => (cpl c).2

set_option exponentiation.threshold 600 in
set_option maxRecDepth 20000 in
/-- LaunchAccepts: the record's checks, a header that breaks a limit, a cooperative grid of 513 quads, 64 records in a queue, 0. -/
theorem witness_launches :
    (parseHeader headerBytes).isSome = true ∧ status (launched (record 0x80 1 0) loadable) = some 0 ∧
    ((launched (record 0x80 1 0) loadable).grid? 0).isSome = true ∧ status (launched (record 0x80 0 0) loadable) = some 2 ∧
    status (launched (record 0x80 1048577 0) loadable) = some 2 ∧ status (launched (record 0x80 1 1) loadable) = some 2 ∧
    status (launched (record 0x100 1 0) loadable) = some 1 ∧ status (launched (record 0x81 1 0) loadable) = some 1 ∧
    status (launched (record 0x80 513 2) loadable) = some 4 ∧ status (launched (record 0x80 512 2) loadable) = some 0 ∧
    status (launched (record 0x80 1 0) { loadable with grids := (List.range 64).map fun n => (n, Grid.init n 0 wordHeader wordLaunch) }) =
      some 3 := by decide

/-- One grid of one gang waits on an empty device. -/
def waiting : State := later 1 { launched (record 0x80 1 0) { loadable with gangs := [], quads := [], strands := [], grids := [], nextSeq := 5 } with agenda := [] }

set_option exponentiation.threshold 600 in
set_option maxRecDepth 20000 in
/-- Dispatching: the first place, no candidate, a gang placed to start; aging at the end of a period, a quantum at its end. -/
theorem witness_dispatch :
    place [] 4 4 = some (0, 0) ∧ (dispatchOrder (rig false)).isEmpty = true ∧ (dispatchOrder waiting).map Grid.seq = [5] ∧
    (let t := nxt .dispatchStep waiting
     ((t.gang? 0).map (fun g => (g.phase, g.ox, g.oy, g.index)) == some (.starting, 0, 0, 0)) &&
     (t.agenda.map Due.due == [waiting.now + 301]) && ((t.grid? 5).map Grid.placed == some 1)) = true ∧
    (let s := (rig false).modGrid 0 fun x => { x with waitAt := some 0, quantum := some 0 }
     let at' (n : Nat) : State := { s with now := n }
     (s.dscfg.toNat / 1024 % 64, s.dscfg.toNat / 2 ^ 18 % 64) == (24, 21) &&
     ((nxt (.priorityAging 0) (at' (2 ^ 24 - 1))).grid? 0).map Grid.prio == some 0 &&
     ((nxt (.priorityAging 0) (at' (2 ^ 24))).grid? 0).map Grid.prio == some 1 &&
     ((nxt (.quantumExpiry 0 0) (at' (2 ^ 21))).grid? 0).map Grid.expired == some (some (2 ^ 21))) = true := by decide

/-- The gang of `waiting` when it starts. -/
def started : State := nxt (.gangStart 0) { nxt .dispatchStep waiting with agenda := [] }
/-- The rig when its strand has ended. -/
def emptied : State := (rig false).modStrand 0 fun st => { st with act := .ended }

set_option exponentiation.threshold 600 in
set_option maxRecDepth 20000 in
/-- GangsStartAndEnd: the start; the end of a gang that is the grid's last and of one that is not; a gang that is not done. -/
theorem witness_gangs :
    (readSegs 0 [(0, 0, 4)] loadable).1.length = 1 ∧ (started.gang? 0).map Gang.phase = some .resident ∧ started.strands.length = 4 ∧
    (started.strand? 3).map (fun st => (st.pc, st.sup, st.act)) = some (0, false, .run) ∧ (started.quad 0).xbp = 1 ∧
    gangDone (rig false) ((rig false).gangs.headD (0, Gang.init 0 0 0 0 0 0 0 0 1)).2 = false ∧
    (nxt (.gangEnd 0) emptied).gangs.length = 0 ∧ ((nxt (.gangEnd 0) emptied).records.map Record.grid) = [0] ∧
    cget (nxt (.gangEnd 0) emptied).gens 0 = 1 ∧ ((nxt (.gangEnd 0) emptied).quad 0).clearing = some 2048 ∧
    ((nxt (.gangEnd 0) (emptied.modGrid 0 fun x => { x with launch := { x.launch with count := 2 } })).grid? 0).map Grid.ended = some 1 := by decide

/-- GangsStartAndEnd: the completion signal at the edge and beyond (R133), the end of clearing before and at its cycle, a wedged
grid (R127), a machine check (R345). -/
theorem witness_grid_events :
    tl (nxt (.doneSignal 5 tcap 5) (controlled (BitVec.ofNat 64 (2 ^ 64 - 6)) [])) = some (BitVec.ofNat 64 (2 ^ 64 - 1)) ∧
    tl (nxt (.doneSignal 5 tcap 5) (controlled (BitVec.ofNat 64 (2 ^ 64 - 3)) [])) = some (BitVec.ofNat 64 (2 ^ 64 - 1)) ∧
    (let s := nxt (.gangEnd 0) emptied
     ((nxt (.quadClearDone 0) { s with now := 2047 }).quad 0).clearing == some 2048 &&
     ((nxt (.quadClearDone 0) { s with now := 2048 }).quad 0).clearing == none) = true ∧
    (let s := ((rig false).modGrid 0 fun x => { x with launch := { x.launch with count := 2 } }).modStrand 0 fun st =>
       { st with act := .asleep (.promise 256) 8 }
     let w (n : Nat) : State := nxt (.gridWedged 0) { s with now := n }
     (w (2 ^ 22 - 1)).records.isEmpty && ((w (2 ^ 22)).records.map fun r => r.fault.head?) == [some 0x10]) = true ∧
    (let t := nxt (.machine 0 2 0 1 0x40) (rig false)
     (t.strand? 0).map (fun st => (st.sup, st.pc, st.tcause, st.tval)) == some (true, 0xFC000, 0x20E, 0xFDF00)) = true := by decide

/-- The rig with its gang in a phase, its strand doing something and not to issue before cycle 9. -/
def phased (p : Phase) (a : Act) : State :=
  ((rig false).modGang 0 fun g => { g with phase := p }).modStrand 0 fun st => { st with act := a, wake := 9 }
def actOf (s : State) : Option (Act × Act) := (s.strand? 0).map fun st => (st.act, st.resume)
def phaseOf (s : State) : Option Phase := (s.gang? 0).map Gang.phase

/-- PreemptionSaves: PREEMPT at a strand that runs, sleeps in an instruction that executes again, sleeps at a port, is parked. -/
theorem witness_preempt :
    ((phased .interrupt .run).strand? 0).map (tryKey (phased .interrupt .run) 0) = some none ∧
    ((nxt (.preempt 0) (phased .interrupt .run)).strand? 0).map (fun st => (st.act, st.pc, st.sup)) = some (.saving, 0xFC100, true) ∧
    actOf (nxt (.preempt 0) (phased .interrupt (.asleep (.promise 256) 8))) = some (.saving, .run) ∧
    actOf (nxt (.preempt 0) (phased .interrupt (.asleep (.timeline 1) 8))) = some (.saving, .run) ∧
    actOf (nxt (.preempt 0) (phased .interrupt (.asleep (.port 0) 8))) = some (.saving, .asleep (.port 0) 8) ∧
    actOf (nxt (.preempt 0) (phased .interrupt .parked)) = some (.saving, .parked) ∧
    actOf (nxt (.preempt 0) (phased .resident .run)) = some (.run, .run) := by decide

/-- PreemptionSaves: a core whose routine starts, an acknowledgement that is the last and one that is not, the drain, the DMA before
and after the clearing, and one that fails, parked gangs (R338, R342, R170). -/
theorem witness_saves :
    (let s := nxt (.preempt 0) (phased .interrupt .run)
     let s := (later 20 s).modGang 0 fun g => { g with acks := [(0, 0), (0, 1)] }
     (s.gang? 0).any (fun g => coreReady s g 0 0) && ((nxt (.saveRoutineStart 0 0 0) s).agenda.any fun e => e.ev == .saveAcknowledgement 0 0 0) &&
     (phaseOf (nxt (.saveAcknowledgement 0 0 1) s) == some .interrupt) &&
     (phaseOf (nxt (.saveAcknowledgement 0 0 1) (nxt (.saveAcknowledgement 0 0 0) s)) == some .drain)) = true ∧
    phaseOf (nxt (.drainComplete 0) (phased .drain .saving)) = some .dma ∧
    (let s := nxt (.contextDmaDone 0 true) (phased .dma .saving)
     (phaseOf s == some .dma) && ((s.quad 0).clearing == some 2048) && (phaseOf (nxt (.contextDmaDone 0 true) s) == some .saved) &&
     (phaseOf (nxt (.contextDmaDone 0 true) (s.modGang 0 fun g => { g with parkPages := [64] })) == some .parked)) = true ∧
    ((nxt (.contextDmaDone 0 false) (phased .dma .saving)).records.map fun r => r.fault.head?) = [some 0x12] ∧
    phaseOf (nxt (.parkedReady 0) (phased .parked .saving)) = some .saved := by decide

/-- ResumeRestores: a section of a quad, and a strand that runs again at the pc and in the mode that PREEMPT kept. -/
theorem witness_resume :
    (let s := nxt (.contextDmaDone 0 true) (nxt (.preempt 0) ((phased .interrupt .run).modStrand 0 fun st => { st with pc := 0x40 })
       |>.modGang 0 fun g => { g with phase := .dma })
     let s := (s.modGang 0 fun g => { g with phase := .restoring, imageTiles := [[(5, 7)]] })
     s.memoriesOk && Memory.wf [(5, (7 : Byte))] && ((s.gang? 0).map (fun g => (g.quads, g.image.length)) == some ([0], 1)) &&
     (let t := nxt (.restoreDmaDone 0) s
      (cget t.tiles (tileLo 0 + 5) == 7) && ((t.gang? 0).map (fun g => g.image.length) == some 0) &&
      ((t.gang? 0).any fun g => g.badSb == none && g.image.isEmpty && g.recs.all fun p => cgetN t.ls (recordAt g p.1) 512 == p.2) &&
      (let u := nxt (.restoreRoutineEnd 0) t
       (phaseOf u == some .resident) && ((u.strand? 0).map (fun st => (st.act, st.pc, st.sup)) == some (.run, 0x40, false))))) = true := by
  decide +kernel

/-- ResumeRestores: a scoreboard code of 11 in a record, found when it was saved or when it is read, ends the grid with MACHINE; a
changed record is what the strand holds. -/
theorem witness_resume_record :
    (let s := phased .restoring .saving
     let w := writeRecords s 0 ((s.gang? 0).getD (Gang.init 0 0 0 0 0 0 0 0 1)) [0]
     let ends (s : State) : Bool := ((nxt (.restoreRoutineEnd 0) s).records.map fun r => r.fault.take 2) == [[0x0E, 0x05]]
     ends (s.modGang 0 fun g => { g with badSb := some (0, false, 3) }) &&
     ends { w with ls := csetN w.ls (lsKey 0 0xFE120) [0x03] } &&
     (((nxt (.restoreRoutineEnd 0) { w with ls := csetN w.ls (lsKey 0 0xFE028) [0x2A] }).strand? 0).map (fun st => sreg st 5)) ==
       some 0x2A) = true := by decide +kernel

/-- A host's command at the open endpoint. -/
def cmd (opc : Nat) (a b : Word) : HostCmd :=
  ⟨⟨0, false⟩, BitVec.ofNat 1024 (opc + 7 * 2 ^ 32 + a.toNat * 2 ^ 64 + b.toNat * 2 ^ 128 + (record 0x80 1 0).toNat * 2 ^ 256)⟩
def atHost (s : State) : State := { s with booted := true }
def told (s : State) : List (Nat × Nat) := s.completions.map cpl

/-- The 128 bytes of a command with one bit more. -/
def with' (c : HostCmd) (bit : Nat) : HostCmd := { c with bytes := c.bytes ||| BitVec.ofNat 1024 (2 ^ bit) }
/-- DSCFG's address in the frame of R24: space 3 at the hub of cluster 0. -/
def dscfgAt : Word := BitVec.ofNat 64 (1 * 2 ^ 55 + 1 * 2 ^ 50 + 3 * 2 ^ 47 + 0x100)

set_option exponentiation.threshold 1100 in
set_option maxRecDepth 8000 in
/-- HostCommands: timelines at the edge and beyond, the OPC decides whatever step brings it, codes 0 and 11, each reserved range, INVAL
with A of 0 to 3, registers that exist and do not. -/
theorem witness_host_commands :
    (nxt (.hostLaunch (cmd 1 0 0)) (atHost loadable)).agenda.length = 1 ∧ told (nxt (.hostLaunch (cmd 2 0 0)) (atHost loadable)) = [(2, 0)] ∧
    told (nxt (.hostTlsig (cmd 2 tcap 5)) (atHost (controlled (BitVec.ofNat 64 (2 ^ 64 - 6)) []))) = [(0, 2 ^ 64 - 1)] ∧
    told (nxt (.hostTlsig (cmd 2 tcap 6)) (atHost (controlled (BitVec.ofNat 64 (2 ^ 64 - 6)) []))) = [(4, 2 ^ 64 - 1)] ∧
    told (nxt (.hostTlrd (cmd 3 tcap 0)) (atHost (controlled 7 []))) = [(0, 7)] ∧
    [0, 11, 255].all (fun n => told (nxt (.hostTlsig (cmd n 0 0)) (atHost (rig false))) == [(1, 0)]) = true ∧
    [16, 31, 192, 255, 768, 1023].all (fun b => told (nxt (.flush (with' (cmd 9 0 0) b)) (atHost (rig false))) == [(1, 0)]) = true ∧
    [0, 1, 2].all (fun k => (nxt (.inval (cmd 10 k 0)) (atHost (rig false))).invals.length == 1) = true ∧
    told (nxt (.inval (cmd 10 3 0)) (atHost (rig false))) = [(1, 0)] ∧ told (nxt (.flush (cmd 9 0 0)) (atHost (rig false))) = [(0, 0)] ∧
    (nxt (.flush (cmd 9 0 0)) (rig false)).completions = [] := by decide

set_option exponentiation.threshold 1100 in
set_option maxRecDepth 8000 in
/-- HostCommands: CFGRD and CFGWR of a register that is there and of none; grids alive and not; RELEASE of a grid that the lightship holds;
a command behind an RMA of its ordered connection. -/
theorem witness_host_grids :
    told (nxt (.cfgwr (cmd 4 0 0)) (atHost (rig false))) = [(3, 0)] ∧ (cfgLoc (rig false) 0).isNone = true ∧
    (cfgLoc (rig false) dscfgAt == some ⟨33, 3, 0x100⟩) = true ∧ told (nxt (.cfgrd (cmd 5 dscfgAt 0)) (atHost (rig false))) = [(0, 0x58546000)] ∧
    (let t := nxt (.cfgwr (cmd 4 dscfgAt 0x40304000)) (atHost (rig false))
     told t == [(0, 0)] && t.dscfg == 0x40304000) = true ∧
    (let t := nxt (.cfgwr (cmd 4 (dscfgAt + 0x110) 0x70000)) (atHost (rig false))
     told t == [(0, 0)] && t.pool == [0x70000] && t.agenda.isEmpty) = true ∧
    told (nxt (.hostHalt (cmd 6 9 0)) (atHost (rig false))) = [(5, 0)] ∧ (liveGrid (rig false) 0).isSome = true ∧
    (nxt (.hostHalt (cmd 6 0 0)) (atHost (rig false))).gangs.map (fun g => g.2.halted) = [true] ∧
    (nxt (.hostRelease (cmd 7 0 0)) (nxt (.hostHalt (cmd 6 0 0)) (atHost (rig false)))).gangs.map (fun g => g.2.halted) = [false] ∧
    (nxt (.hostRelease (cmd 7 0 0)) (nxt (.lightshipHalt 0) (atHost (rig false)))).gangs.map (fun g => g.2.halted) = [true] ∧
    ((nxt (.hostEnd (cmd 8 0 0)) (atHost (rig false))).records.map fun r => r.fault.head?) = [some 0x11] ∧
    (let rma : Instr := .rmaRead ⟨⟨0, true⟩, 7⟩ 0 0 0x20000 2
     let s : State := { atHost (rig false) with rmaPending := [⟨⟨0, true⟩, rma, [], false⟩] }
     rodWaits s (.flush { cmd 9 0 0 with conn := ⟨0, true⟩ }) && !rodWaits s (.flush (cmd 9 0 0)) &&
     (nxt (.flush { cmd 9 0 0 with conn := ⟨0, true⟩ }) s).completions.isEmpty) = true := by decide

/-- RMA number 7 of an unordered connection. -/
def rtag : RmaTag := ⟨⟨0, false⟩, 7⟩

set_option maxRecDepth 8000 in
/-- HostCommands: RMA of the last bytes of a page of HBM, across into the next page, of a page that has no translation, at a shut endpoint
(R375), with uncorrectable data, which a write of the whole line replaces (R383); one of a storage page waits. -/
theorem witness_rma :
    (nxt (.rmaRead rtag 0 0 0xFFFE 2) (atHost (paged false))).answers = [(7, some [0, 0])] ∧
    (nxt (.rmaRead rtag 1 0 0x30000 2) (atHost (paged false))).answers = [(7, none)] ∧
    (nxt (.rmaRead rtag 0 0 0xFFFE 4) (atHost (setHbmWord (paged false) 0x50000 0x201))).answers = [(7, some [0, 0, 1, 2])] ∧
    (nxt (.rmaWrite rtag 0 0 0xFFFE [1, 2, 3]) (atHost (paged false))).answers = [(7, some [])] ∧
    cgetN (nxt (.rmaWrite rtag 0 0 0xFFFE [1, 2, 3]) (atHost (paged false))).hbm 0x4FFFE 3 = [1, 2, 3] ∧
    cgetN (nxt (.rmaWrite rtag 0 0 0xFFFE [1, 2, 3]) (atHost (paged false))).hbm 0x50000 2 = [3, 0] ∧
    (nxt (.rmaWrite rtag 0 0 0x30000 [1]) (atHost (paged false))).answers = [(7, none)] ∧ (nxt (.rmaRead rtag 0 0 0 2) (paged false)).answers = [] ∧
    (let bad : State := { atHost (paged false) with hbmBad := [0x40000 / 64] }
     (nxt (.rmaRead rtag 0 0 2 4) bad).answers == [(7, none)] && (nxt (.rmaWrite rtag 0 0 2 [1]) bad).answers == [(7, none)] &&
     (nxt (.rmaWrite rtag 0 0 0 (List.replicate 64 5)) bad).answers == [(7, some [])] && (nxt (.rmaRead rtag 0 0 64 1) bad).answers == [(7, some [0])]) =
      true ∧
    (let s := atHost { paged false with drives := [(0, ⟨true, true, 0, [], []⟩)], pool := [0x60000] }
     let t := nxt (.rmaRead rtag 0 0 0x20000 2) s
     t.answers.isEmpty && t.rmaPending.length == 1 && (t.agenda.map Due.ev).contains (.rmaRead rtag 0 0 0x20000 2) &&
     (rmaXlate t 0 0 0x20000 2 false (.rmaRead rtag 0 0 0x20000 2)).res.length == 1) = true ∧
    (match walk (paged false) 0 0 0 false with
     | .ok tr _ => tr.at 0xFFFE == .hbm 0x4FFFE
     | _ => false) = true := by decide

set_option maxRecDepth 20000 in
/-- LightshipAndNetwork: registers, grids alive and not, flares on, on again and off, the snapshot's words, gating at 14 and 15. -/
theorem witness_lightship :
    (nxt (.lightshipCfgrd 0) (rig false)).reports = [[3]] ∧ (nxt (.lightshipHalt 9) (rig false)).reports = [[5]] ∧
    (nxt (.lightshipCfgrd dscfgAt) (rig false)).reports = [[0, 0, 0x60, 0x54, 0x58, 0, 0, 0, 0]] ∧
    (nxt (.lightshipCfgwr dscfgAt 0) (rig false)).reports = [[0]] ∧
    (nxt (.lightshipHalt 0) (rig false)).gangs.map (fun g => g.2.halted) = [true] ∧
    (nxt (.lightshipInval .all) (rig false)).invals.length = 1 ∧
    ((nxt .lightshipFlare (rig false)).sncfg, ((nxt .lightshipFlare (rig false)).quad 0).snap.map Snap.pc) = (0x12, [0]) ∧
    nxt .lightshipFlare (nxt .lightshipFlare (rig false)) = nxt .lightshipFlare (rig false) ∧
    (nxt .sncycMatch (rig false)).sncfg = 2 ∧ (nxt .sncycMatch { rig false with sncfg := 8 }).sncfg = 0x18 ∧
    (let bs := ((nxt (.snapshotRead 0) ((rig false).modQuad 0 fun x => { x with snap := [⟨1, 0x20, 5, 6, 7⟩] })).reports.headD [])
     bs.length == 4096 && (bs.drop 32).take 32 == [0x20, 0, 0, 0, 0, 0, 0, 0, 5, 0, 0, 0, 0, 0, 0, 0, 6, 0, 0, 0, 0, 0, 0, 0, 7, 0, 0, 0, 0, 0, 0, 0] &&
     bs.headD 1 == 0) = true ∧
    (nxt .thermalGateRaise { rig false with pwcfg := 0x690E }).pwcfg = 0x690F ∧
    (nxt .thermalGateRaise { rig false with pwcfg := 0x690F }).pwcfg = 0x690F := by decide

/-- LightshipAndNetwork: the 16th failure in a row and one too late to be in a row, a message on its way that a retry delays, a link that
stops with the gangs of its dies and of another, a message to a quad behind stopped links, a lost peer, packets in their order. -/
theorem witness_network :
    (let f (n at' : Nat) : State := nxt (.flitCrcRetry 0 .e) { rig false with now := 9, retries := mset [] (linkAt 0 .e) (n, at') }
     (f 15 1).agenda.length == 1 && (f 14 1).agenda.isEmpty && (f 15 0).agenda.isEmpty) = true ∧
    (let m : Due := ⟨5, 2, .remoteStorePublish (.st ⟨1, 0, 0x1000⟩ 4 7 0)⟩
     ((nxt (.flitCrcRetry 0 .e) { rig false with agenda := [m] }).agenda.map Due.due == [13]) &&
     ((nxt (.flitCrcRetry 0 .s) { rig false with agenda := [m] }).agenda.map Due.due == [5])) = true ∧
    ((nxt (.linkStop 0 .e) (rig false)).strand? 0).map (fun st => (st.tcause, st.sup)) = some (0x40E, true) ∧
    cgetN (nxt (.linkStop 0 .e) (rig false)).ls (lsKey 0 0xFDF00) 4 = (machineRecord (rig false) 4 0 1 0).take 4 ∧
    ((nxt (.linkStop 511 .w) (rig false)).strand? 0).map Strand.tcause = some 0 ∧
    (nxt (.linkStop 0 .e) { rig false with gangs := [] }).stopped = [linkAt 0 .e] ∧
    nxt (.linkStop 0 .e) { rig false with stopped := [linkAt 0 .e] } = { rig false with stopped := [linkAt 0 .e] } ∧
    blockedMsg { rig false with stopped := [linkAt 0 .e, linkAt 0 .s] } (.remoteStorePublish (.st ⟨1, 0, 0x1000⟩ 4 7 0)) = true ∧
    blockedMsg { rig false with stopped := [linkAt 0 .s] } (.remoteStorePublish (.st ⟨1, 0, 0x1000⟩ 4 7 0)) = false ∧
    (nxt (.peerUnreachable 3) (rig false)).lost = [3] ∧
    (let p (id lost port : Nat) : Promo := ⟨0, id, lost, port, 1⟩
     let s := nxt (.packetPromotion (p 1 40 2)) (rig false)
     ((nxt (.packetPromotion (p 2 40 1)) s).packets.map Promo.id == [2, 1]) && ((nxt (.packetPromotion (p 2 50 3)) s).packets.map Promo.id == [2, 1]) &&
     ((nxt (.packetPromotion (p 2 40 3)) s).packets.map Promo.id == [1, 2]) && ((nxt (.packetPromotion (p 2 31 0)) s).packets.map Promo.id == [1]) &&
     grantPackets [] [p 2 50 3, p 1 40 2] == [p 1 41 2]) = true := by decide

/-- BootAndReset: a device that is not booted has an image that verifies or one that does not; SupervisorTrapsEndTheGrid: a fault of a
live grid; ResetRegisters and ResetMemoriesCanonical have no hypothesis. -/
theorem witness_boot_and_fault :
    (State.reset.booted = false ∧ (Config.imageVerifies State.reset.flash = true ∨ Config.imageVerifies State.reset.flash = false)) ∧
    (nxt (.fault ⟨0, 4, 0, 0, 0, 8, 5, 0⟩) (rig true)).records.map (fun r => (r.grid, r.fault.head?)) = [(0, some 4)] := by
  refine ⟨⟨rfl, ?_⟩, by decide⟩
  cases Config.imageVerifies State.reset.flash <;> simp

set_option maxRecDepth 20000 in
/-- SAVE_ACKNOWLEDGEMENT: a record of 512 bytes stands in the system region: s1 at 8, p0 at 0x100, the pc at 0x130 (R341). -/
theorem test_strand_record :
    (let s := nxt (.preempt 0) ((phased .interrupt .run).modStrand 0 fun st => { st with pc := 0x40, sregs := st.sregs.set 1 5 })
     let bs := ((s.strand? 0).map (strandRecord s)).getD []
     bs.length == 512 && bs.getD 8 0 == 5 && bs.getD 0x100 0 == 255 && bs.getD 0x130 0 == 0x40 && bs.getD 0x1D0 0 == 0 &&
     (let t := nxt (.saveAcknowledgement 0 0 0) (s.modGang 0 fun g => { g with acks := [(0, 0), (0, 1)] })
      cget t.ls (lsKey 0 (0xFE000 + 8)) == 5)) = true := by decide

/-- The image of `connected` with candidates: in region 0 one that takes port 0 into fifo 0 and, of the same port, one that drops it; in
region 1 one that gives the head of fifo 0 to port 1. -/
def routed (items : List Item) (permits : Int) : State :=
  { connected with images := connected.images.map fun m => { m with
      regions := [⟨0, 0, [⟨1, 0, [(0, 0x40)], []⟩, ⟨1, 1, [(0, 0xFF)], []⟩]⟩, ⟨0, 0, [⟨2, 0, [(0x40, 1)], []⟩]⟩]
      fifos := m.fifos.map fun f => { f with buf := ⟨items, permits, false, false⟩ } } }
/-- The instruction's offer is live at its lantern, with so many decisions lost. -/
def offered (i : Instr) (p lost : Nat) (s : State) : State :=
  let s := nxt i (withS (withS s 2 (pref p)) 3 7)
  { s with offers := s.offers.map (fun x => (x.1, { x.2 with live := true, hist := List.range lost })), agenda := [] }
def fifoOf (s : State) : Option (List Item × Int) := (s.images.head?.bind fun m => m.fifos[0]?).map fun f => (f.buf.items, f.buf.permits)

/-- FiringCandidates: the put fires with room, its item and completion on their way (R258, R259); without room the other candidate is not
excluded and drops it with status 1; the get takes the head; nothing is enabled without an item; an offer that starves keeps the
pointer. -/
theorem witness_firing :
    (let s := offered (.put gd 1 2 (.s 3)) 0 0 (routed [] 1)
     let t := nxt (.lanternDecision 0) s
     (fifoOf t == some ([], 0)) && ((t.agenda.map Due.ev).contains (.fifoItemArrival 0 0 0 false (some (.scalar 7)))) &&
     ((t.agenda.map Due.ev).contains (.completionDelivery 0 0 0 none)) && ((mget? t.offers 0).map Offer.fired == some true) &&
     ((t.images.flatMap fun m => m.regions.map Region.ptr) == [1, 0])) = true ∧
    (let t := nxt (.lanternDecision 0) (offered (.put gd 1 2 (.s 3)) 0 0 (routed [] 0))
     (t.agenda.map Due.ev).contains (.completionDelivery 0 0 1 none) && (fifoOf t == some ([], 0))) = true ∧
    (let t := nxt (.lanternDecision 0) (offered (.get gd (.s 4) 2 3) 1 0 (routed [.scalar 9] 0))
     (fifoOf t == some ([], 0)) && ((t.agenda.map Due.ev).contains (.permitReturn 0 0 0 false)) &&
     ((t.agenda.map Due.ev).contains (.completionDelivery 0 0 0 (some (.scalar 9))))) = true ∧
    (let s := offered (.get gd (.s 4) 2 3) 1 0 (routed [] 1)
     nxt (.lanternDecision 0) s = s) ∧
    ((nxt (.lanternDecision 0) (offered (.put gd 1 2 (.s 3)) 0 4 (routed [] 1))).images.flatMap fun m => m.regions.map Region.ptr) = [0, 0] := by
  decide

set_option exponentiation.threshold 1100 in
set_option maxRecDepth 8000 in
/-- StepRunsDecodedInstruction: the lightship's HALT behind a host's command of its cycle runs first (R379); a message whose every route is
stopped does not arrive (R373). -/
theorem witness_step_order :
    (let e : Due := ⟨0, 1, .hostRelease (cmd 7 0 0)⟩
     let d : Due := ⟨0, 1, .lightshipHalt 0⟩
     let s : State := { atHost (rig false) with agenda := [e, d] }
     (nextOf (step s)).any (fun t => (t.agenda == [e]) && t.gangs.map (fun g => g.2.halted) == [true])) = true ∧
    (let m : Due := ⟨0, 2, .remoteStorePublish (.st ⟨1, 0, 0x1000⟩ 4 7 0)⟩
     let s : State := { rig false with agenda := [m], stopped := [linkAt 0 .e, linkAt 0 .s] }
     (nextOf (step s)).any (fun t => t.ls == s.ls && t.agenda.isEmpty)) = true := by decide

/-- IssueChecks and SystemInstructions: a result that is owed holds PRIV and TRAP back (R329); FADD of 1 and 2^-24 is inexact, and under SR
the counter moves (ScalarFloats). -/
theorem witness_owed_results :
    (let s := (rig false).modStrand 0 fun st => regLater st 0 9 (.s 5 1)
     owesResults s 0 && !owesResults (rig false) 0 && ((nxt (.halt gd) s).strand? 0).map (fun st => (st.pc, st.sup)) == some (0, false)) = true ∧
    (let s := withS (withS (rig false) 2 0x3F800000) 3 0x33800000
     let t := nxt (.fadd gd false .sr 1 2 (.reg 3)) s
     (sOfStrand (nxt (.fadd gd false .rne 1 2 (.reg 3)) s) 0 1 == 0x3F800000) && (t.strand? 0).map (fun st => (st.vstat != 0, st.rngc)) ==
       some (true, 1)) = true := by decide

/-- AccessChecks and AtomicsComplete: a user's access to spaces 1 and 3 (PRIV), to tags (read, not written), of another space by AMO
(REMOTE), beyond the mesh; AMO and CAS to the neighbour's bank and their publication. -/
theorem witness_spaces :
    here (rig false) (fun st g => isErr 3 (access (rig false) st g (3 * 2 ^ 47) .self 8 false) && isErr 3 (access (rig false) st g (2 ^ 47) .self 8 false) &&
      isOk (access (rig false) st g (2 * 2 ^ 47) .self 8 false) && isErr 3 (access (rig false) st g (2 * 2 ^ 47) .self 8 true) &&
      isErr 6 (access (rig false) st g (63 * 2 ^ 55 + 0x1000) .self 8 false)) = true ∧
    ((nxt (.amo gd .add true .abs .plain 1 2 .none 3) (withS (rig true) 2 (2 * 2 ^ 47))).strand? 0).map Strand.act = some (.asleep .firmware 0) ∧
    (let s := withS (withS (rig true) 2 0x4000000001000) 3 5
     let far := 0x80000000001000
     let s := withS s 2 far
     goes (.amo gd .add true .self .plain 1 2 .none 3) s && goes (.cas gd true .self .plain 1 2 .none 3 3) s &&
     (nxt (.amo gd .add true .self .plain 1 2 .none 3) s).agenda.length == 2 && (nxt (.ldv gd .self 1 2 .none) s).agenda.length == 1 &&
     (nxt (.stv gd .self 2 .none 1) s).agenda.length == 2) = true ∧
    (let m (w : RemoteWrite) := nxt (.remoteStorePublish w) { rig true with ls := cset [] (lsKey 1 0x1000) 5 }
     (cget (m (.amo ⟨1, 0, 0x1000⟩ 8 .add 3 0 1 9)).ls (lsKey 1 0x1000) == 8) && (sOfStrand (m (.amo ⟨1, 0, 0x1000⟩ 8 .add 3 0 1 9)) 0 1 == 5) &&
     (cget (m (.cas ⟨1, 0, 0x1000⟩ 8 5 7 0 1 9)).ls (lsKey 1 0x1000) == 7) && (cget (m (.cas ⟨1, 0, 0x1000⟩ 8 6 7 0 1 9)).ls (lsKey 1 0x1000) == 5)) =
      true := by decide

/-- LoadsComplete and StoresComplete, as supervisor: the own strand's s5 and a tag entry by their addresses (R28, R179), PWCFG's neighbour
DSCFG at the hub of cluster 0, LNSTARVE in space 4; a vector without lanes. -/
theorem witness_other_spaces :
    (let s := withS (withS (rig true) 3 9) 2 (2 ^ 47 + 40)
     (sOfStrand (nxt (.st gd .d .self false 2 .none 3) s) 0 5 == 9) &&
     (sOfStrand (nxt (.ld gd .d .self false 1 2 .none) (withS s 5 8)) 0 1 == 8)) = true ∧
    (let s := withS (withS (rig true) 3 0x8007) 2 (2 * 2 ^ 47 + 8)
     (tagOf ((nxt (.st gd .d .self false 2 .none 3) s).quad 0) 0 == ⟨true, 0, 7⟩)) = true ∧
    (nxt (.st gd .d .abs false 2 .none 3) (withS (withS (rig true) 3 9) 2 (dscfgAt + 2 ^ 47 - 0x100))).agenda.map Due.ev ≠ [] ∧
    (let s := withS (rig true) 2 0x80000000001000
     goes (.ldv ⟨1, false⟩ .self 1 2 .none) s && (nxt (.ldv ⟨1, false⟩ .self 1 2 .none) s).agenda.isEmpty &&
     (nxt (.stv ⟨1, false⟩ .self 2 .none 1) s).agenda.isEmpty) = true := by decide

set_option maxRecDepth 8000 in
/-- CopySteps: COPY.out and a put are accepted; a copy none of whose pages is in waits on storage. -/
theorem witness_copy_kinds :
    (mget? ((accepted (.copyOut gd .loc 1 2 3 4 64 1)).quad 0).copies 1).map Copy.st = some .flight ∧
    (let s := nxt (.wput gd .loc 2 1 2 3 64) (withS (withS (windowed 0) 1 (wcap 1)) 2 0x1000)
     ((mget? ((nxt (.copyAccept 0 1) (later 4 s)).quad 0).copies 1).map fun y => (y.st, y.lines.length)) == some (.flight, 1)) = true ∧
    (let s := moves (modCopy (accepted (.copyIn gd .loc 1 2 3 4 64 1)) 0 1 fun y =>
       { y with lines := [⟨.page 0x30020 0, [(0, 0x1000, 64)], false⟩] })
     ((mget? ((nxt (.lineMove 0 1) s).quad 0).copies 1).map Copy.st) == some .storage) = true := by decide

/-- SendArrivals: held back while a strand that PREEMPT has not reached runs in INTERRUPT; the pending OVERWRITE waits for a pending
PREEMPT. -/
theorem witness_held_arrivals :
    beforeSave (phased .interrupt .run) 0 = true ∧ beforeSave (phased .interrupt .saving) 0 = false ∧ beforeSave (rig false) 0 = false ∧
    (nxt (.sendnArrival 0 5 (.scalar 7) 0) (phased .interrupt .run)).agenda.map (fun e => (e.due, e.prio)) = [(1, 0)] ∧
    (let s := (rig false).modStrand 0 fun st => { st with ovw := some ⟨false, 4, 7⟩, tvec := 0x100, resume := .saving }
     ((nxt (.overwrite 0) s).strand? 0).map Strand.pc == some 0) = true := by decide

set_option maxRecDepth 20000 in
/-- MatrixSteps, the other jobs: the f16 product 2 * 3, MMAS of e4m3, moves of accumulator rows, conversions, the plan unit's jobs and one
sweep. -/
theorem witness_matrix_results :
    (let cfg : Word := 0x00040106
     let s := { tiled with tiles := csetN (csetN [] (tileKey 0 0 0) [0, 0x40]) (tileKey 0 1 0) [0, 0x42] }
     cfgOk cfg && pairOk (tcFmt cfg) (tcFmt cfg) && !(tcFmt cfg).isInt &&
     (cget (nxt (.jobComplete 0 0) (jobbed (.mma true 0 0 1 cfg cfg) (some 2) s)).acc (accKey 0 0 0 0) == 0x40C00000)) = true ∧
    ([.mmas true 0 0 1 0x00040108 0x00040108 [0x3F800000] 0x3F800000, .accld 0 0x1000 256 1, .accst 0 0x1000 256 1,
      .cvt .rne false 0 0 0x00040105 0 0, .cvti false 0 0 0x00040100, .plank 3 2 0x40010105 0x3F800000, .planx false 3 2 0x40010105,
      .plandot false 2 2 0x40010105, .planlse false true 1 2 0x40010105, .planm .f false (List.replicate 64 0),
      .balance false 2 0x40010105 1] : List JobOp).all (fun op => goes (.jobComplete 0 0) (jobbed op (some 2) tiled)) = true ∧
    isPlan 0x40010105 = true ∧ isOrd 0x00040105 = true ∧ fp8 (tcFmt 0x00040108) = true ∧
    (balanceRun tiled 0 false 2 0x40010105 1).sweeps = 1 := by decide +kernel

/-- ReductionInstructions and ReductionSteps: a RED on an aborted group and on one with a lost peer ends ABORTED (R324, R378); a completion
waits for the earlier episode's (R317). -/
theorem witness_aborted_groups :
    (let s := { withS (grouped (memoryAt 0x1000 [3] (rig false))) 2 0x1000 with aborted := [(.gang 0, 0)] }
     (let t := nxt (.red gd .add .i32 .loc 1 2 (.imm 64) (.gang 0)) s
      (t.episodes.map fun e => (e.2.decided, e.2.status)) == [(true, 1)] && t.agenda.any fun e => e.ev == .reductionComplete 2 0)) = true ∧
    lostMember { rig false with lost := [3], domtab := cset [] (64 * 2 + 1) (BitVec.ofNat 64 (3 * 2 ^ 61 + 2 ^ 32)) } (.domain 2) = true ∧
    lostMember { rig false with lost := [3] } (.domain 2) = false ∧
    (let s := nxt (.episodeDecision 2) { redAt with agenda := [] }
     let s := { s with episodes := s.episodes.flatMap fun e => [(1, { e.2 with id := 1 }), e] }
     (s.episodes.all fun e => earlierOwed s e.2 0 == (e.1 == 2)) && ((nxt (.reductionComplete 2 0) s).agenda.any fun e => e.due == s.now + 1)) =
      true := by decide

/-- TranslationInstructions: the lightship is told; an invalidation that still waits. StorageSteps: a Read into a full queue waits behind
the others; the ends of an evict; a Flush makes what is written durable; the drives' administration. -/
theorem witness_storage_ends :
    (let s := later 300 (nxt (.lightshipInval .all) (rig false))
     ((nxt (.tlbinvComplete .lightship .all) s).reports == [[0]]) &&
     (nxt (.tlbinvComplete .lightship .all) (nxt (.lightshipInval .all) (rig false)) == nxt (.lightshipInval .all) (rig false))) = true ∧
    (let full : State := { inStorage .reading 0 with drives := [(0, ⟨true, true, 63, [], []⟩)] }
     (driveOf (nxt (.storageReadSend 0x30020) full) 0 == ⟨true, true, 63, [.read 0x30020], []⟩) &&
     (driveOf (nxt (.storageReadSend 0x30020) { full with drives := [(0, ⟨true, true, 62, [], []⟩)] }) 0 == ⟨true, true, 63, [], []⟩)) = true ∧
    (let s : State := { inStorage .resident 0x800 with evicts := [⟨0x10000, 0, 0x40000, [0x30020]⟩] }
     (nxt .sweepStep s).reports == [[0]] && (nxt .sweepStep s).evicts.isEmpty) = true ∧
    (nxt (.writebackFail 0x30020) { inStorage .writeback 0x800 with evicts := [⟨0x10000, 0, 0x40000, [0x30020]⟩] }).reports = [[1]] ∧
    (nxt (.storageEvict 0x10000 0 0x30000) (inStorage .resident 0x800)).evicts.map Evict.left = [[0x30020]] ∧
    (nxt (.storageEvict 0x10000 0x30000 0x40000) (inStorage .resident 0x800)).reports = [[0]] ∧
    (let s : State := { rig false with disk := [(5, 7)], drives := [(0, ⟨true, true, 0, [], []⟩)], flushAsks := 1 }
     (flushAnswers s).isEmpty && (driveOf (nxt .nvmeFlush s) 0).out == 1 && (nxt .nvmeFlush s).durable.isEmpty &&
     (nxt .nvmeFlush s).agenda.length == 1 && (nxt .nvmeFlush { rig false with flushAsks := 0 } == rig false)) = true ∧
    (let done (good : Bool) (due : Nat) : State :=
       { rig false with disk := [(5, 7)], drives := [(0, ⟨true, true, 1, [], [⟨due, good, [(5, 7)]⟩]⟩)] }
     (flushAnswers (done true 0)).length == 1 && (flushAnswers (done true 1)).isEmpty && (nxt .nvmeFlush (done true 0)).durable == [(5, 7)] &&
     (driveOf (nxt .nvmeFlush (done true 0)) 0).out == 0 && (nxt .nvmeFlush (done false 0)).durable.isEmpty &&
     (nxt .nvmeFlush (done false 0)).spErr == 1) = true ∧
    driveOk (nxt (.nvmeAdmin (.createQueues 0)) (nxt (.nvmeAdmin (.init 0 true)) (rig false))) 0 = true ∧
    driveOk (nxt (.nvmeAdmin (.deleteQueues 0)) (nxt (.nvmeAdmin (.createQueues 0)) (nxt (.nvmeAdmin (.init 0 true)) (rig false)))) 0 = false := by
  decide

/-- StorageSteps: a block whose reference tag is another's fails its check, whatever the guard (R357). -/
theorem witness_protection (disk : CMap 8) : (5 : BitVec 48) ≠ blockPi disk 0 := by
  intro h
  have h := congrArg BitVec.toNat h
  simp only [blockPi, BitVec.toNat_append, Nat.shiftLeft_eq, BitVec.toNat_ofNat] at h
  rw [show (0 : Nat) % 2 ^ 32 = 0 from rfl, Nat.or_zero, show BitVec.toNat (5 : BitVec 48) = 5 from rfl] at h
  omega

/-- GangsStartAndEnd: MACHINE in INTERRUPT before PREEMPT comes, and in a phase without strands at boundaries; the completion signal gives
way to a port before its own (R134). -/
theorem witness_machine_phases :
    ((nxt (.machine 0 2 0 1 0x40) (phased .interrupt .run)).strand? 0).map (fun st => (st.sup, st.pc, st.tcause)) = some (true, 0xFC000, 0x20E) ∧
    ((nxt (.machine 0 2 0 1 0x40) (phased .dma .saving)).records.map fun r => r.fault.head?) = [some 0x0E] ∧
    (let s : State := { controlled 0 [] with agenda := [⟨0, 2, .timelineOperation (.sig 3 1 0 1 tcap 9)⟩] }
     tlYields s (.doneSignal 5 tcap 5) == decide (inPort (s.quadOf 0) (tlHub 3) < inPort hub0 (tlHub 3)) && !tlYields (controlled 0 []) (.doneSignal 5 tcap 5)) =
      true := by decide

/-- PreemptionSaves: the start; PREEMPT at a strand that could issue lets it once; OfferAndBufferSteps: an offer that arrives before the
suspend that is on its way; ResumeRestores: a strand parked before the save returns from its trap, one at a port sleeps on. -/
theorem witness_preempt_ends :
    ((startPreempt (rig false) 0).gang? 0).map (fun g => (g.phase, g.suspAt, g.acks.length)) = some (.interrupt, some 0, 4) ∧
    (let s := (phased .interrupt .run).modStrand 0 fun st => { st with wake := 0 }
     ((nxt (.preempt 0) s).strand? 0).map (fun st => (st.act, st.resume)) == some (.run, .saving)) = true ∧
    (let s := (nxt (.put gd 1 2 (.s 3)) (withS connected 2 (pref 0))).modGang 0 fun g => { g with suspAt := some 0 }
     suspendAt s 0 0 == some 2 && ((mget? (nxt (.offerArrival 0) s).offers 0).map Offer.live == some true) &&
     ((mget? (nxt (.offerArrival 0) (later 2 s)).offers 0).map fun o => (o.live, o.susp)) == some (false, true)) = true ∧
    (let s := (phased .restoring .saving).modStrand 0 fun st => { st with sup := true, resume := .parked, tpc := 0x44, tstat := 0x100 }
     ((nxt (.restoreRoutineEnd 0) s).strand? 0).map (fun st => (st.act, st.pc, st.sup)) == some (.run, 0x44, false)) = true ∧
    (let s := nxt (.put gd 1 2 (.s 3)) (withS connected 2 (pref 0))
     let s := (s.modGang 0 fun g => { g with phase := .restoring }).modStrand 0 fun st =>
       { st with act := .saving, sup := true, resume := .asleep (.port 0) 8, tstat := 0x40 * 2 ^ 44 + 0x100 }
     ((nxt (.restoreRoutineEnd 0) s).strand? 0).map (fun st => (st.act, st.pc, st.sup)) == some (.asleep (.port 0) 8, 0x40, false)) = true := by
  decide

/-- ControllerSteps: a push serves the strand that sleeps there; a JOIN's push gives 1, 9 when the queue is full and 11 without a permit. -/
theorem witness_queue_service :
    (let s := controlled 0 []
     let s := { s with queues := mset [] 3 ⟨1, 2, [], [], [4]⟩, strands := s.strands ++ [(4, { Strand.init 0 4 0 0 with act := .asleep (.queue 6 7) 8 })] }
     let t := nxt (.taskQueueOperation (.push qcap (Vector.replicate 32 0) false 0 1 9)) s
     (sOfStrand t 0 1 == 0) && (recsOf t == some []) && ((t.strand? 4).map fun st => (st.act, st.pc)) == some (.run, 8) && sOfStrand t 4 6 == 0) =
      true ∧
    (let r := List.replicate 8 (7 : Lane)
     let j (p : Bool) (recs : List (List Lane)) := sOfStrand (nxt (.taskQueueOperation (.joinPush qcap (vmk fun _ => 7) p 0 1 9)) (controlled 0 recs)) 0 1
     (j false [r], j false [r, r], j true []) == (1, 9, 11)) = true ∧
    (let w : RemoteWrite := .join ⟨1, 0, 0x1000⟩ 0 1 qcap false (vmk fun _ => 7) 9
     let p (n : Byte) := nxt (.remoteStorePublish w) { controlled 0 [] with ls := cset [] (lsKey 1 0x1000) n }
     (sOfStrand (p 2) 0 1 == 0) && (cget (p 2).ls (lsKey 1 0x1000) == 1) && (p 1).agenda.any fun e => 11 ≤ e.due) = true := by decide

/-- The rig with a second strand on core 1; both are at a store. -/
def twoCores : State :=
  let s := State.reset.withFetchWord 64 (word 0 0x41 0 0 2 0 3 3 0 0).toNat
  { s with strands := [(0, Strand.init 0 0 0 0), (1, Strand.init 0 1 0 0)] }

/-- LoadsComplete, StoresComplete, AtomicsComplete: alone, a core's turn at the banks has come; in cycle 0 core 1 takes its bank first, and
core 0 lets it go first (R177). -/
theorem witness_bank_turns :
    here (rig false) (fun st g => [Instr.ld gd .d .loc false 1 2 .none, .ldv gd .loc 1 2 .none, .st gd .d .loc false 2 .none 3, .stv gd .loc 2 .none 1,
        .amo gd .add true .loc .plain 1 2 .none 3, .cas gd true .loc .plain 1 2 .none 3 3].all fun i =>
      !bankRival (issued i (rig false)) st g ⟨0, 0, 0x1000⟩) = true ∧
    here twoCores (fun st g => bankRival (issued (.ld gd .d .loc false 1 2 .none) twoCores) st g ⟨0, 0, 0x1000⟩) = true ∧
    here twoCores (fun st g => bankRival (issued (.st gd .d .loc false 2 .none 3) twoCores) st g ⟨0, 0, 0x1000⟩) = true ∧
    (let t := nxt (.st gd .d .loc false 2 .none 3) (withS (withS twoCores 2 0x1000) 3 7)
     ((t.strand? 0).map Strand.pc == some 0) && t.ls == twoCores.ls && ((t.quad 0).cores.toList.map CoreSt.yields).head? == some (0, 1) &&
     (pick t == some 1)) = true := by decide +kernel

/-- WindowsCount: a put of two lines writes one in a cycle, the second in the next, and is done then (R186). -/
theorem witness_put_lines :
    (let m : PutMsg := { putMsg 1 0 with bytes := List.replicate 64 5 }
     let s : State := later 1 { windowed 8 with windows := mset [] 3 ⟨1, 0, 0x120, 64, 8⟩ }
     let t := nxt (.wputRemoteWrite m) s
     let u := nxt (.wputRemoteWrite m) (later 1 t)
     putTurn s m && (putDone t m == 32) && (cgetN t.hbm 0x4013C 8 == [5, 5, 5, 5, 0, 0, 0, 0]) && !putTurn t m &&
     (nxt (.wputRemoteWrite m) t).hbm == t.hbm && t.agenda.any (fun e => e.due == t.now + 1 && e.ev == .wputRemoteWrite m) &&
     ((mget? t.windows 3).map Window.count == some 8) && (cgetN u.hbm 0x4013C 8 == List.replicate 8 5) &&
     ((mget? u.windows 3).map Window.count == some 9)) = true := by decide

/-- ReductionSteps: a member of another device that has ended before it contributed (R324). GangsStartAndEnd: the end of a gang that is saved
leaves the quads as they are; no gang of another slot. TagsArmingFences: stores that another's release passed hold XFENCE back. -/
theorem witness_ends_elsewhere :
    (let s := { redAt with agenda := [], episodes := redAt.episodes.map fun e => (e.1, { e.2 with goneAt := some 0 }) }
     let t := nxt (.episodeDecision 2) s
     (t.episodes.map fun e => (e.2.decided, e.2.status)) == [(true, 1)] && t.aborted.contains (.gang 0, 0)) = true ∧
    (let s := (emptied.modGang 0 fun g => { g with phase := .saved, image := [Quad.init] }).modGrid 0 fun x =>
       { x with launch := { x.launch with count := 2 } }
     let t := nxt (.gangEnd 0) s
     (s.gang? 0).any (fun g => gangDone s g && !g.onQuads) && t.gangs.isEmpty && t.quads == s.quads && t.ls == s.ls) = true ∧
    slotGangs (rig false) 0 = [] ∧
    (let s : State := { pair with now := 9, strands := [(0, { Strand.init 0 0 0 0 with acqAt := 5 }), (4, { Strand.init 0 4 0 0 with relQ := [(3, 20)] })] }
     awaitsStores s (Strand.init 0 0 0 0) == false && awaitsStores s { Strand.init 0 0 0 0 with acqAt := 5 } &&
     ((nxt (.xfence gd .core .copy) s).strand? 0).map (fun st => (st.pc, st.wake)) == some (0, 10)) = true := by decide

/-- PreemptionSaves: the status of a SEND.c whose arrival waits for a saved image is owed to nobody (R344). StepRunsDecodedInstruction: the
lightship's CFGWR of a cycle runs before the host's (R385). -/
theorem witness_held_status :
    (let m : SendMsg := { cap := cap 4 5, val := .scalar 7, sender := 0, status := some 6, report := false, back := 9, release := false }
     let s : State := { pair with agenda := [⟨1, 0, .sendArrival m⟩] }
     !statusHeld s 0 (.s 6) && statusHeld (s.modGang 0 fun g => { g with phase := .interrupt }) 0 (.s 6) &&
     !statusHeld (s.modGang 0 fun g => { g with phase := .interrupt }) 0 (.s 5)) = true ∧
    lightshipBefore (.cfgwr (cmd 5 0 0)) (.lightshipCfgwr 0 0) = true ∧ lightshipBefore (.lightshipCfgwr 0 0) (.cfgwr (cmd 5 0 0)) = false := by decide

end Sys2Proof.Tests
end

/-! What an instruction finds and leaves: the strand an issued instruction runs in, what a scalar result to come leaves of a strand, and
the memories that issue, result and advance keep. -/

namespace Sys2Proof.Machine

/-! ### The current strand after an update -/

theorem strand?_setStrand_same (s : State) (k : Nat) (x : Strand) : (s.setStrand k x).strand? k = some x :=
  mget?_mset_same ..

@[simp] theorem strand?_modQuad (s : State) (q : Nat) (f : Quad → Quad) (k : Nat) : (s.modQuad q f).strand? k = s.strand? k := rfl

@[simp] theorem strand?_modGrid (s : State) (n : Nat) (f : Grid → Grid) (k : Nat) : (s.modGrid n f).strand? k = s.strand? k := by
  simp [State.strand?]

theorem strand?_modCur {s : State} {x : Strand} (f : Strand → Strand) (h : s.strand? s.cur = some x) :
    (s.modCur f).strand? s.cur = some (f x) := by
  simp [State.modCur, State.modStrand, h, strand?_setStrand_same]

/-! ### Reading the sources (R193) -/

theorem consume_registers (st : Strand) (u : Use) :
    (consume st u).sregs = st.sregs ∧ (consume st u).pend = st.pend ∧ (consume st u).vstat = st.vstat := by
  unfold consume readFull
  split
  · exact ⟨rfl, rfl, rfl⟩
  · split <;> (try split) <;> exact ⟨rfl, rfl, rfl⟩

theorem orderMem_registers (i : Instr) (now : Nat) (st : Strand) :
    (orderMem i now st).sregs = st.sregs ∧ (orderMem i now st).pend = st.pend ∧ (orderMem i now st).vstat = st.vstat := by
  unfold orderMem settlePhase
  split <;> split <;> exact ⟨rfl, rfl, rfl⟩

theorem foldl_consume_registers (us : List Use) (st : Strand) :
    (us.foldl consume st).sregs = st.sregs ∧ (us.foldl consume st).pend = st.pend ∧ (us.foldl consume st).vstat = st.vstat := by
  induction us generalizing st with
  | nil => exact ⟨rfl, rfl, rfl⟩
  | cons u us ih =>
    obtain ⟨hs, hp, hv⟩ := ih (consume st u)
    obtain ⟨hs', hp', hv'⟩ := consume_registers st u
    exact ⟨hs.trans hs', hp.trans hp', hv.trans hv'⟩

/-- Reading the sources moves the scoreboard, never a scalar register, a result on its way or VSTAT. -/
theorem readSources_registers (i : Instr) (now : Nat) (st : Strand) :
    (readSources i now st).sregs = st.sregs ∧ (readSources i now st).pend = st.pend ∧ (readSources i now st).vstat = st.vstat := by
  unfold readSources
  split
  · obtain ⟨hs, hp, hv⟩ := foldl_consume_registers (Instr.uses i) (orderMem i now st)
    obtain ⟨hs', hp', hv'⟩ := orderMem_registers i now st
    exact ⟨hs.trans hs', hp.trans hp', hv.trans hv'⟩
  · exact foldl_consume_registers ..

/-! ### Results to come -/

/-- What scalar registers hold in the end depends on what they hold now and on the results on their way. -/
theorem finalS_congr {a b : Strand} (hs : a.sregs = b.sregs) (hp : a.pend = b.pend) (r : SReg) : finalS a r = finalS b r := by
  rw [finalS_eq, finalS_eq, hp]
  exact sreg_writeAll_congr _ _ _ _ (by rw [sreg, sreg, hs])

/-- A scalar result that takes more than one cycle is on its way until its cycle (R144). -/
theorem mem_pend_regLater (st : Strand) (now : Nat) {l : Nat} {d : SReg} (w : Word) (hl : 1 < l) (hd : d ≠ 0) :
    (now + l, RegVal.s d w) ∈ (regLater st now l (.s d w)).pend := by
  have hl : ¬ l ≤ 1 := by omega
  simp [regLater, RegVal.ref, RegRef.discards, RegVal.whole, hd, hl]

theorem regWrite_vstat (st : Strand) (x : RegVal) : (regWrite st x).vstat = st.vstat := by
  cases x with
  | v r m y => rfl
  | s r w | p r m y => simp only [regWrite]; split <;> rfl

/-- A result, to whatever register, sets no flag. -/
theorem regLater_vstat (st : Strand) (now l : Nat) (x : RegVal) : (regLater st now l x).vstat = st.vstat := by
  simp only [regLater]
  repeat' split
  all_goals simp only [regWrite_vstat]

/-- A scalar result and the advance behind it change the current strand only by the result and the program counter. -/
theorem strand?_advance_wrS {s : State} {x : Strand} (l n : Nat) (d : SReg) (w : Word) (h : s.strand? s.cur = some x) :
    ∃ y, (advance (s.wrS l d w) n).strand? s.cur = some y ∧ y.pend = (regLater x s.now l (.s d w)).pend ∧ y.vstat = x.vstat ∧
      ∀ r, finalS y r = finalS (regLater x s.now l (.s d w)) r := by
  have hw : (s.wrS l d w).strand? (s.wrS l d w).cur = some (regLater x s.now l (.s d w)) := by
    rw [State.wrS, wr_cur]
    exact strand?_modCur _ h
  have ha := strand?_modCur (fun st => { st with pc := st.pc + BitVec.ofNat 20 n }) hw
  rw [State.wrS, wr_cur] at ha
  exact ⟨_, ha, rfl, regLater_vstat .., finalS_congr rfl rfl⟩

/-! ### The state in which an instruction has its effect -/

theorem issued_eq {s : State} {st : Strand} {g : Gang} (i : Instr) (hc : current s = some (st, g)) :
    issued i s = markIssue ((s.setStrand s.cur st).setStrand s.cur (readSources i s.now st)) g st.sidx := by
  rw [issued, hc]

@[simp] theorem markIssue_now (s : State) (g : Gang) (k : Nat) : (markIssue s g k).now = s.now := by simp [markIssue]

@[simp] theorem markIssue_cur (s : State) (g : Gang) (k : Nat) : (markIssue s g k).cur = s.cur := by simp [markIssue]

theorem strand?_markIssue {s : State} {x : Strand} (g : Gang) (k : Nat) (h : s.strand? s.cur = some x) :
    (markIssue s g k).strand? s.cur = some { x with issued := s.now, wake := s.now + 1 } := by
  simp [markIssue, State.modCur, State.modStrand, h, strand?_setStrand_same]

theorem issued_now (i : Instr) (s : State) : (issued i s).now = s.now := by
  unfold issued
  split <;> simp

theorem issued_cur (i : Instr) (s : State) : (issued i s).cur = s.cur := by
  unfold issued
  split <;> simp

/-- The strand that an issued instruction finds has its flags, and in the end its scalar registers, as before. -/
theorem issued_strand? {s : State} {st : Strand} {g : Gang} (i : Instr) (hc : current s = some (st, g)) :
    ∃ x, (issued i s).strand? s.cur = some x ∧ x.vstat = st.vstat ∧ ∀ r, finalS x r = finalS st r := by
  obtain ⟨hs, hp, hv⟩ := readSources_registers i s.now st
  refine ⟨{ readSources i s.now st with issued := s.now, wake := s.now + 1 }, ?_, hv, finalS_congr hs hp⟩
  rw [issued_eq i hc]
  exact strand?_markIssue g st.sidx (strand?_setStrand_same ..)

theorem sameMemories_issued (i : Instr) (s : State) : sameMemories s (issued i s) := by
  unfold issued
  split <;> simp [sameMemories, markIssue]

theorem sameMemories_advance_wrS (s : State) (l n : Nat) (d : SReg) (w : Word) : sameMemories s (advance (s.wrS l d w) n) := by
  simp [sameMemories, State.wrS]

theorem sameMemories_trans {s t u : State} (h : sameMemories s t) (k : sameMemories t u) : sameMemories s u := by
  obtain ⟨h1, h2, h3, h4, h5, h6, h7, h8⟩ := h
  obtain ⟨k1, k2, k3, k4, k5, k6, k7, k8⟩ := k
  exact ⟨k1.trans h1, k2.trans h2, k3.trans h3, k4.trans h4, k5.trans h5, k6.trans h6, k7.trans h7, k8.trans h8⟩

end Sys2Proof.Machine

/-! DIV and REM (R144, R146). -/

namespace Sys2Proof.Machine

/-! ### The results -/

/-- The signed overflow needs no case of its own: its quotient wraps to the dividend. -/
theorem divRule_div (st : Strand) (g : Guard) (u : Bool) (d a : SReg) (b : Src) :
    divRule st (.div g u d a b) = some (d, divide u (sreg st a) (srcVal st b)) := by
  have hwrap : BitVec.ofInt 64 (-2 ^ 63) = BitVec.ofInt 64 ((-2 ^ 63 : Int).tdiv (-1)) := by decide
  by_cases hb : srcVal st b = 0
  · have hones : (-1 : Word) = BitVec.allOnes 64 ∧ BitVec.ofNat 64 (2 ^ 64 - 1) = BitVec.allOnes 64 := by decide
    cases u <;> simp only [divRule, divide, if_pos hb, hones]
  cases u with
  | false =>
    simp only [divRule, divide, if_neg hb, Bool.false_eq_true, if_false]
    split
    · next ho =>
      obtain ⟨ha, hm⟩ := ho
      rw [ha, hm, hwrap]
    · rfl
  | true => simp only [divRule, divide, if_neg hb, if_true, ← BitVec.toNat_udiv, BitVec.ofNat_toNat, BitVec.setWidth_eq]

/-- The signed remainder is what the truncated quotient leaves; it is 0 in the overflow's case too. -/
theorem divRule_rem (st : Strand) (g : Guard) (u : Bool) (d a : SReg) (b : Src) :
    divRule st (.rem g u d a b) = some (d, remainder u (sreg st a) (srcVal st b)) := by
  have hzero : (0 : Word) = BitVec.ofInt 64 ((-2 ^ 63 : Int).tmod (-1)) := by decide
  by_cases hb : srcVal st b = 0
  · cases u <;> simp only [divRule, remainder, if_pos hb]
  cases u with
  | false =>
    simp only [divRule, remainder, if_neg hb, Bool.false_eq_true, if_false]
    split
    · next ho =>
      obtain ⟨ha, hm⟩ := ho
      rw [ha, hm, hzero]
    · rw [Int.tmod_def]
  | true => simp only [divRule, remainder, if_neg hb, if_true, ← BitVec.toNat_umod, BitVec.ofNat_toNat, BitVec.setWidth_eq]

/-! ### The divider (R144) -/

/-- The cycle from which the divider of a strand's core is free. -/
def dividerFreeAt (s : State) (g : Gang) (sidx : Nat) : Nat :=
  if h : (g.place sidx).2.1 < 4 then ((s.quad (g.place sidx).1).cores[(g.place sidx).2.1]).divFree else 0

/-- The divider of a strand's core is busy for 18 cycles. -/
def occupyDivider (s : State) (g : Gang) (sidx : Nat) : State :=
  s.modQuad (g.place sidx).1 fun x =>
    { x with cores := modCore x.cores (g.place sidx).2.1 fun y => { y with divFree := s.now + 18 } }

/-- Issue and the divider keep the cycle, the current strand as issue left it, and the memories. -/
theorem occupyDivider_issued (i : Instr) (s : State) (g : Gang) (k : Nat) :
    (occupyDivider (issued i s) g k).cur = s.cur ∧ (occupyDivider (issued i s) g k).now = s.now ∧
    (occupyDivider (issued i s) g k).strand? s.cur = (issued i s).strand? s.cur ∧
    sameMemories s (occupyDivider (issued i s) g k) :=
  ⟨issued_cur i s, issued_now i s, rfl, sameMemories_issued i s⟩

theorem dividerFree_iff {s : State} {st : Strand} {g : Gang} (hc : current s = some (st, g)) :
    dividerFree s = true ↔ dividerFreeAt s g st.sidx ≤ s.now := by
  simp [dividerFree, hc, dividerFreeAt]

/-- Issue leaves the divider alone. -/
theorem dividerFreeAt_issued {s : State} {st : Strand} {g : Gang} (i : Instr) (hc : current s = some (st, g)) :
    dividerFreeAt (issued i s) g st.sidx = dividerFreeAt s g st.sidx := by
  rw [issued_eq i hc]
  unfold dividerFreeAt
  split
  · next h => simp [markIssue, State.quad, State.modQuad, mget?_mset_same, modCore, h]
  · rfl

/-- A ready instruction of the divider, which is free, occupies it and has its result after 18 cycles. -/
theorem divOp_next {i : Instr} {s : State} {st : Strand} {g : Gang} (d a : SReg) (b : Src) (f : Word → Word → Word)
    (hc : current s = some (st, g)) (hr : ready i s = true) (hf : dividerFree s = true) :
    divOp i (Instr.grd i) d a b f s =
      .next (advance ((occupyDivider (issued i s) g st.sidx).wrS 18 d (f (sreg st a) (srcVal st b))) i.len) := by
  have hfree : ¬ (issued i s).now < dividerFreeAt (issued i s) g st.sidx := by
    rw [dividerFreeAt_issued i hc, issued_now]
    exact Nat.not_lt.mpr ((dividerFree_iff hc).mp hf)
  rw [divOp, issue_ready _ hc hr]
  exact congrArg (finish _ _ _ _) (if_neg hfree)

/-- An instruction to which R146 gives a result gives that result through the divider. -/
theorem exec_eq_divOp {i : Instr} {s : State} {st : Strand} {d : SReg} {w : Word} (h : divRule st i = some (d, w)) :
    ∃ a b f, exec i s = divOp i (Instr.grd i) d a b f s ∧ w = f (sreg st a) (srcVal st b) := by
  cases i with
  | div g u d' a b =>
    rw [divRule_div] at h
    cases h
    exact ⟨a, b, divide u, rfl, rfl⟩
  | rem g u d' a b =>
    rw [divRule_rem] at h
    cases h
    exact ⟨a, b, remainder u, rfl, rfl⟩
  | _ => exact absurd h nofun

/-- Settles O13: R146 gives the result, R144 the divider and its latency; what issue and a result to come leave of a
strand gives the rest. -/
theorem divisionResults : Obligations.DivisionResults := by
  unfold Obligations.DivisionResults
  intro i s st g d w hc hr hf hw
  obtain ⟨a, b, f, he, hfw⟩ := exec_eq_divOp (s := s) hw
  rw [divOp_next d a b f hc hr hf, ← hfw] at he
  obtain ⟨x, hx, hv, hfin⟩ := issued_strand? i hc
  obtain ⟨hcur, hnow, hstrand, hmem⟩ := occupyDivider_issued i s g st.sidx
  generalize occupyDivider (issued i s) g st.sidx = t at he hcur hnow hstrand hmem
  obtain ⟨y, hy, hp, hvy, hfy⟩ := strand?_advance_wrS 18 i.len d w (show t.strand? t.cur = some x by rw [hcur, hstrand, hx])
  rw [hnow] at hp hfy
  refine ⟨_, y, he, hcur ▸ hy, ?_, ?_, ?_, sameMemories_trans hmem (sameMemories_advance_wrS ..), hvy.trans hv⟩
  · rw [hfy, finalS_regLater_same]
  · rw [hp]
    exact mem_pend_regLater x s.now w (by decide)
  · intro r hrd
    have href : (RegVal.s d w).ref ≠ .s r := by simpa [RegVal.ref] using Ne.symm hrd
    rw [hfy, finalS_regLater_other _ _ _ _ _ href, hfin]

end Sys2Proof.Machine

/-! RTE (R77, R168, R329, R332, R334): its target, its trap at a bad one, and the strand and state it returns to. -/

namespace Sys2Proof.Machine

/-! ### Fields of a register -/

/-- A field written is the value's low bits there, and every other bit of the register as it was. -/
theorem getLsbD_setField (w : Word) (hi lo v j : Nat) :
    (setField w hi lo v).getLsbD j = if lo ≤ j ∧ j ≤ hi then decide (j < 64) && v.testBit (j - lo) else w.getLsbD j := by
  simp only [setField, BitVec.getLsbD_or, BitVec.getLsbD_and, BitVec.getLsbD_not, BitVec.getLsbD_ofNat, Nat.testBit_mul_two_pow,
    Nat.testBit_two_pow_sub_one]
  by_cases h64 : j < 64
  · by_cases hlo : lo ≤ j
    · have hhi : j - lo < hi + 1 - lo ↔ j ≤ hi := by omega
      by_cases hj : j ≤ hi <;> simp [h64, hlo, hhi, hj]
    · simp [h64, hlo]
  · simp [h64, BitVec.getLsbD_of_ge w j (Nat.le_of_not_lt h64)]

theorem getLsbD_setField_other (w : Word) {hi lo j : Nat} (v : Nat) (h : j < lo ∨ hi < j) :
    (setField w hi lo v).getLsbD j = w.getLsbD j := by
  rw [getLsbD_setField, if_neg (by omega)]

/-- A bit cleared, as a field of its own. -/
theorem getLsbD_setField_bit_zero (w : Word) (b : Nat) : (setField w b b 0).getLsbD b = false := by
  simp [getLsbD_setField, -BitVec.getLsbD_eq_getElem]

/-! ### Results due, delivered once (R144) -/

/-- Results that are delivered are not delivered again. -/
theorem settle_settle (st : Strand) (now : Nat) : settle (settle st now) now = settle st now := by
  have hdue : (settle st now).pend.filter (fun p => p.1 ≤ now) = [] := by
    simp [settle, List.filter_filter]
  have hpend : (settle st now).pend.filter (fun p => now < p.1) = (settle st now).pend := by
    simp [settle, List.filter_filter]
  have hawait : (settle st now).await.filter (fun _ => true) = (settle st now).await := List.filter_eq_self.mpr fun _ _ => rfl
  rw [settle.eq_1 (settle st now), hdue, hpend]
  simp only [List.foldl_nil, List.any_nil, Bool.not_false, hawait]

/-- What a strand is owed does not change when the results due are delivered (R329). -/
theorem owesResults_settled {s : State} {st : Strand} {g : Gang} (hc : current s = some (st, g)) :
    owesResults (s.setStrand s.cur st) s.cur = owesResults s s.cur := by
  unfold current at hc
  split at hc
  · next st0 g0 h0 _ =>
    obtain ⟨rfl, rfl⟩ := Prod.mk.inj (Option.some.inj hc)
    simp only [owesResults, strand?_setStrand_same, h0, setStrand_now, settle_settle]
    rfl
  · exact absurd hc nofun

/-- A ready instruction whose body answers a trap takes it, once every earlier result is there (R329). -/
theorem traps_of_body {i : Instr} {s : State} {st : Strand} {gang : Gang} {body : Strand → Gang → Lane → State → Res} {c sub : Nat}
    {v : Word} (he : exec i s = issue i (Instr.grd i) body s) (hc : current s = some (st, gang)) (hr : ready i s = true)
    (hb : body st gang (maskOf i st) (issued i s) = .trap c sub v) : traps i s st c sub v := by
  have howes := owesResults_settled hc
  have hserved : (served s).cur = s.cur := by simp [served, hc]
  unfold traps
  rw [he, issue_ready_trap hc hr hb]
  constructor
  · intro h
    rw [preciseTrap_now (howes.trans h), hserved]
  · intro h
    simp [preciseTrap, howes, h]

/-! ### Updates of the current strand alone -/

/-- From one state to another the current strand has become the one given; no other strand and no memory has changed, and the cycle
and the choice of the current strand are as before. -/
structure ChangesCurrent (s t : State) (x : Strand) : Prop where
  cur : t.cur = s.cur
  now : t.now = s.now
  strand : t.strand? s.cur = some x
  others : otherStrands s t
  memories : sameMemories s t

theorem strand?_setStrand_other (s : State) {k j : Nat} (x : Strand) (h : j ≠ k) : (s.setStrand k x).strand? j = s.strand? j :=
  mget?_mset_other _ _ h

theorem strand?_modCur_other (s : State) (f : Strand → Strand) {k : Nat} (hk : k ≠ s.cur) : (s.modCur f).strand? k = s.strand? k := by
  unfold State.modCur State.modStrand
  split
  · exact strand?_setStrand_other s _ hk
  · rfl

/-- Issue changes the current strand alone: its sources are read, and the core served it in this cycle (R129, R193). -/
theorem issued_changesCurrent {s : State} {st : Strand} {g : Gang} (i : Instr) (hc : current s = some (st, g)) :
    ChangesCurrent s (issued i s) { readSources i s.now st with issued := s.now, wake := s.now + 1 } where
  cur := issued_cur i s
  now := issued_now i s
  strand := by
    rw [issued_eq i hc]
    exact strand?_markIssue g st.sidx (strand?_setStrand_same ..)
  others := by
    intro k hk
    rw [issued_eq i hc, markIssue, strand?_modCur_other _ _ (by simpa using hk), strand?_modGrid, strand?_modQuad,
      strand?_setStrand_other _ _ (by simpa using hk), strand?_setStrand_other _ _ hk]
  memories := sameMemories_issued i s

@[simp] theorem freshCode_cur (s : State) (k : Nat) : (freshCode s k).cur = s.cur := rfl

namespace ChangesCurrent
variable {s t u : State} {x : Strand}

/-- What leaves the memories, the strands and the cycle alone keeps the fact. -/
theorem keep (h : ChangesCurrent s t x) (hcur : u.cur = t.cur) (hnow : u.now = t.now) (hstrand : ∀ k, u.strand? k = t.strand? k)
    (hmem : sameMemories t u) : ChangesCurrent s u x where
  cur := hcur.trans h.cur
  now := hnow.trans h.now
  strand := (hstrand _).trans h.strand
  others k hk := (hstrand k).trans (h.others k hk)
  memories := sameMemories_trans h.memories hmem

theorem modCur (f : Strand → Strand) (h : ChangesCurrent s t x) : ChangesCurrent s (t.modCur f) (f x) where
  cur := (modCur_cur t f).trans h.cur
  now := (modCur_now t f).trans h.now
  strand := by
    have hx : t.strand? t.cur = some x := h.cur ▸ h.strand
    exact h.cur ▸ strand?_modCur f hx
  others k hk := (strand?_modCur_other t f (h.cur ▸ hk)).trans (h.others k hk)
  memories := sameMemories_trans h.memories (by simp [sameMemories])

/-- The code that a core takes over is no strand's and no memory's (R32). -/
theorem freshCode (k : Nat) (h : ChangesCurrent s t x) : ChangesCurrent s (freshCode t k) x :=
  h.keep rfl rfl (fun _ => rfl) ⟨rfl, rfl, rfl, rfl, rfl, rfl, rfl, rfl⟩

theorem post (due prio : Nat) (ev : Instr) (h : ChangesCurrent s t x) : ChangesCurrent s (t.post due prio ev) x :=
  h.keep rfl rfl (fun _ => rfl) ⟨rfl, rfl, rfl, rfl, rfl, rfl, rfl, rfl⟩

/-- A pending OVERWRITE waits for its own step (R195, R337). -/
theorem postOverwrite (k : Nat) (h : ChangesCurrent s t x) : ChangesCurrent s (postOverwrite t k) x := by
  unfold Machine.postOverwrite
  split
  · split
    · exact h.post ..
    · exact h
  · exact h

end ChangesCurrent

/-! ### RTE -/

/-- Where RTE goes: to IPC in supervisor mode with K = 1, else to TPC (R168, R334). -/
def rteTarget (st : Strand) : Word := if st.sup && st.k then (st.tstat.extractLsb' 44 20).setWidth 64 else st.tpc

/-- What RTE with a good target makes of the state of its issue. -/
def rteEffect (st : Strand) (s : State) : Res :=
  let s := freshCode s s.cur
  if !st.sup then
    .jump (rteTarget st) (postOverwrite (s.modCur fun x => { x with tcause := setField x.tcause 16 16 0 }) s.cur)
  else if st.k then .hold (postOverwrite (s.modCur fun x => saveReturn x (s.now + 3)) s.cur)
  else .hold (postOverwrite (s.modCur fun x => supReturn x (rteTarget st) (s.now + 3)) s.cur)

/-- What RTE answers: its effect, or the trap of its target. -/
def rteBody (st : Strand) (s : State) : Res :=
  match badTarget (rteTarget st) with
  | some c => .trap c 0 (rteTarget st)
  | none => rteEffect st s

theorem exec_rte (g : Guard) (s : State) : exec (.rte g) s = issue (.rte g) g (fun st _ _ s => rteBody st s) s := rfl

/-- A target that is a multiple of 4 below 2^20 passes the checks of R77. -/
theorem badTarget_eq_none {t : Word} (ha : t.toNat % 4 = 0) (hp : t.toNat < 2 ^ 20) : badTarget t = none := by
  rw [badTarget, if_neg (fun hne => hne ha), if_neg (Nat.not_le.mpr hp)]

theorem badTarget_align {t : Word} (ha : t.toNat % 4 ≠ 0) : badTarget t = some 0x04 := if_pos ha

theorem badTarget_protect {t : Word} (ha : t.toNat % 4 = 0) (hp : 2 ^ 20 ≤ t.toNat) : badTarget t = some 0x05 := by
  rw [badTarget, if_neg (fun hne => hne ha), if_pos hp]
  rfl

/-- IPC, the top field of TSTAT, as a number (R333). -/
theorem extractLsb'_ipc (w : Word) : w.extractLsb' 44 20 = BitVec.ofNat 20 (w.toNat / 2 ^ 44) := by
  rw [BitVec.extractLsb', Nat.shiftRight_eq_div_pow]

/-- IPC as a target. -/
theorem ipc_toWord (w : Word) : (w.extractLsb' 44 20).setWidth 64 = BitVec.ofNat 64 (w.toNat / 2 ^ 44) := by
  apply BitVec.eq_of_toNat_eq
  rw [extractLsb'_ipc, BitVec.toNat_setWidth, BitVec.toNat_ofNat, BitVec.toNat_ofNat]
  omega

theorem rteTarget_eq (st : Strand) :
    rteTarget st = if st.sup && st.tstat.getLsbD 8 then BitVec.ofNat 64 (st.tstat.toNat / 2 ^ 44) else st.tpc := by
  rw [rteTarget, ipc_toWord, Strand.k]

/-- The strand in which RTE has its effect: RTE has no sources to read. -/
theorem issued_rte_changesCurrent {s : State} {st : Strand} {gang : Gang} (g : Guard) (hc : current s = some (st, gang)) :
    ChangesCurrent s (issued (.rte g) s) { st with issued := s.now, wake := s.now + 1 } :=
  issued_changesCurrent (.rte g) hc

section
variable {g : Guard} {s : State} {st : Strand} {gang : Gang} (hc : current s = some (st, gang)) (hr : ready (.rte g) s = true)
include hc hr

/-- RTE to a bad target traps with the target as TVAL (R77). -/
theorem rte_traps {c : Nat} (hbad : badTarget (rteTarget st) = some c) : traps (.rte g) s st c 0 (rteTarget st) :=
  traps_of_body (exec_rte g s) hc hr (by simp only [rteBody, hbad])

/-- RTE to a good target answers what its effect makes of the issued state. -/
theorem exec_rte_of_good_target (hgood : badTarget (rteTarget st) = none) :
    exec (.rte g) s = finish (s.setStrand s.cur st) (served s) st.pc 8 (rteEffect st (issued (.rte g) s)) := by
  refine (exec_rte g s).trans ((issue_ready _ hc hr).trans ?_)
  simp only [rteBody, hgood]
  rfl

/-- In user mode RTE goes to its target and clears IH (R332). -/
theorem rte_user (hgood : badTarget (rteTarget st) = none) (hsup : st.sup = false) :
    ∃ t, exec (.rte g) s = .next t ∧ ChangesCurrent s t { st with
      tcause := setField st.tcause 16 16 0, pc := (rteTarget st).setWidth 20, issued := s.now, wake := s.now + 3 } := by
  have hx := (((issued_rte_changesCurrent g hc).freshCode s.cur).modCur fun x =>
    { x with tcause := setField x.tcause 16 16 0 }).postOverwrite s.cur
  rw [exec_rte_of_good_target hc hr hgood, rteEffect, if_pos (by rw [hsup]; rfl), freshCode_cur, issued_cur]
  refine ⟨_, rfl, ?_⟩
  rw [hx.now]
  exact hx.modCur fun x => { x with pc := (rteTarget st).setWidth 20, wake := s.now + 3 }

/-- In supervisor mode RTE returns behind a PREEMPT with K = 1, and from a trap with K = 0 (R334). -/
theorem rte_supervisor (hgood : badTarget (rteTarget st) = none) (hsup : st.sup = true) :
    ∃ t, exec (.rte g) s = .next t ∧ ChangesCurrent s t
      (if st.k then saveReturn { st with issued := s.now } (s.now + 3)
        else supReturn { st with issued := s.now } (rteTarget st) (s.now + 3)) := by
  have hx := (issued_rte_changesCurrent g hc).freshCode s.cur
  rw [exec_rte_of_good_target hc hr hgood, rteEffect, if_neg (by rw [hsup]; nofun), freshCode_cur, issued_cur, hx.now]
  cases st.k with
  | false => exact ⟨_, rfl, (hx.modCur _).postOverwrite _⟩
  | true => exact ⟨_, rfl, (hx.modCur _).postOverwrite _⟩

end

/-- Settles O26: a bad target traps; each of the three returns changes the current strand alone, whose fields are then read off. -/
theorem returnsFromTrap : Obligations.ReturnsFromTrap := by
  unfold Obligations.ReturnsFromTrap
  intro g s st gang hc hr
  refine ⟨fun hsup ha hp => ?user, ?bad, fun hsup hk ha hp => ?restore, fun hsup hk ha => ?saved⟩
  case bad =>
    simp only [← rteTarget_eq]
    exact ⟨fun ha => rte_traps hc hr (badTarget_align ha), fun ha hp => rte_traps hc hr (badTarget_protect ha hp)⟩
  case user =>
    have htgt : rteTarget st = st.tpc := by simp [rteTarget, hsup]
    obtain ⟨t, he, ht⟩ := rte_user hc hr (htgt ▸ badTarget_eq_none ha hp) hsup
    exact ⟨t, _, he, ht.strand, congrArg (BitVec.setWidth 20) htgt, hsup, getLsbD_setField_bit_zero .., fun j hj =>
      getLsbD_setField_other _ _ (Nat.lt_or_gt_of_ne hj), rfl, rfl, rfl, finalS_congr rfl rfl, ht.others, ht.memories⟩
  case restore =>
    have htgt : rteTarget st = st.tpc := by simp only [rteTarget, Strand.k, hk, Bool.and_false, Bool.false_eq_true, if_false]
    obtain ⟨t, he, ht⟩ := rte_supervisor hc hr (htgt ▸ badTarget_eq_none ha hp) hsup
    rw [Strand.k, hk, if_neg nofun, htgt] at ht
    exact ⟨t, _, he, ht.strand, rfl, rfl, rfl, rfl, rfl, rfl, finalS_congr rfl rfl, ht.others, ht.memories⟩
  case saved =>
    have htoNat : (rteTarget st).toNat = st.tstat.toNat / 2 ^ 44 := by
      rw [rteTarget_eq, hsup, hk, Bool.and_true, if_pos rfl, BitVec.toNat_ofNat]
      omega
    obtain ⟨t, he, ht⟩ := rte_supervisor hc hr (badTarget_eq_none (by omega) (by omega)) hsup
    rw [Strand.k, hk, if_pos rfl] at ht
    exact ⟨t, _, he, ht.strand, extractLsb'_ipc _, rfl, getLsbD_setField_bit_zero .., rfl, rfl, rfl, rfl, rfl, rfl,
      finalS_congr rfl rfl, ht.others, ht.memories⟩

end Sys2Proof.Machine
